-- ==== Sys2Proof/Word.lean ====
section
/-! DEFINITION. The engine's one data width. Every access is one byte and every value is unsigned
(spec/00_scope.md R12, spec/20_memory.md R83, R87); counters, times and indices are naturals. -/

namespace Sys2Proof

/-- One byte: what the transport moves and every buffer holds (R12, R87, R88(a)). -/
abbrev Byte := BitVec 8

end Sys2Proof
end

