-- ==== Sys2Proof/Config.lean ====
section
/-! DEFINITION. The implementation parameters of spec/00_scope.md R8, their constraints (R9), and the
values the spec leaves OPEN, as constants without a body. A parameter block is fixed for a machine; it
stands in State so that every statement holds for every block (log entry 1). -/

namespace Sys2Proof

/-- The carrier (R8 TRANSPORT, R160). -/
inductive Transport where
  | uart
  | spi
  deriving DecidableEq, Repr

/-- SPI data-ready detection (R8 READY_METHOD, R169, R170). -/
inductive ReadyMethod where
  | irq
  | poll
  deriving DecidableEq, Repr

/-- The seven framed chip commands of R115: all but ECHO, which is not a frame (R114). -/
inductive FrameCmd where
  | idn
  | protocol
  | sendRecv
  | idle
  | readReg
  | writeReg
  | baudrate
  deriving DecidableEq, Repr

/-- The five deadline kinds of R201. -/
inductive DeadlineKind where
  | ramp
  | osc
  | echo
  | detect
  | noresp
  deriving DecidableEq, Repr

/-- A cascade level, 1 to 3 (R43, R310). -/
inductive Level where
  | l1
  | l2
  | l3
  deriving DecidableEq, Repr

/-- The level's number, as R329 and R60(b) count it. -/
def Level.num : Level → Nat
  | .l1 => 1
  | .l2 => 2
  | .l3 => 3

/-- The level after this one, none after level 3 (R322, R324). -/
def Level.next : Level → Option Level
  | .l1 => some .l2
  | .l2 => some .l3
  | .l3 => none

/-- An accepted range of response payload lengths (R8 RESP_LEN_MIN and RESP_LEN_MAX, R233). -/
structure LenRange where
  min : Nat
  max : Nat
  deriving DecidableEq, Repr

/-- The largest frame payload: fixed by the source, no parameter (R8, R9). -/
def maxPayload : Nat := 254

/-- The implementation parameters of R8, one field a row of its table. -/
structure Params where
  /-- TRANSPORT (OPEN, log entry 2). -/
  transport : Transport
  /-- READY_METHOD, read under SPI only. -/
  readyMethod : ReadyMethod
  /-- T_RAMP, in ticks. -/
  tRamp : Nat
  /-- T_OSC. -/
  tOsc : Nat
  /-- T_ECHO. -/
  tEcho : Nat
  /-- T_DETECT. -/
  tDetect : Nat
  /-- T_NORESP. -/
  tNoresp : Nat
  /-- T_IB, the UART inter-byte timeout. -/
  tIb : Nat
  /-- UART_BAUD (informative: no rule reads it, R471). -/
  uartBaud : Nat
  /-- SPI_CLK in Hz (informative: no rule reads it, R471). -/
  spiClk : Nat
  /-- FRAME_TRAILER_LEN (R111). -/
  frameTrailerLen : Nat
  opcIdn : Byte
  opcProtocol : Byte
  opcSendRecv : Byte
  opcIdle : Byte
  opcReadReg : Byte
  opcWriteReg : Byte
  opcBaudrate : Byte
  opcEcho : Byte
  /-- ST_OK: the success status of every response but SEND_RECV's (R123). -/
  stOk : Byte
  /-- ST_DATA: the success status of SEND_RECV (R123). -/
  stData : Byte
  echoByte : Byte
  echoAttempts : Nat
  pidFieldOff : Byte
  pid15693 : Byte
  pid14443A : Byte
  pid14443B : Byte
  pid18092 : Byte
  fieldOffParam : Byte
  protoLowA : Byte
  protoLowB : Byte
  /-- PROTO_PARAM_15693 (OPEN, log entry 3). -/
  protoParam15693 : Byte
  /-- PROTO_PARAM_18092 (OPEN, log entry 3). -/
  protoParam18092 : Byte
  reqaCode : Byte
  /-- REQA_BITS (the chip's concern, R86: no engine rule reads it). -/
  reqaBits : Nat
  sel1 : Byte
  sel2 : Byte
  sel3 : Byte
  nvbAnticol : Byte
  nvbSelect : Byte
  txfReqa : Byte
  txfAnticol : Byte
  txfSelect : Byte
  rxTrailerLen : Nat
  sakCrcLen : Nat
  sakCascadeMask : Byte
  ctByte : Byte
  checkCt : Bool
  verifyBcc : Bool
  /-- IDLE_PARAMS (OPEN, log entry 3). -/
  idleParams : List Byte
  lenIdn : LenRange
  lenProtocol : LenRange
  lenSendRecv : LenRange
  lenIdle : LenRange
  lenReadReg : LenRange
  lenWriteReg : LenRange
  lenBaudrate : LenRange
  spiCtrlSend : Byte
  /-- SPI_CTRL_RESET: the engine never sends it (R135, R450). -/
  spiCtrlReset : Byte
  spiCtrlRead : Byte
  spiCtrlPoll : Byte
  spiReadyFlag : Byte
  deriving DecidableEq, Repr

/-- IDLE_PARAMS is OPEN (R8, R119): nothing in Lean can evaluate it (log entry 3). -/
opaque Config.idleParams : List Byte

/-- PROTO_PARAM_15693 is OPEN (R8, R122; log entry 3). -/
opaque Config.protoParam15693 : Byte

/-- PROTO_PARAM_18092 is OPEN (R8, R122; log entry 3). -/
opaque Config.protoParam18092 : Byte

/-- The trailer function is OPEN where FRAME_TRAILER_LEN > 0 (R111, U21): byte k of the trailer of a
frame's first 2 + L bytes (log entry 4). -/
opaque Config.frameTrailer : List Byte → Nat → Byte

/-- What the CHIP shifts in once the bytes the state lists for it are used up: a CHIP choice (R10, R165),
by how many such bytes came before (log entry 8). -/
opaque Config.misoFree : Nat → Byte

/-- The default length range of R8: 0 to 254. -/
def LenRange.full : LenRange := { min := 0, max := maxPayload }

/-- The default of every parameter of R8's table. TRANSPORT has none there and is UART here, the
convention of spec/95_test_vectors.md (DESIGN CHOICE, log entry 2). -/
def Params.default : Params where
  transport := .uart
  readyMethod := .irq
  tRamp := 9000
  tOsc := 9000
  tEcho := 10000
  tDetect := 1000000
  tNoresp := 2500000
  tIb := 500
  uartBaud := 57600
  spiClk := 1000000
  frameTrailerLen := 0
  opcIdn := 0x01#8
  opcProtocol := 0x02#8
  opcSendRecv := 0x04#8
  opcIdle := 0x07#8
  opcReadReg := 0x08#8
  opcWriteReg := 0x09#8
  opcBaudrate := 0x0A#8
  opcEcho := 0x55#8
  stOk := 0x00#8
  stData := 0x80#8
  echoByte := 0x55#8
  echoAttempts := 3
  pidFieldOff := 0x00#8
  pid15693 := 0x01#8
  pid14443A := 0x02#8
  pid14443B := 0x03#8
  pid18092 := 0x04#8
  fieldOffParam := 0x00#8
  protoLowA := 0x00#8
  protoLowB := 0x01#8
  protoParam15693 := Config.protoParam15693
  protoParam18092 := Config.protoParam18092
  reqaCode := 0x26#8
  reqaBits := 7
  sel1 := 0x93#8
  sel2 := 0x95#8
  sel3 := 0x97#8
  nvbAnticol := 0x20#8
  nvbSelect := 0x70#8
  txfReqa := 0x07#8
  txfAnticol := 0x08#8
  txfSelect := 0x28#8
  rxTrailerLen := 3
  sakCrcLen := 2
  sakCascadeMask := 0x04#8
  ctByte := 0x88#8
  checkCt := false
  verifyBcc := true
  idleParams := Config.idleParams.take maxPayload
  lenIdn := .full
  lenProtocol := .full
  lenSendRecv := .full
  lenIdle := .full
  lenReadReg := .full
  lenWriteReg := .full
  lenBaudrate := .full
  spiCtrlSend := 0x00#8
  spiCtrlReset := 0x01#8
  spiCtrlRead := 0x02#8
  spiCtrlPoll := 0x03#8
  spiReadyFlag := 0x08#8

/-- The opcode of a framed command (R115). -/
def Params.opcode (p : Params) : FrameCmd → Byte
  | .idn => p.opcIdn
  | .protocol => p.opcProtocol
  | .sendRecv => p.opcSendRecv
  | .idle => p.opcIdle
  | .readReg => p.opcReadReg
  | .writeReg => p.opcWriteReg
  | .baudrate => p.opcBaudrate

/-- RESP_LEN_MIN and RESP_LEN_MAX of a framed command (R8, R233). -/
def Params.respLen (p : Params) : FrameCmd → LenRange
  | .idn => p.lenIdn
  | .protocol => p.lenProtocol
  | .sendRecv => p.lenSendRecv
  | .idle => p.lenIdle
  | .readReg => p.lenReadReg
  | .writeReg => p.lenWriteReg
  | .baudrate => p.lenBaudrate

/-- T(kind) of R201. -/
def Params.ticks (p : Params) : DeadlineKind → Nat
  | .ramp => p.tRamp
  | .osc => p.tOsc
  | .echo => p.tEcho
  | .detect => p.tDetect
  | .noresp => p.tNoresp

/-- SEL(n) of R125 and R316. -/
def Params.sel (p : Params) : Level → Byte
  | .l1 => p.sel1
  | .l2 => p.sel2
  | .l3 => p.sel3

/-- The seven framed commands, in the order of R115. -/
def FrameCmd.all : List FrameCmd :=
  [.idn, .protocol, .sendRecv, .idle, .readReg, .writeReg, .baudrate]

/-- The eight chip opcodes of R115, in its order. -/
def Params.opcodes (p : Params) : List Byte :=
  FrameCmd.all.map p.opcode ++ [p.opcEcho]

/-- The constraints R9 lets a model assume; echo_try's width (R42) bounds ECHO_ATTEMPTS and a frame's
payload (R111) bounds IDLE_PARAMS (log entry 26). -/
def Params.wf (p : Params) : Bool :=
  [p.tRamp, p.tOsc, p.tEcho, p.tDetect, p.tNoresp, p.tIb].all (fun t => 0 < t && t < 2 ^ 31)
    && 1 ≤ p.echoAttempts && p.echoAttempts ≤ 255
    && decide p.opcodes.Nodup
    && decide [p.sel1, p.sel2, p.sel3].Nodup
    && FrameCmd.all.all (fun c => (p.respLen c).min ≤ (p.respLen c).max && (p.respLen c).max ≤ maxPayload)
    && p.idleParams.length ≤ maxPayload

end Sys2Proof
end

