-- ==== Sys2Proof/Syntax.lean ====
section
/-! DEFINITION. The three encoding spaces and the instruction type: one constructor per row of
spec/opcode_table.json (R110). Host rows carry the request's payload (R131), chip rows their parameters
(R116 to R120), SELECT rows the five candidate bytes (R126). -/

namespace Sys2Proof

/-- The encoding spaces of R110. -/
inductive Space where
  | host
  | chip
  | air
  deriving DecidableEq, Repr

/-- One constructor per row of the opcode table, in the table's order. -/
inductive Instr where
  /-- Host request 0x00 (R364). -/
  | radioScan (payload : List Byte)
  /-- Host request 0x01 (R365). -/
  | echoTest (payload : List Byte)
  /-- Host request 0x02 (R366). -/
  | calibration (payload : List Byte)
  /-- Host request 0x03 (R367). -/
  | getChipId (payload : List Byte)
  /-- Host request 0x04 (R368). -/
  | getUid (payload : List Byte)
  /-- Host request 0x05 (R369). -/
  | runAnticol (payload : List Byte)
  /-- Host request 0x06 (R370). -/
  | goIdle (payload : List Byte)
  /-- Host request 0x07 (R371). -/
  | selectProtocol (payload : List Byte)
  /-- Host request 0x08 (R372). -/
  | fieldOff (payload : List Byte)
  /-- Chip command IDN (R236). -/
  | idn
  /-- Chip command PROTOCOL (R237). -/
  | protocol (wirePid param : Byte)
  /-- Chip command SEND_RECV: the air bytes followed by the transmit flags (R238). -/
  | sendRecv (air : List Byte)
  /-- Chip command IDLE; its payload is IDLE_PARAMS (R239). -/
  | idle
  /-- Chip command READ_REG (R240). -/
  | readReg (q : List Byte)
  /-- Chip command WRITE_REG (R241). -/
  | writeReg (q : List Byte)
  /-- Chip command BAUDRATE (R242). -/
  | baudrate (q : List Byte)
  /-- Chip command ECHO, one attempt, not a frame (R243, R114). -/
  | echo
  /-- Air command REQA (R313). -/
  | reqa
  /-- Air command ANTICOL at level 1 (R316). -/
  | anticolL1
  /-- Air command ANTICOL at level 2 (R316). -/
  | anticolL2
  /-- Air command ANTICOL at level 3 (R316). -/
  | anticolL3
  /-- Air command SELECT at level 1 (R320). -/
  | selectL1 (c0 c1 c2 c3 bcc : Byte)
  /-- Air command SELECT at level 2 (R320). -/
  | selectL2 (c0 c1 c2 c3 bcc : Byte)
  /-- Air command SELECT at level 3 (R320). -/
  | selectL3 (c0 c1 c2 c3 bcc : Byte)
  deriving DecidableEq, Repr

/-- The encoding space of an instruction (R110). -/
def Instr.space : Instr → Space
  | .radioScan _ => .host
  | .echoTest _ => .host
  | .calibration _ => .host
  | .getChipId _ => .host
  | .getUid _ => .host
  | .runAnticol _ => .host
  | .goIdle _ => .host
  | .selectProtocol _ => .host
  | .fieldOff _ => .host
  | .idn => .chip
  | .protocol _ _ => .chip
  | .sendRecv _ => .chip
  | .idle => .chip
  | .readReg _ => .chip
  | .writeReg _ => .chip
  | .baudrate _ => .chip
  | .echo => .chip
  | .reqa => .air
  | .anticolL1 => .air
  | .anticolL2 => .air
  | .anticolL3 => .air
  | .selectL1 _ _ _ _ _ => .air
  | .selectL2 _ _ _ _ _ => .air
  | .selectL3 _ _ _ _ _ => .air

end Sys2Proof
end

