-- ==== Sys2Proof/WellFormed.lean ====
section
/-! DEFINITION. Which operands an encoding admits: a host payload of 0 to 254 bytes of ANY length (a wrong
length is a request too, and ends InvalidRequest, R136, R361), a SEND_RECV payload of 1 to 254 bytes (R238),
an opaque parameter of 0 to 254 bytes (R120). -/

namespace Sys2Proof

/-- The check of one instruction. -/
def Instr.wf : Instr → Bool
  | .radioScan p => p.length ≤ maxPayload
  | .echoTest p => p.length ≤ maxPayload
  | .calibration p => p.length ≤ maxPayload
  | .getChipId p => p.length ≤ maxPayload
  | .getUid p => p.length ≤ maxPayload
  | .runAnticol p => p.length ≤ maxPayload
  | .goIdle p => p.length ≤ maxPayload
  | .selectProtocol p => p.length ≤ maxPayload
  | .fieldOff p => p.length ≤ maxPayload
  | .idn => true
  | .protocol _ _ => true
  | .sendRecv b => 1 ≤ b.length && b.length ≤ maxPayload
  | .idle => true
  | .readReg q => q.length ≤ maxPayload
  | .writeReg q => q.length ≤ maxPayload
  | .baudrate q => q.length ≤ maxPayload
  | .echo => true
  | .reqa => true
  | .anticolL1 => true
  | .anticolL2 => true
  | .anticolL3 => true
  | .selectL1 _ _ _ _ _ => true
  | .selectL2 _ _ _ _ _ => true
  | .selectL3 _ _ _ _ _ => true

end Sys2Proof
end

