-- ==== Sys2Proof/Decode.lean ====
section
/-! DEFINITION. The decoder of the three encoding spaces (R110), total on any bytes and rejecting by name,
the encoder, and the function the host's check reads. Every encoding goes through the parameter block (R8): the
table's words are the defaults. A command frame ends with its trailer (R111, R137; log entry 4). -/

namespace Sys2Proof

/-- Why bytes are no instruction of a space. -/
inductive DecodeError where
  /-- The bytes end before the length the instruction announces (R137). -/
  | truncated
  /-- A host selector of 0x09 or above (R132, R136). -/
  | reservedSelector (sel : Byte)
  /-- A length byte of 0xFF (R113, R131). -/
  | illegalLength (len : Byte)
  /-- A first byte that is none of the eight opcodes (R115, R136). -/
  | unknownOpcode (op : Byte)
  /-- A frame whose payload is not one the command has (R116, R117, R118, R119). -/
  | wrongPayload (op : Byte)
  /-- A frame whose trailer bytes are not its trailer function's (R111, log entry 4). -/
  | wrongTrailer (op : Byte)
  /-- Bytes that are none of the seven air commands (R124 to R126). -/
  | unknownAir
  deriving DecidableEq, Repr

/-- The request of a defined selector, with its payload (R132). -/
def hostInstr (sel : Byte) (payload : List Byte) : Option Instr :=
  match sel.toNat with
  | 0 => some (.radioScan payload)
  | 1 => some (.echoTest payload)
  | 2 => some (.calibration payload)
  | 3 => some (.getChipId payload)
  | 4 => some (.getUid payload)
  | 5 => some (.runAnticol payload)
  | 6 => some (.goIdle payload)
  | 7 => some (.selectProtocol payload)
  | 8 => some (.fieldOff payload)
  | _ => none

/-- A length byte and the bytes it counts (R111, R131, R137): the counted bytes and the rest. -/
def takeCounted : List Byte → Except DecodeError (List Byte × List Byte)
  | [] => .error .truncated
  | len :: body =>
    if maxPayload < len.toNat then .error (.illegalLength len)
    else if body.length < len.toNat then .error .truncated
    else .ok (body.take len.toNat, body.drop len.toNat)

/-- The host space: selector, length, payload (R131, R132). The selector is judged first (R373). -/
def decodeHost : List Byte → Except DecodeError (Instr × List Byte)
  | [] => .error .truncated
  | sel :: rest =>
    if 8 < sel.toNat then .error (.reservedSelector sel)
    else
      match takeCounted rest with
      | .error e => .error e
      | .ok (payload, after) =>
        match hostInstr sel payload with
        | some i => .ok (i, after)
        | none => .error (.reservedSelector sel)

/-- The framed command an opcode names (R115). -/
def frameCmdOf (p : Params) (op : Byte) : Option FrameCmd :=
  FrameCmd.all.find? (fun c => p.opcode c == op)

/-- The instruction a framed command's payload makes (R116 to R120, R238; log entry 27). -/
def frameInstr (p : Params) (c : FrameCmd) (payload : List Byte) : Option Instr :=
  match c with
  | .idn => if payload = [] then some .idn else none
  | .protocol =>
    match payload with
    | [wirePid, param] => some (.protocol wirePid param)
    | _ => none
  | .sendRecv => if payload = [] then none else some (.sendRecv payload)
  | .idle => if payload = p.idleParams then some .idle else none
  | .readReg => some (.readReg payload)
  | .writeReg => some (.writeReg payload)
  | .baudrate => some (.baudrate payload)

/-- The trailer of a frame whose first 2 + L bytes are these: FRAME_TRAILER_LEN bytes, absent by default, made by the
OPEN trailer function (R111, U21; log entry 4). -/
def trailerBytes (p : Params) (body : List Byte) : List Byte :=
  (List.range p.frameTrailerLen).map (Config.frameTrailer body)

/-- A frame's bytes: opcode, length, payload and the trailer (R111, R162). -/
def frameBytes (p : Params) (op : Byte) (payload : List Byte) : List Byte :=
  let body := op :: BitVec.ofNat 8 payload.length :: payload
  body ++ trailerBytes p body

/-- The bytes after a frame's trailer, where the trailer stands there (R111, R137). -/
def takeTrailer (p : Params) (op : Byte) (payload after : List Byte) : Except DecodeError (List Byte) :=
  if after.length < p.frameTrailerLen then .error .truncated
  else if after.take p.frameTrailerLen = trailerBytes p (op :: BitVec.ofNat 8 payload.length :: payload) then
    .ok (after.drop p.frameTrailerLen)
  else .error (.wrongTrailer op)

/-- The chip space: the echo byte alone (R114), or a frame, which is 2 + byte1 + FRAME_TRAILER_LEN bytes long (R111,
R137). -/
def decodeChip (p : Params) : List Byte → Except DecodeError (Instr × List Byte)
  | [] => .error .truncated
  | op :: rest =>
    if op = p.opcEcho then .ok (.echo, rest)
    else
      match frameCmdOf p op with
      | none => .error (.unknownOpcode op)
      | some c =>
        match takeCounted rest with
        | .error e => .error e
        | .ok (payload, after) =>
          match takeTrailer p op payload after with
          | .error e => .error e
          | .ok next =>
            match frameInstr p c payload with
            | some i => .ok (i, next)
            | none => .error (.wrongPayload op)

/-- The level a select-command byte names (R125). -/
def levelOf (p : Params) (a : Byte) : Option Level :=
  if a = p.sel1 then some .l1
  else if a = p.sel2 then some .l2
  else if a = p.sel3 then some .l3
  else none

/-- ANTICOL at a level (R125). -/
def anticolInstr : Level → Instr
  | .l1 => .anticolL1
  | .l2 => .anticolL2
  | .l3 => .anticolL3

/-- SELECT at a level (R126). -/
def selectInstr (c0 c1 c2 c3 bcc : Byte) : Level → Instr
  | .l1 => .selectL1 c0 c1 c2 c3 bcc
  | .l2 => .selectL2 c0 c1 c2 c3 bcc
  | .l3 => .selectL3 c0 c1 c2 c3 bcc

/-- The air space: a whole SEND_RECV payload, its length telling the commands apart (R124 to R126). -/
def decodeAir (p : Params) : List Byte → Except DecodeError (Instr × List Byte)
  | [a, t] =>
    if a = p.reqaCode ∧ t = p.txfReqa then .ok (.reqa, []) else .error .unknownAir
  | [a, n, t] =>
    if n = p.nvbAnticol ∧ t = p.txfAnticol then
      match levelOf p a with
      | some l => .ok (anticolInstr l, [])
      | none => .error .unknownAir
    else .error .unknownAir
  | [a, n, c0, c1, c2, c3, bcc, t] =>
    if n = p.nvbSelect ∧ t = p.txfSelect then
      match levelOf p a with
      | some l => .ok (selectInstr c0 c1 c2 c3 bcc l, [])
      | none => .error .unknownAir
    else .error .unknownAir
  | _ => .error .unknownAir

/-- The instruction at the front of bytes of one space, and the bytes after it. -/
def decode (p : Params) : Space → List Byte → Except DecodeError (Instr × List Byte)
  | .host, bytes => decodeHost bytes
  | .chip, bytes => decodeChip p bytes
  | .air, bytes => decodeAir p bytes

/-- A host request's bytes (R131). -/
def encodeHost (sel : Byte) (payload : List Byte) : List Byte :=
  sel :: BitVec.ofNat 8 payload.length :: payload

/-- A command frame's bytes, its trailer with them (R111). -/
def encodeChip (p : Params) (c : FrameCmd) (payload : List Byte) : List Byte :=
  frameBytes p (p.opcode c) payload

/-- ANTICOL's air bytes and transmit flags (R125). -/
def anticolBytes (p : Params) (n : Level) : List Byte :=
  [p.sel n, p.nvbAnticol, p.txfAnticol]

/-- SELECT's air bytes and transmit flags (R126). -/
def selectBytes (p : Params) (n : Level) (c0 c1 c2 c3 bcc : Byte) : List Byte :=
  [p.sel n, p.nvbSelect, c0, c1, c2, c3, bcc, p.txfSelect]

/-- REQA's air byte and transmit flags (R124). -/
def reqaBytes (p : Params) : List Byte :=
  [p.reqaCode, p.txfReqa]

/-- The bytes of an instruction in its own space, from the encoding tables of R114 to R126 and R132. -/
def encode (p : Params) : Instr → List Byte
  | .radioScan pl => encodeHost 0x00#8 pl
  | .echoTest pl => encodeHost 0x01#8 pl
  | .calibration pl => encodeHost 0x02#8 pl
  | .getChipId pl => encodeHost 0x03#8 pl
  | .getUid pl => encodeHost 0x04#8 pl
  | .runAnticol pl => encodeHost 0x05#8 pl
  | .goIdle pl => encodeHost 0x06#8 pl
  | .selectProtocol pl => encodeHost 0x07#8 pl
  | .fieldOff pl => encodeHost 0x08#8 pl
  | .idn => encodeChip p .idn []
  | .protocol wirePid param => encodeChip p .protocol [wirePid, param]
  | .sendRecv air => encodeChip p .sendRecv air
  | .idle => encodeChip p .idle p.idleParams
  | .readReg q => encodeChip p .readReg q
  | .writeReg q => encodeChip p .writeReg q
  | .baudrate q => encodeChip p .baudrate q
  | .echo => [p.opcEcho]
  | .reqa => reqaBytes p
  | .anticolL1 => anticolBytes p .l1
  | .anticolL2 => anticolBytes p .l2
  | .anticolL3 => anticolBytes p .l3
  | .selectL1 c0 c1 c2 c3 bcc => selectBytes p .l1 c0 c1 c2 c3 bcc
  | .selectL2 c0 c1 c2 c3 bcc => selectBytes p .l2 c0 c1 c2 c3 bcc
  | .selectL3 c0 c1 c2 c3 bcc => selectBytes p .l3 c0 c1 c2 c3 bcc

/-- The first n bytes of a row of the opcode table, most significant first: the table writes the byte that
travels first at the top (0x2607 is REQA_CODE 0x26, then TXF_REQA 0x07; log entry 6). -/
def tableBytes : Nat → Nat → List Byte
  | 0, _ => []
  | n + 1, w => tableBytes n (w / 256) ++ [BitVec.ofNat 8 w]

/-- The operand bytes above a row's bits: zeros, as many as the longest instruction has bytes. -/
def zeroTail : List Byte := List.replicate (2 + maxPayload) 0#8

/-- The space a table word is read in and its bytes: one byte is a host request where the selector is defined
(R132) and a chip command otherwise (R115), since five values are both (log entry 6); more bytes are an air
command. -/
def tableWordBytes (nbits w : Nat) : Space × List Byte :=
  if nbits ≤ 8 then
    let bytes := tableBytes 1 w ++ zeroTail
    if w % 256 ≤ 8 then (.host, bytes) else (.chip, bytes)
  else (.air, tableBytes (nbits / 8) w)

/-- The instruction the decoder reads from a word numbered as spec/opcode_table.json numbers it. -/
def decodeTableWord (nbits w : Nat) : Option Instr :=
  match decode Params.default (tableWordBytes nbits w).1 (tableWordBytes nbits w).2 with
  | .ok (i, _) => some i
  | .error _ => none

end Sys2Proof
end

