-- ==== Sys2Proof/Machine/State.lean ====
section
/-! DEFINITION. The state of the engine as plain data: every register of spec/10_state.md R31 to R57, the
inputs of R52 and R53 as data the step reads, the parameter block of R8, and the model's own records of
what leaves the engine. Then the reasons a step can stop, and the state after reset (R58). -/

namespace Sys2Proof.Machine

/-- The storage of one byte buffer (R56, R80): index and byte pairs, indices strictly rising; an index that
is not listed has not been written and holds no value, so reading it faults (R59, log entry 10). -/
structure Memory where
  cells : List Host.Cell
  deriving DecidableEq, Repr

/-- The byte buffers of R81. -/
inductive Buf where
  | req
  | rsp
  | tx
  | rx
  | uid
  | cand
  | tagUid
  deriving DecidableEq, Repr

/-- host_phase of R33; value 3 is never reached. -/
inductive HostPhase where
  | ready
  | busy
  | done
  deriving DecidableEq, Repr

/-- DeviceState of R34; values 5 to 7 are never written. -/
inductive DevState where
  | uninitialized
  | idle
  | fieldOn
  | awaitingResponse
  | error
  deriving DecidableEq, Repr

/-- proto_cfg.pid of R36; values 5 to 7 are never written. -/
inductive Pid where
  | fieldOff
  | iso15693
  | iso14443A
  | iso14443B
  | iso18092
  deriving DecidableEq, Repr

/-- The kbps-class codes of R121: 0 = 106, 1 = 212, 2 = 424; 3 is reserved and never written. -/
inductive Rate where
  | r106
  | r212
  | r424
  deriving DecidableEq, Repr

/-- proto_cfg of R36. -/
structure ProtoCfg where
  pid : Pid
  tx : Rate
  rx : Rate
  deriving DecidableEq, Repr

/-- txn_phase of R48; values 6 and 7 are never written. -/
inductive TxnPhase where
  | none
  | settleRamp
  | settleOsc
  | send
  | wait
  | rx
  deriving DecidableEq, Repr

/-- ac_step of R48; values 5 to 7 are never written. -/
inductive AcStep where
  | off
  | reqa
  | anticol
  | select
  | done
  deriving DecidableEq, Repr

/-- The outcome codes 0x00 to 0x08 of R401, in its order. -/
inductive OutcomeCode where
  | ok
  | noResponse
  | malformedFrame
  | noTagDetected
  | anticollisionFailed
  | deviceFault
  | invalidRequest
  | notReady
  | unsupported
  deriving DecidableEq, Repr

/-- A byte the CHIP puts into the UART receive channel (R53): when it arrives, and how many transmissions of
the engine come before it, which settles the order inside one tick (log entry 7). -/
structure Arrival where
  time : Nat
  after : Nat
  byte : Byte
  deriving DecidableEq, Repr

/-- A rise of the CHIP's data_ready line (R53), stamped as an arrival is; the line stays high until the
engine has seen it (log entry 7). -/
structure ReadyRise where
  time : Nat
  after : Nat
  deriving DecidableEq, Repr

/-- The two HOST steps of R360. -/
inductive HostAct where
  | present (sel : Byte) (payload : List Byte)
  | take
  deriving DecidableEq, Repr

/-- A HOST step and the first tick at which the HOST makes it (log entry 9). -/
structure HostEvent where
  time : Nat
  act : HostAct
  deriving DecidableEq, Repr

/-- What the engine does on the transport (R161, R165, R168, R170): a byte handed over, chip-select, a dummy
byte 0x00 shifted out to read one; each with its tick. -/
inductive LineEvent where
  | tx (time : Nat) (byte : Byte)
  | select (time : Nat)
  | release (time : Nat)
  | dummy (time : Nat)
  deriving DecidableEq, Repr

/-- What Take returns (R360). -/
structure HostReply where
  bytes : List Byte
  ok : Bool
  deriving DecidableEq, Repr

/-- What a chip command returns to its caller inside the engine (R230, R243). -/
inductive CallResult where
  | frame (status : Byte) (payload : List Byte)
  | noResponse
  | malformedFrame
  | alive
  | fail
  deriving DecidableEq, Repr

/-- The host port's registers (R32, R33) and last_outcome (R51). -/
structure HostPort where
  /-- host_phase (R33). -/
  phase : HostPhase
  /-- req_sel (R32). -/
  reqSel : Byte
  /-- req_len (R32). -/
  reqLen : Nat
  /-- req_buf (R32). -/
  reqBuf : Memory
  /-- rsp_valid (R33). -/
  rspValid : Bool
  /-- rsp_ok (R33). -/
  rspOk : Bool
  /-- rsp_len (R33). -/
  rspLen : Nat
  /-- rsp_buf (R33). -/
  rspBuf : Memory
  /-- last_outcome (R51). -/
  lastOutcome : OutcomeCode
  deriving DecidableEq, Repr

/-- The mode and configuration registers (R34 to R36). -/
structure ModeRegs where
  /-- dev_state (R34). -/
  dev : DevState
  /-- resume_state (R35). -/
  resume : DevState
  /-- proto_cfg (R36). -/
  cfg : ProtoCfg
  deriving DecidableEq, Repr

/-- The sequencer's and supervisor's registers and the frame buffers (R37 to R42, R48). -/
structure TxnRegs where
  /-- settle_pending (R37). -/
  settlePending : Bool
  /-- last_status (R38). -/
  lastStatus : Byte
  /-- txn_phase (R48). -/
  phase : TxnPhase
  /-- echo_try (R42). -/
  echoTry : Nat
  /-- tx_buf (R39). -/
  txBuf : Memory
  /-- tx_len (R39). -/
  txLen : Nat
  /-- rx_buf (R40). -/
  rxBuf : Memory
  /-- rx_count (R40). -/
  rxCount : Nat
  /-- deadline (R41), a natural number without wrap (R210). -/
  deadline : Nat
  /-- t_last (R41). -/
  tLast : Nat
  deriving DecidableEq, Repr

/-- The cascade's registers (R43 to R48). -/
structure CascadeRegs where
  /-- ac_step (R48). -/
  step : AcStep
  /-- ac_level (R43): none is its value 0, no level entered. -/
  level : Option Level
  /-- uid_buf (R44). -/
  uidBuf : Memory
  /-- uid_len (R44). -/
  uidLen : Nat
  /-- cand (R45). -/
  cand : Memory
  /-- atqa[0] (R46). -/
  atqa0 : Byte
  /-- atqa[1] (R46). -/
  atqa1 : Byte
  /-- size_class (R46). -/
  sizeClass : BitVec 2
  /-- sak (R46). -/
  sak : Byte
  /-- ct_present (R47). -/
  ctPresent : Bool
  /-- complete (R47). -/
  complete : Bool
  deriving DecidableEq, Repr

/-- The Tag register (R50). -/
structure TagReg where
  /-- tag_valid. -/
  valid : Bool
  /-- tag_uid. -/
  uid : Memory
  /-- tag_len. -/
  len : Nat
  /-- tag_atqa[0]. -/
  atqa0 : Byte
  /-- tag_atqa[1]. -/
  atqa1 : Byte
  /-- tag_sak. -/
  sak : Byte
  deriving DecidableEq, Repr

/-- The inputs the CHIP drives (R53), as data (log entries 7 and 8). -/
structure ChipLine where
  /-- The UART receive channel: the bytes waiting in it and those to come, in order (R57). -/
  rx : List Arrival
  /-- The data_ready line's rises, in order. -/
  ready : List ReadyRise
  /-- The bytes the CHIP shifts in, one for each SpiIn, in order (R165). -/
  miso : List Byte
  /-- The model's own: how many SpiIn came after miso ran out, the index of the next free byte. -/
  misoCount : Nat
  deriving DecidableEq, Repr

/-- The other inputs, as data. -/
structure Inputs where
  /-- The steps the HOST makes, in order (R360). -/
  hostLine : List HostEvent
  /-- The ticks at which the reset input is asserted, in order (R450). -/
  resetLine : List Nat
  /-- A command frame standing at the CommandEngine's public entry (R235, R466). -/
  chipCall : Option (List Byte)
  deriving DecidableEq, Repr

/-- The model's own records of what leaves the engine. -/
structure Outputs where
  /-- How many transmissions the engine has made; arrivals are stamped with it (log entry 7). -/
  sent : Nat
  /-- What the engine did on the transport, oldest first. -/
  line : List LineEvent
  /-- What the last command run at the CommandEngine's entry returned. -/
  callResult : Option CallResult
  /-- The replies the HOST has taken, oldest first (R360). -/
  replies : List HostReply
  deriving DecidableEq, Repr

/-- The whole state: the engine's registers (host, mode, txn, ac, tag), the time, the parameter block, the inputs
as data (chip, env) and the model's own records (out). -/
structure State where
  /-- The parameter block (R8): no step changes it. -/
  params : Params
  host : HostPort
  mode : ModeRegs
  txn : TxnRegs
  ac : CascadeRegs
  tag : TagReg
  /-- now, the CLOCK's time in ticks (R52). -/
  now : Nat
  chip : ChipLine
  env : Inputs
  out : Outputs
  deriving DecidableEq, Repr

/-- Why a step stops. Every constructor is raised only in states no run from reset reaches, and is SAFE: the
engine would not stop there, so no false claim about it can be proved. -/
inductive Fault where
  /-- Raised by a buffer read: an index at or beyond the buffer's valid length, or a byte that has not been
  written (R59: "A model should fault on such a read"). Safe. -/
  | bufferRead (b : Buf) (index : Nat)
  /-- Raised by a buffer write: an index at or past the buffer's size (R81: such an index is never formed).
  Safe. -/
  | bufferIndex (b : Buf) (index : Nat)
  /-- Raised by a read of the Tag register while tag_valid = 0 (R59). Safe. -/
  | tagRead
  /-- Raised by a fetch at AC_ANTICOL or AC_SELECT with ac_level 0: no position of R310. Safe. -/
  | noPosition
  deriving DecidableEq, Repr

/-- Why a step has no meaning. Every constructor is SAFE: nothing is claimed of what the engine would do. -/
inductive Refusal where
  /-- Raised by an arm of exec whose instruction has no meaning yet; no arm raises it. Safe. -/
  | notModelled (mnemonic : String)
  /-- Raised by the fetch: the bytes that stand there are no instruction of their space. The engine never
  sends such a chip command and never forms such an air command (R115, R136). A reserved host selector is
  not this: it ends InvalidRequest (R361). Safe. -/
  | undecodable (space : Space) (why : DecodeError)
  deriving DecidableEq, Repr

/-- Nothing written. -/
def Memory.empty : Memory := { cells := [] }

/-- The state right after reset: R58's table. Registers it calls unspecified hold the value log entry 5 or 10
names; the parameter block is log entry 2's; nothing waits at any input. -/
def State.reset : State where
  params := Params.default
  host :=
    { phase := .ready, reqSel := 0#8, reqLen := 0, reqBuf := .empty, rspValid := false, rspOk := false
      rspLen := 1, rspBuf := .empty, lastOutcome := .ok }
  mode :=
    { dev := .uninitialized, resume := .uninitialized
      cfg := { pid := .fieldOff, tx := .r106, rx := .r106 } }
  txn :=
    { settlePending := true, lastStatus := 0x00#8, phase := .none, echoTry := 0, txBuf := .empty, txLen := 0
      rxBuf := .empty, rxCount := 0, deadline := 0, tLast := 0 }
  ac :=
    { step := .off, level := none, uidBuf := .empty, uidLen := 0, cand := .empty, atqa0 := 0x00#8
      atqa1 := 0x00#8, sizeClass := 0#2, sak := 0x00#8, ctPresent := false, complete := false }
  tag := { valid := false, uid := .empty, len := 0, atqa0 := 0#8, atqa1 := 0#8, sak := 0#8 }
  now := 0
  chip := { rx := [], ready := [], miso := [], misoCount := 0 }
  env := { hostLine := [], resetLine := [], chipCall := none }
  out := { sent := 0, line := [], callResult := none, replies := [] }

end Sys2Proof.Machine
end

