-- ==== Sys2Proof/Machine/Ops.lean ====
section
/-! DEFINITION. The named operations every rule is written with (R14): buffer reads and writes, the procedures'
form, time and waits, the outcome of a request (raise Outcome, R400, and the reply, R363), the HOST's two steps
(R360), the reset action (R451). -/

namespace Sys2Proof.Machine

/-! ## Buffers -/

/-- The byte written at an index, if one has been (R80). -/
def Memory.read (m : Memory) (i : Nat) : Option Byte :=
  m.cells.lookup i

/-- A cell into cells kept in rising order, in place of one at its index. -/
def insertCell (i : Nat) (v : Byte) : List Host.Cell → List Host.Cell
  | [] => [(i, v)]
  | (j, w) :: rest =>
    if i < j then (i, v) :: (j, w) :: rest
    else if i = j then (i, v) :: rest
    else (j, w) :: insertCell i v rest

/-- `buf[i] <- v` (R14). -/
def Memory.write (m : Memory) (i : Nat) (v : Byte) : Memory :=
  { cells := insertCell i v m.cells }

/-- Bytes written from an index on, first byte first (R83). -/
def Memory.writeRange (m : Memory) (start : Nat) : List Byte → Memory
  | [] => m
  | v :: vs => (m.write start v).writeRange (start + 1) vs

/-- `buf[start .. start + n - 1]`, if every one of them has been written (R13, R59). -/
def Memory.readRange (m : Memory) (start : Nat) : Nat → Option (List Byte)
  | 0 => some []
  | n + 1 =>
    match m.read start, m.readRange (start + 1) n with
    | some v, some vs => some (v :: vs)
    | _, _ => none

/-- Indices strictly rise. -/
def risingCells : List Host.Cell → Bool
  | [] => true
  | [_] => true
  | (i, _) :: (j, w) :: rest => i < j && risingCells ((j, w) :: rest)

/-- The canonical form of a buffer's storage: indices strictly rise. -/
def Memory.wf (m : Memory) : Bool :=
  risingCells m.cells

/-- Every index of the buffer is below its size (R81). -/
def Memory.within (m : Memory) (size : Nat) : Bool :=
  m.cells.all (fun c => c.1 < size)

/-- The storage of a buffer. -/
def State.buf (s : State) : Buf → Memory
  | .req => s.host.reqBuf
  | .rsp => s.host.rspBuf
  | .tx => s.txn.txBuf
  | .rx => s.txn.rxBuf
  | .uid => s.ac.uidBuf
  | .cand => s.ac.cand
  | .tagUid => s.tag.uid

/-- The storage of one buffer replaced. -/
def State.setBuf (s : State) : Buf → Memory → State
  | .req, m => { s with host.reqBuf := m }
  | .rsp, m => { s with host.rspBuf := m }
  | .tx, m => { s with txn.txBuf := m }
  | .rx, m => { s with txn.rxBuf := m }
  | .uid, m => { s with ac.uidBuf := m }
  | .cand, m => { s with ac.cand := m }
  | .tagUid, m => { s with tag.uid := m }

/-- A buffer's valid length: its companion length register, or its size where it has none (R56). -/
def State.validLen (s : State) : Buf → Nat
  | .req => s.host.reqLen
  | .rsp => s.host.rspLen
  | .tx => s.txn.txLen
  | .rx => s.txn.rxCount
  | .uid => s.ac.uidLen
  | .cand => 5
  | .tagUid => s.tag.len

/-- A buffer's size (R81); the frame buffers grow by FRAME_TRAILER_LEN (R39, log entry 4). -/
def bufSize (p : Params) : Buf → Nat
  | .req => 254
  | .rsp => 255
  | .tx => 256 + p.frameTrailerLen
  | .rx => 256 + p.frameTrailerLen
  | .uid => 10
  | .cand => 5
  | .tagUid => 10

/-! ## Procedures -/

/-- How a procedure ends early: an outcome is raised (R400), the reset input is asserted (R452), or the model
finds an error of its own (R59, R81). -/
inductive Stop where
  | outcome (code : OutcomeCode)
  | reset
  | fault (f : Fault)
  deriving DecidableEq, Repr

/-- A procedure of the engine: it reads and writes the state and returns a value or ends early. -/
abbrev Proc := EStateM Stop State

/-- `raise Outcome(code)` (R14, R400): no later line of the request runs. -/
def raiseOutcome {α : Type} (code : OutcomeCode) : Proc α :=
  throw (.outcome code)

/-- The bytes of a buffer from an index on, or the fault R59 asks for. -/
def loadBytes (b : Buf) (start n : Nat) : Proc (List Byte) := do
  let s ← get
  if start + n ≤ s.validLen b then
    match (s.buf b).readRange start n with
    | some bytes => return bytes
    | none => throw (.fault (.bufferRead b start))
  else throw (.fault (.bufferRead b start))

/-- One byte of a buffer, or the fault R59 asks for. -/
def loadByte (b : Buf) (i : Nat) : Proc Byte := do
  let s ← get
  if i < s.validLen b then
    match (s.buf b).read i with
    | some v => return v
    | none => throw (.fault (.bufferRead b i))
  else throw (.fault (.bufferRead b i))

/-- Bytes written into a buffer from an index on (R80, R81). -/
def storeBytes (b : Buf) (start : Nat) (bytes : List Byte) : Proc Unit := do
  let s ← get
  if start + bytes.length ≤ bufSize s.params b then
    set (s.setBuf b ((s.buf b).writeRange start bytes))
  else throw (.fault (.bufferIndex b start))

/-! ## The transport's record and time -/

/-- One more event on the transport. -/
def emit (e : LineEvent) : Proc Unit :=
  modify fun s => { s with out.line := s.out.line ++ [e] }

/-- Wait until `now >= t`: only waits advance `now` (R470). The reset input ends the wait, and the request with
it, at its tick (R452, log entry 11). -/
def waitUntil (t : Nat) : Proc Unit := do
  let s ← get
  if t ≤ s.now then return ()
  else
    match s.env.resetLine with
    | r :: _ =>
      if r < t then
        set { s with now := max s.now r }
        throw .reset
      else set { s with now := t }
    | [] => set { s with now := t }

/-- One CLOCK step (R52). -/
def State.tick (s : State) : State :=
  { s with now := s.now + 1 }

/-! ## The outcome of a request -/

/-- The code byte of an outcome (R401). -/
def OutcomeCode.byte : OutcomeCode → Byte
  | .ok => 0x00#8
  | .noResponse => 0x01#8
  | .malformedFrame => 0x02#8
  | .noTagDetected => 0x03#8
  | .anticollisionFailed => 0x04#8
  | .deviceFault => 0x05#8
  | .invalidRequest => 0x06#8
  | .notReady => 0x07#8
  | .unsupported => 0x08#8

/-- `Finish(code, data)`: the reply construction (R363, R133). -/
def State.finish (s : State) (code : OutcomeCode) (data : List Byte) : State :=
  { s with
    host.rspBuf := s.host.rspBuf.writeRange 0 (code.byte :: data)
    host.rspLen := 1 + data.length
    host.rspOk := code == .ok
    host.lastOutcome := code
    host.rspValid := true
    host.phase := .done }

/-- Finish as a procedure. -/
def finish (code : OutcomeCode) (data : List Byte) : Proc Unit :=
  modify fun s => s.finish code data

/-- The reset action (R451): every register takes R58's value at once. The parameters, the inputs and the
model's records are not the engine's registers and stay; the assertion is used up (log entry 20). -/
def State.resetAction (s : State) : State :=
  { State.reset with
    params := s.params
    now := s.now
    chip := s.chip
    env := { hostLine := s.env.hostLine, resetLine := s.env.resetLine.tail, chipCall := none }
    out := { s.out with callResult := none } }

/-- The reset input is asserted at or before this tick. -/
def State.resetDue (s : State) : Bool :=
  match s.env.resetLine with
  | r :: _ => r ≤ s.now
  | [] => false

/-- A procedure run to its end as one step: it completes, or its outcome is raised, which is Finish(code, [])
and the whole of taking an exception (R400), or a reset abandons it (R452), or it faults. -/
def conclude {α : Type} (p : Proc α) (s : State) : Host.Outcome State Fault Refusal :=
  match p.run s with
  | .ok _ t => .next t
  | .error (.outcome code) t => .next (t.finish code [])
  | .error .reset t => .next t.resetAction
  | .error (.fault f) _ => .fault f

/-! ## The HOST's steps -/

/-- Present (R360): the request registers are latched, rsp_valid and rsp_ok cleared (log entry 18), host_phase =
BUSY. -/
def State.present (s : State) (sel : Byte) (payload : List Byte) : State :=
  { s with
    host.reqSel := sel
    host.reqLen := payload.length
    host.reqBuf := s.host.reqBuf.writeRange 0 payload
    host.rspValid := false
    host.rspOk := false
    host.phase := .busy }

/-- Take (R360): the return from an outcome. The HOST has the reply; rsp_valid is cleared, and the reply registers,
rsp_ok with them, keep their values (R360, R33; log entry 18 on R54's cell). -/
def State.take (s : State) (bytes : List Byte) : State :=
  { s with
    host.rspValid := false
    host.phase := .ready
    out.replies := s.out.replies ++ [{ bytes := bytes, ok := s.host.rspOk }] }

/-- The HOST's or the CLOCK's step where the engine has nothing to run. A HOST step that the phase does not
allow is ignored (R360, R461, log entry 9); with no HOST step due the CLOCK ticks. -/
def hostTurn : Proc Unit := do
  let s ← get
  match s.env.hostLine with
  | [] => set s.tick
  | e :: rest =>
    if s.now < e.time then set s.tick
    else
      set { s with env.hostLine := rest }
      match s.host.phase, e.act with
      | .ready, .present sel payload =>
        if payload.length ≤ maxPayload then modify fun s => s.present sel payload else return ()
      | .done, .take =>
        let bytes ← loadBytes .rsp 0 s.host.rspLen
        modify fun s => s.take bytes
      | _, _ => return ()

end Sys2Proof.Machine
end

