-- ==== Sys2Proof/Machine/Operands.lean ====
section
/-! DEFINITION. Operand assembly: what a request's or a command's operands mean and which bytes the engine
builds from them (spec/30_encoding.md R117 to R134, spec/45_host_requests.md R361 and R362). -/

namespace Sys2Proof.Machine

/-! ## Protocol configuration -/

/-- The protocol of a pid byte; a byte above 4 names none (R36, R292). -/
def Pid.ofByte (b : Byte) : Option Pid :=
  match b.toNat with
  | 0 => some .fieldOff
  | 1 => some .iso15693
  | 2 => some .iso14443A
  | 3 => some .iso14443B
  | 4 => some .iso18092
  | _ => none

/-- The rate of a code byte; 3 is reserved and values above it are no codes (R121, R292). -/
def Rate.ofByte (b : Byte) : Option Rate :=
  match b.toNat with
  | 0 => some .r106
  | 1 => some .r212
  | 2 => some .r424
  | _ => none

/-- The kbps-class code of a rate (R121). -/
def Rate.code : Rate → Byte
  | .r106 => 0#8
  | .r212 => 1#8
  | .r424 => 2#8

/-- A protocol at 106 kbit/s both ways. -/
def ProtoCfg.plain (pid : Pid) : ProtoCfg :=
  { pid := pid, tx := .r106, rx := .r106 }

/-- The configuration a request's pid, tx and rx ask for, none where it is refused (R290 to R294): the rates
count for ISO14443B alone. -/
def airConfig (pid tx rx : Byte) : Option ProtoCfg :=
  match Pid.ofByte pid with
  | none => none
  | some .iso14443B =>
    match Rate.ofByte tx, Rate.ofByte rx with
    | some t, some r => some { pid := .iso14443B, tx := t, rx := r }
    | _, _ => none
  | some q => some (.plain q)

/-- The wire_pid of a protocol (R117). -/
def wirePid (p : Params) : Pid → Byte
  | .fieldOff => p.pidFieldOff
  | .iso15693 => p.pid15693
  | .iso14443A => p.pid14443A
  | .iso14443B => p.pid14443B
  | .iso18092 => p.pid18092

/-- The rate bits of a PROTOCOL parameter byte with its low option bits (R122). -/
def rateParam (cfg : ProtoCfg) (low : Byte) : Byte :=
  (cfg.tx.code <<< 6) ||| (cfg.rx.code <<< 4) ||| low

/-- The PROTOCOL parameter byte of a configuration (R122). -/
def protoParam (p : Params) (cfg : ProtoCfg) : Byte :=
  match cfg.pid with
  | .fieldOff => p.fieldOffParam
  | .iso15693 => p.protoParam15693
  | .iso14443A => rateParam cfg p.protoLowA
  | .iso14443B => rateParam cfg p.protoLowB
  | .iso18092 => p.protoParam18092

/-- R36's invariant: rates are meaningful under ISO14443B alone, ISO14443A being fixed at 106 (R291). -/
def ProtoCfg.wf (cfg : ProtoCfg) : Bool :=
  cfg.pid == .iso14443B || cfg == .plain cfg.pid

/-! ## Exchanges -/

/-- The deadline kind of a framed command (R115, R206). -/
def kindOf : FrameCmd → DeadlineKind
  | .sendRecv => .detect
  | _ => .noresp

/-- The one success status of a framed command (R123, R232). -/
def okStatus (p : Params) : FrameCmd → Byte
  | .sendRecv => p.stData
  | _ => p.stOk

/-- The exact length of REQA's reply (R127). -/
def reqaReplyLen (p : Params) : Nat := 2 + p.rxTrailerLen

/-- The exact length of ANTICOL's reply (R127). -/
def anticolReplyLen (p : Params) : Nat := 5 + p.rxTrailerLen

/-- The exact length of SELECT's reply (R127). -/
def selectReplyLen (p : Params) : Nat := 1 + p.sakCrcLen + p.rxTrailerLen

/-! ## Host requests -/

/-- The nine request kinds of R132. -/
inductive RequestKind where
  | radioScan
  | echoTest
  | calibration
  | getChipId
  | getUid
  | runAnticol
  | goIdle
  | selectProtocol
  | fieldOff
  deriving DecidableEq, Repr

/-- PayloadLen of R361(c) and R373; CALIBRATION takes any length (R132). -/
def payloadLen : RequestKind → Option Nat
  | .calibration => none
  | .selectProtocol => some 3
  | _ => some 0

/-- ValidCfg of R361(d) and R373, over the whole payload of SELECT_PROTOCOL. -/
def validCfg : List Byte → Bool
  | [pid, tx, rx] => (airConfig pid tx rx).isSome
  | _ => false

/-- The requests that run in ERROR (R362, R373). -/
def allowedInError : RequestKind → Bool
  | .echoTest => true
  | .goIdle => true
  | .fieldOff => true
  | _ => false

/-- The configuration the cascade needs: (ISO14443A, 0, 0) (R311). -/
def cascadeCfg : ProtoCfg := .plain .iso14443A

/-- Allowed of R362 and R373, ERROR's DeviceFault apart. No request is allowed in AWAITING_RESPONSE, which no
request meets (R362, log entry 12). -/
def allowed (k : RequestKind) (d : DevState) (cfg : ProtoCfg) : Bool :=
  match d with
  | .awaitingResponse => false
  | .error => allowedInError k
  | .fieldOn => k != .runAnticol || cfg == cascadeCfg
  | _ => k != .runAnticol && k != .goIdle

/-- The data of a Tag reply (R134). -/
def tagReply (uid : List Byte) (atqa0 atqa1 sak : Byte) : List Byte :=
  BitVec.ofNat 8 uid.length :: uid ++ [atqa0, atqa1, sak]

end Sys2Proof.Machine
end

