-- ==== Sys2Proof/Machine/Flags.lean ====
section
/-! DEFINITION. The flags and checks of R54: the block check character, the SAK's cascade bit, the size class,
the marker, the poll flag, the length check. -/

namespace Sys2Proof.Machine

/-- BCC(c0, c1, c2, c3) (R128). -/
def bcc (c0 c1 c2 c3 : Byte) : Byte :=
  c0 ^^^ c1 ^^^ c2 ^^^ c3

/-- BccOk (R318). -/
def bccOk (p : Params) (c0 c1 c2 c3 b : Byte) : Bool :=
  !p.verifyBcc || b == bcc c0 c1 c2 c3

/-- The SAK's cascade-tag bit (R130). -/
def cascadeBit (p : Params) (sak : Byte) : Bool :=
  (sak &&& p.sakCascadeMask) != 0#8

/-- The marker check (R319): CHECK_CT and cand[0] is not CT_BYTE. -/
def markerBad (p : Params) (c0 : Byte) : Bool :=
  p.checkCt && c0 != p.ctByte

/-- size_class = atqa[0][7:6] (R129, R315). -/
def sizeClassOf (atqa0 : Byte) : BitVec 2 :=
  atqa0.extractLsb' 6 2

/-- The poll flag's ready bit (R135, R170). -/
def readyFlag (p : Params) (f : Byte) : Bool :=
  (f &&& p.spiReadyFlag) != 0#8

/-- Whether a response payload length is accepted (R233). -/
def lenAccepted (r : LenRange) (n : Nat) : Bool :=
  r.min ≤ n && n ≤ r.max

end Sys2Proof.Machine
end

