-- ==== Sys2Proof/Machine/Supervisor.lean ====
section
/-! DEFINITION. The TimeoutSupervisor (spec/41_timeout_supervisor.md R200 to R210): deadlines, delays, the
settle, the inter-byte limit. Time is a natural number; R210's modular reading is `expiredMod`. -/

namespace Sys2Proof.Machine

/-- `deadline <- now + T(kind)` (R202, R205). -/
def arm (kind : DeadlineKind) : Proc Unit :=
  modify fun s => { s with txn.deadline := s.now + s.params.ticks kind }

/-- Await of a delay kind: always ELAPSED (R203, R204). -/
def delay (kind : DeadlineKind) : Proc Unit := do
  arm kind
  waitUntil (← get).txn.deadline

/-- `txn_phase <- ph` (R48). -/
def setTxnPhase (ph : TxnPhase) : Proc Unit :=
  modify fun s => { s with txn.phase := ph }

/-- Settle (R207): T_RAMP then T_OSC, once, where settle_pending is set. -/
def settle : Proc Unit := do
  if (← get).txn.settlePending then
    setTxnPhase .settleRamp
    delay .ramp
    setTxnPhase .settleOsc
    delay .osc
    modify fun s => { s with txn.settlePending := false }

/-- A response's next byte must come strictly before this (R209). -/
def State.byteLimit (s : State) : Nat :=
  min s.txn.deadline (s.txn.tLast + s.params.tIb)

/-- R210's expiry test of a realisation with 32-bit counters: `(now - start) mod 2^32 >= T`. -/
def expiredMod (start now ticks : BitVec 32) : Bool :=
  ticks ≤ now - start

end Sys2Proof.Machine
end

