-- ==== Sys2Proof/Machine/Transport.lean ====
section
/-! DEFINITION. TransportFrame (spec/40_transport_frame.md R160 to R175): frame encoding, both carriers' send and
receive, the echo exchange. -/

namespace Sys2Proof.Machine

/-- What a receive, and a chip transaction over it, returns (R160, R171, R230). -/
inductive Reception where
  | frame (status : Byte) (payload : List Byte)
  | noResponse
  | malformedFrame
  deriving DecidableEq, Repr

/-! ## Sending -/

/-- The byte waits in the receive channel at this step. -/
def State.arrived (s : State) (a : Arrival) : Bool :=
  a.time ≤ s.now && a.after ≤ s.out.sent

/-- FlushRx (R166, R95): every waiting byte is discarded under UART; under SPI it does nothing. -/
def flushRx : Proc Unit :=
  modify fun s =>
    match s.params.transport with
    | .uart => { s with chip.rx := s.chip.rx.dropWhile s.arrived }
    | .spi => s

/-- TxByte (R161): it always completes and takes no time (R468, R470). -/
def txByte (b : Byte) : Proc Unit := do
  emit (.tx (← get).now b)

/-- TxByte of each byte in order. -/
def txBytes : List Byte → Proc Unit
  | [] => return ()
  | b :: bs => do
    txByte b
    txBytes bs

/-- Chip-select asserted (R135). -/
def assertSelect : Proc Unit := do
  emit (.select (← get).now)

/-- Chip-select released (R135). -/
def releaseSelect : Proc Unit := do
  emit (.release (← get).now)

/-- EncodeFrame (R162): the frame's bytes into tx_buf, tx_len their count. -/
def encodeFrame (op : Byte) (payload : List Byte) : Proc Unit := do
  if maxPayload < payload.length then raiseOutcome .invalidRequest
  else
    let frame := frameBytes (← get).params op payload
    storeBytes .tx 0 frame
    modify fun s => { s with txn.txLen := frame.length }

/-- tx_buf's valid bytes onto the carrier: after a flush under UART (R163), behind the send control byte under
SPI (R165, R175). -/
def transmit : Proc Unit := do
  let s ← get
  let bytes ← loadBytes .tx 0 s.txn.txLen
  match s.params.transport with
  | .uart =>
    flushRx
    txBytes bytes
  | .spi =>
    assertSelect
    txByte s.params.spiCtrlSend
    txBytes bytes
    releaseSelect
  modify fun s => { s with out.sent := s.out.sent + 1 }

/-- Send (R163, R165). -/
def send (op : Byte) (payload : List Byte) : Proc Unit := do
  encodeFrame op payload
  transmit

/-! ## Byte primitives of the receive side -/

/-- RxByte (R164): the next byte of the channel, or nothing at the deadline, which wins a tie. -/
def rxByte (dl : Nat) : Proc (Option Byte) := do
  let s ← get
  if dl ≤ s.now then return none
  else
    match s.chip.rx with
    | a :: rest =>
      if a.after ≤ s.out.sent ∧ a.time < dl then
        waitUntil a.time
        modify fun s => { s with chip.rx := rest }
        return some a.byte
      else
        waitUntil dl
        return none
    | [] =>
      waitUntil dl
      return none

/-- SpiIn (R165): the dummy byte out, the CHIP's byte in; it never times out. -/
def spiIn : Proc Byte := do
  let s ← get
  emit (.dummy s.now)
  match s.chip.miso with
  | b :: rest =>
    modify fun s => { s with chip.miso := rest }
    return b
  | [] =>
    modify fun s => { s with chip.misoCount := s.chip.misoCount + 1 }
    return Config.misoFree s.chip.misoCount

/-- WaitReady with READY_METHOD = IRQ (R169): READY is true. -/
def waitReadyIrq (dl : Nat) : Proc Bool := do
  let s ← get
  if dl ≤ s.now then return false
  else
    match s.chip.ready with
    | e :: rest =>
      if e.after ≤ s.out.sent ∧ e.time < dl then
        waitUntil e.time
        modify fun s => { s with chip.ready := rest }
        return true
      else
        waitUntil dl
        return false
    | [] =>
      waitUntil dl
      return false

/-- The polling loop of R170: at most one poll byte a tick, for at most this many ticks. Where the reset input is
asserted inside it, no release of chip-select is recorded and the next exchange asserts it again: the spec does not
say what chip-select does there (R135; DESIGN CHOICE, log entry 29). -/
def pollLoop (dl : Nat) : Nat → Proc Bool
  | 0 => do
    releaseSelect
    return false
  | n + 1 => do
    if dl ≤ (← get).now then
      releaseSelect
      return false
    else
      let f ← spiIn
      if readyFlag (← get).params f then
        releaseSelect
        return true
      else
        waitUntil ((← get).now + 1)
        pollLoop dl n

/-- WaitReady with READY_METHOD = POLL (R170). -/
def waitReadyPoll (dl : Nat) : Proc Bool := do
  let s ← get
  assertSelect
  txByte s.params.spiCtrlPoll
  pollLoop dl (dl - s.now)

/-- WaitReady (R169, R170). -/
def waitReady (dl : Nat) : Proc Bool := do
  match (← get).params.readyMethod with
  | .irq => waitReadyIrq dl
  | .poll => waitReadyPoll dl

/-! ## Receive -/

/-- The start of a receive: the deadline, no bytes yet, txn_phase = T_WAIT (R167, R168, R175). -/
def beginReceive (kind : DeadlineKind) : Proc Unit := do
  arm kind
  modify fun s => { s with txn.rxCount := 0, txn.phase := .wait }

/-- The next received byte into rx_buf. -/
def recordByte (b : Byte) : Proc Unit := do
  storeBytes .rx (← get).txn.rxCount [b]
  modify fun s => { s with txn.rxCount := s.txn.rxCount + 1 }

/-- `t_last <- now` (R209). -/
def stampByte : Proc Unit :=
  modify fun s => { s with txn.tLast := s.now }

/-- The frame in rx_buf: status and the declared payload, a trailer left aside (R112, R167, R168). -/
def receivedFrame : Proc Reception := do
  let status ← loadByte .rx 0
  let len ← loadByte .rx 1
  let payload ← loadBytes .rx 2 len.toNat
  return .frame status payload

/-- The bytes of a UART response after its header, each under R209's limit: false where one does not come. -/
def rxRest : Nat → Proc Bool
  | 0 => return true
  | n + 1 => do
    match ← rxByte (← get).byteLimit with
    | none => return false
    | some b =>
      recordByte b
      stampByte
      rxRest n

/-- Receive under UART (R167). -/
def receiveUart (kind : DeadlineKind) : Proc Reception := do
  beginReceive kind
  match ← rxByte (← get).txn.deadline with
  | none => return .noResponse
  | some status =>
    recordByte status
    stampByte
    setTxnPhase .rx
    match ← rxByte (← get).byteLimit with
    | none => return .noResponse
    | some len =>
      recordByte len
      stampByte
      if len = 0xFF#8 then return .malformedFrame
      else
        if ← rxRest (len.toNat + (← get).params.frameTrailerLen) then receivedFrame
        else return .malformedFrame

/-- Bytes clocked in under SPI. -/
def spiRest : Nat → Proc Unit
  | 0 => return ()
  | n + 1 => do
    recordByte (← spiIn)
    spiRest n

/-- Receive under SPI (R168). -/
def receiveSpi (kind : DeadlineKind) : Proc Reception := do
  beginReceive kind
  if ← waitReady (← get).txn.deadline then
    setTxnPhase .rx
    assertSelect
    txByte (← get).params.spiCtrlRead
    recordByte (← spiIn)
    let len ← spiIn
    recordByte len
    if len = 0xFF#8 then
      releaseSelect
      return .malformedFrame
    else
      spiRest (len.toNat + (← get).params.frameTrailerLen)
      releaseSelect
      receivedFrame
  else return .noResponse

/-- Receive (R167, R168): the carrier is invisible to callers (R160). -/
def receive (kind : DeadlineKind) : Proc Reception := do
  match (← get).params.transport with
  | .uart => receiveUart kind
  | .spi => receiveSpi kind

/-! ## The echo exchange -/

/-- EchoSend (R175, R114): one byte, no frame. -/
def echoSend : Proc Unit := do
  storeBytes .tx 0 [(← get).params.opcEcho]
  modify fun s => { s with txn.txLen := 1 }
  transmit

/-- EchoReceive (R175): the reply byte, or nothing at T_ECHO. -/
def echoReceive : Proc (Option Byte) := do
  beginReceive .echo
  match (← get).params.transport with
  | .uart =>
    match ← rxByte (← get).txn.deadline with
    | none => return none
    | some b =>
      recordByte b
      return some b
  | .spi =>
    if ← waitReady (← get).txn.deadline then
      assertSelect
      txByte (← get).params.spiCtrlRead
      let b ← spiIn
      recordByte b
      releaseSelect
      return some b
    else return none

end Sys2Proof.Machine
end

