-- ==== Sys2Proof/Machine/Engine.lean ====
section
/-! DEFINITION. CommandEngine (spec/42_command_engine.md R230 to R249): the chip transaction, the echo attempt and
probe, the convenience operations. -/

namespace Sys2Proof.Machine

/-! ## The transaction -/

/-- dev_state moves to AWAITING_RESPONSE, resume_state keeping the state before it (R230, R231). -/
def enterAwaiting : Proc Unit :=
  modify fun s => { s with mode.resume := s.mode.dev, mode.dev := .awaitingResponse, txn.phase := .send }

/-- The transaction is over: txn_phase = T_NONE, dev_state = resume_state (R230, R231). -/
def leaveAwaiting : Proc Unit :=
  modify fun s => { s with txn.phase := .none, mode.dev := s.mode.resume }

/-- The first success leaves UNINITIALIZED (R234). -/
def leaveUninitialized : Proc Unit :=
  modify fun s => if s.mode.dev = .uninitialized then { s with mode.dev := .idle } else s

/-- The status and length checks of a complete frame (R230, R232, R233), last_status kept. -/
def judgeFrame (c : FrameCmd) (ok status : Byte) (payload : List Byte) : Proc Reception := do
  modify fun s => { s with txn.lastStatus := status }
  if status ≠ ok then return .noResponse
  else if lenAccepted ((← get).params.respLen c) payload.length = false then return .malformedFrame
  else
    leaveUninitialized
    return .frame status payload

/-- ChipTxn (R230). Every success set of R232 has one status. -/
def chipTxn (c : FrameCmd) (payload : List Byte) (kind : DeadlineKind) (ok : Byte) : Proc Reception := do
  settle
  enterAwaiting
  send ((← get).params.opcode c) payload
  let r ← receive kind
  leaveAwaiting
  match r with
  | .frame status body => judgeFrame c ok status body
  | other => return other

/-! ## The eight chip commands -/

/-- IDN (R236). -/
def idn : Proc Reception := do
  chipTxn .idn [] .noresp (← get).params.stOk

/-- PROTOCOL (R237). Its effects on the state are its callers': SelectProtocol, FieldOff, and the CommandEngine's entry
(protocolAtEntry). -/
def protocol (wire param : Byte) : Proc Reception := do
  chipTxn .protocol [wire, param] .noresp (← get).params.stOk

/-- SEND_RECV (R238). -/
def sendRecv (b : List Byte) : Proc Reception := do
  chipTxn .sendRecv b .detect (← get).params.stData

/-- IDLE (R239). -/
def idleCmd : Proc Reception := do
  let s ← get
  chipTxn .idle s.params.idleParams .noresp s.params.stOk

/-- READ_REG (R240). -/
def readReg (q : List Byte) : Proc Reception := do
  chipTxn .readReg q .noresp (← get).params.stOk

/-- WRITE_REG (R241). -/
def writeReg (q : List Byte) : Proc Reception := do
  chipTxn .writeReg q .noresp (← get).params.stOk

/-- A success of this command sets settle_pending (R37, R208): BAUDRATE, and PROTOCOL with a wire_pid other than
FIELD_OFF's. -/
def setsSettle (p : Params) (c : FrameCmd) (payload : List Byte) : Bool :=
  match c, payload with
  | .baudrate, _ => true
  | .protocol, wire :: _ => wire != p.pidFieldOff
  | _, _ => false

/-- What a framed command's result does to settle_pending (R208). -/
def settleAfter (c : FrameCmd) (payload : List Byte) (r : Reception) : Proc Reception := do
  match r with
  | .frame status body =>
    modify fun s => { s with txn.settlePending := s.txn.settlePending || setsSettle s.params c payload }
    return .frame status body
  | other => return other

/-- BAUDRATE (R242): a success sets settle_pending (R208(c)). -/
def baudrate (q : List Byte) : Proc Reception := do
  settleAfter .baudrate q (← chipTxn .baudrate q .noresp (← get).params.stOk)

/-- PROTOCOL at the CommandEngine's entry: a success that selects a protocol other than FIELD_OFF sets settle_pending
(R37, R92, R208(b)), although R237 leaves the state's changes to its callers and this one has no caller inside the
engine; proto_cfg and dev_state, which only SelectProtocol and FieldOff write (R245, R249), keep R237's silence
(DEDUCED, log entry 28). -/
def protocolAtEntry (wire param : Byte) : Proc Reception := do
  settleAfter .protocol [wire, param] (← protocol wire param)

/-- The judgement of an echo reply (R243): last_status keeps the byte, ALIVE is true. -/
def judgeEcho : Option Byte → Proc Bool
  | none => return false
  | some b => do
    modify fun s => { s with txn.lastStatus := b }
    if b ≠ (← get).params.echoByte then return false
    else
      leaveUninitialized
      return true

/-- ECHO, one attempt (R243): ALIVE is true. -/
def echoAttempt : Proc Bool := do
  settle
  enterAwaiting
  echoSend
  let b ← echoReceive
  leaveAwaiting
  judgeEcho b

/-! ## Convenience operations -/

/-- GetIdn (R244). -/
def getIdn : Proc Reception := idn

/-- The attempts that are left of an echo probe (R248). -/
def echoLoop : Nat → Proc Bool
  | 0 => do
    modify fun s => { s with mode.dev := .error }
    return false
  | n + 1 => do
    modify fun s => { s with txn.echoTry := s.txn.echoTry + 1 }
    if ← echoAttempt then return true
    else echoLoop n

/-- Echo (R248): up to ECHO_ATTEMPTS attempts; false leaves dev_state = ERROR. -/
def echoProbe : Proc Bool := do
  modify fun s => { s with txn.echoTry := 0 }
  echoLoop (← get).params.echoAttempts

/-- A reception as the result of a named operation: OK or the failure (R245, R247, R249). -/
def Reception.code : Reception → OutcomeCode
  | .frame _ _ => .ok
  | .noResponse => .noResponse
  | .malformedFrame => .malformedFrame

/-- SelectProtocol (R245), for a protocol other than FIELD_OFF. -/
def selectProtocol (cfg : ProtoCfg) : Proc OutcomeCode := do
  let p := (← get).params
  match ← protocol (wirePid p cfg.pid) (protoParam p cfg) with
  | .frame _ _ =>
    modify fun s =>
      { s with
        mode.cfg := cfg
        mode.dev := .fieldOn
        txn.settlePending := true }
    return .ok
  | other => return other.code

/-- SendReceive (R246): the reply payload of a success. -/
def sendReceive (b : List Byte) : Proc Reception := sendRecv b

/-- Idle (R247): dev_state = IDLE whatever the result. -/
def goIdle : Proc OutcomeCode := do
  let r ← idleCmd
  modify fun s => { s with mode.dev := .idle }
  return r.code

/-- FieldOff (R249): on success the Tag is discarded; settle_pending is not set. -/
def fieldOff : Proc OutcomeCode := do
  let p := (← get).params
  match ← protocol p.pidFieldOff p.fieldOffParam with
  | .frame _ _ =>
    modify fun s =>
      { s with
        mode.cfg := .plain .fieldOff
        mode.dev := .idle
        tag.valid := false }
    return .ok
  | other => return other.code

/-! ## The generic entry -/

/-- What Execute returns (R235): a reception, or the echo probe's answer. -/
inductive ExecuteResult where
  | response (r : Reception)
  | alive (yes : Bool)
  deriving DecidableEq, Repr

/-- Execute (R235): a framed command by R115's table, or ECHO (none), which is the whole probe. A success of BAUDRATE,
and of PROTOCOL for a protocol other than FIELD_OFF, sets settle_pending here too (R208; DEDUCED, log entries 24 and
28). No host request reaches it with a command of the caller's choice. -/
def execute (cmd : Option FrameCmd) (params : List Byte) : Proc ExecuteResult := do
  match cmd with
  | none => return .alive (← echoProbe)
  | some c =>
    return .response (← settleAfter c params (← chipTxn c params (kindOf c) (okStatus (← get).params c)))

end Sys2Proof.Machine
end

