-- ==== Sys2Proof/Machine/Selector.lean ====
section
/-! DEFINITION. ProtocolSelector (spec/43_protocol_selector.md R290 to R295). -/

namespace Sys2Proof.Machine

/-- The configuration is already in force: FIELD_ON and equal in all three fields (R295). -/
def State.configured (s : State) (cfg : ProtoCfg) : Bool :=
  s.mode.dev == .fieldOn && s.mode.cfg == cfg

/-- SelectAir with the configuration its operands ask for (R290, R294, R295). -/
def applyConfig (cfg : ProtoCfg) : Proc OutcomeCode := do
  if cfg.pid = .fieldOff then fieldOff
  else if (← get).configured cfg then
    if ← echoProbe then return .ok
    else return .deviceFault
  else selectProtocol cfg

/-- SelectAir (R290): the result is OK, NoResponse, MalformedFrame or DeviceFault. -/
def selectAir (pid tx rx : Byte) : Proc OutcomeCode := do
  match airConfig pid tx rx with
  | none => raiseOutcome .invalidRequest
  | some cfg => applyConfig cfg

end Sys2Proof.Machine
end

