-- ==== Sys2Proof/Machine/Cascade.lean ====
section
/-! DEFINITION. AnticollisionEngine (spec/44_anticollision.md R310 to R326): the cascade's entry, its three kinds
of step, UID accumulation, the Tag. -/

namespace Sys2Proof.Machine

/-- What a step of the cascade leads to (R310): the next position, or a terminal result. -/
inductive StepResult where
  | goOn
  | noTag
  | failed
  | tag
  deriving DecidableEq, Repr

/-- `ac_step <- a` (R48). -/
def setAcStep (a : AcStep) : Proc Unit :=
  modify fun s => { s with ac.step := a }

/-- A terminal result of the cascade: ac_step = AC_DONE (R310). -/
def endCascade (r : StepResult) : Proc StepResult := do
  setAcStep .done
  return r

/-- CascadeEntry (R312). -/
def cascadeEntry : Proc Unit :=
  modify fun s =>
    { s with
      tag.valid := false
      ac.level := none
      ac.uidLen := 0
      ac.ctPresent := false
      ac.complete := false
      ac.atqa0 := 0x00#8
      ac.atqa1 := 0x00#8
      ac.sizeClass := 0#2
      ac.sak := 0x00#8
      ac.step := .reqa }

/-- CaptureAtqa (R315). -/
def captureAtqa (a0 a1 : Byte) : Proc Unit :=
  modify fun s => { s with ac.atqa0 := a0, ac.atqa1 := a1, ac.sizeClass := sizeClassOf a0 }

/-- StepReqa (R313, R314). -/
def stepReqa : Proc StepResult := do
  let p := (← get).params
  match ← sendReceive (reqaBytes p) with
  | .noResponse => endCascade .noTag
  | .malformedFrame => endCascade .failed
  | .frame _ (a0 :: a1 :: trailer) =>
    if (a0 :: a1 :: trailer).length ≠ reqaReplyLen p then endCascade .failed
    else
      captureAtqa a0 a1
      modify fun s => { s with ac.level := some .l1, ac.step := .anticol }
      return .goOn
  | .frame _ _ => endCascade .failed

/-- StepAnticol (R316 to R318). -/
def stepAnticol (n : Level) : Proc StepResult := do
  let p := (← get).params
  match ← sendReceive (anticolBytes p n) with
  | .frame _ (c0 :: c1 :: c2 :: c3 :: b :: trailer) =>
    if (c0 :: c1 :: c2 :: c3 :: b :: trailer).length ≠ anticolReplyLen p then endCascade .failed
    else
      storeBytes .cand 0 [c0, c1, c2, c3, b]
      if bccOk p c0 c1 c2 c3 b then
        setAcStep .select
        return .goOn
      else endCascade .failed
  | _ => endCascade .failed

/-- UID bytes appended to uid_buf, uid_len counting them (R322, R323, R84). -/
def appendUid (bytes : List Byte) : Proc Unit := do
  storeBytes .uid (← get).ac.uidLen bytes
  modify fun s => { s with ac.uidLen := s.ac.uidLen + bytes.length }

/-- Cascaded (R322, R319, R324): the SAK has the cascade bit set. -/
def cascaded (n : Level) (c0 c1 c2 c3 : Byte) : Proc StepResult := do
  modify fun s => { s with ac.ctPresent := true }
  if markerBad (← get).params c0 then endCascade .failed
  else
    match n.next with
    | none => endCascade .failed
    | some m =>
      appendUid [c1, c2, c3]
      modify fun s => { s with ac.level := some m, ac.step := .anticol }
      return .goOn

/-- MakeTag (R326). -/
def makeTag : Proc StepResult := do
  let s ← get
  let uid ← loadBytes .uid 0 s.ac.uidLen
  storeBytes .tagUid 0 uid
  modify fun s =>
    { s with
      tag.len := s.ac.uidLen
      tag.atqa0 := s.ac.atqa0
      tag.atqa1 := s.ac.atqa1
      tag.sak := s.ac.sak
      tag.valid := true }
  endCascade .tag

/-- Complete (R323): the SAK has the cascade bit clear. -/
def completeUid (c0 c1 c2 c3 : Byte) : Proc StepResult := do
  modify fun s => { s with ac.ctPresent := false, ac.complete := true }
  appendUid [c0, c1, c2, c3]
  makeTag

/-- The rest of StepSelect once its reply has come (R320, R321). -/
def judgeSelect (n : Level) (c0 c1 c2 c3 : Byte) (reply : List Byte) : Proc StepResult := do
  let p := (← get).params
  match reply with
  | k :: more =>
    if (k :: more).length ≠ selectReplyLen p then endCascade .failed
    else
      modify fun s => { s with ac.sak := k }
      if cascadeBit p k then cascaded n c0 c1 c2 c3
      else completeUid c0 c1 c2 c3
  | [] => endCascade .failed

/-- StepSelect (R320) with the candidate bytes it sends and accumulates. -/
def stepSelect (n : Level) (c0 c1 c2 c3 b : Byte) : Proc StepResult := do
  match ← sendReceive (selectBytes (← get).params n c0 c1 c2 c3 b) with
  | .frame _ reply => judgeSelect n c0 c1 c2 c3 reply
  | _ => endCascade .failed

/-- StepSelect with the candidate bytes of cand (R320, R45). -/
def stepSelectCand (n : Level) : Proc StepResult := do
  let c0 ← loadByte .cand 0
  let c1 ← loadByte .cand 1
  let c2 ← loadByte .cand 2
  let c3 ← loadByte .cand 3
  let b ← loadByte .cand 4
  stepSelect n c0 c1 c2 c3 b

/-- The levels that are left: ANTICOL and SELECT at each while the cascade goes on (R310). Level 3 never goes
on (R324). -/
def cascadeLevels : List Level → Proc StepResult
  | [] => return .failed
  | n :: rest => do
    match ← stepAnticol n with
    | .goOn =>
      match ← stepSelectCand n with
      | .goOn => cascadeLevels rest
      | r => return r
    | r => return r

/-- The cascade: entry, REQA, then up to three levels (R310). -/
def cascade : Proc StepResult := do
  cascadeEntry
  match ← stepReqa with
  | .goOn => cascadeLevels [.l1, .l2, .l3]
  | r => return r

end Sys2Proof.Machine
end

