-- ==== Sys2Proof/Machine/Requests.lean ====
section
/-! DEFINITION. The host requests' procedures and their dispatcher's checks (spec/45_host_requests.md R361 to
R373). -/

namespace Sys2Proof.Machine

/-- TagData (R134, R363), read from the Tag register, which is never read while tag_valid = 0 (R59). -/
def tagData : Proc (List Byte) := do
  let s ← get
  if s.tag.valid then
    let uid ← loadBytes .tagUid 0 s.tag.len
    return tagReply uid s.tag.atqa0 s.tag.atqa1 s.tag.sak
  else throw (.fault .tagRead)

/-- The end of a request that ran the cascade (R364, R369): the Tag reply, or the failure with no data; nothing
while the cascade goes on. -/
def cascadeReply : StepResult → Proc Unit
  | .goOn => return ()
  | .noTag => finish .noTagDetected []
  | .failed => finish .anticollisionFailed []
  | .tag => do
    finish .ok (← tagData)

/-- RADIO_SCAN (R364). -/
def radioScan : Proc Unit := do
  match ← selectAir 2#8 0#8 0#8 with
  | .ok => cascadeReply (← cascade)
  | code => raiseOutcome code

/-- ECHO_TEST (R365). -/
def echoTest : Proc Unit := do
  if ← echoProbe then finish .ok []
  else finish .deviceFault []

/-- GET_CHIP_ID (R367). -/
def getChipId : Proc Unit := do
  match ← getIdn with
  | .frame _ payload => finish .ok payload
  | other => finish other.code []

/-- GET_UID (R368). -/
def getUid : Proc Unit := do
  if (← get).tag.valid then finish .ok (← tagData)
  else finish .noTagDetected []

/-- RUN_ANTICOL (R369). -/
def runAnticol : Proc Unit := do
  cascadeReply (← cascade)

/-- GO_IDLE (R370). -/
def goIdleReq : Proc Unit := do
  finish (← goIdle) []

/-- SELECT_PROTOCOL (R371); its payload has been checked to be three bytes. -/
def selectProtocolReq : List Byte → Proc Unit
  | [pid, tx, rx] => do
    finish (← selectAir pid tx rx) []
  | _ => raiseOutcome .invalidRequest

/-- FIELD_OFF (R372). -/
def fieldOffReq : Proc Unit := do
  finish (← fieldOff) []

/-- The length check of R361(c). -/
def lengthWrong (k : RequestKind) (payload : List Byte) : Bool :=
  match payloadLen k with
  | some n => payload.length != n
  | none => false

/-- HostRequest (R373): the checks in their order, then the request's procedure. A selector of 0x09 or above
has no kind and never comes here (R361(a)). -/
def hostRequest (k : RequestKind) (payload : List Byte) (body : Proc Unit) : Proc Unit := do
  let s ← get
  if k = .calibration then raiseOutcome .unsupported
  else if lengthWrong k payload then raiseOutcome .invalidRequest
  else if k = .selectProtocol && !validCfg payload then raiseOutcome .invalidRequest
  else if s.mode.dev = .error && !allowedInError k then raiseOutcome .deviceFault
  else if !allowed k s.mode.dev s.mode.cfg then raiseOutcome .notReady
  else body

/-- A reserved selector's request (R361(a), R136): InvalidRequest, no traffic. -/
def reservedRequest : Proc Unit :=
  raiseOutcome .invalidRequest

end Sys2Proof.Machine
end

