-- ==== Sys2Proof/Machine/Air.lean ====
section
/-! DEFINITION. The meanings of the seven air rows: one step of the cascade (R313, R316, R320) and, where the step
ends the cascade, the end of the request that runs it (R364, R369; log entry 17). -/

namespace Sys2Proof.Machine

/-- A cascade step run at its position. -/
def runStep (p : Proc StepResult) : Proc Unit := do
  cascadeReply (← p)

/-- REQA (R313). -/
def execReqa (s : State) : Host.Outcome State Fault Refusal :=
  conclude (runStep stepReqa) s

/-- ANTICOL at level 1 (R316). -/
def execAnticolL1 (s : State) : Host.Outcome State Fault Refusal :=
  conclude (runStep (stepAnticol .l1)) s

/-- ANTICOL at level 2 (R316). -/
def execAnticolL2 (s : State) : Host.Outcome State Fault Refusal :=
  conclude (runStep (stepAnticol .l2)) s

/-- ANTICOL at level 3 (R316). -/
def execAnticolL3 (s : State) : Host.Outcome State Fault Refusal :=
  conclude (runStep (stepAnticol .l3)) s

/-- SELECT at level 1 (R320). -/
def execSelectL1 (c0 c1 c2 c3 bcc : Byte) (s : State) : Host.Outcome State Fault Refusal :=
  conclude (runStep (stepSelect .l1 c0 c1 c2 c3 bcc)) s

/-- SELECT at level 2 (R320). -/
def execSelectL2 (c0 c1 c2 c3 bcc : Byte) (s : State) : Host.Outcome State Fault Refusal :=
  conclude (runStep (stepSelect .l2 c0 c1 c2 c3 bcc)) s

/-- SELECT at level 3 (R320). -/
def execSelectL3 (c0 c1 c2 c3 bcc : Byte) (s : State) : Host.Outcome State Fault Refusal :=
  conclude (runStep (stepSelect .l3 c0 c1 c2 c3 bcc)) s

end Sys2Proof.Machine
end

