-- ==== Sys2Proof/Machine/Chip.lean ====
section
/-! DEFINITION. The meanings of the eight chip rows: the command's own procedure (R236 to R243), what it returns
kept in callResult (log entry 15). ECHO is one attempt (log entry 16). The convenience operations' state effects
(R244 to R249) belong to their callers. -/

namespace Sys2Proof.Machine

/-- A reception as what the caller gets. -/
def Reception.result : Reception → CallResult
  | .frame status payload => .frame status payload
  | .noResponse => .noResponse
  | .malformedFrame => .malformedFrame

/-- An echo attempt's answer as what the caller gets (R243). -/
def echoResult (alive : Bool) : CallResult :=
  if alive then .alive else .fail

/-- What a command returned, kept for the caller. -/
def keepResult (r : CallResult) : Proc Unit :=
  modify fun s => { s with out.callResult := some r }

/-- A framed command run for its caller. -/
def callFramed (p : Proc Reception) : Proc Unit := do
  keepResult (← p).result

/-- IDN (R236). -/
def execIdn (s : State) : Host.Outcome State Fault Refusal :=
  conclude (callFramed idn) s

/-- PROTOCOL (R237), run at the CommandEngine's entry with no SelectProtocol or FieldOff around it: a success with a
wire_pid other than FIELD_OFF's sets settle_pending (R208(b)) and nothing else of the mode changes (DEDUCED, log entry
28). -/
def execProtocol (wire param : Byte) (s : State) : Host.Outcome State Fault Refusal :=
  conclude (callFramed (protocolAtEntry wire param)) s

/-- SEND_RECV (R238). -/
def execSendRecv (air : List Byte) (s : State) : Host.Outcome State Fault Refusal :=
  conclude (callFramed (sendRecv air)) s

/-- IDLE (R239). -/
def execIdle (s : State) : Host.Outcome State Fault Refusal :=
  conclude (callFramed idleCmd) s

/-- READ_REG (R240). -/
def execReadReg (q : List Byte) (s : State) : Host.Outcome State Fault Refusal :=
  conclude (callFramed (readReg q)) s

/-- WRITE_REG (R241). -/
def execWriteReg (q : List Byte) (s : State) : Host.Outcome State Fault Refusal :=
  conclude (callFramed (writeReg q)) s

/-- BAUDRATE (R242). -/
def execBaudrate (q : List Byte) (s : State) : Host.Outcome State Fault Refusal :=
  conclude (callFramed (baudrate q)) s

/-- ECHO, one attempt (R243). -/
def execEcho (s : State) : Host.Outcome State Fault Refusal :=
  conclude (do keepResult (echoResult (← echoAttempt))) s

end Sys2Proof.Machine
end

