-- ==== Sys2Proof/Machine/Host.lean ====
section
/-! DEFINITION. The meanings of the nine host rows: the whole request, from R373's checks to its one Finish
(R363), as the HOST sees it (R88(c)), in one step (log entry 14). -/

namespace Sys2Proof.Machine

/-- RADIO_SCAN (R364). -/
def execRadioScan (payload : List Byte) (s : State) : Host.Outcome State Fault Refusal :=
  conclude (hostRequest .radioScan payload radioScan) s

/-- ECHO_TEST (R365). -/
def execEchoTest (payload : List Byte) (s : State) : Host.Outcome State Fault Refusal :=
  conclude (hostRequest .echoTest payload echoTest) s

/-- CALIBRATION (R366): Unsupported in every state, whatever its payload. -/
def execCalibration (payload : List Byte) (s : State) : Host.Outcome State Fault Refusal :=
  conclude (hostRequest .calibration payload (raiseOutcome .unsupported)) s

/-- GET_CHIP_ID (R367). -/
def execGetChipId (payload : List Byte) (s : State) : Host.Outcome State Fault Refusal :=
  conclude (hostRequest .getChipId payload getChipId) s

/-- GET_UID (R368). -/
def execGetUid (payload : List Byte) (s : State) : Host.Outcome State Fault Refusal :=
  conclude (hostRequest .getUid payload getUid) s

/-- RUN_ANTICOL (R369). -/
def execRunAnticol (payload : List Byte) (s : State) : Host.Outcome State Fault Refusal :=
  conclude (hostRequest .runAnticol payload runAnticol) s

/-- GO_IDLE (R370). -/
def execGoIdle (payload : List Byte) (s : State) : Host.Outcome State Fault Refusal :=
  conclude (hostRequest .goIdle payload goIdleReq) s

/-- SELECT_PROTOCOL (R371). -/
def execSelectProtocol (payload : List Byte) (s : State) : Host.Outcome State Fault Refusal :=
  conclude (hostRequest .selectProtocol payload (selectProtocolReq payload)) s

/-- FIELD_OFF (R372). -/
def execFieldOff (payload : List Byte) (s : State) : Host.Outcome State Fault Refusal :=
  conclude (hostRequest .fieldOff payload fieldOffReq) s

end Sys2Proof.Machine
end

