-- ==== Sys2Proof/Machine/Dispatch.lean ====
section
/-! DEFINITION. One arm per constructor of Instr, each one direct call of its meaning. -/

namespace Sys2Proof.Machine

def exec (i : Instr) (s : State) : Host.Outcome State Fault Refusal :=
  match i with
  | .radioScan payload => Sys2Proof.Machine.execRadioScan payload s
  | .echoTest payload => Sys2Proof.Machine.execEchoTest payload s
  | .calibration payload => Sys2Proof.Machine.execCalibration payload s
  | .getChipId payload => Sys2Proof.Machine.execGetChipId payload s
  | .getUid payload => Sys2Proof.Machine.execGetUid payload s
  | .runAnticol payload => Sys2Proof.Machine.execRunAnticol payload s
  | .goIdle payload => Sys2Proof.Machine.execGoIdle payload s
  | .selectProtocol payload => Sys2Proof.Machine.execSelectProtocol payload s
  | .fieldOff payload => Sys2Proof.Machine.execFieldOff payload s
  | .idn => Sys2Proof.Machine.execIdn s
  | .protocol wire param => Sys2Proof.Machine.execProtocol wire param s
  | .sendRecv air => Sys2Proof.Machine.execSendRecv air s
  | .idle => Sys2Proof.Machine.execIdle s
  | .readReg q => Sys2Proof.Machine.execReadReg q s
  | .writeReg q => Sys2Proof.Machine.execWriteReg q s
  | .baudrate q => Sys2Proof.Machine.execBaudrate q s
  | .echo => Sys2Proof.Machine.execEcho s
  | .reqa => Sys2Proof.Machine.execReqa s
  | .anticolL1 => Sys2Proof.Machine.execAnticolL1 s
  | .anticolL2 => Sys2Proof.Machine.execAnticolL2 s
  | .anticolL3 => Sys2Proof.Machine.execAnticolL3 s
  | .selectL1 c0 c1 c2 c3 bcc => Sys2Proof.Machine.execSelectL1 c0 c1 c2 c3 bcc s
  | .selectL2 c0 c1 c2 c3 bcc => Sys2Proof.Machine.execSelectL2 c0 c1 c2 c3 bcc s
  | .selectL3 c0 c1 c2 c3 bcc => Sys2Proof.Machine.execSelectL3 c0 c1 c2 c3 bcc s

end Sys2Proof.Machine
end

