-- ==== Sys2Proof/Machine/Fetch.lean ====
section
/-! DEFINITION. Where a step finds its next instruction (R48, R360, R235): the control position says which bytes
stand there, and the decoder reads them. Placing an instruction there stands beside it. -/

namespace Sys2Proof.Machine

/-- The cascade position (ac_step, ac_level) of R310 that the sequencer stands at while a request runs. -/
inductive Position where
  /-- No cascade position: a latched request waits to be run. -/
  | request
  | reqa
  | anticol (n : Level)
  | select (n : Level)
  /-- AC_ANTICOL or AC_SELECT with ac_level 0: no position of R310. -/
  | broken
  deriving DecidableEq, Repr

/-- The position of the sequencer (R48). -/
def State.position (s : State) : Position :=
  match s.ac.step, s.ac.level with
  | .off, _ => .request
  | .done, _ => .request
  | .reqa, _ => .reqa
  | .anticol, some n => .anticol n
  | .select, some n => .select n
  | _, none => .broken

/-- The bytes of the latched request: selector, length, payload (R131, R32). -/
def requestBytes : Proc (List Byte) := do
  let s ← get
  let payload ← loadBytes .req 0 s.host.reqLen
  return s.host.reqSel :: BitVec.ofNat 8 s.host.reqLen :: payload

/-- The air bytes of SELECT at a level, from cand (R126, R320). -/
def selectFetch (n : Level) : Proc (List Byte) := do
  let c0 ← loadByte .cand 0
  let c1 ← loadByte .cand 1
  let c2 ← loadByte .cand 2
  let c3 ← loadByte .cand 3
  let b ← loadByte .cand 4
  return selectBytes (← get).params n c0 c1 c2 c3 b

/-- The instruction bytes that stand at the control position with their space, none where nothing is to run. At
READY a command at the CommandEngine's entry comes before the HOST's next step (log entry 15). -/
def fetchBytes : Proc (Option (Space × List Byte)) := do
  let s ← get
  match s.host.phase with
  | .done => return none
  | .ready =>
    match s.env.chipCall with
    | some bytes => return some (.chip, bytes)
    | none => return none
  | .busy =>
    match s.position with
    | .request => return some (.host, ← requestBytes)
    | .reqa => return some (.air, reqaBytes s.params)
    | .anticol n => return some (.air, anticolBytes s.params n)
    | .select n => return some (.air, ← selectFetch n)
    | .broken => throw (.fault .noPosition)

/-- What a step is to do. -/
inductive Fetched where
  /-- Run this instruction. -/
  | run (i : Instr)
  /-- A request with a reserved selector: InvalidRequest (R361(a)). -/
  | reserved
  /-- Nothing to run: a step of the HOST or the CLOCK. -/
  | nothing
  | fault (f : Fault)
  | refused (r : Refusal)
  deriving Repr

/-- Bytes of a space read by the decoder. A frame ends where its length byte says; what follows is not read. -/
def readInstr (p : Params) (space : Space) (bytes : List Byte) : Fetched :=
  match decode p space bytes with
  | .ok (i, _) => .run i
  | .error (.reservedSelector sel) =>
    if space = .host then .reserved else .refused (.undecodable space (.reservedSelector sel))
  | .error e => .refused (.undecodable space e)

/-- The fetch: it changes nothing. -/
def fetch (s : State) : Fetched :=
  match fetchBytes.run s with
  | .ok none _ => .nothing
  | .ok (some (space, bytes)) _ => readInstr s.params space bytes
  | .error (.fault f) _ => .fault f
  | .error _ _ => .nothing

/-- The state an instruction runs in: a command taken from the CommandEngine's entry is no longer there. -/
def State.accept (s : State) (i : Instr) : State :=
  if i.space = .chip then { s with env.chipCall := none } else s

/-- The sequencer stood at a cascade position, no reset due. -/
def State.standAt (s : State) (a : AcStep) (n : Option Level) : State :=
  { s with host.phase := .busy, ac.step := a, ac.level := n, env.resetLine := [] }

/-- An air instruction placed at its position (R310); SELECT's candidate bytes go into cand. -/
def State.placeAir (s : State) : Instr → State
  | .reqa => s.standAt .reqa none
  | .anticolL1 => s.standAt .anticol (some .l1)
  | .anticolL2 => s.standAt .anticol (some .l2)
  | .anticolL3 => s.standAt .anticol (some .l3)
  | .selectL1 c0 c1 c2 c3 b =>
    { s.standAt .select (some .l1) with ac.cand := s.ac.cand.writeRange 0 [c0, c1, c2, c3, b] }
  | .selectL2 c0 c1 c2 c3 b =>
    { s.standAt .select (some .l2) with ac.cand := s.ac.cand.writeRange 0 [c0, c1, c2, c3, b] }
  | .selectL3 c0 c1 c2 c3 b =>
    { s.standAt .select (some .l3) with ac.cand := s.ac.cand.writeRange 0 [c0, c1, c2, c3, b] }
  | _ => s

/-- A request latched as Present latches it, its payload empty (R360). -/
def State.placeRequest (s : State) (sel : Byte) : State :=
  { s.present sel [] with ac.step := .off, env.resetLine := [] }

/-- A command frame at the CommandEngine's entry (R235). -/
def State.placeCall (s : State) (bytes : List Byte) : State :=
  { s with host.phase := .ready, env.chipCall := some bytes, env.resetLine := [] }

/-- A word of the opcode table placed where the next step fetches it. -/
def State.placeTableWord (s : State) (nbits w : Nat) : State :=
  match tableWordBytes nbits w with
  | (.host, _) => s.placeRequest (BitVec.ofNat 8 w)
  | (.chip, bytes) => s.placeCall bytes
  | (.air, _) =>
    match decodeTableWord nbits w with
    | some i => s.placeAir i
    | none => s

end Sys2Proof.Machine
end

