-- ==== Sys2Proof/Machine/Step.lean ====
section
/-! DEFINITION. One step of the machine: a due reset (R451), else the instruction that stands at the control
position, else a step of the HOST or the CLOCK (R10). -/

namespace Sys2Proof.Machine

/-- One step. -/
def step (s : State) : Host.Outcome State Fault Refusal :=
  if s.resetDue then .next s.resetAction
  else
    match fetch s with
    | .run i => exec i (s.accept i)
    | .reserved => conclude reservedRequest s
    | .nothing => conclude hostTurn s
    | .fault f => .fault f
    | .refused r => .refused r

/-- The state with a word of the opcode table where step fetches its next instruction (log entry 13). -/
def State.withFetchWord (s : State) (nbits w : Nat) : State :=
  s.placeTableWord nbits w

end Sys2Proof.Machine
end

