-- ==== Sys2Proof/Safety.lean ====
section
/-! DEFINITION. The terms the statements use: the invariants of spec/10_state.md R33 to R60 at a step boundary, and
what the CHIP does during an exchange, said of the inputs alone. -/

namespace Sys2Proof.Machine

/-! ## Invariants at a step boundary -/

/-- The first n bytes of a buffer have all been written. -/
def Memory.filled (m : Memory) (n : Nat) : Bool :=
  (m.readRange 0 n).isSome

/-- Every buffer's storage is in canonical form and inside the buffer's size (R81). -/
def State.buffersWf (s : State) : Prop :=
  ∀ b : Buf, (s.buf b).wf = true ∧ (s.buf b).within (bufSize s.params b) = true

/-- R33 and R401: rsp_valid is 1 exactly in DONE, and then the reply is whole, its first byte is the outcome code,
rsp_ok is 1 exactly for OK, and a reply that is not OK carries no data. -/
structure State.ReplyWf (s : State) : Prop where
  valid_iff : s.host.rspValid = true ↔ s.host.phase = .done
  code : s.host.phase = .done → s.host.rspBuf.read 0 = some s.host.lastOutcome.byte
  ok_iff : s.host.phase = .done → (s.host.rspOk = true ↔ s.host.lastOutcome = .ok)
  filled : s.host.phase = .done → s.host.rspBuf.filled s.host.rspLen = true
  len : s.host.phase = .done → 1 ≤ s.host.rspLen ∧ s.host.rspLen ≤ 255
  failure_bare : s.host.phase = .done → s.host.rspOk = false → s.host.rspLen = 1

/-- R32: a latched request's payload has been written and fits its buffer. -/
structure State.RequestWf (s : State) : Prop where
  filled : s.host.phase = .busy → s.host.reqBuf.filled s.host.reqLen = true
  len : s.host.phase = .busy → s.host.reqLen ≤ 254

/-- R34 to R36, R60(a), R60(e): between steps no transaction is in flight, dev_state and resume_state are no
AWAITING_RESPONSE, and proto_cfg is one the selector makes, not FIELD_OFF while the field is on. -/
structure State.ModeWf (s : State) : Prop where
  dev : s.mode.dev ≠ .awaitingResponse
  resume : s.mode.resume ≠ .awaitingResponse
  txn : s.txn.phase = .none
  cfg : s.mode.cfg.wf = true
  field : s.mode.dev = .fieldOn → s.mode.cfg.pid ≠ .fieldOff

/-- R44, R60(b), R60(d), R311: where the cascade stands; while one runs there is no Tag (R312, R325). -/
structure State.CascadeWf (s : State) : Prop where
  uid_len : s.ac.uidLen ∈ [0, 3, 4, 6, 7, 10]
  uid_filled : s.ac.uidBuf.filled s.ac.uidLen = true
  ready : s.host.phase ≠ .busy → s.ac.step = .off ∨ s.ac.step = .done
  at_reqa : s.ac.step = .reqa → s.ac.level = none ∧ s.ac.uidLen = 0
  at_level : s.ac.step = .anticol ∨ s.ac.step = .select →
    ∃ n, s.ac.level = some n ∧ s.ac.uidLen = 3 * (n.num - 1)
  cand : s.ac.step = .select → s.ac.cand.filled 5 = true
  field : s.ac.step ≠ .off → s.ac.step ≠ .done → s.mode.dev = .fieldOn ∧ s.mode.cfg = cascadeCfg
  no_tag : s.ac.step ≠ .off → s.ac.step ≠ .done → s.tag.valid = false

/-- R50, R60(c): the Tag register while it is valid. -/
structure State.TagWf (s : State) : Prop where
  len : s.tag.valid = true → s.tag.len ∈ [4, 7, 10]
  filled : s.tag.valid = true → s.tag.uid.filled s.tag.len = true

/-- What holds between steps. -/
structure State.Inv (s : State) : Prop where
  params : s.params.wf = true
  buffers : s.buffersWf
  reply : s.ReplyWf
  request : s.RequestWf
  mode : s.ModeWf
  cascade : s.CascadeWf
  tag : s.TagWf
  tries : s.txn.echoTry ≤ s.params.echoAttempts

/-! ## The CHIP's side of an exchange -/

/-- The reset input is not asserted before a tick. -/
def State.quietUntil (s : State) (t : Nat) : Prop :=
  ∀ r ∈ s.env.resetLine.head?, t ≤ r

/-- When the next transmission leaves, a pending settle waited out (R207). -/
def State.sendTime (s : State) : Nat :=
  if s.txn.settlePending then s.now + s.params.tRamp + s.params.tOsc else s.now

/-- The inputs once the flush before transmission n, which leaves at time t, has discarded every waiting byte
(R166, R95); under SPI nothing is flushed. -/
def ChipLine.flushed (p : Params) (n t : Nat) (line : ChipLine) : ChipLine :=
  match p.transport with
  | .uart => { line with rx := line.rx.dropWhile fun a => a.time ≤ t && a.after < n }
  | .spi => line

/-- Bytes of one response in time under UART (R209): each strictly before the overall deadline and before T_IB has
run since the byte before it, the last of which came at the given time. -/
def bytesInTime (n dl ib : Nat) : Nat → List Arrival → Prop
  | _, [] => True
  | last, a :: as => a.after ≤ n ∧ a.time < min dl (last + ib) ∧ bytesInTime n dl ib (max last a.time) as

/-- When the last of them has come. -/
def lastArrival (t : Nat) (as : List Arrival) : Nat :=
  as.foldl (fun u a => max u a.time) t

/-- The channel's next byte, if there is one, does not come before a time after n transmissions. -/
def NoneBefore (n limit : Nat) (rx : List Arrival) : Prop :=
  ∀ a ∈ rx.head?, a.after ≤ n → limit ≤ a.time

/-- A receive that begins at time t after n transmissions gets these bytes in time, the last at time u, and the
inputs are line' afterwards. Under SPI the ready signal comes before the deadline (R168 to R170), at u, and the
bytes are shifted in. -/
def ChipDelivers (p : Params) (kind : DeadlineKind) (n t : Nat) (line : ChipLine) (bytes : List Byte)
    (u : Nat) (line' : ChipLine) : Prop :=
  match p.transport, p.readyMethod with
  | .uart, _ =>
    ∃ first more,
      line.rx = first :: more ++ line'.rx ∧ line' = { line with rx := line'.rx } ∧
      bytes = first.byte :: more.map (·.byte) ∧
      first.after ≤ n ∧ first.time < t + p.ticks kind ∧
      bytesInTime n (t + p.ticks kind) p.tIb (max t first.time) more ∧
      u = lastArrival t (first :: more)
  | .spi, .irq =>
    ∃ rise,
      line.ready = rise :: line'.ready ∧ line.miso = bytes ++ line'.miso ∧
      line' = { line with ready := line'.ready, miso := line'.miso } ∧
      rise.after ≤ n ∧ rise.time < t + p.ticks kind ∧ u = max t rise.time
  | .spi, .poll =>
    ∃ flags f,
      line.miso = flags ++ f :: bytes ++ line'.miso ∧ line' = { line with miso := line'.miso } ∧
      (∀ g ∈ flags, readyFlag p g = false) ∧ readyFlag p f = true ∧
      flags.length < p.ticks kind ∧ u = t + flags.length

/-- A receive that begins at time t after n transmissions gets nothing before its deadline: no byte under UART, no
ready signal under SPI. -/
def ChipQuiet (p : Params) (kind : DeadlineKind) (n t : Nat) (line line' : ChipLine) : Prop :=
  match p.transport, p.readyMethod with
  | .uart, _ => line' = line ∧ NoneBefore n (t + p.ticks kind) line.rx
  | .spi, .irq => line' = line ∧ ∀ e ∈ line.ready.head?, e.after ≤ n → t + p.ticks kind ≤ e.time
  | .spi, .poll =>
    ∃ flags,
      line.miso = flags ++ line'.miso ∧ line' = { line with miso := line'.miso } ∧
      (∀ g ∈ flags, readyFlag p g = false) ∧ flags.length = p.ticks kind

/-- Under UART, these bytes come in time, the last at time v, and the next one does not: the receive gives up at time u
(R209, R171). -/
def ChipStopsShort (p : Params) (kind : DeadlineKind) (n t : Nat) (line : ChipLine) (bytes : List Byte)
    (v u : Nat) (line' : ChipLine) : Prop :=
  p.transport = .uart ∧ ChipDelivers p kind n t line bytes v line' ∧
    u = min (t + p.ticks kind) (v + p.tIb) ∧ NoneBefore n u line'.rx

/-- The CHIP's answer to transmission n, which leaves at time t, after the flush. -/
def ChipAnswers (p : Params) (kind : DeadlineKind) (n t : Nat) (line : ChipLine) (bytes : List Byte)
    (u : Nat) (line' : ChipLine) : Prop :=
  ChipDelivers p kind n t (line.flushed p n t) bytes u line'

/-- The CHIP does not answer transmission n, which leaves at time t, before the deadline. -/
def ChipSilent (p : Params) (kind : DeadlineKind) (n t : Nat) (line line' : ChipLine) : Prop :=
  ChipQuiet p kind n t (line.flushed p n t) line'

/-- A whole response frame: status, length, payload and the trailer's bytes (R112). -/
def responseBytes (status : Byte) (payload trailer : List Byte) : List Byte :=
  status :: BitVec.ofNat 8 payload.length :: payload ++ trailer

/-- The CHIP answers transmission n with a frame of this status and payload (R112), the whole of whose bytes, any
FRAME_TRAILER_LEN trailer bytes with them, are these. -/
def ChipFrame (p : Params) (kind : DeadlineKind) (n t : Nat) (line : ChipLine) (status : Byte)
    (payload bytes : List Byte) (u : Nat) (line' : ChipLine) : Prop :=
  payload.length ≤ maxPayload ∧
    (∃ trailer : List Byte, trailer.length = p.frameTrailerLen ∧ bytes = responseBytes status payload trailer) ∧
    ChipAnswers p kind n t line bytes u line'

/-- Every way the CHIP gives transmission n, which leaves at time t, no success (R230, R232, R233, R403, R404): what the
transaction answers, the bytes received, last_status after it (`last` being its value before), when the last of the
bytes came, when the transaction is over, and the inputs then. -/
inductive ChipFails (p : Params) (kind : DeadlineKind) (ok : Byte) (r : LenRange) (n t : Nat) (line : ChipLine)
    (last : Byte) : Reception → List Byte → Byte → Nat → Nat → ChipLine → Prop where
  /-- A frame of another status. -/
  | status {status : Byte} {reply bytes : List Byte} {u : Nat} {line' : ChipLine} (h : status ≠ ok)
      (ha : ChipFrame p kind n t line status reply bytes u line') :
      ChipFails p kind ok r n t line last .noResponse bytes status u u line'
  /-- A frame of the success status whose payload has a length that is not accepted. -/
  | length {reply bytes : List Byte} {u : Nat} {line' : ChipLine} (h : reply.length < r.min ∨ r.max < reply.length)
      (ha : ChipFrame p kind n t line ok reply bytes u line') :
      ChipFails p kind ok r n t line last .malformedFrame bytes ok u u line'
  /-- Nothing before the deadline. -/
  | silence {v : Nat} {line' : ChipLine} (ha : ChipSilent p kind n t line line') :
      ChipFails p kind ok r n t line last .noResponse [] last v (t + p.ticks kind) line'
  /-- A length byte of 0xFF. -/
  | illegal {st : Byte} {u : Nat} {line' : ChipLine} (ha : ChipAnswers p kind n t line [st, 0xFF#8] u line') :
      ChipFails p kind ok r n t line last .malformedFrame [st, 0xFF#8] last u u line'
  /-- A status byte alone. -/
  | alone {st : Byte} {v u : Nat} {line' : ChipLine}
      (ha : ChipStopsShort p kind n t (line.flushed p n t) [st] v u line') :
      ChipFails p kind ok r n t line last .noResponse [st] last v u line'
  /-- A payload cut short. -/
  | cut {st len : Byte} {body : List Byte} {v u : Nat} {line' : ChipLine} (h : len ≠ 0xFF#8)
      (hl : body.length < len.toNat + p.frameTrailerLen)
      (ha : ChipStopsShort p kind n t (line.flushed p n t) (st :: len :: body) v u line') :
      ChipFails p kind ok r n t line last .malformedFrame (st :: len :: body) last v u line'

/-- What leaves on the transport for these bytes at a time, chip-select and control byte with it under SPI (R163,
R165, R175). -/
def sendEvents (p : Params) (t : Nat) (bytes : List Byte) : List LineEvent :=
  match p.transport with
  | .uart => bytes.map (.tx t)
  | .spi => .select t :: .tx t p.spiCtrlSend :: bytes.map (.tx t) ++ [.release t]

/-- A poll exchange under SPI that begins at time t and is over at u (R135, R170): chip-select, the poll control byte, n
flag bytes, one a tick, each read with a dummy byte, and the release. -/
def pollEvents (p : Params) (t n u : Nat) : List LineEvent :=
  .select t :: .tx t p.spiCtrlPoll :: (List.range n).map (fun k => .dummy (t + k)) ++ [.release u]

/-- What the wait for the ready signal puts on SPI, from time t to u (R169, R170): with READY_METHOD = POLL the poll
exchange, whose last flag byte is read at u where the CHIP is ready and in the tick before u where the wait runs out. -/
def waitEvents (p : Params) (t u : Nat) (ready : Bool) : List LineEvent :=
  match p.readyMethod with
  | .irq => []
  | .poll => pollEvents p t (if ready then u - t + 1 else u - t) u

/-- A read exchange under SPI at time u (R135, R168, R175): chip-select, the read control byte, a dummy byte for each of
the n bytes shifted in, and the release. -/
def shiftEvents (p : Params) (u n : Nat) : List LineEvent :=
  .select u :: .tx u p.spiCtrlRead :: List.replicate n (.dummy u) ++ [.release u]

/-- What a receive that begins at time t and is over at u puts on the transport: nothing under UART; under SPI its
wait for the ready signal and, where bytes were received, the read exchange. -/
def readEvents (p : Params) (t : Nat) (received : List Byte) (u : Nat) : List LineEvent :=
  match p.transport, received with
  | .uart, _ => []
  | .spi, [] => waitEvents p t u false
  | .spi, _ :: _ => waitEvents p t u true ++ shiftEvents p u received.length

/-- All that one exchange puts on the transport: the bytes sent at time t, then the receive, which is over at u. -/
def exchangeEvents (p : Params) (t : Nat) (sent received : List Byte) (u : Nat) : List LineEvent :=
  sendEvents p t sent ++ readEvents p t received u

/-! ## What an exchange leaves -/

/-- The registers no exchange writes: the host port, proto_cfg, the cascade, the Tag, the echo count, the inputs
that are not the CHIP's and the records of the HOST's and the caller's results. -/
structure State.Untouched (s t : State) : Prop where
  params : t.params = s.params
  host : t.host = s.host
  cfg : t.mode.cfg = s.mode.cfg
  ac : t.ac = s.ac
  tag : t.tag = s.tag
  tries : t.txn.echoTry = s.txn.echoTry
  env : t.env = s.env
  call : t.out.callResult = s.out.callResult
  replies : t.out.replies = s.out.replies

/-- A buffer holds these bytes from index 0 and every byte after them is as it was. -/
def Memory.Holds (m m' : Memory) (bytes : List Byte) : Prop :=
  (∀ k < bytes.length, m'.read k = bytes[k]?) ∧ ∀ k, bytes.length ≤ k → m'.read k = m.read k

/-- t_last after an exchange whose last byte came at time v (R209): under UART that time, where a byte of a frame has
come; else as it was, as after the echo's byte (R175). -/
def State.stampAfter (s : State) (kind : DeadlineKind) (received : List Byte) (v : Nat) : Nat :=
  if s.params.transport = .uart ∧ kind ≠ .echo ∧ received ≠ [] then v else s.txn.tLast

/-- The tick of an event on the transport. -/
def LineEvent.time : LineEvent → Nat
  | .tx time _ => time
  | .select time => time
  | .release time => time
  | .dummy time => time

/-- One exchange with the CHIP, its last byte received at time v, over at time u: the bytes sent stand in tx_buf, those
received in rx_buf, every other byte of both as it was; the transport has seen exactly the exchange's events; the settle
is done, no transaction is in flight; nothing else has changed but dev_state and last_status, which the exchange's
judgement sets. -/
structure ExchangedAt (s t : State) (kind : DeadlineKind) (sent received : List Byte) (v u : Nat)
    (line' : ChipLine) : Prop where
  untouched : s.Untouched t
  tx : Memory.Holds s.txn.txBuf t.txn.txBuf sent
  txLen : t.txn.txLen = sent.length
  rx : Memory.Holds s.txn.rxBuf t.txn.rxBuf received
  rxCount : t.txn.rxCount = received.length
  now : t.now = u
  chip : t.chip = line'
  count : t.out.sent = s.out.sent + 1
  record : t.out.line = s.out.line ++ exchangeEvents s.params s.sendTime sent received u
  settled : t.txn.settlePending = false
  phase : t.txn.phase = .none
  resume : t.mode.resume = s.mode.dev
  deadline : t.txn.deadline = s.sendTime + s.params.ticks kind
  stamp : t.txn.tLast = s.stampAfter kind received v

/-- One exchange with the CHIP that is over with the last byte received, or at its deadline with none. -/
abbrev Exchanged (s t : State) (kind : DeadlineKind) (sent received : List Byte) (u : Nat) (line' : ChipLine) : Prop :=
  ExchangedAt s t kind sent received u u line'

/-- dev_state after a success (R234). -/
def DevState.afterSuccess : DevState → DevState
  | .uninitialized => .idle
  | d => d

/-! ## Chains of exchanges -/

/-- The CHIP fails k echo attempts one after the other, the first sent at time t after n transmissions: each time it
is silent or answers with another byte (R243, R248). All over at u, the transport having seen these events. -/
def EchoFails (p : Params) : Nat → Nat → Nat → ChipLine → Nat → ChipLine → List LineEvent → Prop
  | 0, _, t, line, u, line', events => u = t ∧ line' = line ∧ events = []
  | k + 1, n, t, line, u, line', events =>
    ∃ received v mid rest,
      (ChipSilent p .echo (n + 1) t line mid ∧ v = t + p.tEcho ∧ received = [] ∨
        ∃ b, b ≠ p.echoByte ∧ ChipAnswers p .echo (n + 1) t line [b] v mid ∧ received = [b]) ∧
      EchoFails p k (n + 1) v mid u line' rest ∧ events = exchangeEvents p t [p.opcEcho] received v ++ rest

/-- The CHIP answers the SEND_RECV of this air command, sent at time t after n transmissions, with this air reply
(R127, R246), the transport seeing these events. -/
def AirAnswers (p : Params) (n t : Nat) (line : ChipLine) (command reply : List Byte) (u : Nat) (line' : ChipLine)
    (events : List LineEvent) : Prop :=
  lenAccepted p.lenSendRecv reply.length = true ∧
    ∃ bytes, ChipFrame p .detect (n + 1) t line p.stData reply bytes u line' ∧
      events = exchangeEvents p t (frameBytes p p.opcSendRecv command) bytes u

/-- From the first of these levels on the CHIP answers ANTICOL and SELECT so that the cascade ends in a Tag: these
UID bytes, this SAK, m transmissions in all, the last answer at u, the transport having seen these events (R310, R316
to R324). -/
def LevelsAnswer (p : Params) :
    List Level → Nat → Nat → ChipLine → List Byte → Byte → Nat → Nat → ChipLine → List LineEvent → Prop
  | [], _, _, _, _, _, _, _, _, _ => False
  | l :: rest, n, t, line, uid, sak, m, u, line', events =>
    ∃ c0 c1 c2 c3 b more v mid k more' w far e1 e2,
      AirAnswers p n t line [p.sel l, p.nvbAnticol, p.txfAnticol] (c0 :: c1 :: c2 :: c3 :: b :: more) v mid e1 ∧
      more.length = p.rxTrailerLen ∧ bccOk p c0 c1 c2 c3 b = true ∧
      AirAnswers p (n + 1) v mid [p.sel l, p.nvbSelect, c0, c1, c2, c3, b, p.txfSelect] (k :: more') w far e2 ∧
      more'.length = p.sakCrcLen + p.rxTrailerLen ∧
      if cascadeBit p k then
        markerBad p c0 = false ∧
          ∃ uid' later, uid = [c1, c2, c3] ++ uid' ∧ LevelsAnswer p rest (n + 2) w far uid' sak m u line' later ∧
            events = e1 ++ e2 ++ later
      else uid = [c0, c1, c2, c3] ∧ sak = k ∧ m = n + 2 ∧ u = w ∧ line' = far ∧ events = e1 ++ e2

/-- The CHIP answers a whole cascade, REQA first, so that it ends in a Tag, the transport having seen these events
(R310). -/
def CascadeAnswers (p : Params) (n t : Nat) (line : ChipLine) (atqa0 atqa1 : Byte) (uid : List Byte) (sak : Byte)
    (m u : Nat) (line' : ChipLine) (events : List LineEvent) : Prop :=
  ∃ more v mid first later,
    AirAnswers p n t line [p.reqaCode, p.txfReqa] (atqa0 :: atqa1 :: more) v mid first ∧
      more.length = p.rxTrailerLen ∧
      LevelsAnswer p [.l1, .l2, .l3] (n + 1) v mid uid sak m u line' later ∧ events = first ++ later

end Sys2Proof.Machine
end

