-- ==== Sys2Proof/Certificates/Slice0/Obligations.lean ====
section
/-! DEFINITION. The statements for the provers, each a Prop under an obligation's name. A docstring says which rules a
statement rests on and, where it rests on a choice of the model's, which entry of the assumption log says so. -/

open Sys2Proof Sys2Proof.Machine

/-! ## Encoding -/

/-- Decode and encode agree, for every instruction and every operand its encoding admits, a command frame's trailer
with it (R111, R114 to R120, R124 to R126, R131, R132, R137). The trailer's bytes are the model's opaque function's
(log entry 4), and IDN and IDLE decode with their own payload alone (log entry 27). -/
def Obligations.DecodeOfEncode : Prop :=
  ∀ (p : Params) (i : Instr), p.wf = true → i.wf = true → decode p i.space (encode p i) = .ok (i, [])

/-- A decoder finds where a request or a command frame ends from its own length byte, the frame's trailer with it: the
bytes after it are left over, whatever they are (R131, R137). The trailer's bytes are the model's opaque function's (log
entry 4), and IDN and IDLE decode with their own payload alone (log entry 27). An air command is a whole SEND_RECV
payload and has no bytes after it. -/
def Obligations.DecodeStopsAtLength : Prop :=
  ∀ (p : Params) (i : Instr) (rest : List Byte), p.wf = true → i.wf = true → i.space ≠ .air →
    decode p i.space (encode p i ++ rest) = .ok (i, rest)

/-- What decodes is a well-formed instruction of that space, and its encoding is the bytes it was read from, a
trailer's among them: no bit is dropped (R110, R137). It is so because the decoder takes no frame whose trailer differs
from the model's opaque function's (log entry 4), and no IDN or IDLE with another payload than its own (log entry
27). -/
def Obligations.EncodeOfDecode : Prop :=
  ∀ (p : Params) (space : Space) (bytes rest : List Byte) (i : Instr), decode p space bytes = .ok (i, rest) →
    i.space = space ∧ i.wf = true ∧ encode p i ++ rest = bytes

/-- A few words of the opcode table and of its encoding rules, with the defaults, decode to the instruction they stand
for (R116, R117, R124, R125, R126, R132). Which space a word of the table is read in is the model's choice where a
value is in two (log entry 6). -/
def Obligations.SpecWordsDecode : Prop :=
  decodeTableWord 8 0x03 = some (.getChipId []) ∧ decodeTableWord 8 0x09 = some (.writeReg []) ∧
    decodeTableWord 8 0x55 = some .echo ∧ decodeTableWord 16 0x2607 = some .reqa ∧
    decodeTableWord 24 0x952008 = some .anticolL2 ∧
    decodeTableWord 64 0x9370DEADBEEF2228 = some (.selectL1 0xDE#8 0xAD#8 0xBE#8 0xEF#8 0x22#8) ∧
    decode Params.default .chip [0x01#8, 0x00#8] = .ok (.idn, []) ∧
    decode Params.default .chip [0x02#8, 0x02#8, 0x02#8, 0x00#8] = .ok (.protocol 0x02#8 0x00#8, []) ∧
    decode Params.default .host [0x07#8, 0x03#8, 0x03#8, 0x01#8, 0x02#8] =
      .ok (.selectProtocol [0x03#8, 0x01#8, 0x02#8], [])

/-- Every selector from 0x09 on is reserved: no bytes after it make it an instruction (R132, R136). -/
def Obligations.ReservedSelectorsDecodeToNothing : Prop :=
  ∀ (p : Params) (sel : Byte) (rest : List Byte), 9 ≤ sel.toNat →
    decode p .host (sel :: rest) = .error (.reservedSelector sel)

/-! ## The step -/

/-- A step runs the decoded instruction: where no reset is due and the bytes at the control position decode to i, the
step is exec of i, a command taken from the CommandEngine's entry being no longer there (the model's way to run the
chip rows, log entry 15). -/
def Obligations.StepRunsDecoded : Prop :=
  ∀ (s : State) (space : Space) (bytes rest : List Byte) (i : Instr), s.resetDue = false →
    fetchBytes.run s = .ok (some (space, bytes)) s → decode s.params space bytes = .ok (i, rest) →
    step s = exec i (s.accept i)

/-- Which instruction stands at each control position (R48, R310, R360): the latched request, whose selector and
payload are its bytes; at a cascade position its air command, SELECT with the bytes of cand (log entry 17); at READY a
command frame at the CommandEngine's entry (the model's own way to run a chip row, log entries 15 and 21). -/
def Obligations.PositionSelectsInstruction : Prop :=
  ∀ (s : State), s.params.wf = true → s.resetDue = false →
    (∀ (i : Instr) (sel : Byte) (payload : List Byte), s.host.phase = .busy → s.ac.step = .off ∨ s.ac.step = .done →
      s.host.reqSel = sel → s.host.reqLen = payload.length → s.host.reqBuf.readRange 0 payload.length = some payload →
      i.space = .host → i.wf = true → encode s.params i = sel :: BitVec.ofNat 8 payload.length :: payload →
      step s = exec i s) ∧
    (s.host.phase = .busy → s.ac.step = .reqa → step s = exec .reqa s) ∧
    (s.host.phase = .busy → s.ac.step = .anticol →
      (s.ac.level = some .l1 → step s = exec .anticolL1 s) ∧
      (s.ac.level = some .l2 → step s = exec .anticolL2 s) ∧
      (s.ac.level = some .l3 → step s = exec .anticolL3 s)) ∧
    (∀ c0 c1 c2 c3 b : Byte, s.host.phase = .busy → s.ac.step = .select →
      s.ac.cand.readRange 0 5 = some [c0, c1, c2, c3, b] →
      (s.ac.level = some .l1 → step s = exec (.selectL1 c0 c1 c2 c3 b) s) ∧
      (s.ac.level = some .l2 → step s = exec (.selectL2 c0 c1 c2 c3 b) s) ∧
      (s.ac.level = some .l3 → step s = exec (.selectL3 c0 c1 c2 c3 b) s)) ∧
    (∀ (i : Instr) (rest : List Byte), s.host.phase = .ready → i.space = .chip → i.wf = true →
      s.env.chipCall = some (encode s.params i ++ rest) → step s = exec i { s with env.chipCall := none })

/-- A latched request with a reserved selector ends InvalidRequest: the reply, and nothing else (R136, R361(a),
R363). -/
def Obligations.ReservedRequestRefused : Prop :=
  ∀ (s : State) (payload : List Byte), s.resetDue = false → s.host.phase = .busy →
    s.ac.step = .off ∨ s.ac.step = .done → 9 ≤ s.host.reqSel.toNat → s.host.reqLen = payload.length →
    s.host.reqBuf.readRange 0 payload.length = some payload →
    step s = .next (s.finish .invalidRequest [])

/-- Finish: the reply is the outcome code and the data, byte by byte, the rest of rsp_buf as it was; rsp_ok is 1
exactly for OK; host_phase is DONE; every other register keeps its value. The nine codes are 0x00 to 0x08 in R401's
order (R133, R363, R400, R401). -/
def Obligations.FinishReply : Prop :=
  ∀ (s : State) (code : OutcomeCode) (data : List Byte),
    s.finish code data =
      { s with
        host := { s.host with
          rspBuf := (s.finish code data).host.rspBuf, rspLen := 1 + data.length, rspOk := decide (code = .ok)
          lastOutcome := code, rspValid := true, phase := .done } } ∧
    Memory.Holds s.host.rspBuf (s.finish code data).host.rspBuf (code.byte :: data) ∧
    [OutcomeCode.ok, .noResponse, .malformedFrame, .noTagDetected, .anticollisionFailed, .deviceFault, .invalidRequest,
      .notReady, .unsupported].map OutcomeCode.byte =
      [0x00#8, 0x01#8, 0x02#8, 0x03#8, 0x04#8, 0x05#8, 0x06#8, 0x07#8, 0x08#8]

/-- The handshake (R360), at the model's step: a HOST step that is due and allowed happens; one that is not allowed,
and a Present of more than 254 bytes, is ignored (R461; log entry 9); with none due the CLOCK ticks (R52). Present
clears rsp_valid and rsp_ok and Take clears rsp_valid alone, as R360's pseudocode has it (R54's table names both at
"reply taken"; log entry 18). -/
def Obligations.HostHandshake : Prop :=
  ∀ (s : State) (e : HostEvent) (rest : List HostEvent), s.resetDue = false → s.env.chipCall = none →
    (s.host.phase = .ready ∨ s.host.phase = .done) →
    (s.env.hostLine = [] → step s = .next { s with now := s.now + 1 }) ∧
    (s.env.hostLine = e :: rest → s.now < e.time → step s = .next { s with now := s.now + 1 }) ∧
    (s.env.hostLine = e :: rest → e.time ≤ s.now →
      (∀ sel payload, e.act = .present sel payload →
        (s.host.phase = .ready → payload.length ≤ 254 → ∃ t, step s = .next t ∧
          t = { s with
            env.hostLine := rest
            host := { s.host with
              reqSel := sel, reqLen := payload.length, reqBuf := t.host.reqBuf, rspValid := false, rspOk := false
              phase := .busy } } ∧
          Memory.Holds s.host.reqBuf t.host.reqBuf payload) ∧
        (s.host.phase = .ready → 254 < payload.length → step s = .next { s with env.hostLine := rest }) ∧
        (s.host.phase = .done → step s = .next { s with env.hostLine := rest })) ∧
      (e.act = .take →
        (s.host.phase = .ready → step s = .next { s with env.hostLine := rest }) ∧
        (∀ reply, s.host.phase = .done → s.host.rspBuf.readRange 0 s.host.rspLen = some reply →
          step s = .next { s with
            env.hostLine := rest
            host.rspValid := false
            host.phase := .ready
            out.replies := s.out.replies ++ [{ bytes := reply, ok := s.host.rspOk }] })))

/-! ## Reset -/

/-- What reset leaves in every register R58 gives a value (R58). -/
def Obligations.ResetValues : Prop :=
  let r := State.reset
  r.host.phase = .ready ∧ r.host.rspValid = false ∧ r.host.rspOk = false ∧
    r.mode.dev = .uninitialized ∧ r.mode.resume = .uninitialized ∧
    r.mode.cfg.pid = .fieldOff ∧ r.mode.cfg.tx = .r106 ∧ r.mode.cfg.rx = .r106 ∧
    r.txn.settlePending = true ∧ r.txn.lastStatus = 0x00#8 ∧ r.txn.phase = .none ∧ r.ac.step = .off ∧
    r.ac.level = none ∧ r.txn.echoTry = 0 ∧ r.txn.txLen = 0 ∧ r.txn.rxCount = 0 ∧ r.txn.deadline = 0 ∧
    r.txn.tLast = 0 ∧ r.ac.uidLen = 0 ∧ r.ac.atqa0 = 0x00#8 ∧ r.ac.atqa1 = 0x00#8 ∧ r.ac.sizeClass = 0#2 ∧
    r.ac.sak = 0x00#8 ∧ r.ac.ctPresent = false ∧ r.ac.complete = false ∧ r.tag.valid = false ∧
    r.host.lastOutcome = .ok

/-- A reset that is due happens before anything else (the model's order, log entry 11): every register of R30's list
takes its value after reset, and the CHIP's inputs, the time and the transport's record stay as they are (R451, R452;
log entries 5 and 20). -/
def Obligations.DueResetComesFirst : Prop :=
  ∀ (s : State) (r : Nat) (rest : List Nat), s.env.resetLine = r :: rest → r ≤ s.now →
    step s = .next
      { s with
        host := State.reset.host
        mode := State.reset.mode
        txn := State.reset.txn
        ac := State.reset.ac
        tag := State.reset.tag
        env := { s.env with resetLine := rest, chipCall := none }
        out.callResult := none }

/-- A reset during a request abandons it (R452): where, without the reset, an instruction's run would have gone on
past the tick r at which the reset input is asserted, the step ends at r with no reply produced. The rest is the
model's: the cut falls in a wait (log entries 11 and 14); the registers R58 leaves unspecified take the model's values
(log entry 5); the assertion is used up and the inputs and records stay (log entry 20). -/
def Obligations.ResetAbandonsRequest : Prop :=
  ∀ (i : Instr) (s t : State) (r : Nat) (rest : List Nat), s.env.resetLine = r :: rest → s.now < r →
    exec i { s with env.resetLine := [] } = .next t → r < t.now →
    ∃ u, exec i s = .next u ∧ u.now = r ∧ u.host = State.reset.host ∧ u.mode = State.reset.mode ∧
      u.txn = State.reset.txn ∧ u.ac = State.reset.ac ∧ u.tag = State.reset.tag ∧ u.params = s.params ∧
      u.env.resetLine = rest ∧ u.env.hostLine = s.env.hostLine ∧ u.out.replies = s.out.replies

/-! ## Invariants of the whole machine -/

/-- The invariant holds right after reset; where R58 leaves a register unspecified the value is the model's (log
entries 2, 3 and 5). -/
def Obligations.InvAtReset : Prop := State.reset.Inv

/-- At the model's step boundaries (log entry 14), every step keeps the invariant of R33, R36, R44, R50, R59, R60 and
R81, whatever the CHIP and the HOST do. -/
def Obligations.StepKeepsInv : Prop :=
  ∀ s t : State, s.Inv → step s = .next t → t.Inv

/-- From a state of the invariant the engine reads no byte that has not been written and forms no index past a buffer
(R59, R81): a step never faults, and it answers a next state unless bytes that are no command stand at the
CommandEngine's entry, which the engine never puts there (R115). -/
def Obligations.InvStepCompletes : Prop :=
  ∀ s : State, s.Inv → (∀ f, step s ≠ .fault f) ∧
    ((s.host.phase = .ready → ∀ bytes, s.env.chipCall = some bytes →
        ∃ i rest, decode s.params .chip bytes = .ok (i, rest)) →
      ∃ t, step s = .next t)

/-- No step changes the parameter block, which stands in State by the model's choice (R8; log entry 1), and time never
goes back (R52), a reset keeping it by the model's choice too (log entry 20). -/
def Obligations.ParamsFixedTimeForward : Prop :=
  ∀ s t : State, step s = .next t → t.params = s.params ∧ s.now ≤ t.now

/-! ## Time and the transport -/

/-- The expiry test of a counter of 32 bits agrees with the naturals' reading, for every start and every wait shorter
than 2^31 ticks, as long as fewer than 2^31 ticks have passed (R210). -/
def Obligations.ModularExpiryAgrees : Prop :=
  ∀ start now ticks : Nat, ticks < 2 ^ 31 → start ≤ now → now - start < 2 ^ 31 →
    (expiredMod (BitVec.ofNat 32 start) (BitVec.ofNat 32 now) (BitVec.ofNat 32 ticks) = true ↔ start + ticks ≤ now)

/-- Await(RAMP) and Await(OSC): the deadline is the time they begin plus T_RAMP or T_OSC, the time is then that
deadline, and no other register changes and no chip input is read (R203, R204), where the reset input is not asserted
first. -/
def Obligations.DelaysElapse : Prop :=
  ∀ s : State,
    (s.quietUntil (s.now + s.params.tRamp) →
      (delay .ramp).run s = .ok ⟨⟩
        { s with now := s.now + s.params.tRamp, txn.deadline := s.now + s.params.tRamp }) ∧
    (s.quietUntil (s.now + s.params.tOsc) →
      (delay .osc).run s = .ok ⟨⟩
        { s with now := s.now + s.params.tOsc, txn.deadline := s.now + s.params.tOsc })

/-- Settle: with settle_pending = 1 it waits T_RAMP and then T_OSC out and clears the bit, txn_phase and deadline
being those of its second wait; with settle_pending = 0 it does nothing (R207). -/
def Obligations.SettleWaitsBoth : Prop :=
  ∀ s : State,
    (s.txn.settlePending = false → settle.run s = .ok ⟨⟩ s) ∧
    (s.txn.settlePending = true → s.quietUntil (s.now + s.params.tRamp + s.params.tOsc) →
      settle.run s = .ok ⟨⟩
        { s with
          now := s.now + s.params.tRamp + s.params.tOsc
          txn.settlePending := false
          txn.phase := .settleOsc
          txn.deadline := s.now + s.params.tRamp + s.params.tOsc })

/-- EncodeFrame: opcode, length, payload in tx_buf and their count in tx_len, every other byte of tx_buf and every
other register as it was; a payload above 254 bytes raises InvalidRequest and changes nothing (R162, with
FRAME_TRAILER_LEN = 0 as it stands there). -/
def Obligations.EncodeFrameWrites : Prop :=
  ∀ (s : State) (op : Byte) (payload : List Byte), s.params.frameTrailerLen = 0 →
    (254 < payload.length → (encodeFrame op payload).run s = .error (.outcome .invalidRequest) s) ∧
    (payload.length ≤ 254 →
      ∃ t, (encodeFrame op payload).run s = .ok ⟨⟩ t ∧
        t = { s with txn := { s.txn with txBuf := t.txn.txBuf, txLen := 2 + payload.length } } ∧
        Memory.Holds s.txn.txBuf t.txn.txBuf (op :: BitVec.ofNat 8 payload.length :: payload))

/-- FlushRx: under UART every byte waiting in the receive channel at this step is discarded, and a byte that comes
later is not; under SPI it does nothing (R166). The channel lists its bytes in the order they come. -/
def Obligations.FlushDiscardsWaiting : Prop :=
  ∀ (s : State) (waiting coming : List Arrival), s.chip.rx = waiting ++ coming →
    (∀ a ∈ waiting, a.time ≤ s.now ∧ a.after ≤ s.out.sent) →
    (∀ a ∈ coming.head?, s.now < a.time ∨ s.out.sent < a.after) →
    (s.params.transport = .uart → flushRx.run s = .ok ⟨⟩ { s with chip.rx := coming }) ∧
    (s.params.transport = .spi → flushRx.run s = .ok ⟨⟩ s)

/-- RxByte: a byte that comes strictly before the deadline is taken with its arrival time; where none does, the
channel being empty among others, the answer is TIMEOUT at the deadline, so one that comes at the deadline is not
taken; and TIMEOUT at once where the deadline has passed on entry, whatever waits (R164). -/
def Obligations.RxByteDeadlineWins : Prop :=
  ∀ (s : State) (dl : Nat),
    (∀ (a : Arrival) (rest : List Arrival), s.chip.rx = a :: rest → a.after ≤ s.out.sent → s.now < dl → a.time < dl →
      s.quietUntil a.time →
      (rxByte dl).run s = .ok (some a.byte) { s with now := max s.now a.time, chip.rx := rest }) ∧
    (s.now < dl → NoneBefore s.out.sent dl s.chip.rx → s.quietUntil dl →
      (rxByte dl).run s = .ok none { s with now := dl }) ∧
    (dl ≤ s.now → (rxByte dl).run s = .ok none s)

/-- Round trip (R173): for every status byte and every payload of 0 to 254 bytes, the bytes [s, len(p)] ++ p,
delivered on time, make Receive return Frame(s, p), on either carrier; those are the bytes EncodeFrame makes of s and
p. Bytes that come after them stay in the channel (R174). The transport sees the receive's own events: under UART none,
under SPI the wait for the ready signal and one read exchange (R135, R168 to R170). -/
def Obligations.ReceiveRoundTrip : Prop :=
  ∀ (s : State) (kind : DeadlineKind) (status : Byte) (payload : List Byte) (u : Nat) (line' : ChipLine),
    s.params.wf = true → s.params.frameTrailerLen = 0 → payload.length ≤ 254 →
    ChipDelivers s.params kind s.out.sent s.now s.chip (status :: BitVec.ofNat 8 payload.length :: payload) u line' →
    s.quietUntil u →
    frameBytes s.params status payload = status :: BitVec.ofNat 8 payload.length :: payload ∧
    ∃ t, (receive kind).run s = .ok (.frame status payload) t ∧ t.chip = line' ∧ t.now = u ∧
      t.txn.rxCount = 2 + payload.length ∧
      t.out.line = s.out.line ++ readEvents s.params s.now (status :: BitVec.ofNat 8 payload.length :: payload) u ∧
      Memory.Holds s.txn.rxBuf t.txn.rxBuf (status :: BitVec.ofNat 8 payload.length :: payload)

/-- Classification of a receive that does not end in a frame (R171): nothing in time is NoResponse at the deadline; a
status byte alone is NoResponse; a length byte of 0xFF is MalformedFrame; a payload cut short is MalformedFrame. The
transport sees the receive's own events: a wait that runs out, or a read exchange of the bytes received (R135, R168 to
R170). -/
def Obligations.ReceiveClassifies : Prop :=
  ∀ (s : State) (kind : DeadlineKind) (v u : Nat) (line' : ChipLine), s.params.wf = true →
    (ChipQuiet s.params kind s.out.sent s.now s.chip line' → s.quietUntil (s.now + s.params.ticks kind) →
      ∃ t, (receive kind).run s = .ok .noResponse t ∧ t.now = s.now + s.params.ticks kind ∧ t.txn.rxCount = 0 ∧
        t.chip = line' ∧ t.txn.rxBuf = s.txn.rxBuf ∧
        t.out.line = s.out.line ++ readEvents s.params s.now [] (s.now + s.params.ticks kind)) ∧
    (∀ b, ChipStopsShort s.params kind s.out.sent s.now s.chip [b] v u line' → s.quietUntil u →
      ∃ t, (receive kind).run s = .ok .noResponse t ∧ t.now = u ∧ t.chip = line' ∧ t.txn.rxCount = 1 ∧
        t.out.line = s.out.line) ∧
    (∀ st, ChipDelivers s.params kind s.out.sent s.now s.chip [st, 0xFF#8] u line' → s.quietUntil u →
      ∃ t, (receive kind).run s = .ok .malformedFrame t ∧ t.now = u ∧ t.chip = line' ∧ t.txn.rxCount = 2 ∧
        t.out.line = s.out.line ++ readEvents s.params s.now [st, 0xFF#8] u) ∧
    (∀ st len body, len ≠ 0xFF#8 → body.length < len.toNat + s.params.frameTrailerLen →
      ChipStopsShort s.params kind s.out.sent s.now s.chip (st :: len :: body) v u line' → s.quietUntil u →
      ∃ t, (receive kind).run s = .ok .malformedFrame t ∧ t.now = u ∧ t.chip = line' ∧
        t.txn.rxCount = 2 + body.length ∧ t.out.line = s.out.line)

/-- Stale bytes change nothing (R95, R57; arrivals as log entry 7 lists them): under UART, bytes that wait in the
channel when a chip command's frame leaves make no difference to what the command does, nor to anything it leaves. -/
def Obligations.StaleBytesInvisible : Prop :=
  ∀ (s : State) (i : Instr) (stale rest : List Arrival), s.params.wf = true → s.params.transport = .uart →
    i.space = .chip → i.wf = true → s.chip.rx = stale ++ rest →
    (∀ a ∈ stale, a.time ≤ s.sendTime ∧ a.after ≤ s.out.sent) → s.quietUntil s.sendTime →
    exec i s = exec i { s with chip.rx := rest }

/-! ## The chip commands -/

/-- The framed commands whose success sets no settle complete, each with its own frame, deadline kind and success
status, wherever the CHIP answers it with a success frame of an accepted length: the reply is returned, dev_state
leaves UNINITIALIZED alone, and nothing else changes but what the exchange writes (R230, R232 to R234, R236 to R241).
PROTOCOL is one of them with FIELD_OFF's wire_pid (log entry 28). The result kept for the caller is the model's own
record (log entry 15). -/
def Obligations.FramedCommandsSucceed : Prop :=
  ∀ (s : State) (reply bytes : List Byte) (u : Nat) (line' : ChipLine), s.params.wf = true → s.quietUntil u →
    let p := s.params
    let completes := fun (i : Instr) (kind : DeadlineKind) (op ok : Byte) (payload : List Byte) (r : LenRange) =>
      r.min ≤ reply.length → reply.length ≤ r.max →
      ChipFrame p kind (s.out.sent + 1) s.sendTime s.chip ok reply bytes u line' →
      ∃ t, exec i s = .next { t with out.callResult := some (.frame ok reply) } ∧
        Exchanged s t kind (frameBytes p op payload) bytes u line' ∧ t.mode.dev = s.mode.dev.afterSuccess ∧
        t.txn.lastStatus = ok
    completes .idn .noresp p.opcIdn p.stOk [] p.lenIdn ∧
      (∀ param, completes (.protocol p.pidFieldOff param) .noresp p.opcProtocol p.stOk [p.pidFieldOff, param]
        p.lenProtocol) ∧
      (∀ b, b.length ≤ 254 → completes (.sendRecv b) .detect p.opcSendRecv p.stData b p.lenSendRecv) ∧
      completes .idle .noresp p.opcIdle p.stOk p.idleParams p.lenIdle ∧
      (∀ q, q.length ≤ 254 → completes (.readReg q) .noresp p.opcReadReg p.stOk q p.lenReadReg) ∧
      ∀ q, q.length ≤ 254 → completes (.writeReg q) .noresp p.opcWriteReg p.stOk q p.lenWriteReg

/-- The framed commands whose success sets settle_pending complete wherever the CHIP answers them with a success frame
of an accepted length, and set it: BAUDRATE (R242, R208(c)), and PROTOCOL with a wire_pid other than FIELD_OFF's
(R237, R208(b); that it does so at the CommandEngine's entry, with no caller inside the engine, and that proto_cfg and
dev_state stay, is the model's reading, log entry 28). The result kept for the caller is the model's own record (log
entry 15). -/
def Obligations.SettlingCommandsSucceed : Prop :=
  ∀ (s : State) (reply bytes : List Byte) (u : Nat) (line' : ChipLine), s.params.wf = true → s.quietUntil u →
    ChipFrame s.params .noresp (s.out.sent + 1) s.sendTime s.chip s.params.stOk reply bytes u line' →
    let settles := fun (i : Instr) (op : Byte) (payload : List Byte) (r : LenRange) =>
      r.min ≤ reply.length → reply.length ≤ r.max →
      ∃ t, exec i s =
          .next { t with
            txn.settlePending := true
            out.callResult := some (.frame s.params.stOk reply) } ∧
        Exchanged s t .noresp (frameBytes s.params op payload) bytes u line' ∧
        t.mode.dev = s.mode.dev.afterSuccess ∧ t.txn.lastStatus = s.params.stOk
    (∀ q, q.length ≤ 254 → settles (.baudrate q) s.params.opcBaudrate q s.params.lenBaudrate) ∧
      ∀ wire param, wire ≠ s.params.pidFieldOff →
        settles (.protocol wire param) s.params.opcProtocol [wire, param] s.params.lenProtocol

/-- One echo attempt, which is what the ECHO row is (R243, R175; log entry 16): ECHO_BYTE in time is ALIVE, any other
byte is FAIL, the byte being kept in last_status, and no byte in T_ECHO is FAIL. The answer kept for the caller is the
model's own record (log entry 15). -/
def Obligations.EchoAttemptAnswers : Prop :=
  ∀ (s : State) (u : Nat) (line' : ChipLine), s.params.wf = true → s.quietUntil u →
    (ChipAnswers s.params .echo (s.out.sent + 1) s.sendTime s.chip [s.params.echoByte] u line' →
      ∃ t, exec .echo s = .next { t with out.callResult := some .alive } ∧
        Exchanged s t .echo [s.params.opcEcho] [s.params.echoByte] u line' ∧
        t.mode.dev = s.mode.dev.afterSuccess ∧ t.txn.lastStatus = s.params.echoByte) ∧
    (∀ b, b ≠ s.params.echoByte → ChipAnswers s.params .echo (s.out.sent + 1) s.sendTime s.chip [b] u line' →
      ∃ t, exec .echo s = .next { t with out.callResult := some .fail } ∧
        Exchanged s t .echo [s.params.opcEcho] [b] u line' ∧ t.mode.dev = s.mode.dev ∧ t.txn.lastStatus = b) ∧
    (ChipSilent s.params .echo (s.out.sent + 1) s.sendTime s.chip line' → u = s.sendTime + s.params.tEcho →
      ∃ t, exec .echo s = .next { t with out.callResult := some .fail } ∧
        Exchanged s t .echo [s.params.opcEcho] [] u line' ∧ t.mode.dev = s.mode.dev ∧
        t.txn.lastStatus = s.txn.lastStatus)

/-- A transaction that gets no success (R230, R232, R233, R403, R404), for each framed command and every way the CHIP
can fail it: another status is NoResponse and last_status keeps it; a success frame of a length that is not accepted
is MalformedFrame; silence is NoResponse at the deadline; a length byte of 0xFF is MalformedFrame; a status byte alone
is NoResponse; a payload cut short is MalformedFrame. dev_state is as it was in each case and no settle is set. The
result kept for the caller is the model's own record (log entry 15). -/
def Obligations.FramedCommandsFail : Prop :=
  ∀ (s : State) (answer : Reception) (received : List Byte) (status : Byte) (v u : Nat) (line' : ChipLine),
    s.params.wf = true → s.quietUntil u →
    let p := s.params
    let fails := fun (i : Instr) (kind : DeadlineKind) (op ok : Byte) (payload : List Byte) (r : LenRange) =>
      ChipFails p kind ok r (s.out.sent + 1) s.sendTime s.chip s.txn.lastStatus answer received status v u line' →
      ∃ t, exec i s = .next { t with out.callResult := some answer.result } ∧
        ExchangedAt s t kind (frameBytes p op payload) received v u line' ∧ t.mode.dev = s.mode.dev ∧
        t.txn.lastStatus = status
    fails .idn .noresp p.opcIdn p.stOk [] p.lenIdn ∧
      (∀ wire param, fails (.protocol wire param) .noresp p.opcProtocol p.stOk [wire, param] p.lenProtocol) ∧
      (∀ b, b.length ≤ 254 → fails (.sendRecv b) .detect p.opcSendRecv p.stData b p.lenSendRecv) ∧
      fails .idle .noresp p.opcIdle p.stOk p.idleParams p.lenIdle ∧
      (∀ q, q.length ≤ 254 → fails (.readReg q) .noresp p.opcReadReg p.stOk q p.lenReadReg) ∧
      (∀ q, q.length ≤ 254 → fails (.writeReg q) .noresp p.opcWriteReg p.stOk q p.lenWriteReg) ∧
      ∀ q, q.length ≤ 254 → fails (.baudrate q) .noresp p.opcBaudrate p.stOk q p.lenBaudrate

/-- Whatever the CHIP does, a chip command completes where no reset is asserted: it leaves the host port, proto_cfg,
the cascade, the Tag and the echo count as they were; sends exactly its own encoding, once; is over by its deadline, a
pending settle waited out first; and has no transaction in flight (R91, R212, R230, R243, R251). Whatever bytes it
receives stand in rx_buf, and the transport sees its frame, under SPI in a send exchange, and then the wait for the
ready signal and the read exchange of those bytes, chip-select released after each (R135, R165, R168 to R170, R175). -/
def Obligations.ChipCommandAlwaysCompletes : Prop :=
  ∀ (s : State) (i : Instr), s.params.wf = true → i.space = .chip → i.wf = true → s.env.resetLine = [] →
    ∃ t, exec i s = .next t ∧
      t.params = s.params ∧ t.host = s.host ∧ t.mode.cfg = s.mode.cfg ∧ t.ac = s.ac ∧ t.tag = s.tag ∧ t.env = s.env ∧
      t.txn.echoTry = s.txn.echoTry ∧ t.out.replies = s.out.replies ∧ t.out.sent = s.out.sent + 1 ∧
      t.txn.phase = .none ∧ t.mode.resume = s.mode.dev ∧
      (t.mode.dev = s.mode.dev ∨ s.mode.dev = .uninitialized ∧ t.mode.dev = .idle) ∧
      t.now ≤ s.sendTime + (match i with
        | .echo => s.params.tEcho
        | .sendRecv _ => s.params.tDetect
        | _ => s.params.tNoresp) ∧
      Memory.Holds s.txn.txBuf t.txn.txBuf (encode s.params i) ∧ t.txn.txLen = (encode s.params i).length ∧
      ∃ received, Memory.Holds s.txn.rxBuf t.txn.rxBuf received ∧ t.txn.rxCount = received.length ∧
        received.length ≤ 256 + s.params.frameTrailerLen ∧
        t.out.line = s.out.line ++ exchangeEvents s.params s.sendTime (encode s.params i) received t.now

/-- Execute runs each framed command as the command's own procedure at the CommandEngine's entry, and ECHO as the
whole probe (R235, R139); that BAUDRATE and PROTOCOL set settle_pending here too is the model's reading (R208, log
entries 24 and 28). -/
def Obligations.ExecuteIsTheCommand : Prop :=
  ∀ s : State,
    let framed := fun (c : FrameCmd) (payload : List Byte) (p : Proc Reception) =>
      (execute (some c) payload).run s = (do return .response (← p) : Proc ExecuteResult).run s
    framed .idn [] idn ∧ (∀ wire param, framed .protocol [wire, param] (protocolAtEntry wire param)) ∧
      (∀ b, framed .sendRecv b (sendRecv b)) ∧ framed .idle s.params.idleParams idleCmd ∧
      (∀ q, framed .readReg q (readReg q)) ∧ (∀ q, framed .writeReg q (writeReg q)) ∧
      (∀ q, framed .baudrate q (baudrate q)) ∧
      (execute none []).run s = (do return .alive (← echoProbe) : Proc ExecuteResult).run s

/-! ## The protocol selector -/

/-- The configuration SelectAir makes of a request's three bytes (R291 to R294) and the PROTOCOL parameter byte made
of the configuration (R117, R122): a pid above 4 and, for ISO14443B alone, a rate above 2 make none; only ISO14443B
keeps its rates, which stand in bits 7:6 and 5:4 of its parameter byte. -/
def Obligations.SelectorConfiguration : Prop :=
  (∀ pid tx rx : Byte, 4 < pid.toNat → airConfig pid tx rx = none) ∧
    (∀ tx rx : Byte, 2 < tx.toNat ∨ 2 < rx.toNat → airConfig 3#8 tx rx = none) ∧
    (∀ tx rx : Byte, airConfig 0#8 tx rx = some { pid := .fieldOff, tx := .r106, rx := .r106 } ∧
      airConfig 1#8 tx rx = some { pid := .iso15693, tx := .r106, rx := .r106 } ∧
      airConfig 2#8 tx rx = some { pid := .iso14443A, tx := .r106, rx := .r106 } ∧
      airConfig 4#8 tx rx = some { pid := .iso18092, tx := .r106, rx := .r106 }) ∧
    (∀ t r : Rate, airConfig 3#8 t.code r.code = some { pid := .iso14443B, tx := t, rx := r }) ∧
    (∀ (p : Params) (t r : Rate), p.protoLowB.toNat < 16 →
      (protoParam p { pid := .iso14443B, tx := t, rx := r }).toNat =
        64 * t.code.toNat + 16 * r.code.toNat + p.protoLowB.toNat)

/-- Two SelectAir calls in a row with the same operands that both answer OK leave the same dev_state and proto_cfg,
and proto_cfg meets R36's invariant; for a protocol other than FIELD_OFF the second call's last transmission is the
echo byte and under UART it sends nothing but echo bytes (R295, R297; for FIELD_OFF the second call runs FieldOff
again, R294, log entry 25). -/
def Obligations.ReselectionChangesNothing : Prop :=
  ∀ (s t u : State) (pid tx rx : Byte), s.params.wf = true → (selectAir pid tx rx).run s = .ok .ok t →
    (selectAir pid tx rx).run t = .ok .ok u →
    u.mode.dev = t.mode.dev ∧ u.mode.cfg = t.mode.cfg ∧ t.mode.cfg.wf = true ∧
      (pid = 0#8 → t.mode.dev = .idle) ∧ (pid ≠ 0#8 → t.mode.dev = .fieldOn) ∧
      (pid ≠ 0#8 → u.txn.txLen = 1 ∧ u.txn.txBuf.read 0 = some s.params.opcEcho ∧
        ∃ events, u.out.line = t.out.line ++ events ∧
          (s.params.transport = .uart → ∀ e ∈ events, ∃ time, e = .tx time s.params.opcEcho))

/-! ## Host requests that are refused -/

/-- CALIBRATION ends Unsupported in every state, whatever its payload: the reply, no chip traffic, no state change
(R366). -/
def Obligations.CalibrationUnsupported : Prop :=
  ∀ (s : State) (payload : List Byte), exec (.calibration payload) s = .next (s.finish .unsupported [])

/-- Validation comes before any traffic (R361(c), R361(d)): a payload of the wrong length, and a SELECT_PROTOCOL
payload with a pid above 4 or, for ISO14443B, a rate above 2, end InvalidRequest; only the reply changes. -/
def Obligations.WrongPayloadRefused : Prop :=
  ∀ s : State,
    (∀ (payload : List Byte), payload ≠ [] →
      exec (.radioScan payload) s = .next (s.finish .invalidRequest []) ∧
      exec (.echoTest payload) s = .next (s.finish .invalidRequest []) ∧
      exec (.getChipId payload) s = .next (s.finish .invalidRequest []) ∧
      exec (.getUid payload) s = .next (s.finish .invalidRequest []) ∧
      exec (.runAnticol payload) s = .next (s.finish .invalidRequest []) ∧
      exec (.goIdle payload) s = .next (s.finish .invalidRequest []) ∧
      exec (.fieldOff payload) s = .next (s.finish .invalidRequest [])) ∧
    (∀ payload : List Byte, payload.length ≠ 3 →
      exec (.selectProtocol payload) s = .next (s.finish .invalidRequest [])) ∧
    (∀ pid tx rx : Byte, 4 < pid.toNat ∨ pid = 3#8 ∧ (2 < tx.toNat ∨ 2 < rx.toNat) →
      exec (.selectProtocol [pid, tx, rx]) s = .next (s.finish .invalidRequest []))

/-- The gating table (R362): in ERROR all but ECHO_TEST, GO_IDLE and FIELD_OFF end DeviceFault; RUN_ANTICOL ends
NotReady outside FIELD_ON with (ISO14443A, 0, 0), and GO_IDLE in UNINITIALIZED and IDLE; only the reply changes. -/
def Obligations.GatingTable : Prop :=
  ∀ s : State,
    (s.mode.dev = .error →
      exec (.radioScan []) s = .next (s.finish .deviceFault []) ∧
      exec (.getChipId []) s = .next (s.finish .deviceFault []) ∧
      exec (.getUid []) s = .next (s.finish .deviceFault []) ∧
      exec (.runAnticol []) s = .next (s.finish .deviceFault []) ∧
      ∀ pid tx rx : Byte, pid.toNat ≤ 4 → (pid = 3#8 → tx.toNat ≤ 2 ∧ rx.toNat ≤ 2) →
        exec (.selectProtocol [pid, tx, rx]) s = .next (s.finish .deviceFault [])) ∧
    (s.mode.dev = .uninitialized ∨ s.mode.dev = .idle →
      exec (.runAnticol []) s = .next (s.finish .notReady []) ∧ exec (.goIdle []) s = .next (s.finish .notReady [])) ∧
    (s.mode.dev = .fieldOn → s.mode.cfg ≠ { pid := .iso14443A, tx := .r106, rx := .r106 } →
      exec (.runAnticol []) s = .next (s.finish .notReady []))

/-! ## Host requests that run -/

/-- GET_UID, where it is allowed: the Tag register's reply while tag_valid = 1, else NoTagDetected; nothing but the
reply changes, and no byte leaves (R368, R134, R362). -/
def Obligations.GetUidReadsTag : Prop :=
  ∀ (s : State) (uid : List Byte), s.mode.dev = .uninitialized ∨ s.mode.dev = .idle ∨ s.mode.dev = .fieldOn →
    (s.tag.valid = true → s.tag.uid.readRange 0 s.tag.len = some uid →
      exec (.getUid []) s = .next (s.finish .ok
        (BitVec.ofNat 8 s.tag.len :: uid ++ [s.tag.atqa0, s.tag.atqa1, s.tag.sak]))) ∧
    (s.tag.valid = false → exec (.getUid []) s = .next (s.finish .noTagDetected []))

/-- GET_CHIP_ID, where it is allowed: the IDN payload as data on a success frame; NoResponse or MalformedFrame, with
no data and dev_state as it was, in every way the CHIP can fail it (R367, R362, R403, R404). -/
def Obligations.GetChipIdReplies : Prop :=
  ∀ (s : State) (reply bytes : List Byte) (u : Nat) (line' : ChipLine), s.params.wf = true → s.quietUntil u →
    s.mode.dev = .uninitialized ∨ s.mode.dev = .idle ∨ s.mode.dev = .fieldOn →
    let sent := frameBytes s.params s.params.opcIdn []
    (s.params.lenIdn.min ≤ reply.length → reply.length ≤ s.params.lenIdn.max →
      ChipFrame s.params .noresp (s.out.sent + 1) s.sendTime s.chip s.params.stOk reply bytes u line' →
      ∃ t, exec (.getChipId []) s = .next (t.finish .ok reply) ∧ Exchanged s t .noresp sent bytes u line' ∧
        t.mode.dev = s.mode.dev.afterSuccess ∧ t.txn.lastStatus = s.params.stOk) ∧
    (∀ answer received status v,
      ChipFails s.params .noresp s.params.stOk s.params.lenIdn (s.out.sent + 1) s.sendTime s.chip s.txn.lastStatus
          answer
        received status v u line' →
      ∃ t, exec (.getChipId []) s = .next (t.finish answer.code []) ∧
        ExchangedAt s t .noresp sent received v u line' ∧ t.mode.dev = s.mode.dev ∧ t.txn.lastStatus = status)

/-- ECHO_TEST (R248, R365): with the CHIP failing k attempts and then alive, the reply is OK and echo_try is k + 1;
with all ECHO_ATTEMPTS failing, the reply is DeviceFault and dev_state is ERROR. A success leaves UNINITIALIZED and
does not leave ERROR. The transport sees one echo exchange for each attempt and nothing else (R175). -/
def Obligations.EchoTestReplies : Prop :=
  ∀ (s : State) (k v u : Nat) (mid line' : ChipLine) (events : List LineEvent), s.params.wf = true → s.quietUntil u →
    s.mode.dev ≠ .awaitingResponse →
    (k < s.params.echoAttempts → EchoFails s.params k s.out.sent s.sendTime s.chip v mid events →
      ChipAnswers s.params .echo (s.out.sent + k + 1) v mid [s.params.echoByte] u line' →
      ∃ t, exec (.echoTest []) s = .next (t.finish .ok []) ∧ { s with txn.echoTry := k + 1 }.Untouched t ∧
        t.mode.dev = s.mode.dev.afterSuccess ∧ t.mode.resume = s.mode.dev ∧ t.now = u ∧ t.chip = line' ∧
        t.out.sent = s.out.sent + k + 1 ∧
        t.out.line = s.out.line ++ events ++ exchangeEvents s.params v [s.params.opcEcho] [s.params.echoByte] u ∧
        t.txn.settlePending = false ∧ t.txn.phase = .none ∧
        t.txn.lastStatus = s.params.echoByte ∧ t.txn.tLast = s.txn.tLast ∧ t.txn.txLen = 1 ∧ t.txn.rxCount = 1 ∧
        Memory.Holds s.txn.txBuf t.txn.txBuf [s.params.opcEcho] ∧
        Memory.Holds s.txn.rxBuf t.txn.rxBuf [s.params.echoByte]) ∧
    (EchoFails s.params s.params.echoAttempts s.out.sent s.sendTime s.chip u line' events →
      ∃ t, exec (.echoTest []) s = .next (t.finish .deviceFault []) ∧
        { s with txn.echoTry := s.params.echoAttempts }.Untouched t ∧ t.mode.dev = .error ∧
        t.mode.resume = s.mode.dev ∧ t.now = u ∧ t.chip = line' ∧
        t.out.sent = s.out.sent + s.params.echoAttempts ∧ t.out.line = s.out.line ++ events ∧
        t.txn.settlePending = false ∧ t.txn.phase = .none ∧
        t.txn.tLast = s.txn.tLast ∧ t.txn.txLen = 1 ∧ Memory.Holds s.txn.txBuf t.txn.txBuf [s.params.opcEcho] ∧
        ∀ a, 1 ≤ a → t.txn.rxBuf.read a = s.txn.rxBuf.read a)

/-- GO_IDLE from FIELD_ON or ERROR (R247, R370): OK where the CHIP answers a success frame, NoResponse or
MalformedFrame in every way the CHIP can fail it (R403, R404), and dev_state = IDLE whatever the result; proto_cfg and
the Tag keep their values. -/
def Obligations.GoIdleReplies : Prop :=
  ∀ (s : State) (reply bytes : List Byte) (u : Nat) (line' : ChipLine), s.params.wf = true → s.quietUntil u →
    s.mode.dev = .fieldOn ∨ s.mode.dev = .error →
    let sent := frameBytes s.params s.params.opcIdle s.params.idleParams
    (s.params.lenIdle.min ≤ reply.length → reply.length ≤ s.params.lenIdle.max →
      ChipFrame s.params .noresp (s.out.sent + 1) s.sendTime s.chip s.params.stOk reply bytes u line' →
      ∃ t, exec (.goIdle []) s = .next ({ t with mode.dev := .idle }.finish .ok []) ∧
        Exchanged s t .noresp sent bytes u line' ∧ t.txn.lastStatus = s.params.stOk) ∧
    (∀ answer received status v,
      ChipFails s.params .noresp s.params.stOk s.params.lenIdle (s.out.sent + 1) s.sendTime s.chip s.txn.lastStatus
          answer
        received status v u line' →
      ∃ t, exec (.goIdle []) s = .next ({ t with mode.dev := .idle }.finish answer.code []) ∧
        ExchangedAt s t .noresp sent received v u line' ∧ t.txn.lastStatus = status)

/-- FIELD_OFF (R249, R372), and SELECT_PROTOCOL with pid FIELD_OFF, which is the same (R294): on success proto_cfg =
(FIELD_OFF, 0, 0), dev_state = IDLE, from ERROR too, the Tag discarded and settle_pending not set; in every way the
CHIP can fail it (R403, R404) NoResponse or MalformedFrame, and none of these changes. -/
def Obligations.FieldOffReplies : Prop :=
  ∀ (s : State) (i : Instr) (reply bytes : List Byte) (u : Nat) (line' : ChipLine), s.params.wf = true →
    s.quietUntil u → s.mode.dev ≠ .awaitingResponse →
    (i = .fieldOff [] ∨ s.mode.dev ≠ .error ∧ ∃ tx rx, i = .selectProtocol [0#8, tx, rx]) →
    let sent := frameBytes s.params s.params.opcProtocol [s.params.pidFieldOff, s.params.fieldOffParam]
    (s.params.lenProtocol.min ≤ reply.length → reply.length ≤ s.params.lenProtocol.max →
      ChipFrame s.params .noresp (s.out.sent + 1) s.sendTime s.chip s.params.stOk reply bytes u line' →
      ∃ t, exec i s =
          .next ({ t with
            mode.cfg := { pid := .fieldOff, tx := .r106, rx := .r106 }
            mode.dev := .idle
            tag.valid := false }.finish .ok []) ∧
        Exchanged s t .noresp sent bytes u line' ∧ t.txn.lastStatus = s.params.stOk) ∧
    (∀ answer received status v,
      ChipFails s.params .noresp s.params.stOk s.params.lenProtocol (s.out.sent + 1) s.sendTime s.chip
          s.txn.lastStatus answer
        received status v u line' →
      ∃ t, exec i s = .next (t.finish answer.code []) ∧
        ExchangedAt s t .noresp sent received v u line' ∧ t.mode.dev = s.mode.dev ∧ t.txn.lastStatus = status)

/-- SELECT_PROTOCOL of a configuration that is not in force (R245, R290 to R293, R371): for each protocol its own
wire_pid and parameter byte are sent, and a success sets proto_cfg, dev_state = FIELD_ON and settle_pending; in every
way the CHIP can fail it (R403, R404) the reply is NoResponse or MalformedFrame, proto_cfg and dev_state keep their
values and settle_pending is not set. -/
def Obligations.SelectProtocolConfigures : Prop :=
  ∀ (s : State) (u : Nat) (line' : ChipLine), s.params.wf = true → s.quietUntil u →
    s.mode.dev = .uninitialized ∨ s.mode.dev = .idle ∨ s.mode.dev = .fieldOn →
    let configures := fun (pid tx rx : Byte) (cfg : ProtoCfg) (wire param : Byte) =>
      ¬(s.mode.dev = .fieldOn ∧ s.mode.cfg = cfg) →
      let sent := frameBytes s.params s.params.opcProtocol [wire, param]
      (∀ reply bytes, s.params.lenProtocol.min ≤ reply.length → reply.length ≤ s.params.lenProtocol.max →
        ChipFrame s.params .noresp (s.out.sent + 1) s.sendTime s.chip s.params.stOk reply bytes u line' →
        ∃ t, exec (.selectProtocol [pid, tx, rx]) s =
            .next ({ t with mode.cfg := cfg, mode.dev := .fieldOn, txn.settlePending := true }.finish .ok []) ∧
          Exchanged s t .noresp sent bytes u line' ∧ t.txn.lastStatus = s.params.stOk) ∧
      (∀ answer received status v,
        ChipFails s.params .noresp s.params.stOk s.params.lenProtocol (s.out.sent + 1) s.sendTime s.chip
          s.txn.lastStatus answer received status v u line' →
        ∃ t, exec (.selectProtocol [pid, tx, rx]) s = .next (t.finish answer.code []) ∧
          ExchangedAt s t .noresp sent received v u line' ∧ t.mode.dev = s.mode.dev ∧ t.txn.lastStatus = status)
    ∀ tx rx : Byte,
      configures 1#8 tx rx { pid := .iso15693, tx := .r106, rx := .r106 } s.params.pid15693 s.params.protoParam15693 ∧
      configures 2#8 tx rx { pid := .iso14443A, tx := .r106, rx := .r106 } s.params.pid14443A s.params.protoLowA ∧
      (∀ t r : Rate, tx = t.code → rx = r.code →
        configures 3#8 tx rx { pid := .iso14443B, tx := t, rx := r } s.params.pid14443B
          ((tx <<< 6) ||| (rx <<< 4) ||| s.params.protoLowB)) ∧
      configures 4#8 tx rx { pid := .iso18092, tx := .r106, rx := .r106 } s.params.pid18092 s.params.protoParam18092

/-- SELECT_PROTOCOL of the configuration in force runs the echo probe and sends nothing else (R295, R248): with the CHIP
failing k attempts and then alive, the reply is OK, echo_try is k + 1 and dev_state stays FIELD_ON; with all
ECHO_ATTEMPTS failing it is DeviceFault and dev_state is ERROR (R406). proto_cfg keeps its value and settle_pending is
not set, however many attempts it takes. -/
def Obligations.SelectProtocolInForce : Prop :=
  ∀ (s : State) (pid tx rx : Byte) (k v u : Nat) (mid line' : ChipLine) (events : List LineEvent),
    s.params.wf = true → s.quietUntil u →
    s.mode.dev = .fieldOn → airConfig pid tx rx = some s.mode.cfg → s.mode.cfg.pid ≠ .fieldOff →
    (k < s.params.echoAttempts → EchoFails s.params k s.out.sent s.sendTime s.chip v mid events →
      ChipAnswers s.params .echo (s.out.sent + k + 1) v mid [s.params.echoByte] u line' →
      ∃ t, exec (.selectProtocol [pid, tx, rx]) s = .next (t.finish .ok []) ∧
        { s with txn.echoTry := k + 1 }.Untouched t ∧ t.mode.dev = .fieldOn ∧ t.mode.resume = .fieldOn ∧
        t.now = u ∧ t.chip = line' ∧ t.out.sent = s.out.sent + k + 1 ∧
        t.out.line = s.out.line ++ events ++ exchangeEvents s.params v [s.params.opcEcho] [s.params.echoByte] u ∧
        t.txn.settlePending = false ∧ t.txn.phase = .none ∧
        t.txn.lastStatus = s.params.echoByte ∧ t.txn.tLast = s.txn.tLast ∧ t.txn.txLen = 1 ∧ t.txn.rxCount = 1 ∧
        Memory.Holds s.txn.txBuf t.txn.txBuf [s.params.opcEcho] ∧
        Memory.Holds s.txn.rxBuf t.txn.rxBuf [s.params.echoByte]) ∧
    (EchoFails s.params s.params.echoAttempts s.out.sent s.sendTime s.chip u line' events →
      ∃ t, exec (.selectProtocol [pid, tx, rx]) s = .next (t.finish .deviceFault []) ∧
        { s with txn.echoTry := s.params.echoAttempts }.Untouched t ∧ t.mode.dev = .error ∧
        t.mode.resume = .fieldOn ∧ t.now = u ∧ t.chip = line' ∧ t.out.sent = s.out.sent + s.params.echoAttempts ∧
        t.out.line = s.out.line ++ events ∧
        t.txn.settlePending = false ∧ t.txn.phase = .none ∧ t.txn.tLast = s.txn.tLast ∧ t.txn.txLen = 1 ∧
        Memory.Holds s.txn.txBuf t.txn.txBuf [s.params.opcEcho] ∧
        ∀ a, 1 ≤ a → t.txn.rxBuf.read a = s.txn.rxBuf.read a)

/-- RUN_ANTICOL resolves a UID (R369, R310 to R326, R329, R330): where the CHIP answers a cascade that is complete at
level k, the reply is the Tag's, tag_len is 3 (k - 1) + 4, 1 + 2k exchanges are made, the Tag register holds the UID's
bytes, the ATQA and the SAK, and dev_state and proto_cfg are as they were. The transport sees REQA and then ANTICOL and
SELECT of each level, each a SEND_RECV exchange, and nothing else (R313, R316, R320). -/
def Obligations.RunAnticolMakesTag : Prop :=
  ∀ (s : State) (atqa0 atqa1 sak : Byte) (uid : List Byte) (m u : Nat) (line' : ChipLine)
    (events : List LineEvent), s.params.wf = true →
    s.quietUntil u → s.mode.dev = .fieldOn → s.mode.cfg = { pid := .iso14443A, tx := .r106, rx := .r106 } →
    CascadeAnswers s.params s.out.sent s.sendTime s.chip atqa0 atqa1 uid sak m u line' events →
    ∃ (t : State) (n : Level),
      exec (.runAnticol []) s = .next (t.finish .ok (BitVec.ofNat 8 uid.length :: uid ++ [atqa0, atqa1, sak])) ∧
      uid.length = 3 * (n.num - 1) + 4 ∧ m = s.out.sent + 1 + 2 * n.num ∧
      t.tag = { valid := true, uid := t.tag.uid, len := uid.length, atqa0 := atqa0, atqa1 := atqa1, sak := sak } ∧
      Memory.Holds s.tag.uid t.tag.uid uid ∧
      t.ac = { t.ac with
        step := .done, level := some n, uidLen := uid.length, atqa0 := atqa0, atqa1 := atqa1
        sizeClass := atqa0.extractLsb' 6 2, sak := sak, ctPresent := false, complete := true } ∧
      Memory.Holds s.ac.uidBuf t.ac.uidBuf uid ∧
      t.params = s.params ∧ t.host = s.host ∧ t.mode.dev = .fieldOn ∧ t.mode.cfg = s.mode.cfg ∧ t.now = u ∧
      t.chip = line' ∧ t.env = s.env ∧ t.out.sent = m ∧ t.out.line = s.out.line ++ events ∧
      t.out.replies = s.out.replies ∧
      t.out.callResult = s.out.callResult ∧ t.txn.settlePending = false ∧ t.txn.phase = .none ∧
      t.txn.echoTry = s.txn.echoTry ∧ t.txn.lastStatus = s.params.stData ∧ t.mode.resume = .fieldOn ∧
      (s.params.transport = .spi → t.txn.tLast = s.txn.tLast) ∧
      (∀ a, 10 + s.params.frameTrailerLen ≤ a → t.txn.txBuf.read a = s.txn.txBuf.read a) ∧
      ∀ a, 2 + max 5 (1 + s.params.sakCrcLen) + s.params.rxTrailerLen + s.params.frameTrailerLen ≤ a →
        t.txn.rxBuf.read a = s.txn.rxBuf.read a

/-- RADIO_SCAN with the field not yet on for ISO14443A (R364): where the CHIP answers the selection and then, the
settle waited out again, a whole cascade, the reply is the Tag's, the Tag and cascade registers hold the UID, the ATQA
and the SAK, the field stays on, and the transport sees the PROTOCOL exchange, the cascade's exchanges and nothing else;
in every way the CHIP can fail the selection (R403, R404) the reply is NoResponse
or MalformedFrame, no cascade runs, and proto_cfg, dev_state, the Tag and the cascade keep their values. -/
def Obligations.RadioScanMakesTag : Prop :=
  ∀ (s : State) (u : Nat) (line' : ChipLine), s.params.wf = true → s.quietUntil u →
    s.mode.dev = .uninitialized ∨ s.mode.dev = .idle ∨
      s.mode.dev = .fieldOn ∧ s.mode.cfg ≠ { pid := .iso14443A, tx := .r106, rx := .r106 } →
    (∀ (reply bytes : List Byte) (v : Nat) (mid : ChipLine) (atqa0 atqa1 sak : Byte) (uid : List Byte) (m : Nat)
        (events : List LineEvent),
      s.params.lenProtocol.min ≤ reply.length → reply.length ≤ s.params.lenProtocol.max →
      ChipFrame s.params .noresp (s.out.sent + 1) s.sendTime s.chip s.params.stOk reply bytes v mid →
      CascadeAnswers s.params (s.out.sent + 1) (v + s.params.tRamp + s.params.tOsc) mid atqa0 atqa1 uid sak m u line'
        events →
      ∃ t : State,
        exec (.radioScan []) s = .next (t.finish .ok (BitVec.ofNat 8 uid.length :: uid ++ [atqa0, atqa1, sak])) ∧
        t.tag = { valid := true, uid := t.tag.uid, len := uid.length, atqa0 := atqa0, atqa1 := atqa1, sak := sak } ∧
        Memory.Holds s.tag.uid t.tag.uid uid ∧ t.params = s.params ∧ t.host = s.host ∧ t.mode.dev = .fieldOn ∧
        t.mode.cfg = { pid := .iso14443A, tx := .r106, rx := .r106 } ∧ t.now = u ∧ t.chip = line' ∧ t.env = s.env ∧
        t.out.sent = m ∧
        t.out.line = s.out.line ++ exchangeEvents s.params s.sendTime
          (frameBytes s.params s.params.opcProtocol [s.params.pid14443A, s.params.protoLowA]) bytes v ++ events ∧
        t.out.replies = s.out.replies ∧ t.out.callResult = s.out.callResult ∧
        t.txn.settlePending = false ∧ t.txn.phase = .none ∧ t.txn.echoTry = s.txn.echoTry ∧
        t.txn.lastStatus = s.params.stData ∧ t.mode.resume = .fieldOn ∧
        t.ac = { t.ac with
          step := .done, uidLen := uid.length, atqa0 := atqa0, atqa1 := atqa1
          sizeClass := atqa0.extractLsb' 6 2, sak := sak, ctPresent := false, complete := true } ∧
        Memory.Holds s.ac.uidBuf t.ac.uidBuf uid ∧ (s.params.transport = .spi → t.txn.tLast = s.txn.tLast) ∧
        (∀ a, 10 + s.params.frameTrailerLen ≤ a → t.txn.txBuf.read a = s.txn.txBuf.read a) ∧
        ∀ a, 2 + max reply.length (max 5 (1 + s.params.sakCrcLen) + s.params.rxTrailerLen) +
            s.params.frameTrailerLen ≤ a →
          t.txn.rxBuf.read a = s.txn.rxBuf.read a) ∧
    ∀ answer received status v,
      ChipFails s.params .noresp s.params.stOk s.params.lenProtocol (s.out.sent + 1) s.sendTime s.chip
        s.txn.lastStatus answer received status v u line' →
      ∃ t, exec (.radioScan []) s = .next (t.finish answer.code []) ∧
        ExchangedAt s t .noresp (frameBytes s.params s.params.opcProtocol [s.params.pid14443A, s.params.protoLowA])
          received v u line' ∧
        t.mode.dev = s.mode.dev ∧ t.txn.lastStatus = status

/-- RADIO_SCAN with the field on for ISO14443A already (R364, R295, R248): no PROTOCOL is sent, the transport seeing the
echo attempts, the cascade's exchanges and nothing else; where the CHIP fails k echo attempts and then is alive, the
cascade follows at once, with no settle, and makes the Tag as in a new selection; where it fails all ECHO_ATTEMPTS, the
reply is DeviceFault, dev_state is ERROR, and no cascade runs. -/
def Obligations.RadioScanReprobes : Prop :=
  ∀ (s : State) (u : Nat) (line' : ChipLine), s.params.wf = true → s.quietUntil u → s.mode.dev = .fieldOn →
    s.mode.cfg = { pid := .iso14443A, tx := .r106, rx := .r106 } →
    (∀ (k v w : Nat) (mid far : ChipLine) (atqa0 atqa1 sak : Byte) (uid : List Byte) (m : Nat)
        (failed events : List LineEvent),
      k < s.params.echoAttempts → EchoFails s.params k s.out.sent s.sendTime s.chip v mid failed →
      ChipAnswers s.params .echo (s.out.sent + k + 1) v mid [s.params.echoByte] w far →
      CascadeAnswers s.params (s.out.sent + k + 1) w far atqa0 atqa1 uid sak m u line' events →
      ∃ t : State,
        exec (.radioScan []) s = .next (t.finish .ok (BitVec.ofNat 8 uid.length :: uid ++ [atqa0, atqa1, sak])) ∧
        t.tag = { valid := true, uid := t.tag.uid, len := uid.length, atqa0 := atqa0, atqa1 := atqa1, sak := sak } ∧
        Memory.Holds s.tag.uid t.tag.uid uid ∧ t.params = s.params ∧ t.host = s.host ∧ t.mode.dev = .fieldOn ∧
        t.mode.cfg = { pid := .iso14443A, tx := .r106, rx := .r106 } ∧ t.now = u ∧ t.chip = line' ∧ t.env = s.env ∧
        t.out.sent = m ∧
        t.out.line = s.out.line ++ failed ++
          exchangeEvents s.params v [s.params.opcEcho] [s.params.echoByte] w ++ events ∧
        t.out.replies = s.out.replies ∧ t.out.callResult = s.out.callResult ∧
        t.txn.settlePending = false ∧ t.txn.phase = .none ∧ t.txn.echoTry = k + 1 ∧
        t.txn.lastStatus = s.params.stData ∧ t.mode.resume = .fieldOn ∧
        t.ac = { t.ac with
          step := .done, uidLen := uid.length, atqa0 := atqa0, atqa1 := atqa1
          sizeClass := atqa0.extractLsb' 6 2, sak := sak, ctPresent := false, complete := true } ∧
        Memory.Holds s.ac.uidBuf t.ac.uidBuf uid ∧ (s.params.transport = .spi → t.txn.tLast = s.txn.tLast) ∧
        (∀ a, 10 + s.params.frameTrailerLen ≤ a → t.txn.txBuf.read a = s.txn.txBuf.read a) ∧
        ∀ a, 2 + max 5 (1 + s.params.sakCrcLen) + s.params.rxTrailerLen + s.params.frameTrailerLen ≤ a →
          t.txn.rxBuf.read a = s.txn.rxBuf.read a) ∧
    (∀ events, EchoFails s.params s.params.echoAttempts s.out.sent s.sendTime s.chip u line' events →
      ∃ t, exec (.radioScan []) s = .next (t.finish .deviceFault []) ∧ t.out.line = s.out.line ++ events ∧
        { s with txn.echoTry := s.params.echoAttempts }.Untouched t ∧ t.mode.dev = .error ∧
        t.mode.resume = .fieldOn ∧ t.now = u ∧ t.chip = line' ∧ t.out.sent = s.out.sent + s.params.echoAttempts ∧
        t.txn.settlePending = false ∧ t.txn.phase = .none ∧ t.txn.tLast = s.txn.tLast ∧ t.txn.txLen = 1 ∧
        Memory.Holds s.txn.txBuf t.txn.txBuf [s.params.opcEcho] ∧
        ∀ a, 1 ≤ a → t.txn.rxBuf.read a = s.txn.rxBuf.read a)

/-! ## Whole-request properties -/

/-- Every request ends, whatever the CHIP does, with exactly one Finish (R363, R375): where no reset is asserted and
the Tag register is whole while it is valid, each host row answers a next state with host_phase = DONE and a reply
whose first byte is the outcome code, which carries data only with OK; the request registers, the parameters, the
other inputs and the records of earlier results are as they were. -/
def Obligations.EveryRequestEnds : Prop :=
  ∀ (s : State) (i : Instr), s.params.wf = true → i.space = .host → i.wf = true → s.env.resetLine = [] → s.TagWf →
    ∃ t, exec i s = .next t ∧ t.host.phase = .done ∧ t.host.rspValid = true ∧
      t.host.rspBuf.read 0 = some t.host.lastOutcome.byte ∧
      (t.host.rspOk = true ↔ t.host.lastOutcome = .ok) ∧ (t.host.rspOk = false → t.host.rspLen = 1) ∧
      1 ≤ t.host.rspLen ∧ t.host.rspLen ≤ 255 ∧ (∀ a, t.host.rspLen ≤ a → t.host.rspBuf.read a = s.host.rspBuf.read a) ∧
      t.host.reqSel = s.host.reqSel ∧ t.host.reqLen = s.host.reqLen ∧ t.host.reqBuf = s.host.reqBuf ∧
      t.params = s.params ∧ t.env = s.env ∧ t.out.replies = s.out.replies ∧ t.out.callResult = s.out.callResult

/-- The outcomes each kind can give, whatever the CHIP does; InvalidRequest comes from a wrong payload length alone,
and for SELECT_PROTOCOL also from an invalid [pid, tx, rx] (R374). -/
def Obligations.OutcomeTable : Prop :=
  ∀ (s t : State) (payload : List Byte), s.params.wf = true → s.env.resetLine = [] →
    s.mode.dev ≠ .awaitingResponse →
    let gives := fun (i : Instr) (codes : List OutcomeCode) (invalid : Prop) =>
      exec i s = .next t → t.host.lastOutcome ∈ codes ∧ (t.host.lastOutcome = .invalidRequest → invalid)
    gives (.radioScan payload)
        [.ok, .noResponse, .malformedFrame, .noTagDetected, .anticollisionFailed, .deviceFault, .invalidRequest]
        (payload ≠ []) ∧
      gives (.echoTest payload) [.ok, .deviceFault, .invalidRequest] (payload ≠ []) ∧
      gives (.calibration payload) [.unsupported] False ∧
      gives (.getChipId payload) [.ok, .noResponse, .malformedFrame, .deviceFault, .invalidRequest] (payload ≠ []) ∧
      gives (.getUid payload) [.ok, .noTagDetected, .deviceFault, .invalidRequest] (payload ≠ []) ∧
      gives (.runAnticol payload)
        [.ok, .noTagDetected, .anticollisionFailed, .deviceFault, .notReady, .invalidRequest] (payload ≠ []) ∧
      gives (.goIdle payload) [.ok, .noResponse, .malformedFrame, .notReady, .invalidRequest] (payload ≠ []) ∧
      gives (.selectProtocol payload) [.ok, .noResponse, .malformedFrame, .deviceFault, .invalidRequest]
        (payload.length ≠ 3 ∨ validCfg payload = false) ∧
      gives (.fieldOff payload) [.ok, .noResponse, .malformedFrame, .invalidRequest] (payload ≠ []) ∧
      (s.resetDue = false → s.host.phase = .busy → s.ac.step = .off ∨ s.ac.step = .done → 9 ≤ s.host.reqSel.toNat →
        step s = .next t → t.host.lastOutcome = .invalidRequest)

/-- The dev_state transitions, for every instruction and whatever the CHIP does (R417): no instruction ends in
AWAITING_RESPONSE; one that sends nothing, as every refusal does, changes nothing, nor does a request that ends
NoResponse or MalformedFrame, but for GO_IDLE; UNINITIALIZED is never entered again, and is left for IDLE only where a
transaction answers a success frame or an echo attempt is ALIVE; ERROR is left only by GO_IDLE and a FIELD_OFF that is
OK, and entered only by an echo probe that fails, in the three requests that make one; FIELD_ON is entered only by a
selection that succeeds, in SELECT_PROTOCOL and RADIO_SCAN, and left for IDLE only by GO_IDLE and a field-off that is
OK. -/
def Obligations.DevStateTransitions : Prop :=
  ∀ (s t : State) (i : Instr), s.params.wf = true → i.wf = true → s.env.resetLine = [] →
    s.mode.dev ≠ .awaitingResponse → exec i s = .next t →
    t.mode.dev ≠ .awaitingResponse ∧
      (t.out.sent = s.out.sent → t.mode.dev = s.mode.dev) ∧
      (i.space = .host → t.host.lastOutcome = .noResponse ∨ t.host.lastOutcome = .malformedFrame →
        (∀ payload, i ≠ .goIdle payload) → t.mode.dev = s.mode.dev) ∧
      (t.mode.dev = .uninitialized → s.mode.dev = .uninitialized) ∧
      (s.mode.dev = .uninitialized → t.mode.dev = .idle →
        (i.space = .chip →
          t.out.callResult = some .alive ∨ ∃ status body, t.out.callResult = some (.frame status body)) ∧
        (i.space = .air → t.txn.lastStatus = s.params.stData) ∧
        (i.space = .host → t.host.lastOutcome = .ok ∧
          ∃ payload, i = .echoTest payload ∨ i = .getChipId payload ∨ i = .fieldOff payload ∨
            i = .selectProtocol payload)) ∧
      (s.mode.dev = .error → t.mode.dev ≠ .error → t.mode.dev = .idle ∧
        ∃ payload, i = .goIdle payload ∨ i = .fieldOff payload ∧ t.host.lastOutcome = .ok) ∧
      (t.mode.dev = .error → s.mode.dev ≠ .error → t.host.lastOutcome = .deviceFault ∧
        ∃ payload, i = .echoTest payload ∨ i = .selectProtocol payload ∨ i = .radioScan payload) ∧
      (t.mode.dev = .fieldOn → s.mode.dev ≠ .fieldOn →
        ∃ payload, i = .selectProtocol payload ∧ t.host.lastOutcome = .ok ∨
          i = .radioScan payload ∧ t.host.lastOutcome ∈ [.ok, .noTagDetected, .anticollisionFailed]) ∧
      (s.mode.dev = .fieldOn → t.mode.dev = .idle →
        ∃ payload, i = .goIdle payload ∨
          (i = .fieldOff payload ∨ i = .selectProtocol payload) ∧ t.host.lastOutcome = .ok)

/-- What sets settle_pending, reset apart (R208): only a BAUDRATE and a PROTOCOL command for a protocol other than
FIELD_OFF that get a success (PROTOCOL at the CommandEngine's entry: log entry 28), and a SELECT_PROTOCOL that ends
OK; GET_CHIP_ID, GO_IDLE, FIELD_OFF, the echo probe, the cascade and every refusal and failure never do, and what else
sends leaves it cleared. While a settle is pending nothing happens on the transport before it has been waited out:
every new event comes at T_RAMP + T_OSC or later, and an instruction that sends is over no earlier (R207, R460). -/
def Obligations.SettleTriggers : Prop :=
  ∀ (s t : State) (i : Instr), s.params.wf = true → i.wf = true → s.env.resetLine = [] → exec i s = .next t →
    let sets :=
      ((∃ q, i = .baudrate q) ∨ ∃ wire param, wire ≠ s.params.pidFieldOff ∧ i = .protocol wire param) ∧
          (∃ status body, t.out.callResult = some (.frame status body)) ∨
        (∃ payload, i = .selectProtocol payload) ∧ t.host.lastOutcome = .ok
    (s.txn.settlePending = false → t.txn.settlePending = true → sets) ∧
    (s.out.sent < t.out.sent → t.txn.settlePending = true → sets) ∧
    (s.txn.settlePending = true →
      (∃ new, t.out.line = s.out.line ++ new ∧ ∀ e ∈ new, s.now + s.params.tRamp + s.params.tOsc ≤ e.time) ∧
      (s.out.sent < t.out.sent → s.now + s.params.tRamp + s.params.tOsc ≤ t.now))

/-- What changes the Tag register (R50, R325, R326, R368, R464): a RADIO_SCAN or RUN_ANTICOL whose cascade has run, as
its outcome says; a single air row that ends the cascade OK (log entry 17); and a FIELD_OFF, or a SELECT_PROTOCOL of
FIELD_OFF, that ends OK, which only clears tag_valid (R249, R294). Nothing else does: no chip command, no other
protocol's selection, no refused request, and no FIELD_OFF or selection that fails. -/
def Obligations.TagChangesOnlyByCascadeOrFieldOff : Prop :=
  ∀ (s t : State) (i : Instr), s.params.wf = true → i.wf = true → s.env.resetLine = [] → exec i s = .next t →
    t.tag ≠ s.tag →
    ((i = .radioScan [] ∨ i = .runAnticol []) ∧
        t.host.lastOutcome ∈ [.ok, .noTagDetected, .anticollisionFailed]) ∨
      (i.space = .air ∧ t.ac.step = .done ∧ t.host.lastOutcome = .ok) ∨
      ((i = .fieldOff [] ∨ ∃ tx rx, i = .selectProtocol [0#8, tx, rx]) ∧ t.host.lastOutcome = .ok ∧
        t.tag = { s.tag with valid := false })

/-- Failure leaks nothing (R325): a request that ends NoTagDetected or AnticollisionFailed after its cascade leaves
tag_valid = 0, and its reply is the outcome code alone. The same of a cascade run by single air rows (log entry 17),
tag_valid being 0 from its entry on (R312): a row that goes on changes neither the Tag nor the host port, and one that
ends the cascade without a Tag leaves tag_valid = 0 and a reply of the outcome code alone. -/
def Obligations.CascadeFailureLeaksNothing : Prop :=
  ∀ (s t : State) (i : Instr), s.params.wf = true → s.env.resetLine = [] → exec i s = .next t →
    let leaksNothing := t.tag.valid = false ∧ t.host.rspOk = false ∧ t.host.rspLen = 1 ∧
      t.host.rspBuf.read 0 = some t.host.lastOutcome.byte
    (i = .radioScan [] ∨ i = .runAnticol [] →
      t.host.lastOutcome = .noTagDetected ∨ t.host.lastOutcome = .anticollisionFailed →
      leaksNothing ∧ t.mode.dev = .fieldOn ∧ t.mode.cfg = { pid := .iso14443A, tx := .r106, rx := .r106 }) ∧
    (i.space = .air → s.tag.valid = false →
      (t.ac.step ≠ .done → t.tag = s.tag ∧ t.host = s.host) ∧
      (t.ac.step = .done → t.host.lastOutcome = .ok ∨
        (t.host.lastOutcome = .noTagDetected ∨ t.host.lastOutcome = .anticollisionFailed) ∧ leaksNothing))

/-- Every request is over in bounded time, whatever the CHIP does and whether or not a reset cuts it short (R212, with
X and Rd zero as R470 has them; R469): with S the settle, one framed transaction takes at most S + T_NORESP, an echo
probe S + ECHO_ATTEMPTS T_ECHO, a cascade S + 7 T_DETECT, and RADIO_SCAN the sum of its selection and its cascade. -/
def Obligations.RequestsEndInTime : Prop :=
  ∀ (s t : State) (i : Instr), s.params.wf = true → i.wf = true → exec i s = .next t →
    let settle := s.params.tRamp + s.params.tOsc
    let echo := s.params.echoAttempts * s.params.tEcho
    let cascade := 7 * s.params.tDetect
    (∀ pl, i = .calibration pl ∨ i = .getUid pl → t.now = s.now) ∧
      (∀ pl, i = .getChipId pl ∨ i = .goIdle pl ∨ i = .fieldOff pl → t.now ≤ s.now + (settle + s.params.tNoresp)) ∧
      (∀ pl, i = .echoTest pl → t.now ≤ s.now + (settle + echo)) ∧
      (∀ pl, i = .selectProtocol pl → t.now ≤ s.now + (settle + max s.params.tNoresp echo)) ∧
      (∀ pl, i = .runAnticol pl → t.now ≤ s.now + (settle + cascade)) ∧
      (∀ pl, i = .radioScan pl → t.now ≤ s.now + (settle + max s.params.tNoresp echo) + (settle + cascade))

/-! ## The cascade's steps -/

/-- REQA (R313, R315), run at its position (log entry 17): where the CHIP answers an ATQA of the exact length, it is
captured with its size class and the cascade stands at (AC_ANTICOL, 1); nothing else changes but what the exchange
writes. -/
def Obligations.ReqaCaptures : Prop :=
  ∀ (s : State) (a0 a1 : Byte) (more bytes : List Byte) (u : Nat) (line' : ChipLine), s.params.wf = true →
    s.quietUntil u → more.length = s.params.rxTrailerLen →
    lenAccepted s.params.lenSendRecv (2 + more.length) = true →
    ChipFrame s.params .detect (s.out.sent + 1) s.sendTime s.chip s.params.stData (a0 :: a1 :: more) bytes u line' →
    ∃ t, exec .reqa s =
        .next { t with
          ac.atqa0 := a0
          ac.atqa1 := a1
          ac.sizeClass := a0.extractLsb' 6 2
          ac.level := some .l1
          ac.step := .anticol } ∧
      Exchanged s t .detect (frameBytes s.params s.params.opcSendRecv [s.params.reqaCode, s.params.txfReqa]) bytes u
        line' ∧
      t.mode.dev = s.mode.dev.afterSuccess ∧ t.txn.lastStatus = s.params.stData

/-- ANTICOL at each level (R316 to R318): a reply of the exact length whose BCC is good goes into cand, byte by byte,
and the cascade stands at AC_SELECT of the same level; a BCC that is not the exclusive-or of the four bytes,
VERIFY_BCC being true, ends the cascade AnticollisionFailed and, in the same step, the request that runs it (R364,
R369; the model's choice of step, log entry 17). -/
def Obligations.AnticolCaptures : Prop :=
  ∀ (s : State) (c0 c1 c2 c3 b : Byte) (more bytes : List Byte) (u : Nat) (line' : ChipLine), s.params.wf = true →
    s.quietUntil u → more.length = s.params.rxTrailerLen →
    lenAccepted s.params.lenSendRecv (5 + more.length) = true →
    ChipFrame s.params .detect (s.out.sent + 1) s.sendTime s.chip s.params.stData
      (c0 :: c1 :: c2 :: c3 :: b :: more) bytes u line' →
    let anticol := fun (i : Instr) (sel : Byte) =>
      ∃ (t : State) (cand : Memory),
        Exchanged s t .detect
          (frameBytes s.params s.params.opcSendRecv [sel, s.params.nvbAnticol, s.params.txfAnticol]) bytes u line' ∧
        t.mode.dev = s.mode.dev.afterSuccess ∧ t.txn.lastStatus = s.params.stData ∧
        Memory.Holds s.ac.cand cand [c0, c1, c2, c3, b] ∧
        (s.params.verifyBcc = false ∨ b = c0 ^^^ c1 ^^^ c2 ^^^ c3 →
          exec i s = .next { t with ac.cand := cand, ac.step := .select }) ∧
        (s.params.verifyBcc = true → b ≠ c0 ^^^ c1 ^^^ c2 ^^^ c3 →
          exec i s = .next ({ t with ac.cand := cand, ac.step := .done }.finish .anticollisionFailed []))
    anticol .anticolL1 s.params.sel1 ∧ anticol .anticolL2 s.params.sel2 ∧ anticol .anticolL3 s.params.sel3

/-- SELECT with the cascade bit set (R320 to R322, R324, R319): at levels 1 and 2 the three bytes after the marker are
appended to uid_buf and the cascade stands at (AC_ANTICOL, n + 1); at level 3, and where the marker check fails, it
ends AnticollisionFailed with uid_buf and uid_len as they were and, in the same step, so does the request that runs it
(R364, R369; the model's choice of step, log entry 17). -/
def Obligations.SelectCascades : Prop :=
  ∀ (s : State) (c0 c1 c2 c3 b k : Byte) (more bytes : List Byte) (u : Nat) (line' : ChipLine), s.params.wf = true →
    s.quietUntil u → more.length = s.params.sakCrcLen + s.params.rxTrailerLen → s.ac.uidLen ≤ 7 →
    lenAccepted s.params.lenSendRecv (1 + more.length) = true → (k &&& s.params.sakCascadeMask) ≠ 0#8 →
    ChipFrame s.params .detect (s.out.sent + 1) s.sendTime s.chip s.params.stData (k :: more) bytes u line' →
    let select := fun (i : Instr) (sel : Byte) (next : Option Level) =>
      ∃ (t : State) (uid : Memory),
        Exchanged s t .detect
          (frameBytes s.params s.params.opcSendRecv
            [sel, s.params.nvbSelect, c0, c1, c2, c3, b, s.params.txfSelect]) bytes u line' ∧
        t.mode.dev = s.mode.dev.afterSuccess ∧ t.txn.lastStatus = s.params.stData ∧
        (∀ j < 3, uid.read (s.ac.uidLen + j) = [c1, c2, c3][j]?) ∧
        (∀ a, a < s.ac.uidLen ∨ s.ac.uidLen + 3 ≤ a → uid.read a = s.ac.uidBuf.read a) ∧
        (∀ n, next = some n → s.params.checkCt = false ∨ c0 = s.params.ctByte →
          exec i s = .next { t with
            ac.sak := k
            ac.ctPresent := true
            ac.uidBuf := uid
            ac.uidLen := s.ac.uidLen + 3
            ac.level := next
            ac.step := .anticol }) ∧
        (next = none ∨ s.params.checkCt = true ∧ c0 ≠ s.params.ctByte →
          exec i s =
            .next ({ t with ac.sak := k, ac.ctPresent := true, ac.step := .done }.finish .anticollisionFailed []))
    select (.selectL1 c0 c1 c2 c3 b) s.params.sel1 (some .l2) ∧
      select (.selectL2 c0 c1 c2 c3 b) s.params.sel2 (some .l3) ∧ select (.selectL3 c0 c1 c2 c3 b) s.params.sel3 none

/-- SELECT with the cascade bit clear, at each level (R320, R321, R323, R326): all four bytes are appended, the Tag
register takes the whole UID, the ATQA and the SAK, and in the same step the request that runs the cascade ends OK
with the Tag's reply (R134, R364, R369; the model's choice of step, log entry 17). -/
def Obligations.SelectCompletes : Prop :=
  ∀ (s : State) (c0 c1 c2 c3 b k : Byte) (done more bytes : List Byte) (u : Nat) (line' : ChipLine),
    s.params.wf = true → s.quietUntil u → more.length = s.params.sakCrcLen + s.params.rxTrailerLen →
    s.ac.uidLen ≤ 6 → s.ac.uidBuf.readRange 0 s.ac.uidLen = some done →
    lenAccepted s.params.lenSendRecv (1 + more.length) = true → (k &&& s.params.sakCascadeMask) = 0#8 →
    ChipFrame s.params .detect (s.out.sent + 1) s.sendTime s.chip s.params.stData (k :: more) bytes u line' →
    let uid := done ++ [c0, c1, c2, c3]
    let select := fun (i : Instr) (sel : Byte) =>
      ∃ (t : State) (buf tagBuf : Memory),
        exec i s =
          .next ({ t with
            ac.sak := k
            ac.ctPresent := false
            ac.complete := true
            ac.uidBuf := buf
            ac.uidLen := s.ac.uidLen + 4
            ac.step := .done
            tag := { valid := true, uid := tagBuf, len := s.ac.uidLen + 4, atqa0 := s.ac.atqa0, atqa1 := s.ac.atqa1
                     sak := k } }.finish .ok
            (BitVec.ofNat 8 (s.ac.uidLen + 4) :: uid ++ [s.ac.atqa0, s.ac.atqa1, k])) ∧
        Exchanged s t .detect
          (frameBytes s.params s.params.opcSendRecv
            [sel, s.params.nvbSelect, c0, c1, c2, c3, b, s.params.txfSelect]) bytes u line' ∧
        t.mode.dev = s.mode.dev.afterSuccess ∧ t.txn.lastStatus = s.params.stData ∧
        Memory.Holds s.ac.uidBuf buf uid ∧ Memory.Holds s.tag.uid tagBuf uid
    select (.selectL1 c0 c1 c2 c3 b) s.params.sel1 ∧ select (.selectL2 c0 c1 c2 c3 b) s.params.sel2 ∧
      select (.selectL3 c0 c1 c2 c3 b) s.params.sel3

/-- A cascade step that gets no reply of its length (R310, R314, R316, R320, R331(c), R331(d)): every way the CHIP can
give it no frame, and a chip error status, are NoTagDetected at REQA where they are NoResponse and AnticollisionFailed
otherwise; a success frame of a length that is not accepted or not the step's is AnticollisionFailed at all of them.
The cascade is done, nothing else of it has changed, and the same step ends the request that runs it (R364, R369; the
model's choice of step, log entry 17). -/
def Obligations.CascadeStepFails : Prop :=
  ∀ (s : State) (i : Instr) (u : Nat) (line' : ChipLine), s.params.wf = true → s.quietUntil u → i.space = .air →
    let sent := frameBytes s.params s.params.opcSendRecv (encode s.params i)
    (∀ answer received status v,
      ChipFails s.params .detect s.params.stData s.params.lenSendRecv (s.out.sent + 1) s.sendTime s.chip
        s.txn.lastStatus answer received status v u line' →
      let code := if i = .reqa ∧ answer = .noResponse then OutcomeCode.noTagDetected else .anticollisionFailed
      ∃ t, exec i s = .next ({ t with ac.step := .done }.finish code []) ∧
        ExchangedAt s t .detect sent received v u line' ∧ t.mode.dev = s.mode.dev ∧ t.txn.lastStatus = status) ∧
    (∀ reply bytes, lenAccepted s.params.lenSendRecv reply.length = true →
      reply.length ≠ (match i with
        | .reqa => 2 + s.params.rxTrailerLen
        | .anticolL1 | .anticolL2 | .anticolL3 => 5 + s.params.rxTrailerLen
        | _ => 1 + s.params.sakCrcLen + s.params.rxTrailerLen) →
      ChipFrame s.params .detect (s.out.sent + 1) s.sendTime s.chip s.params.stData reply bytes u line' →
      ∃ t, exec i s = .next ({ t with ac.step := .done }.finish .anticollisionFailed []) ∧
        Exchanged s t .detect sent bytes u line' ∧ t.mode.dev = s.mode.dev.afterSuccess ∧
        t.txn.lastStatus = s.params.stData)

/-- A whole RUN_ANTICOL is its cascade's steps, one after the other (R310, R369): the machine started at AC_REQA as
CascadeEntry leaves it reaches, after 1 to 7 steps, the very state that the request reaches in one, whatever the CHIP
does. -/
def Obligations.RunAnticolIsItsSteps : Prop :=
  ∀ (s t entered : State), s.params.wf = true → s.env.resetLine = [] → s.host.phase = .busy →
    s.mode.dev = .fieldOn → s.mode.cfg = { pid := .iso14443A, tx := .r106, rx := .r106 } →
    cascadeEntry.run s = .ok ⟨⟩ entered → exec (.runAnticol []) s = .next t →
    ∃ k, 1 ≤ k ∧ k ≤ 7 ∧ Host.Core.run Sys2Proof.core k entered = .next t
end

