-- ==== Sys2Proof/Laws/Decode.lean ====
section
/-! SUPPORT. What a well-formed parameter block gives (R9), and how the counted bytes and the frames of the decoder
read back (R111, R115, R131, R137). -/

namespace Sys2Proof.Laws

/-- What R9's constraints say of a parameter block, one clause a conjunct. -/
theorem params_wf {p : Params} (h : p.wf = true) :
    (∀ k, 0 < p.ticks k) ∧ 0 < p.tIb ∧ 1 ≤ p.echoAttempts ∧ p.echoAttempts ≤ 255 ∧ p.opcodes.Nodup ∧
      [p.sel1, p.sel2, p.sel3].Nodup ∧ (∀ c, (p.respLen c).max ≤ maxPayload) ∧ p.idleParams.length ≤ maxPayload := by
  simp only [Params.wf, Bool.and_eq_true, decide_eq_true_eq, List.all_cons, List.all_nil, FrameCmd.all] at h
  obtain ⟨⟨⟨⟨⟨⟨⟨h1, h2, h3, h4, h5, h6, -⟩, ha⟩, hb⟩, ho⟩, hs⟩, hr⟩, hi⟩ := h
  refine ⟨fun k => ?_, h6.1, ha, hb, ho, hs, fun c => ?_, hi⟩
  · cases k
    · exact h1.1
    · exact h2.1
    · exact h3.1
    · exact h4.1
    · exact h5.1
  · cases c <;> simp only [hr]

/-- The defaults meet R9's constraints, whatever IDLE_PARAMS is. -/
theorem default_wf : Params.default.wf = true := by
  unfold Params.wf
  simp only [Bool.and_eq_true, decide_eq_true_eq]
  exact ⟨⟨⟨⟨⟨⟨by decide, by decide⟩, by decide⟩, by decide⟩, by decide⟩, by decide⟩, List.length_take_le _ _⟩

theorem ticks_pos {p : Params} (h : p.wf = true) (k : DeadlineKind) : 0 < p.ticks k := (params_wf h).1 k
theorem tIb_pos {p : Params} (h : p.wf = true) : 0 < p.tIb := (params_wf h).2.1
theorem attempts_pos {p : Params} (h : p.wf = true) : 1 ≤ p.echoAttempts := (params_wf h).2.2.1
theorem attempts_le {p : Params} (h : p.wf = true) : p.echoAttempts ≤ 255 := (params_wf h).2.2.2.1

/-- A length byte of an admissible payload reads back as its length. -/
theorem lengthByte_toNat {n : Nat} (h : n ≤ maxPayload) : (BitVec.ofNat 8 n).toNat = n := by
  rw [BitVec.toNat_ofNat]; exact Nat.mod_eq_of_lt (by unfold maxPayload at h; omega)

/-- Counted bytes and what follows them come apart again. -/
theorem takeCounted_ok (pl rest : List Byte) (h : pl.length ≤ maxPayload) :
    takeCounted (BitVec.ofNat 8 pl.length :: (pl ++ rest)) = .ok (pl, rest) := by
  simp [takeCounted, lengthByte_toNat h]
  omega

/-- What comes apart was a length byte, the bytes it counts and the rest. -/
theorem takeCounted_inv {bytes pl rest : List Byte} (h : takeCounted bytes = .ok (pl, rest)) :
    pl.length ≤ maxPayload ∧ bytes = BitVec.ofNat 8 pl.length :: (pl ++ rest) := by
  cases bytes with
  | nil => simp [takeCounted] at h
  | cons len body =>
    simp only [takeCounted] at h
    split at h
    · cases h
    · split at h
      · cases h
      · cases h
        have hl : (body.take len.toNat).length = len.toNat := by simp; omega
        rw [hl]
        exact ⟨by omega, by simp⟩

/-- An opcode names its own command and is not the echo byte (R9, R115). -/
theorem frameCmdOf_opcode {p : Params} (h : p.wf = true) (c : FrameCmd) :
    frameCmdOf p (p.opcode c) = some c ∧ p.opcode c ≠ p.opcEcho := by
  have ho := (params_wf h).2.2.2.2.1
  simp only [Params.opcodes, FrameCmd.all, Params.opcode, List.map_cons, List.map_nil, List.cons_append,
    List.nil_append, List.nodup_cons, List.mem_cons, List.not_mem_nil, or_false, not_or, List.nodup_nil] at ho
  cases c <;> simp [frameCmdOf, FrameCmd.all, Params.opcode, List.find?] <;> grind

@[simp] theorem trailerBytes_length (p : Params) (body : List Byte) :
    (trailerBytes p body).length = p.frameTrailerLen := by
  simp [trailerBytes]

/-- A frame's length (R111, R137). -/
theorem frameBytes_length (p : Params) (op : Byte) (pl : List Byte) :
    (frameBytes p op pl).length = 2 + pl.length + p.frameTrailerLen := by
  simp [frameBytes]; omega

theorem frameBytes_le {p : Params} {op : Byte} {pl : List Byte} (h : pl.length ≤ maxPayload) :
    (frameBytes p op pl).length ≤ 256 + p.frameTrailerLen := by
  rw [frameBytes_length]; unfold maxPayload at h; omega

/-- A frame's own trailer comes off again. -/
theorem takeTrailer_ok (p : Params) (op : Byte) (pl rest : List Byte) :
    takeTrailer p op pl (trailerBytes p (op :: BitVec.ofNat 8 pl.length :: pl) ++ rest) = .ok rest := by
  have h := trailerBytes_length p (op :: BitVec.ofNat 8 pl.length :: pl)
  unfold takeTrailer
  rw [if_neg (by simp [h]), if_pos (by rw [← h, List.take_left]), ← h, List.drop_left]

/-- What came off was the frame's own trailer. -/
theorem takeTrailer_inv {p : Params} {op : Byte} {pl after rest : List Byte}
    (h : takeTrailer p op pl after = .ok rest) :
    after = trailerBytes p (op :: BitVec.ofNat 8 pl.length :: pl) ++ rest := by
  unfold takeTrailer at h
  split at h
  · cases h
  · split at h
    · rename_i ht
      cases h
      rw [← ht, List.take_append_drop]
    · cases h

/-- A frame of an admissible payload decodes to the instruction the payload makes (R111, R115, R137). -/
theorem decodeChip_frame {p : Params} (h : p.wf = true) {c : FrameCmd} {pl : List Byte} {i : Instr}
    (hl : pl.length ≤ maxPayload) (hi : frameInstr p c pl = some i) (rest : List Byte) :
    decodeChip p (encodeChip p c pl ++ rest) = .ok (i, rest) := by
  obtain ⟨h1, h2⟩ := frameCmdOf_opcode h c
  simp only [encodeChip, frameBytes, List.cons_append, List.append_assoc, decodeChip, h2, if_false, h1]
  rw [takeCounted_ok pl _ hl]
  simp only
  rw [takeTrailer_ok]
  simp [hi]

/-- A request of an admissible payload decodes to the request its selector names (R131, R132). -/
theorem decodeHost_request {sel : Byte} {pl : List Byte} {i : Instr} (hl : pl.length ≤ maxPayload)
    (hs : sel.toNat ≤ 8) (hi : hostInstr sel pl = some i) (rest : List Byte) :
    decodeHost (encodeHost sel pl ++ rest) = .ok (i, rest) := by
  simp only [encodeHost, List.cons_append, decodeHost, show ¬ 8 < sel.toNat by omega, if_false]
  rw [takeCounted_ok pl rest hl]
  simp [hi]

end Sys2Proof.Laws
end

