-- ==== Sys2Proof/Laws/State.lean ====
section
/-! SUPPORT. What each named update of the state leaves in each part of it, true by unfolding once, so that no later
proof unfolds a record update. -/

namespace Sys2Proof.Laws

open Sys2Proof.Machine

/-! ## finish -/

@[simp] theorem finish_params (s : State) (c : OutcomeCode) (d : List Byte) : (s.finish c d).params = s.params := rfl
@[simp] theorem finish_mode (s : State) (c : OutcomeCode) (d : List Byte) : (s.finish c d).mode = s.mode := rfl
@[simp] theorem finish_txn (s : State) (c : OutcomeCode) (d : List Byte) : (s.finish c d).txn = s.txn := rfl
@[simp] theorem finish_ac (s : State) (c : OutcomeCode) (d : List Byte) : (s.finish c d).ac = s.ac := rfl
@[simp] theorem finish_tag (s : State) (c : OutcomeCode) (d : List Byte) : (s.finish c d).tag = s.tag := rfl
@[simp] theorem finish_now (s : State) (c : OutcomeCode) (d : List Byte) : (s.finish c d).now = s.now := rfl
@[simp] theorem finish_chip (s : State) (c : OutcomeCode) (d : List Byte) : (s.finish c d).chip = s.chip := rfl
@[simp] theorem finish_env (s : State) (c : OutcomeCode) (d : List Byte) : (s.finish c d).env = s.env := rfl
@[simp] theorem finish_out (s : State) (c : OutcomeCode) (d : List Byte) : (s.finish c d).out = s.out := rfl
@[simp] theorem finish_phase (s : State) (c : OutcomeCode) (d : List Byte) : (s.finish c d).host.phase = .done := rfl
@[simp] theorem finish_reqSel (s : State) (c : OutcomeCode) (d : List Byte) :
    (s.finish c d).host.reqSel = s.host.reqSel := rfl
@[simp] theorem finish_reqLen (s : State) (c : OutcomeCode) (d : List Byte) :
    (s.finish c d).host.reqLen = s.host.reqLen := rfl
@[simp] theorem finish_reqBuf (s : State) (c : OutcomeCode) (d : List Byte) :
    (s.finish c d).host.reqBuf = s.host.reqBuf := rfl
@[simp] theorem finish_rspValid (s : State) (c : OutcomeCode) (d : List Byte) :
    (s.finish c d).host.rspValid = true := rfl
@[simp] theorem finish_rspOk (s : State) (c : OutcomeCode) (d : List Byte) :
    (s.finish c d).host.rspOk = (c == .ok) := rfl
@[simp] theorem finish_rspLen (s : State) (c : OutcomeCode) (d : List Byte) :
    (s.finish c d).host.rspLen = 1 + d.length := rfl
@[simp] theorem finish_rspBuf (s : State) (c : OutcomeCode) (d : List Byte) :
    (s.finish c d).host.rspBuf = s.host.rspBuf.writeRange 0 (c.byte :: d) := rfl
@[simp] theorem finish_lastOutcome (s : State) (c : OutcomeCode) (d : List Byte) :
    (s.finish c d).host.lastOutcome = c := rfl

/-! ## The reset action -/

@[simp] theorem resetAction_params (s : State) : s.resetAction.params = s.params := rfl
@[simp] theorem resetAction_host (s : State) : s.resetAction.host = State.reset.host := rfl
@[simp] theorem resetAction_mode (s : State) : s.resetAction.mode = State.reset.mode := rfl
@[simp] theorem resetAction_txn (s : State) : s.resetAction.txn = State.reset.txn := rfl
@[simp] theorem resetAction_ac (s : State) : s.resetAction.ac = State.reset.ac := rfl
@[simp] theorem resetAction_tag (s : State) : s.resetAction.tag = State.reset.tag := rfl
@[simp] theorem resetAction_now (s : State) : s.resetAction.now = s.now := rfl
@[simp] theorem resetAction_chip (s : State) : s.resetAction.chip = s.chip := rfl
@[simp] theorem resetAction_hostLine (s : State) : s.resetAction.env.hostLine = s.env.hostLine := rfl
@[simp] theorem resetAction_resetLine (s : State) : s.resetAction.env.resetLine = s.env.resetLine.tail := rfl
@[simp] theorem resetAction_chipCall (s : State) : s.resetAction.env.chipCall = none := rfl
@[simp] theorem resetAction_sent (s : State) : s.resetAction.out.sent = s.out.sent := rfl
@[simp] theorem resetAction_line (s : State) : s.resetAction.out.line = s.out.line := rfl
@[simp] theorem resetAction_replies (s : State) : s.resetAction.out.replies = s.out.replies := rfl
@[simp] theorem resetAction_callResult (s : State) : s.resetAction.out.callResult = none := rfl

/-! ## The HOST's steps and the CLOCK's -/

@[simp] theorem present_params (s : State) (sel : Byte) (pl : List Byte) : (s.present sel pl).params = s.params := rfl
@[simp] theorem present_mode (s : State) (sel : Byte) (pl : List Byte) : (s.present sel pl).mode = s.mode := rfl
@[simp] theorem present_txn (s : State) (sel : Byte) (pl : List Byte) : (s.present sel pl).txn = s.txn := rfl
@[simp] theorem present_ac (s : State) (sel : Byte) (pl : List Byte) : (s.present sel pl).ac = s.ac := rfl
@[simp] theorem present_tag (s : State) (sel : Byte) (pl : List Byte) : (s.present sel pl).tag = s.tag := rfl
@[simp] theorem present_now (s : State) (sel : Byte) (pl : List Byte) : (s.present sel pl).now = s.now := rfl
@[simp] theorem present_chip (s : State) (sel : Byte) (pl : List Byte) : (s.present sel pl).chip = s.chip := rfl
@[simp] theorem present_env (s : State) (sel : Byte) (pl : List Byte) : (s.present sel pl).env = s.env := rfl
@[simp] theorem present_out (s : State) (sel : Byte) (pl : List Byte) : (s.present sel pl).out = s.out := rfl
@[simp] theorem present_phase (s : State) (sel : Byte) (pl : List Byte) : (s.present sel pl).host.phase = .busy := rfl
@[simp] theorem present_reqSel (s : State) (sel : Byte) (pl : List Byte) : (s.present sel pl).host.reqSel = sel := rfl
@[simp] theorem present_reqLen (s : State) (sel : Byte) (pl : List Byte) :
    (s.present sel pl).host.reqLen = pl.length := rfl
@[simp] theorem present_reqBuf (s : State) (sel : Byte) (pl : List Byte) :
    (s.present sel pl).host.reqBuf = s.host.reqBuf.writeRange 0 pl := rfl
@[simp] theorem present_rspValid (s : State) (sel : Byte) (pl : List Byte) :
    (s.present sel pl).host.rspValid = false := rfl
@[simp] theorem present_rspOk (s : State) (sel : Byte) (pl : List Byte) :
    (s.present sel pl).host.rspOk = false := rfl
/-- No request sees the value rsp_ok has between Take and the next Present: Present clears it (R54, R360; log
entry 18). -/
theorem present_forgets_rspOk (s : State) (ok : Bool) (sel : Byte) (pl : List Byte) :
    ({ s with host.rspOk := ok } : State).present sel pl = s.present sel pl := rfl
@[simp] theorem present_rspLen (s : State) (sel : Byte) (pl : List Byte) :
    (s.present sel pl).host.rspLen = s.host.rspLen := rfl
@[simp] theorem present_rspBuf (s : State) (sel : Byte) (pl : List Byte) :
    (s.present sel pl).host.rspBuf = s.host.rspBuf := rfl
@[simp] theorem present_lastOutcome (s : State) (sel : Byte) (pl : List Byte) :
    (s.present sel pl).host.lastOutcome = s.host.lastOutcome := rfl

@[simp] theorem take_params (s : State) (b : List Byte) : (s.take b).params = s.params := rfl
@[simp] theorem take_mode (s : State) (b : List Byte) : (s.take b).mode = s.mode := rfl
@[simp] theorem take_txn (s : State) (b : List Byte) : (s.take b).txn = s.txn := rfl
@[simp] theorem take_ac (s : State) (b : List Byte) : (s.take b).ac = s.ac := rfl
@[simp] theorem take_tag (s : State) (b : List Byte) : (s.take b).tag = s.tag := rfl
@[simp] theorem take_now (s : State) (b : List Byte) : (s.take b).now = s.now := rfl
@[simp] theorem take_chip (s : State) (b : List Byte) : (s.take b).chip = s.chip := rfl
@[simp] theorem take_env (s : State) (b : List Byte) : (s.take b).env = s.env := rfl
@[simp] theorem take_host (s : State) (b : List Byte) :
    (s.take b).host = { s.host with rspValid := false, phase := .ready } := rfl
@[simp] theorem take_replies (s : State) (b : List Byte) :
    (s.take b).out.replies = s.out.replies ++ [{ bytes := b, ok := s.host.rspOk }] := rfl
@[simp] theorem take_sent (s : State) (b : List Byte) : (s.take b).out.sent = s.out.sent := rfl
@[simp] theorem take_line (s : State) (b : List Byte) : (s.take b).out.line = s.out.line := rfl
@[simp] theorem take_callResult (s : State) (b : List Byte) : (s.take b).out.callResult = s.out.callResult := rfl

@[simp] theorem tick_now (s : State) : s.tick.now = s.now + 1 := rfl
@[simp] theorem tick_params (s : State) : s.tick.params = s.params := rfl
@[simp] theorem tick_host (s : State) : s.tick.host = s.host := rfl
@[simp] theorem tick_mode (s : State) : s.tick.mode = s.mode := rfl
@[simp] theorem tick_txn (s : State) : s.tick.txn = s.txn := rfl
@[simp] theorem tick_ac (s : State) : s.tick.ac = s.ac := rfl
@[simp] theorem tick_tag (s : State) : s.tick.tag = s.tag := rfl
@[simp] theorem tick_chip (s : State) : s.tick.chip = s.chip := rfl
@[simp] theorem tick_env (s : State) : s.tick.env = s.env := rfl
@[simp] theorem tick_out (s : State) : s.tick.out = s.out := rfl

/-! ## Buffers -/

@[simp] theorem setBuf_params (s : State) (b : Buf) (m : Memory) : (s.setBuf b m).params = s.params := by
  cases b <;> rfl
@[simp] theorem setBuf_mode (s : State) (b : Buf) (m : Memory) : (s.setBuf b m).mode = s.mode := by cases b <;> rfl
@[simp] theorem setBuf_now (s : State) (b : Buf) (m : Memory) : (s.setBuf b m).now = s.now := by cases b <;> rfl
@[simp] theorem setBuf_chip (s : State) (b : Buf) (m : Memory) : (s.setBuf b m).chip = s.chip := by cases b <;> rfl
@[simp] theorem setBuf_env (s : State) (b : Buf) (m : Memory) : (s.setBuf b m).env = s.env := by cases b <;> rfl
@[simp] theorem setBuf_out (s : State) (b : Buf) (m : Memory) : (s.setBuf b m).out = s.out := by cases b <;> rfl
@[simp] theorem setBuf_validLen (s : State) (b c : Buf) (m : Memory) : (s.setBuf b m).validLen c = s.validLen c := by
  cases b <;> cases c <;> rfl
@[simp] theorem buf_setBuf_same (s : State) (b : Buf) (m : Memory) : (s.setBuf b m).buf b = m := by
  cases b <;> rfl

theorem buf_setBuf_other (s : State) {b c : Buf} (m : Memory) (h : c ≠ b) :
    (s.setBuf b m).buf c = s.buf c := by
  cases b <;> cases c <;> first | rfl | exact absurd rfl h

/-! ## Where an instruction stands -/

@[simp] theorem accept_params (s : State) (i : Instr) : (s.accept i).params = s.params := by
  unfold State.accept; split <;> rfl
@[simp] theorem accept_host (s : State) (i : Instr) : (s.accept i).host = s.host := by
  unfold State.accept; split <;> rfl
@[simp] theorem accept_mode (s : State) (i : Instr) : (s.accept i).mode = s.mode := by
  unfold State.accept; split <;> rfl
@[simp] theorem accept_txn (s : State) (i : Instr) : (s.accept i).txn = s.txn := by
  unfold State.accept; split <;> rfl
@[simp] theorem accept_ac (s : State) (i : Instr) : (s.accept i).ac = s.ac := by
  unfold State.accept; split <;> rfl
@[simp] theorem accept_tag (s : State) (i : Instr) : (s.accept i).tag = s.tag := by
  unfold State.accept; split <;> rfl
@[simp] theorem accept_now (s : State) (i : Instr) : (s.accept i).now = s.now := by
  unfold State.accept; split <;> rfl
@[simp] theorem accept_chip (s : State) (i : Instr) : (s.accept i).chip = s.chip := by
  unfold State.accept; split <;> rfl
@[simp] theorem accept_out (s : State) (i : Instr) : (s.accept i).out = s.out := by
  unfold State.accept; split <;> rfl
@[simp] theorem accept_hostLine (s : State) (i : Instr) : (s.accept i).env.hostLine = s.env.hostLine := by
  unfold State.accept; split <;> rfl
@[simp] theorem accept_resetLine (s : State) (i : Instr) : (s.accept i).env.resetLine = s.env.resetLine := by
  unfold State.accept; split <;> rfl
theorem accept_chipCall (s : State) (i : Instr) :
    (s.accept i).env.chipCall = if i.space = .chip then none else s.env.chipCall := by
  unfold State.accept; split <;> rfl

end Sys2Proof.Laws
end

