-- ==== Sys2Proof/Laws/Memory.lean ====
section
/-! SUPPORT. The buffers' storage: read after write, ranges, and the canonical form that every write keeps. -/

namespace Sys2Proof.Laws

open Sys2Proof.Machine

theorem lookup_insertCell (i k : Nat) (v : Byte) (cs : List Host.Cell) :
    (insertCell i v cs).lookup k = if k = i then some v else cs.lookup k := by
  induction cs with
  | nil => simp [insertCell, List.lookup_cons]; split <;> simp_all
  | cons c rest ih =>
    obtain ⟨j, w⟩ := c
    unfold insertCell
    split
    · simp only [List.lookup_cons]; split <;> simp_all
    · split
      · subst_vars; simp only [List.lookup_cons]; split <;> simp_all
      · simp only [List.lookup_cons, ih]
        by_cases hk : k = i
        · subst hk
          have : (k == j) = false := by simpa using by omega
          simp [this]
        · simp [hk]

/-- A read after a write to the same index gives the value written. -/
@[simp] theorem read_write_same (m : Memory) (i : Nat) (v : Byte) : (m.write i v).read i = some v := by
  simp [Memory.read, Memory.write, lookup_insertCell]

/-- A write leaves every other index alone. -/
theorem read_write_other (m : Memory) {i k : Nat} (v : Byte) (h : k ≠ i) :
    (m.write i v).read k = m.read k := by
  simp [Memory.read, Memory.write, lookup_insertCell, h]

/-- Where a range has been written, its own byte is read; elsewhere, what was there. -/
theorem read_writeRange (m : Memory) (start k : Nat) (vs : List Byte) :
    (m.writeRange start vs).read k =
      if start ≤ k ∧ k < start + vs.length then vs[k - start]? else m.read k := by
  induction vs generalizing m start with
  | nil => simp only [Memory.writeRange, List.length_nil, Nat.add_zero]; rw [if_neg (by omega)]
  | cons v vs ih =>
    rw [Memory.writeRange, ih]
    by_cases h1 : start + 1 ≤ k ∧ k < start + 1 + vs.length
    · rw [if_pos h1, if_pos (by simp only [List.length_cons]; omega)]
      have : k - start = (k - (start + 1)) + 1 := by omega
      rw [this, List.getElem?_cons_succ]
    · rw [if_neg h1]
      by_cases h2 : k = start
      · subst h2; simp
      · rw [read_write_other _ _ h2, if_neg (by simp only [List.length_cons]; omega)]

/-- Outside a written range a read gives what it gave before. -/
theorem read_writeRange_outside (m : Memory) {start k : Nat} (vs : List Byte)
    (h : k < start ∨ start + vs.length ≤ k) : (m.writeRange start vs).read k = m.read k := by
  rw [read_writeRange, if_neg (by omega)]

theorem readRange_eq_some {m : Memory} {start n : Nat} {vs : List Byte} :
    m.readRange start n = some vs ↔
      vs.length = n ∧ ∀ k < n, m.read (start + k) = vs[k]? := by
  induction n generalizing start vs with
  | zero =>
    simp only [Memory.readRange, Option.some.injEq, Nat.not_lt_zero, false_imp_iff, implies_true, and_true]
    rw [List.length_eq_zero_iff]; exact eq_comm
  | succ n ih =>
    unfold Memory.readRange
    constructor
    · intro h
      split at h
      · case h_1 v ws hv hws =>
        cases h
        obtain ⟨hl, hk⟩ := ih.1 hws
        refine ⟨by simp [hl], fun k hk' => ?_⟩
        cases k with
        | zero => simpa using hv
        | succ k =>
          have := hk k (by omega)
          rw [List.getElem?_cons_succ, ← this]; congr 1; omega
      · cases h
    · rintro ⟨hl, hk⟩
      cases vs with
      | nil => simp at hl
      | cons v ws =>
        have h0 : m.read start = some v := by simpa using hk 0 (by omega)
        have hr : m.readRange (start + 1) n = some ws :=
          ih.2 ⟨by simpa using hl, fun k hk' => by
            have := hk (k + 1) (by omega)
            rw [List.getElem?_cons_succ] at this; rw [← this]; congr 1; omega⟩
        simp [h0, hr]

/-- A range is readable exactly when each of its bytes is. -/
theorem readRange_isSome {m : Memory} {start n : Nat} :
    (m.readRange start n).isSome ↔ ∀ k < n, (m.read (start + k)).isSome := by
  induction n generalizing start with
  | zero => simp [Memory.readRange]
  | succ n ih =>
    unfold Memory.readRange
    constructor
    · intro h k hk
      split at h
      · case h_1 v ws hv hws =>
        cases k with
        | zero => simp [hv]
        | succ k =>
          have := (ih (start := start + 1)).1 (by simp [hws]) k (by omega)
          rw [show start + (k + 1) = start + 1 + k by omega]; exact this
      · simp at h
    · intro h
      obtain ⟨v, hv⟩ := Option.isSome_iff_exists.1 (h 0 (by omega))
      have hr : (m.readRange (start + 1) n).isSome :=
        ih.2 fun k hk => by
          have := h (k + 1) (by omega)
          rwa [show start + (k + 1) = start + 1 + k by omega] at this
      obtain ⟨ws, hws⟩ := Option.isSome_iff_exists.1 hr
      rw [Nat.add_zero] at hv
      simp [hv, hws]

/-- A range read back right after it was written is what was written. -/
@[simp] theorem readRange_writeRange (m : Memory) (start : Nat) (vs : List Byte) :
    (m.writeRange start vs).readRange start vs.length = some vs := by
  rw [readRange_eq_some]
  refine ⟨rfl, fun k hk => ?_⟩
  rw [read_writeRange, if_pos (by omega)]; congr 1; omega

theorem risingCells_insertCell {i : Nat} {v : Byte} {cs : List Host.Cell} (h : risingCells cs) :
    risingCells (insertCell i v cs) := by
  induction cs with
  | nil => rfl
  | cons c rest ih =>
    obtain ⟨j, w⟩ := c
    unfold insertCell
    split
    · simp_all [risingCells]
    · split
      · subst_vars
        cases rest with
        | nil => rfl
        | cons d rest => simpa [risingCells] using h
      · cases rest with
        | nil => simp [insertCell, risingCells]; omega
        | cons d rest =>
          obtain ⟨k, x⟩ := d
          have hr : risingCells ((k, x) :: rest) := by
            simp only [risingCells, Bool.and_eq_true] at h; exact h.2
          have hjk : j < k := by simp only [risingCells, Bool.and_eq_true, decide_eq_true_eq] at h; exact h.1
          have hi := ih hr
          unfold insertCell at hi ⊢
          split
          · simp_all [risingCells]; omega
          · split
            · simp_all [risingCells]
            · simp_all [risingCells]

/-- A write keeps the canonical form. -/
theorem wf_write {m : Memory} (i : Nat) (v : Byte) (h : m.wf) : (m.write i v).wf :=
  risingCells_insertCell h

/-- A written range keeps the canonical form. -/
theorem wf_writeRange {m : Memory} (start : Nat) (vs : List Byte) (h : m.wf) :
    (m.writeRange start vs).wf := by
  induction vs generalizing m start with
  | nil => exact h
  | cons v vs ih => exact ih (start + 1) (wf_write start v h)

theorem wf_empty : Memory.empty.wf := rfl

theorem all_insertCell {q : Host.Cell → Bool} {i : Nat} {v : Byte} {cs : List Host.Cell}
    (h : cs.all q) (hq : q (i, v)) : (insertCell i v cs).all q := by
  induction cs with
  | nil => simp [insertCell, hq]
  | cons c rest ih =>
    obtain ⟨j, w⟩ := c
    simp only [List.all_cons, Bool.and_eq_true] at h
    unfold insertCell
    split
    · simp [hq, h.1, h.2]
    · split
      · simp [hq, h.2]
      · simp [h.1, ih h.2]

/-- A write below the size keeps every index below the size. -/
theorem within_write {m : Memory} {size i : Nat} (v : Byte) (h : m.within size) (hi : i < size) :
    (m.write i v).within size :=
  all_insertCell h (by simpa using hi)

/-- A range written below the size keeps every index below the size. -/
theorem within_writeRange {m : Memory} {size start : Nat} {vs : List Byte} (h : m.within size)
    (hs : start + vs.length ≤ size) : (m.writeRange start vs).within size := by
  induction vs generalizing m start with
  | nil => exact h
  | cons v vs ih =>
    simp only [List.length_cons] at hs
    exact ih (within_write v h (by omega)) (by omega)

theorem within_empty (size : Nat) : Memory.empty.within size := rfl

end Sys2Proof.Laws
end

