-- ==== Sys2Proof/Laws/Proc.lean ====
section
/-! SUPPORT. How a procedure runs: what sequencing, reading, writing and raising do to a state, and the rules by
which a property of a procedure's ending follows its sequencing. -/

namespace Sys2Proof.Laws

open Sys2Proof.Machine

@[simp] theorem run_pure {α : Type} (a : α) (s : State) : (pure a : Proc α).run s = .ok a s := rfl

/-- Sequencing: the second part runs where the first ends normally. -/
@[simp] theorem run_bind {α β : Type} (p : Proc α) (f : α → Proc β) (s : State) :
    (p >>= f).run s = match p.run s with
      | .ok a t => (f a).run t
      | .error e t => .error e t := by
  show EStateM.bind p f s = _
  unfold EStateM.bind EStateM.run
  cases p s <;> rfl

@[simp] theorem run_map {α β : Type} (g : α → β) (p : Proc α) (s : State) :
    (g <$> p).run s = match p.run s with
      | .ok a t => .ok (g a) t
      | .error e t => .error e t := by
  show EStateM.map g p s = _
  unfold EStateM.map EStateM.run
  cases p s <;> rfl

@[simp] theorem run_get (s : State) : (get : Proc State).run s = .ok s s := rfl

@[simp] theorem run_set (t s : State) : (set t : Proc PUnit).run s = .ok ⟨⟩ t := rfl

@[simp] theorem run_modify (f : State → State) (s : State) :
    (modify f : Proc PUnit).run s = .ok ⟨⟩ (f s) := rfl

@[simp] theorem run_throw {α : Type} (e : Stop) (s : State) :
    (throw e : Proc α).run s = .error e s := rfl

@[simp] theorem run_raise {α : Type} (c : OutcomeCode) (s : State) :
    (raiseOutcome c : Proc α).run s = .error (.outcome c) s := rfl

/-- A conditional procedure runs the branch its condition picks. -/
@[simp] theorem run_ite {α : Type} (c : Prop) [Decidable c] (p q : Proc α) (s : State) :
    (if c then p else q).run s = if c then p.run s else q.run s := by
  split <;> rfl

/-- Where the first part ends normally, sequencing is the second part. -/
theorem bind_ok {α β : Type} {p : Proc α} {f : α → Proc β} {s t : State} {a : α}
    (h : p.run s = .ok a t) : (p >>= f).run s = (f a).run t := by
  rw [run_bind, h]

/-- Where the first part ends early, so does the sequence. -/
theorem bind_error {α β : Type} {p : Proc α} {f : α → Proc β} {s t : State} {e : Stop}
    (h : p.run s = .error e t) : (p >>= f).run s = .error e t := by
  rw [run_bind, h]

/-- A procedure from a state ends normally in Q, or early in R. -/
def Ends {α : Type} (p : Proc α) (s : State) (Q : α → State → Prop) (R : Stop → State → Prop) : Prop :=
  match p.run s with
  | .ok a t => Q a t
  | .error e t => R e t

theorem Ends.ok {α : Type} {p : Proc α} {s t : State} {a : α} {Q : α → State → Prop}
    {R : Stop → State → Prop} (h : Ends p s Q R) (hp : p.run s = .ok a t) : Q a t := by
  simpa [Ends, hp] using h

theorem Ends.error {α : Type} {p : Proc α} {s t : State} {e : Stop} {Q : α → State → Prop}
    {R : Stop → State → Prop} (h : Ends p s Q R) (hp : p.run s = .error e t) : R e t := by
  simpa [Ends, hp] using h

theorem ends_pure {α : Type} {a : α} {s : State} {Q : α → State → Prop} {R : Stop → State → Prop}
    (h : Q a s) : Ends (pure a) s Q R := h

theorem ends_get {s : State} {Q : State → State → Prop} {R : Stop → State → Prop}
    (h : Q s s) : Ends get s Q R := h

theorem ends_set {s t : State} {Q : PUnit → State → Prop} {R : Stop → State → Prop}
    (h : Q ⟨⟩ t) : Ends (set t) s Q R := h

theorem ends_modify {f : State → State} {s : State} {Q : PUnit → State → Prop}
    {R : Stop → State → Prop} (h : Q ⟨⟩ (f s)) : Ends (modify f) s Q R := h

theorem ends_throw {α : Type} {e : Stop} {s : State} {Q : α → State → Prop} {R : Stop → State → Prop}
    (h : R e s) : Ends (throw e) s Q R := h

theorem ends_raise {α : Type} {c : OutcomeCode} {s : State} {Q : α → State → Prop}
    {R : Stop → State → Prop} (h : R (.outcome c) s) : Ends (raiseOutcome c) s Q R := h

/-- Sequencing: what the first part ends in is where the second starts. -/
theorem ends_bind {α β : Type} {p : Proc α} {f : α → Proc β} {s : State} {Q : β → State → Prop}
    {R : Stop → State → Prop} (h : Ends p s (fun a t => Ends (f a) t Q R) R) : Ends (p >>= f) s Q R := by
  unfold Ends at h ⊢
  rw [run_bind]
  cases hp : p.run s with
  | ok a t => simpa [hp, Ends] using h
  | error e t => simpa [hp] using h

/-- Sequencing after a read of the state. -/
theorem ends_get_bind {β : Type} {f : State → Proc β} {s : State} {Q : β → State → Prop}
    {R : Stop → State → Prop} (h : Ends (f s) s Q R) : Ends (get >>= f) s Q R :=
  ends_bind h

/-- A weaker ending follows from a stronger one. -/
theorem Ends.mono {α : Type} {p : Proc α} {s : State} {Q Q' : α → State → Prop}
    {R R' : Stop → State → Prop} (h : Ends p s Q R) (hq : ∀ a t, Q a t → Q' a t)
    (hr : ∀ e t, R e t → R' e t) : Ends p s Q' R' := by
  unfold Ends at h ⊢
  cases hp : p.run s with
  | ok a t => exact hq a t (by simpa [hp] using h)
  | error e t => exact hr e t (by simpa [hp] using h)

/-- Sequencing in one step: an ending of the first part, then endings of the second. -/
theorem Ends.bind {α β : Type} {p : Proc α} {f : α → Proc β} {s : State} {Q : α → State → Prop}
    {Q' : β → State → Prop} {R R' : Stop → State → Prop} (h : Ends p s Q R)
    (hf : ∀ a t, Q a t → Ends (f a) t Q' R') (hr : ∀ e t, R e t → R' e t) : Ends (p >>= f) s Q' R' :=
  ends_bind (h.mono hf hr)

/-- Sequencing after a part whose end is known. -/
theorem ends_step {α β : Type} {p : Proc α} {f : α → Proc β} {s t : State} {a : α} {Q : β → State → Prop}
    {R : Stop → State → Prop} (h : p.run s = .ok a t) (k : Ends (f a) t Q R) : Ends (p >>= f) s Q R := by
  unfold Ends at k ⊢
  rw [bind_ok h]; exact k

/-- Both of two endings hold together. -/
theorem Ends.and {α : Type} {p : Proc α} {s : State} {Q Q' : α → State → Prop}
    {R R' : Stop → State → Prop} (h : Ends p s Q R) (h' : Ends p s Q' R') :
    Ends p s (fun a t => Q a t ∧ Q' a t) (fun e t => R e t ∧ R' e t) := by
  unfold Ends at h h' ⊢
  cases hp : p.run s with
  | ok a t => simp only [hp] at h h' ⊢; exact ⟨h, h'⟩
  | error e t => simp only [hp] at h h' ⊢; exact ⟨h, h'⟩

/-- What a concluded procedure can answer. -/
theorem conclude_next {α : Type} {p : Proc α} {s t : State} (h : conclude p s = .next t) :
    (∃ a, p.run s = .ok a t) ∨ (∃ c u, p.run s = .error (.outcome c) u ∧ t = u.finish c []) ∨
      (∃ u, p.run s = .error .reset u ∧ t = u.resetAction) := by
  unfold conclude at h
  split at h
  · case h_1 a u hp => cases h; exact .inl ⟨a, hp⟩
  · case h_2 c u hp => cases h; exact .inr (.inl ⟨c, u, hp, rfl⟩)
  · case h_3 u hp => cases h; exact .inr (.inr ⟨u, hp, rfl⟩)
  · cases h

theorem conclude_ok {α : Type} {p : Proc α} {s t : State} {a : α} (h : p.run s = .ok a t) :
    conclude p s = .next t := by simp [conclude, h]

theorem conclude_raise {α : Type} {p : Proc α} {s t : State} {c : OutcomeCode}
    (h : p.run s = .error (.outcome c) t) : conclude p s = .next (t.finish c []) := by simp [conclude, h]

theorem conclude_reset {α : Type} {p : Proc α} {s t : State} (h : p.run s = .error .reset t) :
    conclude p s = .next t.resetAction := by simp [conclude, h]

theorem conclude_fault {α : Type} {p : Proc α} {s t : State} {f : Fault}
    (h : p.run s = .error (.fault f) t) : conclude p s = .fault f := by simp [conclude, h]

end Sys2Proof.Laws
end

