-- ==== Sys2Proof/Laws/Waits.lean ====
section
/-! SUPPORT. The primitives of the waits and of the transport: what each answers, given what the inputs hold. -/

namespace Sys2Proof.Laws

open Sys2Proof.Machine

/-- A buffer write that fits is done. -/
theorem storeBytes_ok {b : Buf} {start : Nat} {bytes : List Byte} {s : State}
    (h : start + bytes.length ≤ bufSize s.params b) :
    (storeBytes b start bytes).run s = .ok ⟨⟩ (s.setBuf b ((s.buf b).writeRange start bytes)) := by
  simp [storeBytes, h]

/-- A read of written bytes below the valid length gives them. -/
theorem loadBytes_ok {b : Buf} {start n : Nat} {bytes : List Byte} {s : State}
    (h : start + n ≤ s.validLen b) (hr : (s.buf b).readRange start n = some bytes) :
    (loadBytes b start n).run s = .ok bytes s := by
  simp [loadBytes, h, hr]

theorem loadByte_ok {b : Buf} {i : Nat} {v : Byte} {s : State}
    (h : i < s.validLen b) (hr : (s.buf b).read i = some v) :
    (loadByte b i).run s = .ok v s := by
  simp [loadByte, h, hr]

/-- A wait with no reset before its end advances the time and nothing else. -/
theorem waitUntil_quiet {t : Nat} {s : State} (h : s.quietUntil t) :
    (waitUntil t).run s = .ok ⟨⟩ { s with now := max s.now t } := by
  unfold waitUntil
  simp only [run_bind, run_get]
  by_cases ht : t ≤ s.now
  · simp only [ht, if_true, run_pure, max_eq_left]
  · simp only [ht, if_false]
    have hm : max s.now t = t := by omega
    cases hr : s.env.resetLine with
    | nil => simp [hm]
    | cons r rest =>
      have : t ≤ r := h r (by simp [hr])
      simp [hm, show ¬ r < t by omega]

theorem emit_ok (e : LineEvent) (s : State) :
    (emit e).run s = .ok ⟨⟩ { s with out.line := s.out.line ++ [e] } := rfl

theorem txByte_ok (b : Byte) (s : State) :
    (txByte b).run s = .ok ⟨⟩ { s with out.line := s.out.line ++ [.tx s.now b] } := rfl

theorem assertSelect_ok (s : State) :
    assertSelect.run s = .ok ⟨⟩ { s with out.line := s.out.line ++ [.select s.now] } := rfl

theorem releaseSelect_ok (s : State) :
    releaseSelect.run s = .ok ⟨⟩ { s with out.line := s.out.line ++ [.release s.now] } := rfl

theorem txBytes_ok (bs : List Byte) (s : State) :
    (txBytes bs).run s = .ok ⟨⟩ { s with out.line := s.out.line ++ bs.map (.tx s.now) } := by
  induction bs generalizing s with
  | nil => simp [txBytes]
  | cons b bs ih => simp [txBytes, txByte_ok, ih]

/-- The flush before the next transmission (R166). -/
theorem flushRx_ok (s : State) :
    flushRx.run s = .ok ⟨⟩ { s with chip := s.chip.flushed s.params (s.out.sent + 1) s.now } := by
  have h : s.arrived = fun a => a.time ≤ s.now && a.after < s.out.sent + 1 := by
    funext a; simp [State.arrived]
  unfold flushRx ChipLine.flushed
  rw [run_modify, h]
  cases s.params.transport <;> rfl

/-- A byte that comes before the deadline is taken at its arrival. -/
theorem rxByte_take {dl : Nat} {s : State} {a : Arrival} {rest : List Arrival}
    (hn : s.now < dl) (hl : s.chip.rx = a :: rest) (ha : a.after ≤ s.out.sent) (ht : a.time < dl)
    (hq : s.quietUntil a.time) :
    (rxByte dl).run s = .ok (some a.byte) { s with now := max s.now a.time, chip.rx := rest } := by
  unfold rxByte
  simp [show ¬ dl ≤ s.now by omega, hl, ha, ht, waitUntil_quiet hq]

/-- With no byte before the deadline the wait runs out. -/
theorem rxByte_timeout {dl : Nat} {s : State}
    (hl : ∀ a ∈ s.chip.rx.head?, a.after ≤ s.out.sent → dl ≤ a.time) (hq : s.quietUntil dl) :
    (rxByte dl).run s = .ok none { s with now := max s.now dl } := by
  unfold rxByte
  simp only [run_bind, run_get]
  by_cases hd : dl ≤ s.now
  · simp [hd]
  · simp only [hd, if_false]
    cases hr : s.chip.rx with
    | nil => simp [waitUntil_quiet hq]
    | cons a rest =>
      have h := hl a (by simp [hr])
      have : ¬ (a.after ≤ s.out.sent ∧ a.time < dl) := fun hc => by have := h hc.1; omega
      simp [this, waitUntil_quiet hq]

theorem spiIn_cons {s : State} {b : Byte} {rest : List Byte} (h : s.chip.miso = b :: rest) :
    spiIn.run s = .ok b { s with out.line := s.out.line ++ [.dummy s.now], chip.miso := rest } := by
  simp [spiIn, h, emit_ok]

/-- A ready signal before the deadline is seen at its rise. -/
theorem waitReadyIrq_ready {dl : Nat} {s : State} {e : ReadyRise} {rest : List ReadyRise}
    (hn : s.now < dl) (hl : s.chip.ready = e :: rest) (ha : e.after ≤ s.out.sent) (ht : e.time < dl)
    (hq : s.quietUntil e.time) :
    (waitReadyIrq dl).run s = .ok true { s with now := max s.now e.time, chip.ready := rest } := by
  unfold waitReadyIrq
  simp [show ¬ dl ≤ s.now by omega, hl, ha, ht, waitUntil_quiet hq]

theorem waitReadyIrq_timeout {dl : Nat} {s : State}
    (hl : ∀ e ∈ s.chip.ready.head?, e.after ≤ s.out.sent → dl ≤ e.time) (hq : s.quietUntil dl) :
    (waitReadyIrq dl).run s = .ok false { s with now := max s.now dl } := by
  unfold waitReadyIrq
  simp only [run_bind, run_get]
  by_cases hd : dl ≤ s.now
  · simp [hd]
  · simp only [hd, if_false]
    cases hr : s.chip.ready with
    | nil => simp [waitUntil_quiet hq]
    | cons a rest =>
      have h := hl a (by simp [hr])
      have : ¬ (a.after ≤ s.out.sent ∧ a.time < dl) := fun hc => by have := h hc.1; omega
      simp [this, waitUntil_quiet hq]

theorem quietUntil_mono {s : State} {t u : Nat} (h : s.quietUntil u) (htu : t ≤ u) : s.quietUntil t :=
  fun r hr => le_trans htu (h r hr)

/-- n flag bytes read one a tick from time t on. -/
def flagEvents (t n : Nat) : List LineEvent :=
  (List.range n).map fun k => .dummy (t + k)

theorem flagEvents_succ (t n : Nat) : flagEvents t (n + 1) = .dummy t :: flagEvents (t + 1) n := by
  simp only [flagEvents, List.range_succ_eq_map, List.map_cons, List.map_map, Nat.add_zero, List.cons.injEq, true_and]
  exact List.map_congr_left fun k _ => by simp only [Function.comp, LineEvent.dummy.injEq]; omega

theorem pollEvents_eq (p : Params) (t n u : Nat) :
    pollEvents p t n u = [.select t] ++ [.tx t p.spiCtrlPoll] ++ (flagEvents t n ++ [.release u]) := rfl

/-- The poll loop sees the first ready flag. -/
theorem pollLoop_ready {dl n : Nat} {s : State} {flags rest : List Byte} {f : Byte}
    (hm : s.chip.miso = flags ++ f :: rest) (hfl : ∀ g ∈ flags, readyFlag s.params g = false)
    (hf : readyFlag s.params f = true) (hlen : flags.length < n) (hn : s.now + n ≤ dl)
    (hq : s.quietUntil (s.now + flags.length)) :
    (pollLoop dl n).run s =
      .ok true { s with
        now := s.now + flags.length
        chip.miso := rest
        out.line := s.out.line ++ (flagEvents s.now (flags.length + 1) ++ [.release (s.now + flags.length)]) } := by
  induction flags generalizing s n with
  | nil =>
    obtain ⟨n, rfl⟩ : ∃ k, n = k + 1 := ⟨n - 1, by simp at hlen; omega⟩
    simp only [List.nil_append] at hm
    simp only [pollLoop, run_bind, run_get, show ¬ dl ≤ s.now by omega, if_false, spiIn_cons hm, hf, if_true,
      releaseSelect_ok, run_pure, List.append_assoc, List.length_nil, Nat.add_zero]
    rfl
  | cons g flags ih =>
    obtain ⟨n, rfl⟩ : ∃ k, n = k + 1 := ⟨n - 1, by simp at hlen; omega⟩
    simp only [List.cons_append] at hm
    simp only [List.length_cons] at hlen hq ⊢
    have hg : readyFlag s.params g = false := hfl g (by simp)
    simp only [pollLoop, run_bind, run_get, show ¬ dl ≤ s.now by omega, if_false, spiIn_cons hm, hg,
      Bool.false_eq_true]
    rw [waitUntil_quiet]
    swap
    · exact fun r hr => le_trans (by omega) (hq r hr)
    simp only [show max s.now (s.now + 1) = s.now + 1 by omega]
    rw [ih (n := n)
      (s := { s with now := s.now + 1, chip.miso := flags ++ f :: rest, out.line := s.out.line ++ [.dummy s.now] })
      rfl (fun x hx => hfl x (by simp [hx])) hf (by omega) (by simp only; omega)
      (quietUntil_mono (s := s) hq (by simp only; omega)), flagEvents_succ s.now]
    simp [List.append_assoc, Nat.add_assoc, Nat.add_comm 1]

/-- The poll loop runs out where no flag is ready in time. -/
theorem pollLoop_timeout {dl : Nat} {s : State} {flags rest : List Byte}
    (hm : s.chip.miso = flags ++ rest) (hfl : ∀ g ∈ flags, readyFlag s.params g = false)
    (hn : s.now + flags.length ≤ dl) (hq : s.quietUntil (s.now + flags.length)) :
    (pollLoop dl flags.length).run s =
      .ok false { s with
        now := s.now + flags.length
        chip.miso := rest
        out.line := s.out.line ++ (flagEvents s.now flags.length ++ [.release (s.now + flags.length)]) } := by
  induction flags generalizing s with
  | nil =>
    simp only [List.nil_append] at hm
    simp [pollLoop, releaseSelect_ok, ← hm, flagEvents]
  | cons g flags ih =>
    simp only [List.cons_append] at hm
    simp only [List.length_cons] at hn hq ⊢
    have hg : readyFlag s.params g = false := hfl g (by simp)
    simp only [pollLoop, run_bind, run_get, show ¬ dl ≤ s.now by omega, if_false, spiIn_cons hm, hg,
      Bool.false_eq_true]
    rw [waitUntil_quiet]
    swap
    · exact fun r hr => le_trans (by omega) (hq r hr)
    simp only [show max s.now (s.now + 1) = s.now + 1 by omega]
    rw [ih
      (s := { s with now := s.now + 1, chip.miso := flags ++ rest, out.line := s.out.line ++ [.dummy s.now] })
      rfl (fun x hx => hfl x (by simp [hx])) (by simp only; omega)
      (quietUntil_mono (s := s) hq (by simp only; omega)), flagEvents_succ s.now]
    simp [List.append_assoc, Nat.add_assoc, Nat.add_comm 1]

end Sys2Proof.Laws
end

