-- ==== Sys2Proof/Laws/Receive.lean ====
section
/-! SUPPORT. What a receive answers (R167 to R171, R175) for each thing the CHIP may do. -/

namespace Sys2Proof.Laws

open Sys2Proof.Machine

theorem writeRange_append (m : Memory) (start : Nat) (xs ys : List Byte) :
    (m.writeRange start xs).writeRange (start + xs.length) ys = m.writeRange start (xs ++ ys) := by
  induction xs generalizing m start with
  | nil => rfl
  | cons x xs ih =>
    simp only [Memory.writeRange, List.cons_append, List.length_cons]
    rw [← ih]; congr 1; omega

/-- A received byte is recorded at rx_count, while the buffer has room. -/
theorem recordByte_ok {b : Byte} {s : State} (h : s.txn.rxCount < 256 + s.params.frameTrailerLen) :
    (recordByte b).run s = .ok ⟨⟩
      { s with
        txn.rxBuf := s.txn.rxBuf.writeRange s.txn.rxCount [b]
        txn.rxCount := s.txn.rxCount + 1 } := by
  unfold recordByte
  simp only [run_bind, run_get]
  rw [storeBytes_ok (by simpa [bufSize] using h)]
  rfl

theorem stampByte_ok (s : State) : stampByte.run s = .ok ⟨⟩ { s with txn.tLast := s.now } := rfl

theorem lastArrival_cons (t : Nat) (a : Arrival) (as : List Arrival) :
    lastArrival t (a :: as) = lastArrival (max t a.time) as := rfl

theorem le_lastArrival (t : Nat) (as : List Arrival) : t ≤ lastArrival t as := by
  induction as generalizing t with
  | nil => exact le_refl t
  | cons a as ih => exact le_trans (le_max_left _ _) (ih (max t a.time))

/-- The bytes of a response that come in time are all taken, the time being then the last one's. -/
theorem rxRest_ok {s : State} {more rest : List Arrival} (hn : s.now = s.txn.tLast) (hd : s.now < s.txn.deadline)
    (hib : 0 < s.params.tIb) (hl : s.chip.rx = more ++ rest)
    (ht : bytesInTime s.out.sent s.txn.deadline s.params.tIb s.now more)
    (hc : s.txn.rxCount + more.length ≤ 256 + s.params.frameTrailerLen)
    (hq : s.quietUntil (lastArrival s.now more)) :
    (rxRest more.length).run s = .ok true
      { s with
        now := lastArrival s.now more
        chip.rx := rest
        txn.rxBuf := s.txn.rxBuf.writeRange s.txn.rxCount (more.map (·.byte))
        txn.rxCount := s.txn.rxCount + more.length
        txn.tLast := lastArrival s.now more } := by
  induction more generalizing s with
  | nil =>
    simp only [List.nil_append] at hl
    simp [rxRest, lastArrival, ← hl, Memory.writeRange, hn]
    show s = { s with now := s.txn.tLast }
    rw [← hn]
  | cons a more ih =>
    obtain ⟨ha, hat, hrest⟩ := ht
    simp only [List.cons_append] at hl
    simp only [List.length_cons] at hc ⊢
    rw [lastArrival_cons] at hq
    have hqa : s.quietUntil a.time :=
      quietUntil_mono hq (le_trans (le_max_right s.now a.time) (le_lastArrival _ _))
    unfold rxRest
    simp only [run_bind, run_get]
    rw [rxByte_take (by simp only [State.byteLimit]; omega) hl ha (by simp only [State.byteLimit]; omega) hqa]
    simp only [run_bind]
    rw [recordByte_ok (by simp only; omega)]
    simp only [stampByte_ok]
    rw [ih]
    · simp only [lastArrival_cons, List.map_cons]
      rw [show s.txn.rxCount + 1 = s.txn.rxCount + [a.byte].length from rfl, writeRange_append]
      simp only [List.singleton_append, List.length_singleton, Nat.add_assoc, Nat.add_comm 1]
    · rfl
    · simp only; omega
    · exact hib
    · rfl
    · exact hrest
    · simp only; omega
    · exact hq

/-- A range read back from bytes written at 0 is that part of them. -/
theorem readRange_writeRange_part {m : Memory} {bytes : List Byte} {start n : Nat}
    (h : start + n ≤ bytes.length) :
    (m.writeRange 0 bytes).readRange start n = some ((bytes.drop start).take n) := by
  rw [readRange_eq_some]
  refine ⟨by simp; omega, fun k hk => ?_⟩
  rw [read_writeRange, if_pos (by omega), List.getElem?_take, if_pos hk, List.getElem?_drop]
  congr 1

/-- The frame is read out of rx_buf (R112, R167): a trailer is left aside. -/
theorem receivedFrame_ok {s : State} {status : Byte} {payload trailer : List Byte} {m : Memory}
    (hl : payload.length ≤ maxPayload)
    (hb : s.txn.rxBuf = m.writeRange 0 (responseBytes status payload trailer))
    (hc : s.txn.rxCount = (responseBytes status payload trailer).length) :
    receivedFrame.run s = .ok (.frame status payload) s := by
  have hn : (BitVec.ofNat 8 payload.length).toNat = payload.length := by
    rw [BitVec.toNat_ofNat]; exact Nat.mod_eq_of_lt (by unfold maxPayload at hl; omega)
  have hlen : (responseBytes status payload trailer).length = 2 + payload.length + trailer.length := by
    simp [responseBytes]; omega
  unfold receivedFrame
  simp only [run_bind]
  rw [loadByte_ok (v := status) (by simp only [State.validLen]; omega)
    (by simp [State.buf, hb, read_writeRange, responseBytes])]
  simp only
  rw [loadByte_ok (v := BitVec.ofNat 8 payload.length) (by simp only [State.validLen]; omega)
    (by simp [State.buf, hb, read_writeRange, responseBytes])]
  simp only [hn]
  rw [loadBytes_ok (bytes := payload) (by simp only [State.validLen]; omega)
    (by
      simp only [State.buf, hb]
      rw [readRange_writeRange_part (by omega)]
      simp [responseBytes])]
  rfl

/-- A whole response that comes in time under UART is the frame it makes (R167). -/
theorem receiveUart_frame {s : State} {kind : DeadlineKind} {status : Byte} {payload trailer : List Byte}
    {u : Nat} {line' : ChipLine} (hp : s.params.transport = .uart) (hT : 0 < s.params.ticks kind)
    (hib : 0 < s.params.tIb) (hl : payload.length ≤ maxPayload) (ht : trailer.length = s.params.frameTrailerLen)
    (h : ChipDelivers s.params kind s.out.sent s.now s.chip (responseBytes status payload trailer) u line')
    (hq : s.quietUntil u) :
    (receiveUart kind).run s = .ok (.frame status payload)
      { s with
        now := u
        chip := line'
        txn.rxBuf := s.txn.rxBuf.writeRange 0 (responseBytes status payload trailer)
        txn.rxCount := (responseBytes status payload trailer).length
        txn.deadline := s.now + s.params.ticks kind
        txn.phase := .rx
        txn.tLast := u } := by
  simp only [ChipDelivers, hp] at h
  obtain ⟨first, more, hrx, hline, hbytes, hfa, hft, hmore, hu⟩ := h
  obtain ⟨a1, more, rfl⟩ : ∃ a1 more', more = a1 :: more' := by
    cases more with
    | nil => simp [responseBytes] at hbytes
    | cons a m => exact ⟨a, m, rfl⟩
  have hn : (BitVec.ofNat 8 payload.length).toNat = payload.length := by
    rw [BitVec.toNat_ofNat]; exact Nat.mod_eq_of_lt (by unfold maxPayload at hl; omega)
  have hb := hbytes
  simp only [responseBytes, List.map_cons, List.cons_append, List.cons.injEq] at hb
  obtain ⟨hb0, hb1, hb2⟩ := hb
  have hml : more.length = payload.length + trailer.length := by
    have := congrArg List.length hb2; simp at this; omega
  obtain ⟨ha1, hat1, hrest⟩ := hmore
  rw [lastArrival_cons, lastArrival_cons] at hu
  have hu1 : max s.now first.time ≤ u := by
    rw [hu]; exact le_trans (le_max_left _ a1.time) (le_lastArrival _ more)
  have hu2 : max (max s.now first.time) a1.time ≤ u := by rw [hu]; exact le_lastArrival _ more
  unfold receiveUart beginReceive arm
  simp only [run_bind, run_modify, run_get]
  rw [rxByte_take (a := first) (rest := a1 :: more ++ line'.rx)]
  rotate_left
  · simp only; omega
  · simpa using hrx
  · exact hfa
  · omega
  · exact fun r hr => le_trans (by omega) (hq r hr)
  simp only [run_bind, run_get]
  rw [recordByte_ok (by simp only; omega)]
  simp only [stampByte_ok, setTxnPhase, run_modify]
  rw [rxByte_take (a := a1) (rest := more ++ line'.rx)]
  rotate_left
  · simp only [State.byteLimit]; omega
  · rfl
  · exact ha1
  · simp only [State.byteLimit]; omega
  · exact fun r hr => le_trans (by omega) (hq r hr)
  simp only [run_bind]
  rw [recordByte_ok (by simp only; omega)]
  have hff : a1.byte ≠ 0xFF#8 := by
    rw [← hb1]; intro hc
    have := congrArg BitVec.toNat hc
    rw [hn] at this; simp [maxPayload] at this hl; omega
  simp only [stampByte_ok, run_ite, hff, if_false, run_bind, run_get]
  rw [show a1.byte.toNat + s.params.frameTrailerLen = more.length by rw [← hb1, hn, hml, ht]]
  have hw : ((s.txn.rxBuf.writeRange 0 [first.byte]).writeRange (0 + 1) [a1.byte]).writeRange (0 + 1 + 1)
      (more.map (·.byte)) = s.txn.rxBuf.writeRange 0 (responseBytes status payload trailer) := by
    rw [hbytes]; rfl
  have hlen : 0 + 1 + 1 + more.length = (responseBytes status payload trailer).length := by
    rw [hbytes]; simp; omega
  rw [rxRest_ok (rest := line'.rx)]
  rotate_left
  · rfl
  · simp only; omega
  · exact hib
  · rfl
  · exact hrest
  · simp only; unfold maxPayload at hl; omega
  · rw [hu] at hq; exact hq
  simp only [if_true]
  rw [receivedFrame_ok (m := s.txn.rxBuf) (trailer := trailer) hl hw hlen]
  simp only [hw, hlen, ← hu]
  rw [hline]

/-- Bytes shifted in under SPI are recorded in order. -/
theorem spiRest_ok {s : State} {bytes rest : List Byte} (hm : s.chip.miso = bytes ++ rest)
    (hc : s.txn.rxCount + bytes.length ≤ 256 + s.params.frameTrailerLen) :
    (spiRest bytes.length).run s = .ok ⟨⟩
      { s with
        chip.miso := rest
        out.line := s.out.line ++ List.replicate bytes.length (.dummy s.now)
        txn.rxBuf := s.txn.rxBuf.writeRange s.txn.rxCount bytes
        txn.rxCount := s.txn.rxCount + bytes.length } := by
  induction bytes generalizing s with
  | nil =>
    simp only [List.nil_append] at hm
    simp [spiRest, ← hm, Memory.writeRange]
  | cons b bytes ih =>
    simp only [List.cons_append] at hm
    simp only [List.length_cons] at hc ⊢
    unfold spiRest
    simp only [run_bind]
    rw [spiIn_cons hm]
    simp only
    rw [recordByte_ok (by simp only; omega)]
    simp only
    rw [ih]
    · rw [show s.txn.rxCount + 1 = s.txn.rxCount + [b].length from rfl, writeRange_append]
      simp only [List.singleton_append, List.length_singleton, Nat.add_assoc, Nat.add_comm 1,
        List.append_assoc, List.replicate_succ]
    · rfl
    · simp only; omega

/-- Under SPI the CHIP's ready signal ends the wait, the answer's bytes still to be shifted in. -/
theorem waitReady_ready {s : State} {kind : DeadlineKind} {bytes : List Byte} {u : Nat} {line' : ChipLine}
    (hp : s.params.transport = .spi)
    (h : ChipDelivers s.params kind s.out.sent s.now s.chip bytes u line') (hT : 0 < s.params.ticks kind)
    (hq : s.quietUntil u) :
    (waitReady (s.now + s.params.ticks kind)).run s = .ok true
      { s with
        now := u
        chip := { line' with miso := bytes ++ line'.miso }
        out.line := s.out.line ++ waitEvents s.params s.now u true } := by
  unfold waitReady
  simp only [run_bind, run_get]
  cases hr : s.params.readyMethod with
  | irq =>
    simp only [ChipDelivers, hp, hr] at h
    obtain ⟨rise, hready, hmiso, hline, ha, ht, hu⟩ := h
    simp only [waitEvents, hr]
    rw [waitReadyIrq_ready (by omega) hready ha ht (quietUntil_mono hq (by omega))]
    rw [hline, ← hu]
    simp [hmiso]
  | poll =>
    simp only [ChipDelivers, hp, hr] at h
    obtain ⟨flags, f, hmiso, hline, hfl, hf, hlen, hu⟩ := h
    simp only [waitReadyPoll, run_bind, run_get, assertSelect_ok, txByte_ok]
    rw [pollLoop_ready (dl := s.now + s.params.ticks kind)
      (n := s.now + s.params.ticks kind - s.now)
      (s := { s with out.line := s.out.line ++ [.select s.now] ++ [.tx s.now s.params.spiCtrlPoll] })
      (flags := flags) (f := f) (rest := bytes ++ line'.miso) (by simpa using hmiso) hfl hf (by omega)
      (by simp only; omega) (by rw [hu] at hq; exact hq)]
    rw [hline, hu]
    simp [waitEvents, hr, pollEvents_eq, List.append_assoc]

/-- Under SPI, with no ready signal in time, the wait runs to its deadline. -/
theorem waitReady_quiet {s : State} {kind : DeadlineKind} {line' : ChipLine}
    (hp : s.params.transport = .spi) (h : ChipQuiet s.params kind s.out.sent s.now s.chip line')
    (hq : s.quietUntil (s.now + s.params.ticks kind)) :
    (waitReady (s.now + s.params.ticks kind)).run s = .ok false
      { s with
        now := s.now + s.params.ticks kind
        chip := line'
        out.line := s.out.line ++ waitEvents s.params s.now (s.now + s.params.ticks kind) false } := by
  unfold waitReady
  simp only [run_bind, run_get]
  cases hr : s.params.readyMethod with
  | irq =>
    simp only [ChipQuiet, hp, hr] at h
    obtain ⟨rfl, hready⟩ := h
    simp only [waitEvents, hr]
    rw [waitReadyIrq_timeout hready hq]
    simp
  | poll =>
    simp only [ChipQuiet, hp, hr] at h
    obtain ⟨flags, hmiso, hline, hfl, hlen⟩ := h
    simp only [waitReadyPoll, run_bind, run_get, assertSelect_ok, txByte_ok]
    rw [show s.now + s.params.ticks kind - s.now = flags.length by omega,
      pollLoop_timeout (dl := s.now + s.params.ticks kind)
        (s := { s with out.line := s.out.line ++ [.select s.now] ++ [.tx s.now s.params.spiCtrlPoll] })
        (flags := flags) (rest := line'.miso) hmiso hfl (by simp only; omega)
        (by rw [← hlen] at hq; exact hq), hline, ← hlen]
    simp [waitEvents, hr, pollEvents_eq, List.append_assoc]

/-- A whole response under SPI is the frame it makes (R168). -/
theorem receiveSpi_frame {s : State} {kind : DeadlineKind} {status : Byte} {payload trailer : List Byte}
    {u : Nat} {line' : ChipLine} (hp : s.params.transport = .spi) (hT : 0 < s.params.ticks kind)
    (hl : payload.length ≤ maxPayload) (ht : trailer.length = s.params.frameTrailerLen)
    (h : ChipDelivers s.params kind s.out.sent s.now s.chip (responseBytes status payload trailer) u line')
    (hq : s.quietUntil u) :
    (receiveSpi kind).run s = .ok (.frame status payload)
      { s with
        now := u
        chip := line'
        out.line := s.out.line ++ readEvents s.params s.now (responseBytes status payload trailer) u
        txn.rxBuf := s.txn.rxBuf.writeRange 0 (responseBytes status payload trailer)
        txn.rxCount := (responseBytes status payload trailer).length
        txn.deadline := s.now + s.params.ticks kind
        txn.phase := .rx } := by
  have hn : (BitVec.ofNat 8 payload.length).toNat = payload.length := by
    rw [BitVec.toNat_ofNat]; exact Nat.mod_eq_of_lt (by unfold maxPayload at hl; omega)
  have hev := waitReady_ready (kind := kind)
    (s := { s with txn.deadline := s.now + s.params.ticks kind, txn.rxCount := 0, txn.phase := .wait }) hp h hT hq
  unfold receiveSpi beginReceive arm
  simp only [run_bind, run_modify, run_get]
  rw [hev]
  have hff : BitVec.ofNat 8 payload.length ≠ 0xFF#8 := by
    intro hc
    have := congrArg BitVec.toNat hc
    rw [hn] at this; simp [maxPayload] at this hl; omega
  simp only [run_ite, if_true, setTxnPhase, run_modify, assertSelect_ok, txByte_ok, run_bind, run_get]
  rw [spiIn_cons (b := status) (rest := BitVec.ofNat 8 payload.length :: payload ++ trailer ++ line'.miso)]
  rotate_left
  · simp [responseBytes]
  simp only
  rw [recordByte_ok (by simp only; omega)]
  simp only
  rw [spiIn_cons (b := BitVec.ofNat 8 payload.length) (rest := payload ++ trailer ++ line'.miso)]
  rotate_left
  · simp
  simp only
  rw [recordByte_ok (by simp only; omega)]
  simp only [hff, if_false, hn]
  rw [show payload.length + s.params.frameTrailerLen = (payload ++ trailer).length by simp [ht]]
  rw [spiRest_ok (rest := line'.miso)]
  rotate_left
  · rfl
  · simp only [List.length_append]; unfold maxPayload at hl; omega
  simp only [releaseSelect_ok]
  have hw : ((s.txn.rxBuf.writeRange 0 [status]).writeRange (0 + 1) [BitVec.ofNat 8 payload.length]).writeRange
      (0 + 1 + 1) (payload ++ trailer) = s.txn.rxBuf.writeRange 0 (responseBytes status payload trailer) := rfl
  have hlen : 0 + 1 + 1 + (payload ++ trailer).length = (responseBytes status payload trailer).length := by
    simp [responseBytes]; omega
  rw [receivedFrame_ok (m := s.txn.rxBuf) (trailer := trailer) hl hw hlen]
  have hrd : readEvents s.params s.now (responseBytes status payload trailer) u =
      waitEvents s.params s.now u true ++
        shiftEvents s.params u (responseBytes status payload trailer).length := by simp [readEvents, hp, responseBytes]
  have hrep : (responseBytes status payload trailer).length = (payload ++ trailer).length + 1 + 1 := by omega
  rw [hrd, shiftEvents, hrep]
  simp only [hw, hlen, List.append_assoc, List.replicate_succ, List.cons_append, List.nil_append]
  rw [hrep]

/-- A whole response is the frame it makes, on either carrier (R167, R168, R173). -/
theorem receive_frame {s : State} {kind : DeadlineKind} {status : Byte} {payload trailer : List Byte}
    {u : Nat} {line' : ChipLine} (hT : 0 < s.params.ticks kind) (hib : 0 < s.params.tIb)
    (hl : payload.length ≤ maxPayload) (ht : trailer.length = s.params.frameTrailerLen)
    (h : ChipDelivers s.params kind s.out.sent s.now s.chip (responseBytes status payload trailer) u line')
    (hq : s.quietUntil u) :
    (receive kind).run s = .ok (.frame status payload)
      { s with
        now := u
        chip := line'
        out.line := s.out.line ++ readEvents s.params s.now (responseBytes status payload trailer) u
        txn.rxBuf := s.txn.rxBuf.writeRange 0 (responseBytes status payload trailer)
        txn.rxCount := (responseBytes status payload trailer).length
        txn.deadline := s.now + s.params.ticks kind
        txn.phase := .rx
        txn.tLast := if s.params.transport = .uart then u else s.txn.tLast } := by
  unfold receive
  simp only [run_bind, run_get]
  cases hp : s.params.transport with
  | uart =>
    simp only
    rw [receiveUart_frame hp hT hib hl ht h hq]
    simp [readEvents, hp]
  | spi =>
    simp only
    rw [receiveSpi_frame hp hT hl ht h hq]
    simp

/-- With nothing before the deadline a receive ends NoResponse there (R171). -/
theorem receive_quiet {s : State} {kind : DeadlineKind} {line' : ChipLine}
    (h : ChipQuiet s.params kind s.out.sent s.now s.chip line')
    (hq : s.quietUntil (s.now + s.params.ticks kind)) :
    (receive kind).run s = .ok .noResponse
      { s with
        now := s.now + s.params.ticks kind
        chip := line'
        out.line := s.out.line ++ readEvents s.params s.now [] (s.now + s.params.ticks kind)
        txn.rxCount := 0
        txn.deadline := s.now + s.params.ticks kind
        txn.phase := .wait } := by
  unfold receive
  simp only [run_bind, run_get]
  cases hp : s.params.transport with
  | uart =>
    simp only [ChipQuiet, hp] at h
    obtain ⟨rfl, hn⟩ := h
    simp only [receiveUart, beginReceive, arm, run_bind, run_modify, run_get]
    rw [rxByte_timeout]
    · simp [readEvents, hp]
    · exact hn
    · exact hq
  | spi =>
    simp only [receiveSpi, beginReceive, arm, run_bind, run_modify, run_get]
    rw [waitReady_quiet (kind := kind)
      (s := { s with txn.deadline := s.now + s.params.ticks kind, txn.rxCount := 0, txn.phase := .wait }) hp h hq]
    simp only [readEvents, hp]
    rfl

/-- The bytes that come are taken, and where one does not come in time the rest is given up. -/
theorem rxRest_short {s : State} {more rest : List Arrival} {n : Nat} (hn : s.now = s.txn.tLast)
    (hd : s.now < s.txn.deadline) (hib : 0 < s.params.tIb) (hl : s.chip.rx = more ++ rest)
    (ht : bytesInTime s.out.sent s.txn.deadline s.params.tIb s.now more) (hlt : more.length < n)
    (hnone : NoneBefore s.out.sent (min s.txn.deadline (lastArrival s.now more + s.params.tIb)) rest)
    (hc : s.txn.rxCount + more.length ≤ 256 + s.params.frameTrailerLen)
    (hq : s.quietUntil (min s.txn.deadline (lastArrival s.now more + s.params.tIb))) :
    (rxRest n).run s = .ok false
      { s with
        now := min s.txn.deadline (lastArrival s.now more + s.params.tIb)
        chip.rx := rest
        txn.rxBuf := s.txn.rxBuf.writeRange s.txn.rxCount (more.map (·.byte))
        txn.rxCount := s.txn.rxCount + more.length
        txn.tLast := lastArrival s.now more } := by
  obtain ⟨n, rfl⟩ : ∃ k, n = k + 1 := ⟨n - 1, by omega⟩
  induction more generalizing s n with
  | nil =>
    simp only [List.nil_append] at hl
    unfold rxRest
    simp only [run_bind, run_get]
    rw [rxByte_timeout]
    · simp only [run_pure, lastArrival, List.foldl_nil, State.byteLimit, List.map_nil, Memory.writeRange,
        List.length_nil, Nat.add_zero, ← hl, ← hn]
      rw [show max s.now (min s.txn.deadline (s.now + s.params.tIb)) =
        min s.txn.deadline (s.now + s.params.tIb) by omega]
      congr 1
      show _ = { s with now := _, txn := { s.txn with tLast := s.now } }
      rw [hn]
    · rw [hl, State.byteLimit, ← hn]; exact hnone
    · rw [State.byteLimit, ← hn]; exact hq
  | cons a more ih =>
    obtain ⟨ha, hat, hrest⟩ := ht
    simp only [List.cons_append] at hl
    simp only [List.length_cons] at hc hlt ⊢
    rw [lastArrival_cons] at hq hnone
    obtain ⟨n, rfl⟩ : ∃ k, n = k + 1 := ⟨n - 1, by omega⟩
    have hle := le_lastArrival (max s.now a.time) more
    have hqa : s.quietUntil a.time := quietUntil_mono hq (by omega)
    unfold rxRest
    simp only [run_bind, run_get]
    rw [rxByte_take (by simp only [State.byteLimit]; omega) hl ha (by simp only [State.byteLimit]; omega) hqa]
    simp only [run_bind]
    rw [recordByte_ok (by simp only; omega)]
    simp only [stampByte_ok]
    rw [ih]
    · simp only [lastArrival_cons, List.map_cons]
      rw [show s.txn.rxCount + 1 = s.txn.rxCount + [a.byte].length from rfl, writeRange_append]
      simp only [List.singleton_append, List.length_singleton, Nat.add_assoc, Nat.add_comm 1]
    · rfl
    · simp only; omega
    · exact hib
    · rfl
    · exact hrest
    · exact hnone
    · simp only; omega
    · exact hq
    · omega

/-- Under UART the first byte is taken and the next awaited (R167). -/
theorem receiveUart_first {s : State} {kind : DeadlineKind} {first : Arrival} {rest : List Arrival}
    (hl : s.chip.rx = first :: rest) (ha : first.after ≤ s.out.sent) (ht : first.time < s.now + s.params.ticks kind)
    (hT : 0 < s.params.ticks kind) (hq : s.quietUntil first.time) :
    (receiveUart kind).run s =
      (do
        match ← rxByte (← get).byteLimit with
        | none => return .noResponse
        | some len =>
          recordByte len
          stampByte
          if len = 0xFF#8 then return .malformedFrame
          else
            if ← rxRest (len.toNat + (← get).params.frameTrailerLen) then receivedFrame
            else return .malformedFrame : Proc Reception).run
        { s with
          now := max s.now first.time
          chip.rx := rest
          txn.rxBuf := s.txn.rxBuf.writeRange 0 [first.byte]
          txn.rxCount := 1
          txn.deadline := s.now + s.params.ticks kind
          txn.phase := .rx
          txn.tLast := max s.now first.time } := by
  unfold receiveUart beginReceive arm
  simp only [run_bind, run_modify, run_get]
  rw [rxByte_take (a := first) (rest := rest)]
  rotate_left
  · simp only; omega
  · exact hl
  · exact ha
  · exact ht
  · exact hq
  simp only [run_bind]
  rw [recordByte_ok (by simp only; omega)]
  -- the matchers of the two sides differ in the module alone: there the goal needs rfl
  simp only [stampByte_ok, setTxnPhase, run_modify, run_get] <;> rfl

/-- A status byte with no length byte after it is NoResponse (R171). -/
theorem receive_one {s : State} {kind : DeadlineKind} {b : Byte} {v u : Nat} {line' : ChipLine}
    (hT : 0 < s.params.ticks kind) (hib : 0 < s.params.tIb)
    (h : ChipStopsShort s.params kind s.out.sent s.now s.chip [b] v u line') (hq : s.quietUntil u) :
    (receive kind).run s = .ok .noResponse
      { s with
        now := u
        chip := line'
        txn.rxBuf := s.txn.rxBuf.writeRange 0 [b]
        txn.rxCount := 1
        txn.deadline := s.now + s.params.ticks kind
        txn.phase := .rx
        txn.tLast := v } := by
  obtain ⟨hp, hd, hu, hn⟩ := h
  simp only [ChipDelivers, hp] at hd
  obtain ⟨first, more, hrx, hline, hbytes, hfa, hft, -, hv⟩ := hd
  have hm : more = [] := by
    have := congrArg List.length hbytes; simpa using this.symm
  subst hm
  simp only [List.map_nil, List.cons.injEq, and_true] at hbytes
  simp only [lastArrival, List.foldl_cons, List.foldl_nil] at hv
  unfold receive
  simp only [run_bind, run_get, hp]
  rw [receiveUart_first (by simpa using hrx) hfa hft hT (quietUntil_mono hq (by omega))]
  simp only [run_bind, run_get]
  rw [rxByte_timeout]
  · simp only [State.byteLimit, run_pure, hbytes, hv]
    rw [show max (max s.now first.time) (min (s.now + s.params.ticks kind) (max s.now first.time + s.params.tIb)) = u
      by omega]
    rw [hline]
  · simp only [State.byteLimit, ← hv, ← hu]; exact hn
  · simp only [State.byteLimit, ← hv, ← hu]; exact hq

/-- A frame cut short after its length byte is MalformedFrame (R171). -/
theorem receive_cut {s : State} {kind : DeadlineKind} {st len : Byte} {body : List Byte} {v u : Nat}
    {line' : ChipLine} (hT : 0 < s.params.ticks kind) (hib : 0 < s.params.tIb) (hff : len ≠ 0xFF#8)
    (hlt : body.length < len.toNat + s.params.frameTrailerLen)
    (h : ChipStopsShort s.params kind s.out.sent s.now s.chip (st :: len :: body) v u line') (hq : s.quietUntil u) :
    (receive kind).run s = .ok .malformedFrame
      { s with
        now := u
        chip := line'
        txn.rxBuf := s.txn.rxBuf.writeRange 0 (st :: len :: body)
        txn.rxCount := (st :: len :: body).length
        txn.deadline := s.now + s.params.ticks kind
        txn.phase := .rx
        txn.tLast := v } := by
  obtain ⟨hp, hd, hu, hn⟩ := h
  simp only [ChipDelivers, hp] at hd
  obtain ⟨first, more, hrx, hline, hbytes, hfa, hft, hmore, hv⟩ := hd
  obtain ⟨a1, more, rfl⟩ : ∃ a1 more', more = a1 :: more' := by
    cases more with
    | nil => simp at hbytes
    | cons a m => exact ⟨a, m, rfl⟩
  simp only [List.map_cons, List.cons.injEq] at hbytes
  obtain ⟨rfl, rfl, rfl⟩ := hbytes
  obtain ⟨ha1, hat1, hrest⟩ := hmore
  rw [lastArrival_cons, lastArrival_cons] at hv
  have hle := le_lastArrival (max (max s.now first.time) a1.time) more
  rw [List.length_map] at hlt
  unfold receive
  simp only [run_bind, run_get, hp]
  rw [receiveUart_first (by simpa using hrx) hfa hft hT (quietUntil_mono hq (by omega))]
  simp only [run_bind, run_get]
  rw [rxByte_take (a := a1) (rest := more ++ line'.rx)]
  rotate_left
  · simp only [State.byteLimit]; omega
  · rfl
  · exact ha1
  · simp only [State.byteLimit]; omega
  · exact quietUntil_mono hq (by omega)
  simp only [run_bind]
  rw [recordByte_ok (by simp only; omega)]
  simp only [stampByte_ok, run_ite, hff, if_false, run_bind, run_get]
  have hw : ((s.txn.rxBuf.writeRange 0 [first.byte]).writeRange 1 [a1.byte]).writeRange (1 + 1)
      (more.map (·.byte)) = s.txn.rxBuf.writeRange 0 (first.byte :: a1.byte :: more.map (·.byte)) := rfl
  have hb : a1.byte.toNat < 256 := a1.byte.isLt
  rw [rxRest_short (more := more) (rest := line'.rx)]
  rotate_left
  · rfl
  · simp only; omega
  · exact hib
  · rfl
  · exact hrest
  · exact hlt
  · simp only [← hv, ← hu]; exact hn
  · simp only; omega
  · simp only [← hv, ← hu]; exact hq
  simp only [run_pure, Bool.false_eq_true, if_false, hw, ← hv, ← hu, List.length_cons, List.length_map]
  rw [show 1 + 1 + more.length = more.length + 1 + 1 by omega]
  rw [hline]

/-- A length byte of 0xFF is MalformedFrame at once, on either carrier (R113, R171). -/
theorem receive_ff {s : State} {kind : DeadlineKind} {st : Byte} {u : Nat} {line' : ChipLine}
    (hT : 0 < s.params.ticks kind) (hib : 0 < s.params.tIb)
    (h : ChipDelivers s.params kind s.out.sent s.now s.chip [st, 0xFF#8] u line') (hq : s.quietUntil u) :
    (receive kind).run s = .ok .malformedFrame
      { s with
        now := u
        chip := line'
        out.line := s.out.line ++ readEvents s.params s.now [st, 0xFF#8] u
        txn.rxBuf := s.txn.rxBuf.writeRange 0 [st, 0xFF#8]
        txn.rxCount := 2
        txn.deadline := s.now + s.params.ticks kind
        txn.phase := .rx
        txn.tLast := if s.params.transport = .uart then u else s.txn.tLast } := by
  cases hp : s.params.transport with
  | uart =>
    simp only [ChipDelivers, hp] at h
    obtain ⟨first, more, hrx, hline, hbytes, hfa, hft, hmore, hv⟩ := h
    obtain ⟨a1, rfl⟩ : ∃ a1, more = [a1] := by
      have := congrArg List.length hbytes
      match more with
      | [] => simp at this
      | [a] => exact ⟨a, rfl⟩
      | a :: b :: m => simp at this
    simp only [List.map_cons, List.map_nil, List.cons.injEq, and_true] at hbytes
    obtain ⟨rfl, hb1⟩ := hbytes
    obtain ⟨ha1, hat1, -⟩ := hmore
    simp only [lastArrival, List.foldl_cons, List.foldl_nil] at hv
    unfold receive
    simp only [run_bind, run_get, hp]
    rw [receiveUart_first (by simpa using hrx) hfa hft hT (quietUntil_mono hq (by omega))]
    simp only [run_bind, run_get]
    rw [rxByte_take (a := a1) (rest := line'.rx)]
    rotate_left
    · simp only [State.byteLimit]; omega
    · rfl
    · exact ha1
    · simp only [State.byteLimit]; omega
    · exact quietUntil_mono hq (by omega)
    simp only [run_bind]
    rw [recordByte_ok (by simp only; omega)]
    simp only [stampByte_ok, ← hb1, if_true, run_pure, ← hv, List.append_nil, readEvents, hp]
    rw [hline]
    rfl
  | spi =>
    have hev := waitReady_ready (kind := kind)
      (s := { s with txn.deadline := s.now + s.params.ticks kind, txn.rxCount := 0, txn.phase := .wait }) hp h hT hq
    unfold receive
    simp only [run_bind, run_get, hp]
    unfold receiveSpi beginReceive arm
    simp only [run_bind, run_modify, run_get]
    rw [hev]
    simp only [run_ite, if_true, setTxnPhase, run_modify, assertSelect_ok, txByte_ok, run_bind, run_get]
    rw [spiIn_cons (b := st) (rest := 0xFF#8 :: line'.miso)]
    rotate_left
    · rfl
    simp only
    rw [recordByte_ok (by simp only; omega)]
    simp only
    rw [spiIn_cons (b := 0xFF#8) (rest := line'.miso)]
    rotate_left
    · rfl
    simp only
    rw [recordByte_ok (by simp only; omega)]
    simp only [if_true, releaseSelect_ok, run_pure, List.append_assoc, reduceCtorEq, if_false, readEvents, hp]
    rfl

/-! ## The echo reply -/

/-- One byte in time is the echo's reply (R175). -/
theorem echoReceive_byte {s : State} {b : Byte} {u : Nat} {line' : ChipLine} (hT : 0 < s.params.ticks .echo)
    (h : ChipDelivers s.params .echo s.out.sent s.now s.chip [b] u line') (hq : s.quietUntil u) :
    echoReceive.run s = .ok (some b)
      { s with
        now := u
        chip := line'
        out.line := s.out.line ++ readEvents s.params s.now [b] u
        txn.rxBuf := s.txn.rxBuf.writeRange 0 [b]
        txn.rxCount := 1
        txn.deadline := s.now + s.params.ticks .echo
        txn.phase := .wait } := by
  cases hp : s.params.transport with
  | uart =>
    simp only [ChipDelivers, hp] at h
    obtain ⟨first, more, hrx, hline, hbytes, hfa, hft, -, hv⟩ := h
    have hm : more = [] := by
      have := congrArg List.length hbytes; simpa using this.symm
    subst hm
    simp only [List.map_nil, List.cons.injEq, and_true] at hbytes
    simp only [lastArrival, List.foldl_cons, List.foldl_nil] at hv
    unfold echoReceive beginReceive arm
    simp only [run_bind, run_modify, run_get, hp]
    rw [rxByte_take (a := first) (rest := line'.rx)]
    rotate_left
    · simp only; omega
    · simpa using hrx
    · exact hfa
    · exact hft
    · exact quietUntil_mono hq (by omega)
    simp only [run_bind]
    rw [recordByte_ok (by simp only; omega)]
    simp only [run_pure, ← hv, hbytes, List.append_nil, readEvents, hp]
    rw [hline]
  | spi =>
    have hev := waitReady_ready (kind := .echo)
      (s := { s with txn.deadline := s.now + s.params.ticks .echo, txn.rxCount := 0, txn.phase := .wait }) hp h hT hq
    unfold echoReceive beginReceive arm
    simp only [run_bind, run_modify, run_get, hp]
    rw [hev]
    simp only [if_true, assertSelect_ok, txByte_ok, run_bind, run_get]
    rw [spiIn_cons (b := b) (rest := line'.miso)]
    rotate_left
    · rfl
    simp only
    rw [recordByte_ok (by simp only; omega)]
    simp only [releaseSelect_ok, run_pure, List.append_assoc, readEvents, hp]
    rfl

/-- With no reply before its deadline the echo times out there (R175). -/
theorem echoReceive_quiet {s : State} {line' : ChipLine}
    (h : ChipQuiet s.params .echo s.out.sent s.now s.chip line')
    (hq : s.quietUntil (s.now + s.params.ticks .echo)) :
    echoReceive.run s = .ok none
      { s with
        now := s.now + s.params.ticks .echo
        chip := line'
        out.line := s.out.line ++ readEvents s.params s.now [] (s.now + s.params.ticks .echo)
        txn.rxCount := 0
        txn.deadline := s.now + s.params.ticks .echo
        txn.phase := .wait } := by
  unfold echoReceive beginReceive arm
  simp only [run_bind, run_modify, run_get]
  cases hp : s.params.transport with
  | uart =>
    simp only [ChipQuiet, hp] at h
    obtain ⟨rfl, hn⟩ := h
    simp only [run_bind, run_get]
    rw [rxByte_timeout]
    · simp [readEvents, hp]
    · exact hn
    · exact hq
  | spi =>
    simp only [run_bind, run_get]
    rw [waitReady_quiet (kind := .echo)
      (s := { s with txn.deadline := s.now + s.params.ticks .echo, txn.rxCount := 0, txn.phase := .wait }) hp h hq]
    simp only [readEvents, hp]
    rfl

end Sys2Proof.Laws
end

