-- ==== Sys2Proof/Laws/Exchange.lean ====
section
/-! SUPPORT. What a whole exchange with the CHIP does (R207, R162 to R166, R175, R230, R243): the settle, the frame out,
and, for each way the CHIP may answer, what the transaction returns and leaves. -/

namespace Sys2Proof.Laws

open Sys2Proof.Machine

/-! ## Settle -/

/-- The state a settle leaves (R207). -/
def settled (s : State) : State :=
  if s.txn.settlePending then
    { s with
      now := s.now + s.params.tRamp + s.params.tOsc
      txn.settlePending := false
      txn.phase := .settleOsc
      txn.deadline := s.now + s.params.tRamp + s.params.tOsc }
  else s

/-- A delay sets the deadline and waits it out (R203, R204). -/
theorem delay_ok {kind : DeadlineKind} {s : State} (h : s.quietUntil (s.now + s.params.ticks kind)) :
    (delay kind).run s = .ok ⟨⟩
      { s with now := s.now + s.params.ticks kind, txn.deadline := s.now + s.params.ticks kind } := by
  unfold delay arm
  simp only [run_bind, run_modify, run_get]
  rw [waitUntil_quiet]
  · simp
  · exact h

theorem settle_ok {s : State} (h : s.quietUntil s.sendTime) : settle.run s = .ok ⟨⟩ (settled s) := by
  unfold settle settled
  simp only [run_bind, run_get, run_ite]
  unfold State.sendTime at h
  split at h
  · rename_i hp
    simp only [hp, if_true, setTxnPhase, run_modify]
    rw [delay_ok]
    · simp only
      rw [delay_ok]
      · rfl
      · exact h
    · exact fun r hr => le_trans (by simp only [Params.ticks]; omega) (h r hr)
  · rename_i hp
    simp only [hp, Bool.false_eq_true, if_false, run_pure]

@[simp] theorem settled_params (s : State) : (settled s).params = s.params := by unfold settled; split <;> rfl
@[simp] theorem settled_host (s : State) : (settled s).host = s.host := by unfold settled; split <;> rfl
@[simp] theorem settled_mode (s : State) : (settled s).mode = s.mode := by unfold settled; split <;> rfl
@[simp] theorem settled_ac (s : State) : (settled s).ac = s.ac := by unfold settled; split <;> rfl
@[simp] theorem settled_tag (s : State) : (settled s).tag = s.tag := by unfold settled; split <;> rfl
@[simp] theorem settled_now (s : State) : (settled s).now = s.sendTime := by
  unfold settled State.sendTime; split <;> rfl
@[simp] theorem settled_chip (s : State) : (settled s).chip = s.chip := by unfold settled; split <;> rfl
@[simp] theorem settled_env (s : State) : (settled s).env = s.env := by unfold settled; split <;> rfl
@[simp] theorem settled_out (s : State) : (settled s).out = s.out := by unfold settled; split <;> rfl
@[simp] theorem settled_pending (s : State) : (settled s).txn.settlePending = false := by
  unfold settled; split
  · rfl
  · simp_all
@[simp] theorem settled_txBuf (s : State) : (settled s).txn.txBuf = s.txn.txBuf := by unfold settled; split <;> rfl
@[simp] theorem settled_rxBuf (s : State) : (settled s).txn.rxBuf = s.txn.rxBuf := by unfold settled; split <;> rfl
@[simp] theorem settled_tries (s : State) : (settled s).txn.echoTry = s.txn.echoTry := by
  unfold settled; split <;> rfl
@[simp] theorem settled_lastStatus (s : State) : (settled s).txn.lastStatus = s.txn.lastStatus := by
  unfold settled; split <;> rfl
@[simp] theorem settled_tLast (s : State) : (settled s).txn.tLast = s.txn.tLast := by
  unfold settled; split <;> rfl

/-! ## Sending -/

/-- The valid bytes of tx_buf go out (R163, R165). -/
theorem transmit_ok {s : State} {bytes : List Byte} {m : Memory} (hb : s.txn.txBuf = m.writeRange 0 bytes)
    (hl : s.txn.txLen = bytes.length) :
    transmit.run s = .ok ⟨⟩
      { s with
        chip := s.chip.flushed s.params (s.out.sent + 1) s.now
        out.line := s.out.line ++ sendEvents s.params s.now bytes
        out.sent := s.out.sent + 1 } := by
  unfold transmit
  simp only [run_bind, run_get]
  rw [loadBytes_ok (bytes := bytes) (by simp [State.validLen])
    (by simp only [State.buf, hb, hl]; exact readRange_writeRange m 0 bytes)]
  cases hp : s.params.transport with
  | uart => simp [hp, flushRx_ok, txBytes_ok, sendEvents]
  | spi =>
    simp [hp, assertSelect_ok, txByte_ok, txBytes_ok, releaseSelect_ok, sendEvents, ChipLine.flushed]

/-- A frame of an admissible payload is encoded and goes out (R162, R163, R165). -/
theorem send_ok {s : State} {op : Byte} {payload : List Byte} (hl : payload.length ≤ maxPayload) :
    (send op payload).run s = .ok ⟨⟩
      { s with
        chip := s.chip.flushed s.params (s.out.sent + 1) s.now
        out.line := s.out.line ++ sendEvents s.params s.now (frameBytes s.params op payload)
        out.sent := s.out.sent + 1
        txn.txBuf := s.txn.txBuf.writeRange 0 (frameBytes s.params op payload)
        txn.txLen := (frameBytes s.params op payload).length } := by
  have hf : (frameBytes s.params op payload).length ≤ 256 + s.params.frameTrailerLen := frameBytes_le hl
  unfold send encodeFrame
  simp only [run_bind, show ¬ maxPayload < payload.length by omega, if_false, run_get]
  rw [storeBytes_ok (by simpa [bufSize] using hf)]
  simp only [run_modify, State.setBuf, State.buf]
  rw [transmit_ok (m := s.txn.txBuf) rfl rfl]

/-- The echo byte goes out (R175). -/
theorem echoSend_ok (s : State) :
    echoSend.run s = .ok ⟨⟩
      { s with
        chip := s.chip.flushed s.params (s.out.sent + 1) s.now
        out.line := s.out.line ++ sendEvents s.params s.now [s.params.opcEcho]
        out.sent := s.out.sent + 1
        txn.txBuf := s.txn.txBuf.writeRange 0 [s.params.opcEcho]
        txn.txLen := 1 } := by
  unfold echoSend
  simp only [run_bind, run_get]
  rw [storeBytes_ok (by simp only [bufSize, List.length_singleton]; omega)]
  simp only [run_modify, State.setBuf, State.buf]
  rw [transmit_ok (m := s.txn.txBuf) rfl rfl]

/-! ## The transaction -/

/-- The state in which the receive of a transaction begins: the settle done, the bytes out. -/
def awaiting (s : State) (bytes : List Byte) : State :=
  { s with
    now := s.sendTime
    mode.resume := s.mode.dev
    mode.dev := .awaitingResponse
    txn := { (settled s).txn with
      phase := .send, txBuf := s.txn.txBuf.writeRange 0 bytes, txLen := bytes.length, rxBuf := s.txn.rxBuf }
    chip := s.chip.flushed s.params (s.out.sent + 1) s.sendTime
    out.line := s.out.line ++ sendEvents s.params s.sendTime bytes
    out.sent := s.out.sent + 1 }

/-- A framed transaction is its receive, from where the frame has gone out, and the judgement after it (R230). -/
theorem chipTxn_eq {s : State} {c : FrameCmd} {payload : List Byte} {kind : DeadlineKind} {ok : Byte}
    (hl : payload.length ≤ maxPayload) (hq : s.quietUntil s.sendTime) :
    (chipTxn c payload kind ok).run s =
      (do
        let r ← receive kind
        leaveAwaiting
        match r with
        | .frame status body => judgeFrame c ok status body
        | other => return other : Proc Reception).run
        (awaiting s (frameBytes s.params (s.params.opcode c) payload)) := by
  unfold chipTxn
  simp only [run_bind]
  rw [settle_ok hq]
  simp only [enterAwaiting, run_modify, run_get]
  rw [send_ok hl]
  simp only [settled_params, settled_mode, settled_now, settled_chip, settled_out, settled_txBuf,
    settled_rxBuf, settled_host, settled_ac, settled_tag, settled_env]
  rfl

/-- An echo attempt is its receive, from where the byte has gone out, and the judgement after it (R243). -/
theorem echoAttempt_eq {s : State} (hq : s.quietUntil s.sendTime) :
    echoAttempt.run s =
      (do
        let b ← echoReceive
        leaveAwaiting
        judgeEcho b : Proc Bool).run (awaiting s [s.params.opcEcho]) := by
  unfold echoAttempt
  simp only [run_bind]
  rw [settle_ok hq]
  simp only [enterAwaiting, run_modify]
  rw [echoSend_ok]
  simp only [settled_params, settled_mode, settled_now, settled_chip, settled_out, settled_txBuf,
    settled_rxBuf, settled_host, settled_ac, settled_tag, settled_env]
  rfl

/-! ## What the transaction leaves -/

/-- The state after a transaction, before its judgement. -/
def exchangedState (s : State) (kind : DeadlineKind) (sent received : List Byte) (u : Nat) (line' : ChipLine)
    (last : Nat) : State :=
  { s with
    now := u
    chip := line'
    mode.resume := s.mode.dev
    txn := { (settled s).txn with
      phase := .none, txBuf := s.txn.txBuf.writeRange 0 sent, txLen := sent.length
      rxBuf := s.txn.rxBuf.writeRange 0 received, rxCount := received.length
      deadline := s.sendTime + s.params.ticks kind, tLast := last }
    out.line := s.out.line ++ sendEvents s.params s.sendTime sent ++ readEvents s.params s.sendTime received u
    out.sent := s.out.sent + 1 }

theorem holds_writeRange (m : Memory) (bytes : List Byte) : Memory.Holds m (m.writeRange 0 bytes) bytes := by
  constructor
  · intro k hk; rw [read_writeRange, if_pos (by omega), Nat.sub_zero]
  · intro k hk; exact read_writeRange_outside m bytes (.inr (by omega))

/-- However its judgement sets dev_state and last_status, that state is what Exchanged says. -/
theorem exchangedState_spec {s : State} {kind : DeadlineKind} {sent received : List Byte} {v u : Nat}
    {line' : ChipLine} {last : Nat} (hs : last = s.stampAfter kind received v) (d : DevState) (st : Byte) :
    ExchangedAt s
      { exchangedState s kind sent received u line' last with mode.dev := d, txn.lastStatus := st }
      kind sent received v u line' where
  untouched :=
    { params := rfl, host := rfl, cfg := rfl, ac := rfl, tag := rfl, tries := settled_tries s, env := rfl
      call := rfl, replies := rfl }
  tx := holds_writeRange _ _
  txLen := rfl
  rx := holds_writeRange _ _
  rxCount := rfl
  now := rfl
  chip := rfl
  count := rfl
  record := List.append_assoc _ _ _
  settled := settled_pending s
  phase := rfl
  resume := rfl
  deadline := rfl
  stamp := hs

/-- The judgement of a frame with a wrong status (R232). -/
theorem judgeFrame_status {c : FrameCmd} {ok status : Byte} {payload : List Byte} {s : State} (h : status ≠ ok) :
    (judgeFrame c ok status payload).run s = .ok .noResponse { s with txn.lastStatus := status } := by
  simp [judgeFrame, h]

/-- The judgement of a success frame of a length that is not accepted (R233). -/
theorem judgeFrame_length {c : FrameCmd} {ok : Byte} {payload : List Byte} {s : State}
    (h : lenAccepted (s.params.respLen c) payload.length = false) :
    (judgeFrame c ok ok payload).run s = .ok .malformedFrame { s with txn.lastStatus := ok } := by
  simp [judgeFrame, h]

theorem leaveUninitialized_ok (s : State) :
    leaveUninitialized.run s = .ok ⟨⟩ { s with mode.dev := s.mode.dev.afterSuccess } := by
  obtain ⟨_, _, ⟨d, _, _⟩, _, _, _, _, _, _, _⟩ := s
  cases d <;> rfl

/-- The judgement of a success frame (R234). -/
theorem judgeFrame_success {c : FrameCmd} {ok : Byte} {payload : List Byte} {s : State}
    (h : lenAccepted (s.params.respLen c) payload.length = true) :
    (judgeFrame c ok ok payload).run s = .ok (.frame ok payload)
      { s with txn.lastStatus := ok, mode.dev := s.mode.dev.afterSuccess } := by
  simp [judgeFrame, h, leaveUninitialized_ok]

/-- An answer's last byte comes no earlier than the receive began. -/
theorem le_of_delivers {p : Params} {kind : DeadlineKind} {n t u : Nat} {line line' : ChipLine}
    {bytes : List Byte} (h : ChipDelivers p kind n t line bytes u line') : t ≤ u := by
  unfold ChipDelivers at h
  split at h
  · obtain ⟨first, more, -, -, -, -, -, -, rfl⟩ := h
    exact le_lastArrival _ _
  · obtain ⟨rise, -, -, -, -, -, rfl⟩ := h
    exact le_max_left _ _
  · obtain ⟨flags, f, -, -, -, -, -, rfl⟩ := h
    omega

/-- A whole frame leads to its judgement. -/
theorem chipTxn_judged {s : State} {c : FrameCmd} {payload : List Byte} {kind : DeadlineKind} {ok status : Byte}
    {reply bytes : List Byte} {u : Nat} {line' : ChipLine} (hk : kind ≠ .echo) (hT : 0 < s.params.ticks kind)
    (hib : 0 < s.params.tIb) (hl : payload.length ≤ maxPayload)
    (h : ChipFrame s.params kind (s.out.sent + 1) s.sendTime s.chip status reply bytes u line')
    (hq : s.quietUntil u) :
    ∃ last, last = s.stampAfter kind bytes u ∧
      (chipTxn c payload kind ok).run s = (judgeFrame c ok status reply).run
        (exchangedState s kind (frameBytes s.params (s.params.opcode c) payload) bytes u line' last) := by
  obtain ⟨hlr, ⟨trailer, htr, rfl⟩, ha⟩ := h
  have hev := receive_frame
    (s := awaiting s (frameBytes s.params (s.params.opcode c) payload)) hT hib hlr htr ha hq
  refine ⟨if s.params.transport = .uart then u else (settled s).txn.tLast, ?_, ?_⟩
  · simp [State.stampAfter, hk, responseBytes]
  rw [chipTxn_eq hl (quietUntil_mono hq (le_of_delivers ha))]
  simp only [run_bind]
  rw [hev]
  rfl

/-- The CHIP answers with a success frame of an accepted length: the transaction returns it (R230, R234). -/
theorem chipTxn_success {s : State} {c : FrameCmd} {payload : List Byte} {kind : DeadlineKind} {ok : Byte}
    {reply bytes : List Byte} {u : Nat} {line' : ChipLine} (hk : kind ≠ .echo) (hT : 0 < s.params.ticks kind)
    (hib : 0 < s.params.tIb) (hl : payload.length ≤ maxPayload)
    (h : ChipFrame s.params kind (s.out.sent + 1) s.sendTime s.chip ok reply bytes u line')
    (ha : lenAccepted (s.params.respLen c) reply.length = true) (hq : s.quietUntil u) :
    ∃ t, (chipTxn c payload kind ok).run s = .ok (.frame ok reply) t ∧
      Exchanged s t kind (frameBytes s.params (s.params.opcode c) payload) bytes u line' ∧
      t.mode.dev = s.mode.dev.afterSuccess ∧ t.txn.lastStatus = ok := by
  obtain ⟨last, ht, he⟩ := chipTxn_judged hk hT hib hl h hq (ok := ok) (c := c)
  rw [he, judgeFrame_success]
  · exact ⟨_, rfl, exchangedState_spec ht s.mode.dev.afterSuccess ok, rfl, rfl⟩
  · exact ha

/-- The CHIP answers with another status: NoResponse, the byte kept in last_status (R232). -/
theorem chipTxn_badStatus {s : State} {c : FrameCmd} {payload : List Byte} {kind : DeadlineKind} {ok status : Byte}
    {reply bytes : List Byte} {u : Nat} {line' : ChipLine} (hk : kind ≠ .echo) (hT : 0 < s.params.ticks kind)
    (hib : 0 < s.params.tIb) (hl : payload.length ≤ maxPayload)
    (h : ChipFrame s.params kind (s.out.sent + 1) s.sendTime s.chip status reply bytes u line')
    (hs : status ≠ ok) (hq : s.quietUntil u) :
    ∃ t, (chipTxn c payload kind ok).run s = .ok .noResponse t ∧
      Exchanged s t kind (frameBytes s.params (s.params.opcode c) payload) bytes u line' ∧
      t.mode.dev = s.mode.dev ∧ t.txn.lastStatus = status := by
  obtain ⟨last, ht, he⟩ := chipTxn_judged hk hT hib hl h hq (ok := ok) (c := c)
  rw [he, judgeFrame_status hs]
  exact ⟨_, rfl, exchangedState_spec ht s.mode.dev status, rfl, rfl⟩

/-- The CHIP answers with a success frame of a length that is not accepted: MalformedFrame (R233). -/
theorem chipTxn_badLength {s : State} {c : FrameCmd} {payload : List Byte} {kind : DeadlineKind} {ok : Byte}
    {reply bytes : List Byte} {u : Nat} {line' : ChipLine} (hk : kind ≠ .echo) (hT : 0 < s.params.ticks kind)
    (hib : 0 < s.params.tIb) (hl : payload.length ≤ maxPayload)
    (h : ChipFrame s.params kind (s.out.sent + 1) s.sendTime s.chip ok reply bytes u line')
    (ha : lenAccepted (s.params.respLen c) reply.length = false) (hq : s.quietUntil u) :
    ∃ t, (chipTxn c payload kind ok).run s = .ok .malformedFrame t ∧
      Exchanged s t kind (frameBytes s.params (s.params.opcode c) payload) bytes u line' ∧
      t.mode.dev = s.mode.dev ∧ t.txn.lastStatus = ok := by
  obtain ⟨last, ht, he⟩ := chipTxn_judged hk hT hib hl h hq (ok := ok) (c := c)
  rw [he, judgeFrame_length]
  · exact ⟨_, rfl, exchangedState_spec ht s.mode.dev ok, rfl, rfl⟩
  · exact ha

/-- A receive that answers no frame ends the transaction with what it answers (R230). -/
theorem chipTxn_noFrame {s t : State} {c : FrameCmd} {payload : List Byte} {kind : DeadlineKind} {ok : Byte}
    {r : Reception} (hl : payload.length ≤ maxPayload) (hq : s.quietUntil s.sendTime)
    (hr : (receive kind).run (awaiting s (frameBytes s.params (s.params.opcode c) payload)) = .ok r t)
    (hn : r = .noResponse ∨ r = .malformedFrame) :
    (chipTxn c payload kind ok).run s =
      .ok r { t with txn.phase := .none, mode.dev := t.mode.resume } := by
  rw [chipTxn_eq hl hq]
  simp only [run_bind]
  rw [hr]
  rcases hn with rfl | rfl <;> rfl

/-- The CHIP does not answer: NoResponse at the deadline (R230). -/
theorem chipTxn_silent {s : State} {c : FrameCmd} {payload : List Byte} {kind : DeadlineKind} {ok : Byte}
    {line' : ChipLine} (hl : payload.length ≤ maxPayload)
    (h : ChipSilent s.params kind (s.out.sent + 1) s.sendTime s.chip line')
    (hq : s.quietUntil (s.sendTime + s.params.ticks kind)) :
    ∃ t, (chipTxn c payload kind ok).run s = .ok .noResponse t ∧
      Exchanged s t kind (frameBytes s.params (s.params.opcode c) payload) []
        (s.sendTime + s.params.ticks kind) line' ∧
      t.mode.dev = s.mode.dev ∧ t.txn.lastStatus = s.txn.lastStatus := by
  have hev := receive_quiet
    (s := awaiting s (frameBytes s.params (s.params.opcode c) payload)) h hq
  rw [chipTxn_noFrame hl (quietUntil_mono hq (by omega)) hev (.inl rfl)]
  exact ⟨_, rfl, exchangedState_spec (s := s) (received := []) (last := (settled s).txn.tLast)
    (by simp [State.stampAfter]) s.mode.dev (settled s).txn.lastStatus, rfl, settled_lastStatus s⟩

/-- The CHIP sends a length byte of 0xFF: MalformedFrame (R113, R404). -/
theorem chipTxn_ff {s : State} {c : FrameCmd} {payload : List Byte} {kind : DeadlineKind} {ok st : Byte}
    {u : Nat} {line' : ChipLine} (hk : kind ≠ .echo) (hT : 0 < s.params.ticks kind) (hib : 0 < s.params.tIb)
    (hl : payload.length ≤ maxPayload)
    (h : ChipAnswers s.params kind (s.out.sent + 1) s.sendTime s.chip [st, 0xFF#8] u line')
    (hq : s.quietUntil u) :
    ∃ t, (chipTxn c payload kind ok).run s = .ok .malformedFrame t ∧
      Exchanged s t kind (frameBytes s.params (s.params.opcode c) payload) [st, 0xFF#8] u line' ∧
      t.mode.dev = s.mode.dev ∧ t.txn.lastStatus = s.txn.lastStatus := by
  have hev := receive_ff (s := awaiting s (frameBytes s.params (s.params.opcode c) payload)) hT hib
    h hq
  rw [chipTxn_noFrame hl (quietUntil_mono hq (le_of_delivers h)) hev (.inr rfl)]
  exact ⟨_, rfl, exchangedState_spec (s := s) (received := [st, 0xFF#8])
    (last := if s.params.transport = .uart then u else (settled s).txn.tLast) (by simp [State.stampAfter, hk])
    s.mode.dev
    (settled s).txn.lastStatus, rfl, settled_lastStatus s⟩

/-- A response's bytes that stop coming leave the exchange over at the limit, its last byte's time in t_last (R209). -/
theorem chipTxn_short {s : State} {c : FrameCmd} {payload : List Byte} {kind : DeadlineKind} {ok : Byte}
    {r : Reception} {received : List Byte} {v u : Nat} {line' : ChipLine} (hk : kind ≠ .echo)
    (hl : payload.length ≤ maxPayload) (hne : received ≠ [])
    (h : ChipStopsShort s.params kind (s.out.sent + 1) s.sendTime (s.chip.flushed s.params (s.out.sent + 1) s.sendTime)
      received v u line')
    (hn : r = .noResponse ∨ r = .malformedFrame) (hq : s.quietUntil u)
    (hr : (receive kind).run (awaiting s (frameBytes s.params (s.params.opcode c) payload)) = .ok r
      { awaiting s (frameBytes s.params (s.params.opcode c) payload) with
        now := u
        chip := line'
        txn.rxBuf := s.txn.rxBuf.writeRange 0 received
        txn.rxCount := received.length
        txn.deadline := s.sendTime + s.params.ticks kind
        txn.phase := .rx
        txn.tLast := v }) :
    ∃ t, (chipTxn c payload kind ok).run s = .ok r t ∧
      ExchangedAt s t kind (frameBytes s.params (s.params.opcode c) payload) received v u line' ∧
      t.mode.dev = s.mode.dev ∧ t.txn.lastStatus = s.txn.lastStatus := by
  obtain ⟨hp, hd, hu, -⟩ := h
  have hv := le_of_delivers hd
  rw [chipTxn_noFrame hl (quietUntil_mono hq (by rw [hu]; omega)) hr hn]
  refine ⟨_, rfl, ?_, rfl, settled_lastStatus s⟩
  have hx := exchangedState_spec (s := s) (kind := kind)
    (sent := frameBytes s.params (s.params.opcode c) payload) (received := received) (u := u) (line' := line')
    (last := v) (v := v) (by simp [State.stampAfter, hk, hp, hne]) s.mode.dev
    (settled s).txn.lastStatus
  simpa [exchangedState, awaiting, readEvents, hp] using hx

/-- A transaction that the CHIP gives no success, in whatever way (R230, R232, R233, R403, R404). -/
theorem chipTxn_fails {s : State} {c : FrameCmd} {payload received : List Byte} {kind : DeadlineKind}
    {ok status : Byte} {r : Reception} {v u : Nat} {line' : ChipLine} (hk : kind ≠ .echo)
    (hT : 0 < s.params.ticks kind) (hib : 0 < s.params.tIb) (hl : payload.length ≤ maxPayload)
    (h : ChipFails s.params kind ok (s.params.respLen c) (s.out.sent + 1) s.sendTime s.chip s.txn.lastStatus r received
      status v u line')
    (hq : s.quietUntil u) :
    (r = .noResponse ∨ r = .malformedFrame) ∧ ∃ t, (chipTxn c payload kind ok).run s = .ok r t ∧
      ExchangedAt s t kind (frameBytes s.params (s.params.opcode c) payload) received v u line' ∧
      t.mode.dev = s.mode.dev ∧ t.txn.lastStatus = status := by
  cases h with
  | status h ha => exact ⟨.inl rfl, chipTxn_badStatus hk hT hib hl ha h hq⟩
  | length h ha =>
    refine ⟨.inr rfl, chipTxn_badLength hk hT hib hl ha ?_ hq⟩
    simp only [lenAccepted, Bool.and_eq_false_iff, decide_eq_false_iff_not]
    omega
  | silence ha =>
    obtain ⟨t, h1, h2, h3⟩ := chipTxn_silent hl ha hq
    refine ⟨.inl rfl, t, h1, { h2 with stamp := ?_ }, h3⟩
    rw [h2.stamp]; simp [State.stampAfter]
  | illegal ha => exact ⟨.inr rfl, chipTxn_ff hk hT hib hl ha hq⟩
  | alone ha =>
    exact ⟨.inl rfl, chipTxn_short hk hl (by simp) ha (.inl rfl) hq
      (receive_one (s := awaiting s (frameBytes s.params (s.params.opcode c) payload)) hT hib ha hq)⟩
  | cut h hlt ha =>
    exact ⟨.inr rfl, chipTxn_short hk hl (by simp) ha (.inr rfl) hq
      (receive_cut (s := awaiting s (frameBytes s.params (s.params.opcode c) payload)) hT hib h hlt ha hq)⟩

/-! ## The echo attempt -/

/-- The CHIP answers the echo byte: ALIVE (R243). -/
theorem echoAttempt_alive {s : State} {u : Nat} {line' : ChipLine} (hT : 0 < s.params.tEcho)
    (h : ChipAnswers s.params .echo (s.out.sent + 1) s.sendTime s.chip [s.params.echoByte] u line')
    (hq : s.quietUntil u) :
    ∃ t, echoAttempt.run s = .ok true t ∧
      Exchanged s t .echo [s.params.opcEcho] [s.params.echoByte] u line' ∧
      t.mode.dev = s.mode.dev.afterSuccess ∧ t.txn.lastStatus = s.params.echoByte := by
  have hev := echoReceive_byte (s := awaiting s [s.params.opcEcho]) hT h hq
  rw [echoAttempt_eq (quietUntil_mono hq (le_of_delivers h))]
  simp only [run_bind]
  rw [hev]
  have hj : ∀ (t : State), t.params = s.params → (judgeEcho (some s.params.echoByte)).run t =
      .ok true { t with txn.lastStatus := s.params.echoByte, mode.dev := t.mode.dev.afterSuccess } := by
    intro t ht; simp [judgeEcho, ht, leaveUninitialized_ok]
  simp only [leaveAwaiting, run_modify]
  refine ⟨_, hj _ rfl, exchangedState_spec (s := s) (received := [s.params.echoByte])
    (last := (settled s).txn.tLast) (by simp [State.stampAfter]) s.mode.dev.afterSuccess s.params.echoByte, rfl,
        rfl⟩

/-- The CHIP answers another byte: FAIL (R243). -/
theorem echoAttempt_wrong {s : State} {b : Byte} {u : Nat} {line' : ChipLine} (hT : 0 < s.params.tEcho)
    (h : ChipAnswers s.params .echo (s.out.sent + 1) s.sendTime s.chip [b] u line')
    (hb : b ≠ s.params.echoByte) (hq : s.quietUntil u) :
    ∃ t, echoAttempt.run s = .ok false t ∧ Exchanged s t .echo [s.params.opcEcho] [b] u line' ∧
      t.mode.dev = s.mode.dev ∧ t.txn.lastStatus = b := by
  have hev := echoReceive_byte (s := awaiting s [s.params.opcEcho]) hT h hq
  rw [echoAttempt_eq (quietUntil_mono hq (le_of_delivers h))]
  simp only [run_bind]
  rw [hev]
  have hj : ∀ (t : State), t.params = s.params → (judgeEcho (some b)).run t =
      .ok false { t with txn.lastStatus := b } := by
    intro t ht; simp [judgeEcho, ht, hb]
  simp only [leaveAwaiting, run_modify]
  refine ⟨_, hj _ rfl, exchangedState_spec (s := s) (received := [b])
    (last := (settled s).txn.tLast) (by simp [State.stampAfter]) s.mode.dev b, rfl, rfl⟩

/-- The CHIP does not answer: FAIL at T_ECHO (R243). -/
theorem echoAttempt_silent {s : State} {line' : ChipLine}
    (h : ChipSilent s.params .echo (s.out.sent + 1) s.sendTime s.chip line')
    (hq : s.quietUntil (s.sendTime + s.params.tEcho)) :
    ∃ t, echoAttempt.run s = .ok false t ∧
      Exchanged s t .echo [s.params.opcEcho] [] (s.sendTime + s.params.tEcho) line' ∧
      t.mode.dev = s.mode.dev ∧ t.txn.lastStatus = s.txn.lastStatus := by
  have hev := echoReceive_quiet (s := awaiting s [s.params.opcEcho]) h hq
  rw [echoAttempt_eq (quietUntil_mono hq (by omega))]
  simp only [run_bind]
  rw [hev]
  exact ⟨_, rfl, exchangedState_spec (s := s) (received := []) (last := (settled s).txn.tLast)
    (by simp [State.stampAfter]) s.mode.dev (settled s).txn.lastStatus, rfl, settled_lastStatus s⟩

end Sys2Proof.Laws
end

