-- ==== Sys2Proof/Laws/AnyAnswer.lean ====
section
/-! SUPPORT. What an exchange can do WHATEVER the CHIP does: for each part of it, everything it can end in. Later
proofs cite these and unfold nothing. -/

namespace Sys2Proof.Laws

open Sys2Proof.Machine

/-- Reads of the CHIP's bytes and waits between two states: nothing has changed but the time, the CHIP's inputs, the
receive registers and the record of the transport. -/
structure Reads (s t : State) : Prop where
  params : t.params = s.params
  host : t.host = s.host
  mode : t.mode = s.mode
  ac : t.ac = s.ac
  tag : t.tag = s.tag
  env : t.env = s.env
  pending : t.txn.settlePending = s.txn.settlePending
  status : t.txn.lastStatus = s.txn.lastStatus
  tries : t.txn.echoTry = s.txn.echoTry
  txBuf : t.txn.txBuf = s.txn.txBuf
  txLen : t.txn.txLen = s.txn.txLen
  sent : t.out.sent = s.out.sent
  call : t.out.callResult = s.out.callResult
  replies : t.out.replies = s.out.replies
  now : s.now ≤ t.now

theorem Reads.refl (s : State) : Reads s s := by
  constructor <;> rfl

theorem Reads.trans {s t u : State} (h : Reads s t) (k : Reads t u) : Reads s u where
  params := k.params.trans h.params
  host := k.host.trans h.host
  mode := k.mode.trans h.mode
  ac := k.ac.trans h.ac
  tag := k.tag.trans h.tag
  env := k.env.trans h.env
  pending := k.pending.trans h.pending
  status := k.status.trans h.status
  tries := k.tries.trans h.tries
  txBuf := k.txBuf.trans h.txBuf
  txLen := k.txLen.trans h.txLen
  sent := k.sent.trans h.sent
  call := k.call.trans h.call
  replies := k.replies.trans h.replies
  now := le_trans h.now k.now

/-- A procedure ended early by the reset input, no later than a bound: nothing it did to the inputs, the parameters
or the HOST's replies. -/
structure Aborted (bound : Nat) (s : State) (e : Stop) (t : State) : Prop where
  reset : e = .reset
  params : t.params = s.params
  env : t.env = s.env
  replies : t.out.replies = s.out.replies
  after : s.now ≤ t.now
  before : t.now ≤ bound
  asserted : ∃ r ∈ s.env.resetLine.head?, r ≤ t.now

theorem Aborted.from {bound : Nat} {s t u : State} {e : Stop} (h : Reads s t) (k : Aborted bound t e u) :
    Aborted bound s e u where
  reset := k.reset
  params := k.params.trans h.params
  env := k.env.trans h.env
  replies := k.replies.trans h.replies
  after := le_trans h.now k.after
  before := k.before
  asserted := by rw [← h.env]; exact k.asserted

theorem Aborted.mono {b b' : Nat} {s t : State} {e : Stop} (h : Aborted b s e t) (hb : b ≤ b') :
    Aborted b' s e t := { h with before := le_trans h.before hb }

/-- A wait reaches its time, or the reset input ends it. -/
theorem waitUntil_ends (t : Nat) (s : State) :
    Ends (waitUntil t) s (fun _ u => u = { s with now := max s.now t }) (Aborted (max s.now t) s) := by
  unfold waitUntil
  refine ends_get_bind ?_
  by_cases ht : t ≤ s.now
  · simp only [ht, if_true]
    exact ends_pure (by rw [max_eq_left ht])
  · simp only [ht, if_false]
    have hm : max s.now t = t := by omega
    cases hr : s.env.resetLine with
    | nil => exact ends_set (by rw [hm])
    | cons r rest =>
      simp only
      split
      · refine ends_bind (ends_set (ends_throw ?_))
        exact ⟨rfl, rfl, rfl, rfl, le_max_left _ _, by simp only; omega, r, by simp [hr], le_max_right _ _⟩
      · exact ends_set (by rw [hm])

/-- RxByte takes the channel's next byte before its limit, or waits the limit out. -/
theorem rxByte_ends (dl : Nat) (s : State) :
    Ends (rxByte dl) s
      (fun r u => ∃ n rx, u = { s with now := n, chip.rx := rx } ∧ s.now ≤ n ∧ n ≤ max s.now dl ∧
        (r ≠ none → s.now < dl ∧ n < dl))
      (Aborted (max s.now dl) s) := by
  unfold rxByte
  refine ends_get_bind ?_
  by_cases hd : dl ≤ s.now
  · simp only [hd, if_true]
    exact ends_pure ⟨s.now, s.chip.rx, rfl, le_refl _, le_max_left _ _, fun h => absurd rfl h⟩
  · simp only [hd, if_false]
    have hwait : Ends (do waitUntil dl; return none : Proc (Option Byte)) s
        (fun r u => ∃ n rx, u = { s with now := n, chip.rx := rx } ∧ s.now ≤ n ∧ n ≤ max s.now dl ∧
          (r ≠ none → s.now < dl ∧ n < dl))
        (Aborted (max s.now dl) s) := by
      refine Ends.bind (waitUntil_ends dl s) (fun _ t ht => ends_pure ?_) (fun _ _ h => h)
      subst ht
      exact ⟨_, s.chip.rx, rfl, le_max_left _ _, le_refl _, fun h => absurd rfl h⟩
    cases hl : s.chip.rx with
    | nil => exact hwait
    | cons a rest =>
      simp only
      split
      · rename_i hc
        refine Ends.bind (waitUntil_ends a.time s) (fun _ t ht => ?_) (fun _ _ h => h.mono (by omega))
        subst ht
        refine ends_bind (ends_modify (ends_pure ?_))
        exact ⟨max s.now a.time, rest, rfl, le_max_left _ _, by omega, fun _ => ⟨by omega, by omega⟩⟩
      · exact hwait

/-- SpiIn always answers a byte. -/
theorem spiIn_ends (s : State) (R : Stop → State → Prop) :
    Ends spiIn s (fun _ u => ∃ c, u = { s with chip := c, out.line := s.out.line ++ [.dummy s.now] }) R := by
  unfold spiIn
  refine ends_get_bind (ends_bind (ends_modify ?_))
  cases s.chip.miso with
  | nil => exact ends_bind (ends_modify (ends_pure ⟨_, rfl⟩))
  | cons b rest => exact ends_bind (ends_modify (ends_pure ⟨_, rfl⟩))

theorem waitReadyIrq_ends (dl : Nat) (s : State) :
    Ends (waitReadyIrq dl) s
      (fun _ u => ∃ n c, u = { s with now := n, chip := c } ∧ s.now ≤ n ∧ n ≤ max s.now dl)
      (Aborted (max s.now dl) s) := by
  unfold waitReadyIrq
  refine ends_get_bind ?_
  by_cases hd : dl ≤ s.now
  · simp only [hd, if_true]
    exact ends_pure ⟨s.now, s.chip, rfl, le_refl _, le_max_left _ _⟩
  · simp only [hd, if_false]
    have hwait : Ends (do waitUntil dl; return false : Proc Bool) s
        (fun _ u => ∃ n c, u = { s with now := n, chip := c } ∧ s.now ≤ n ∧ n ≤ max s.now dl)
        (Aborted (max s.now dl) s) := by
      refine Ends.bind (waitUntil_ends dl s) (fun _ t ht => ends_pure ?_) (fun _ _ h => h)
      subst ht
      exact ⟨_, s.chip, rfl, le_max_left _ _, le_refl _⟩
    cases hl : s.chip.ready with
    | nil => exact hwait
    | cons e rest =>
      simp only
      split
      · rename_i hc
        refine Ends.bind (waitUntil_ends e.time s) (fun _ t ht => ?_) (fun _ _ h => h.mono (by omega))
        subst ht
        exact ends_bind (ends_modify (ends_pure ⟨max s.now e.time, _, rfl, le_max_left _ _, by omega⟩))
      · exact hwait

/-- The polling loop reads one flag byte a tick, the last at the end where the CHIP is ready, and releases chip-select
(R170). -/
theorem pollLoop_ends (dl n : Nat) (s : State) :
    Ends (pollLoop dl n) s
      (fun r u => ∃ m c, u = { s with
          now := m
          chip := c
          out.line := s.out.line ++
            (flagEvents s.now (if r then m - s.now + 1 else m - s.now) ++ [.release m]) } ∧
        s.now ≤ m ∧ m ≤ max s.now dl)
      (Aborted (max s.now dl) s) := by
  have stop : ∀ s : State, Ends (do releaseSelect; return false : Proc Bool) s
      (fun r u => ∃ m c, u = { s with
          now := m
          chip := c
          out.line := s.out.line ++
            (flagEvents s.now (if r then m - s.now + 1 else m - s.now) ++ [.release m]) } ∧
        s.now ≤ m ∧ m ≤ max s.now dl)
      (Aborted (max s.now dl) s) := fun s =>
    ends_step (releaseSelect_ok s) (ends_pure ⟨s.now, s.chip, by simp [flagEvents], le_refl _, le_max_left _ _⟩)
  induction n generalizing s with
  | zero => exact stop s
  | succ n ih =>
    unfold pollLoop
    refine ends_get_bind ?_
    by_cases hd : dl ≤ s.now
    · simp only [hd, if_true]
      exact stop s
    · simp only [hd, if_false]
      refine Ends.bind (spiIn_ends s _) (fun f t ht => ?_) (fun _ _ h => h)
      obtain ⟨c, rfl⟩ := ht
      refine ends_get_bind ?_
      split
      · refine ends_step (releaseSelect_ok _) (ends_pure ⟨s.now, c, ?_, le_refl _, le_max_left _ _⟩)
        simp [flagEvents]
      · refine ends_get_bind (Ends.bind (waitUntil_ends _ _) (fun _ u hu => ?_) ?_)
        · subst hu
          refine (ih _).mono ?_ ?_
          · rintro r v ⟨m, c', rfl, h1, h2⟩
            simp only at h1 h2
            rw [show max s.now (s.now + 1) = s.now + 1 by omega] at h1 h2 ⊢
            refine ⟨m, c', ?_, by omega, by omega⟩
            have hk : (if r then m - s.now + 1 else m - s.now) =
                (if r then m - (s.now + 1) + 1 else m - (s.now + 1)) + 1 := by split <;> omega
            rw [hk, flagEvents_succ]
            simp
          · intro e v h
            have h' := h.mono (b' := max s.now dl) (by simp only; omega)
            exact ⟨h'.reset, h'.params, h'.env, h'.replies, by have := h'.after; simp only at this; omega, h'.before,
              h'.asserted⟩
        · intro e v h
          exact ⟨h.reset, h.params, h.env, h.replies, h.after, le_trans h.before (by simp only; omega), h.asserted⟩

/-- The wait for the ready signal ends where the CHIP is ready, or at its deadline (R169, R170). -/
theorem waitReady_ends (dl : Nat) (s : State) :
    Ends (waitReady dl) s
      (fun r u => ∃ m c, u = { s with
          now := m
          chip := c
          out.line := s.out.line ++ waitEvents s.params s.now m r } ∧ s.now ≤ m ∧ m ≤ max s.now dl)
      (Aborted (max s.now dl) s) := by
  unfold waitReady
  refine ends_get_bind ?_
  cases hr : s.params.readyMethod with
  | irq =>
    refine (waitReadyIrq_ends dl s).mono ?_ (fun _ _ h => h)
    rintro _ u ⟨n, c, rfl, h1, h2⟩
    exact ⟨n, c, by simp [waitEvents, hr], h1, h2⟩
  | poll =>
    unfold waitReadyPoll
    refine ends_get_bind (ends_step (assertSelect_ok _) (ends_step (txByte_ok _ _) ?_))
    refine (pollLoop_ends dl _ _).mono ?_ ?_
    · rintro r u ⟨m, c, rfl, h1, h2⟩
      refine ⟨m, c, ?_, h1, h2⟩
      simp [waitEvents, hr, pollEvents_eq]
    · intro e u h
      exact ⟨h.reset, h.params, h.env, h.replies, h.after, h.before, h.asserted⟩

theorem recordByte_ends {b : Byte} {s : State} (h : s.txn.rxCount < 256 + s.params.frameTrailerLen)
    (R : Stop → State → Prop) :
    Ends (recordByte b) s
      (fun _ u => u = { s with
        txn.rxBuf := s.txn.rxBuf.writeRange s.txn.rxCount [b]
        txn.rxCount := s.txn.rxCount + 1 }) R := by
  unfold Ends
  rw [recordByte_ok h]

/-- The rest of a UART response: some bytes come, all of them where the answer is true. -/
theorem rxRest_ends (n : Nat) (s : State) (hc : s.txn.rxCount + n ≤ 256 + s.params.frameTrailerLen) :
    Ends (rxRest n) s
      (fun r u => Reads s u ∧ u.now ≤ max s.now s.txn.deadline ∧ u.txn.deadline = s.txn.deadline ∧
        u.out.line = s.out.line ∧
        ∃ bytes : List Byte, bytes.length ≤ n ∧ (r = true → bytes.length = n) ∧
          u.txn.rxBuf = s.txn.rxBuf.writeRange s.txn.rxCount bytes ∧ u.txn.rxCount = s.txn.rxCount + bytes.length)
      (Aborted (max s.now s.txn.deadline) s) := by
  induction n generalizing s with
  | zero =>
    exact ends_pure ⟨.refl s, le_max_left _ _, rfl, rfl, [], le_refl _, fun _ => rfl, rfl, rfl⟩
  | succ n ih =>
    unfold rxRest
    refine ends_get_bind (Ends.bind (rxByte_ends _ s) (fun r t ht => ?_) (fun _ _ h => h.mono ?_))
    rotate_left
    · simp only [State.byteLimit]; omega
    obtain ⟨m, rx, rfl, h1, h2, h3⟩ := ht
    have hr : Reads s { s with now := m, chip.rx := rx } := { Reads.refl s with now := h1 }
    have hm : m ≤ max s.now s.txn.deadline := by
      simp only [State.byteLimit] at h2; omega
    cases r with
    | none => exact ends_pure ⟨hr, hm, rfl, rfl, [], by simp, fun h => by simp at h, rfl, rfl⟩
    | some b =>
      simp only
      refine Ends.bind (recordByte_ends (by simp only; omega) (fun _ _ => False)) (fun _ t ht => ?_)
        (fun _ _ h => h.elim)
      subst ht
      refine ends_bind (ends_modify ((ih _ (by simp only; omega)).mono ?_ ?_))
      · rintro r u ⟨hu, hn, hdl, hln, bytes, hb1, hb2, hb3, hb4⟩
        refine ⟨hr.trans { hu with }, by simp only at hn; omega, hdl, hln, b :: bytes, by simp; omega,
          fun h => by simp [hb2 h], ?_, by rw [hb4]; simp; omega⟩
        rw [hb3]
        simp only
        rw [show s.txn.rxCount + 1 = s.txn.rxCount + [b].length from rfl, writeRange_append]
        rfl
      · intro e u h
        have h' : Aborted (max m s.txn.deadline) { s with now := m, chip.rx := rx } e u := { h with }
        exact (h'.mono (by omega)).from hr

/-- A recorded response of its declared length is the frame read out of it. -/
theorem receivedFrame_ends {s : State} {m : Memory} {st len : Byte} {body : List Byte}
    (hb : s.txn.rxBuf = m.writeRange 0 (st :: len :: body)) (hc : s.txn.rxCount = body.length + 2)
    (hl : len.toNat ≤ body.length) (R : Stop → State → Prop) :
    Ends receivedFrame s (fun r u => u = s ∧ r = .frame st (body.take len.toNat)) R := by
  unfold Ends receivedFrame
  simp only [run_bind]
  rw [loadByte_ok (v := st) (by simp only [State.validLen]; omega)
    (by simp [State.buf, hb, read_writeRange])]
  simp only
  rw [loadByte_ok (v := len) (by simp only [State.validLen]; omega)
    (by simp [State.buf, hb, read_writeRange])]
  simp only
  rw [loadBytes_ok (bytes := body.take len.toNat) (by simp only [State.validLen]; omega)
    (by
      simp only [State.buf, hb]
      rw [readRange_writeRange_part (by simp only [List.length_cons]; omega)]
      rfl)]
  exact ⟨rfl, rfl⟩

/-- What a receive can end in: some bytes in rx_buf, the events that read them on the transport, and a frame only of a
whole response. -/
structure Received (s : State) (kind : DeadlineKind) (r : Reception) (u : State) : Prop where
  reads : Reads s u
  now : u.now ≤ s.now + s.params.ticks kind
  deadline : u.txn.deadline = s.now + s.params.ticks kind
  bytes : ∃ bytes : List Byte, bytes.length ≤ 256 + s.params.frameTrailerLen ∧
    u.txn.rxBuf = s.txn.rxBuf.writeRange 0 bytes ∧ u.txn.rxCount = bytes.length ∧
    u.out.line = s.out.line ++ readEvents s.params s.now bytes u.now
  payload : ∀ st body, r = .frame st body → body.length ≤ maxPayload

theorem ne_ff_le {len : Byte} (h : len ≠ 0xFF#8) : len.toNat ≤ maxPayload := by
  have h1 := len.isLt
  have h2 : len.toNat ≠ 255 := fun hc => h (BitVec.eq_of_toNat_eq hc)
  unfold maxPayload; omega

theorem readEvents_uart {p : Params} (hp : p.transport = .uart) (t u : Nat) (bytes : List Byte) :
    readEvents p t bytes u = [] := by
  simp [readEvents, hp]

theorem readEvents_none {p : Params} (hp : p.transport = .spi) (t u : Nat) :
    readEvents p t [] u = waitEvents p t u false := by
  simp [readEvents, hp]

theorem readEvents_some {p : Params} (hp : p.transport = .spi) (t u : Nat) (b : Byte) (bytes : List Byte) :
    readEvents p t (b :: bytes) u = waitEvents p t u true ++ shiftEvents p u (bytes.length + 1) := by
  simp [readEvents, hp]

/-- No event of a receive comes before the receive begins. -/
theorem readEvents_time {p : Params} {t u : Nat} {bytes : List Byte} {e : LineEvent} (h : t ≤ u)
    (he : e ∈ readEvents p t bytes u) : t ≤ e.time := by
  have hw : ∀ r, e ∈ waitEvents p t u r → t ≤ e.time := by
    intro r hr
    unfold waitEvents at hr
    split at hr
    · exact nomatch hr
    · simp only [pollEvents, List.cons_append, List.mem_cons, List.mem_append, List.mem_map, List.not_mem_nil,
        or_false] at hr
      rcases hr with rfl | rfl | ⟨k, -, rfl⟩ | rfl <;> simp only [LineEvent.time] <;> omega
  unfold readEvents at he
  split at he
  · exact nomatch he
  · exact hw _ he
  · rcases List.mem_append.mp he with he | he
    · exact hw _ he
    · simp only [shiftEvents, List.cons_append, List.mem_cons, List.mem_append, List.mem_replicate, List.not_mem_nil,
        or_false] at he
      rcases he with rfl | rfl | ⟨-, rfl⟩ | rfl <;> exact h

theorem receiveUart_ends (kind : DeadlineKind) (s : State) (hp : s.params.transport = .uart) :
    Ends (receiveUart kind) s (Received s kind) (Aborted (s.now + s.params.ticks kind) s) := by
  unfold receiveUart beginReceive arm
  refine ends_bind (ends_bind (ends_modify (ends_modify ?_)))
  refine ends_get_bind (Ends.bind (rxByte_ends _ _) (fun r t ht => ?_) (fun _ _ h => ?_))
  rotate_left
  · exact ({ h with } : Aborted _ s _ _).mono (by simp only; omega)
  obtain ⟨m, rx, rfl, h1, h2, h3⟩ := ht
  simp only at h1 h2
  cases r with
  | none =>
    exact ends_pure ⟨{ Reads.refl s with now := h1 }, by simp only; omega, rfl,
      ⟨[], by simp, rfl, rfl, by simp [readEvents_uart hp]⟩, fun _ _ h => by cases h⟩
  | some st =>
    have h3' := h3 (by simp)
    simp only at h3'
    simp only
    refine Ends.bind (recordByte_ends (by simp only; omega) (fun _ _ => False)) (fun _ t ht => ?_)
      (fun _ _ h => h.elim)
    subst ht
    refine ends_bind (ends_modify (ends_bind (ends_modify (ends_get_bind
      (Ends.bind (rxByte_ends _ _) (fun r t ht => ?_) (fun e v h => ?_))))))
    rotate_left
    · have h' : Aborted _ { s with now := m } e v := { h with }
      exact Aborted.from (t := { s with now := m }) { Reads.refl s with now := h1 }
        (h'.mono (by simp only [State.byteLimit]; omega))
    obtain ⟨m', rx', rfl, k1, k2, k3⟩ := ht
    simp only [State.byteLimit] at k1 k2
    cases r with
    | none =>
      exact ends_pure ⟨{ Reads.refl s with now := by simp only; omega }, by simp only; omega, rfl,
        ⟨[st], by simp only [List.length_singleton]; omega, rfl, rfl, by simp [readEvents_uart hp]⟩,
        fun _ _ h => by cases h⟩
    | some len =>
      simp only
      refine Ends.bind (recordByte_ends (by simp only; omega) (fun _ _ => False)) (fun _ t ht => ?_)
        (fun _ _ h => h.elim)
      subst ht
      refine ends_bind (ends_modify ?_)
      split
      · exact ends_pure ⟨{ Reads.refl s with now := by simp only; omega }, by simp only; omega, rfl,
          ⟨[st, len], by simp only [List.length_cons, List.length_nil]; omega, rfl, rfl,
            by simp [readEvents_uart hp]⟩,
          fun _ _ h => by cases h⟩
      · rename_i hff
        have hle := ne_ff_le hff
        refine ends_get_bind (Ends.bind (rxRest_ends _ _ ?_) (fun r t ht => ?_) (fun e v h => ?_))
        · simp only; unfold maxPayload at hle; omega
        · obtain ⟨hu, hn, hdl, hln, bytes, hb1, hb2, hb3, hb4⟩ := ht
          simp only at hn hdl hln hb1 hb2 hb3 hb4
          have hreads : Reads s t := by
            refine Reads.trans (t := { s with now := m' }) { Reads.refl s with now := by simp only; omega } { hu with }
          have hbuf : t.txn.rxBuf = s.txn.rxBuf.writeRange 0 (st :: len :: bytes) := hb3
          have hcnt : t.txn.rxCount = bytes.length + 2 := by rw [hb4]; omega
          have hrec : ∀ q : Reception, (∀ st body, q = .frame st body → body.length ≤ maxPayload) →
              Received s kind q t := fun q hq =>
            ⟨hreads, by omega, hdl, ⟨st :: len :: bytes, by simp; unfold maxPayload at hle; omega, hbuf,
              by rw [hcnt]; rfl, by rw [hln, readEvents_uart hp, List.append_nil]⟩, hq⟩
          split
          · rename_i hr
            refine (receivedFrame_ends hbuf hcnt (by rw [hb2 hr]; omega) (fun _ _ => False)).mono ?_
              (fun _ _ h => h.elim)
            rintro q u ⟨rfl, rfl⟩
            refine hrec _ ?_
            rintro _ _ h
            cases h
            simp only [List.length_take]; omega
          · exact ends_pure (hrec _ (fun _ _ h => by cases h))
        · have h' : Aborted _ { s with now := m' } e v := { h with }
          exact Aborted.from (t := { s with now := m' }) { Reads.refl s with now := by simp only; omega }
            (h'.mono (by simp only; omega))

theorem spiRest_ends (n : Nat) (s : State) (hc : s.txn.rxCount + n ≤ 256 + s.params.frameTrailerLen)
    (R : Stop → State → Prop) :
    Ends (spiRest n) s
      (fun _ u => Reads s u ∧ u.now = s.now ∧ u.txn.deadline = s.txn.deadline ∧
        u.out.line = s.out.line ++ List.replicate n (.dummy s.now) ∧
        ∃ bytes : List Byte, bytes.length = n ∧
          u.txn.rxBuf = s.txn.rxBuf.writeRange s.txn.rxCount bytes ∧ u.txn.rxCount = s.txn.rxCount + n) R := by
  induction n generalizing s with
  | zero => exact ends_pure ⟨.refl s, rfl, rfl, by simp, [], rfl, rfl, rfl⟩
  | succ n ih =>
    unfold spiRest
    refine Ends.bind (spiIn_ends s (fun _ _ => False)) (fun b t ht => ?_) (fun _ _ h => h.elim)
    obtain ⟨c, rfl⟩ := ht
    refine Ends.bind (recordByte_ends (by simp only; omega) (fun _ _ => False)) (fun _ t ht => ?_)
      (fun _ _ h => h.elim)
    subst ht
    refine (ih _ (by simp only; omega)).mono ?_ (fun _ _ h => h)
    rintro _ u ⟨hu, hn, hdl, hln, bytes, hb1, hb2, hb3⟩
    refine ⟨{ hu with }, hn, hdl, by rw [hln, List.replicate_succ]; simp, b :: bytes, by simp [hb1], ?_,
      by rw [hb3]; simp only; omega⟩
    rw [hb2]
    simp only
    rw [show s.txn.rxCount + 1 = s.txn.rxCount + [b].length from rfl, writeRange_append]
    rfl

theorem receiveSpi_ends (kind : DeadlineKind) (s : State) (hp : s.params.transport = .spi) :
    Ends (receiveSpi kind) s (Received s kind) (Aborted (s.now + s.params.ticks kind) s) := by
  unfold receiveSpi beginReceive arm
  refine ends_bind (ends_bind (ends_modify (ends_modify ?_)))
  refine ends_get_bind (Ends.bind (waitReady_ends _ _) (fun r t ht => ?_) (fun _ _ h => ?_))
  rotate_left
  · exact ({ h with } : Aborted _ s _ _).mono (by simp only; omega)
  obtain ⟨m, c, rfl, h1, h2⟩ := ht
  simp only at h1 h2
  cases r with
  | false =>
    exact ends_pure ⟨{ Reads.refl s with now := h1 }, by simp only; omega, rfl,
      ⟨[], by simp, rfl, rfl, by rw [readEvents_none hp]⟩, fun _ _ h => by cases h⟩
  | true =>
    simp only [if_true]
    refine ends_bind (ends_modify (ends_step (assertSelect_ok _) (ends_get_bind (ends_step (txByte_ok _ _)
      (Ends.bind (spiIn_ends _ (fun _ _ => False)) (fun st t ht => ?_) (fun _ _ h => h.elim))))))
    obtain ⟨c1, rfl⟩ := ht
    refine Ends.bind (recordByte_ends (by simp only; omega) (fun _ _ => False)) (fun _ t ht => ?_)
      (fun _ _ h => h.elim)
    subst ht
    refine Ends.bind (spiIn_ends _ (fun _ _ => False)) (fun len t ht => ?_) (fun _ _ h => h.elim)
    obtain ⟨c2, rfl⟩ := ht
    refine Ends.bind (recordByte_ends (by simp only; omega) (fun _ _ => False)) (fun _ t ht => ?_)
      (fun _ _ h => h.elim)
    subst ht
    split
    · refine ends_step (releaseSelect_ok _) (ends_pure ?_)
      exact ⟨{ Reads.refl s with now := h1 }, by simp only; omega, rfl,
          ⟨[st, len], by simp only [List.length_cons, List.length_nil]; omega, rfl, rfl,
            by simp [readEvents_some hp, shiftEvents, List.replicate_succ]⟩,
          fun _ _ h => by cases h⟩
    · rename_i hff
      have hle := ne_ff_le hff
      refine ends_get_bind (Ends.bind (spiRest_ends _ _ ?_ (fun _ _ => False)) (fun _ t ht => ?_)
        (fun _ _ h => h.elim))
      · simp only; unfold maxPayload at hle; omega
      · obtain ⟨hu, hn, hdl, hln, bytes, hb1, hb2, hb3⟩ := ht
        simp only at hn hdl hln hb1 hb2 hb3
        refine ends_step (releaseSelect_ok _) ?_
        have hreads : Reads s t := Reads.trans (t := { s with now := m }) { Reads.refl s with now := h1 } { hu with }
        have hbuf : t.txn.rxBuf = s.txn.rxBuf.writeRange 0 (st :: len :: bytes) := hb2
        have hcnt : t.txn.rxCount = bytes.length + 2 := by rw [hb3, hb1]; omega
        refine (receivedFrame_ends (s := { t with out.line := t.out.line ++ [.release t.now] }) hbuf hcnt
          (by rw [hb1]; omega) (fun _ _ => False)).mono ?_ (fun _ _ h => h.elim)
        rintro q u ⟨rfl, rfl⟩
        refine ⟨{ hreads with }, by simp only; omega, hdl,
          ⟨st :: len :: bytes, by simp; unfold maxPayload at hle; omega, hbuf, hcnt, ?_⟩, ?_⟩
        · simp only
          rw [hln, readEvents_some hp, hn, shiftEvents, List.length_cons, hb1]
          simp [List.replicate_succ]
        · rintro _ _ h
          cases h
          simp only [List.length_take]; omega

/-- Everything a receive can end in (R160, R171). -/
theorem receive_ends (kind : DeadlineKind) (s : State) :
    Ends (receive kind) s (Received s kind) (Aborted (s.now + s.params.ticks kind) s) := by
  unfold receive
  refine ends_get_bind ?_
  cases hp : s.params.transport with
  | uart => exact receiveUart_ends kind s hp
  | spi => exact receiveSpi_ends kind s hp

/-- Everything the echo's receive can end in (R175). -/
theorem echoReceive_ends (s : State) :
    Ends echoReceive s
      (fun r u => Reads s u ∧ u.now ≤ s.now + s.params.tEcho ∧ u.txn.deadline = s.now + s.params.tEcho ∧
        ∃ bytes : List Byte, bytes.length ≤ 1 ∧ r = bytes.head? ∧
          u.txn.rxBuf = s.txn.rxBuf.writeRange 0 bytes ∧ u.txn.rxCount = bytes.length ∧
          u.out.line = s.out.line ++ readEvents s.params s.now bytes u.now)
      (Aborted (s.now + s.params.tEcho) s) := by
  unfold echoReceive beginReceive arm
  refine ends_bind (ends_bind (ends_modify (ends_modify (ends_get_bind ?_))))
  simp only
  cases hp : s.params.transport with
  | uart =>
    simp only
    refine ends_get_bind (Ends.bind (rxByte_ends _ _) (fun r t ht => ?_) (fun _ _ h => ?_))
    rotate_left
    · exact ({ h with } : Aborted _ s _ _).mono (by simp only [Params.ticks]; omega)
    obtain ⟨m, rx, rfl, h1, h2, h3⟩ := ht
    simp only [Params.ticks] at h1 h2
    cases r with
    | none =>
      exact ends_pure ⟨{ Reads.refl s with now := h1 }, by simp only; omega, rfl, [], by simp, rfl, rfl, rfl,
        by simp [readEvents_uart hp]⟩
    | some st =>
      simp only
      refine Ends.bind (recordByte_ends (by simp only; omega) (fun _ _ => False)) (fun _ t ht => ?_)
        (fun _ _ h => h.elim)
      subst ht
      exact ends_pure ⟨{ Reads.refl s with now := h1 }, by simp only; omega, rfl, [st], by simp, rfl, rfl, rfl,
        by simp [readEvents_uart hp]⟩
  | spi =>
    simp only
    refine ends_get_bind (Ends.bind (waitReady_ends _ _) (fun r t ht => ?_) (fun _ _ h => ?_))
    rotate_left
    · exact ({ h with } : Aborted _ s _ _).mono (by simp only [Params.ticks]; omega)
    obtain ⟨m, c, rfl, h1, h2⟩ := ht
    simp only [Params.ticks] at h1 h2
    cases r with
    | false =>
      exact ends_pure ⟨{ Reads.refl s with now := h1 }, by simp only; omega, rfl, [], by simp, rfl, rfl, rfl,
        by rw [readEvents_none hp]⟩
    | true =>
      simp only [if_true]
      refine ends_step (assertSelect_ok _) (ends_get_bind (ends_step (txByte_ok _ _)
        (Ends.bind (spiIn_ends _ (fun _ _ => False)) (fun b t ht => ?_) (fun _ _ h => h.elim))))
      obtain ⟨c1, rfl⟩ := ht
      refine Ends.bind (recordByte_ends (by simp only; omega) (fun _ _ => False)) (fun _ t ht => ?_)
        (fun _ _ h => h.elim)
      subst ht
      refine ends_step (releaseSelect_ok _) (ends_pure ?_)
      exact ⟨{ Reads.refl s with now := h1 }, by simp only; omega, rfl, [b], by simp, rfl, rfl, rfl,
        by simp [readEvents_some hp, shiftEvents]⟩

/-! ## The transaction -/

theorem delay_ends (kind : DeadlineKind) (s : State) :
    Ends (delay kind) s
      (fun _ u => u = { s with now := s.now + s.params.ticks kind, txn.deadline := s.now + s.params.ticks kind })
      (Aborted (s.now + s.params.ticks kind) s) := by
  unfold delay arm
  refine ends_bind (ends_modify (ends_get_bind ((waitUntil_ends _ _).mono ?_ ?_)))
  · rintro _ u rfl
    simp
  · intro e u h
    exact ({ h with } : Aborted _ s _ _).mono (by simp)

theorem settle_ends (s : State) :
    Ends settle s (fun _ u => u = settled s) (Aborted s.sendTime s) := by
  unfold settle
  refine ends_get_bind ?_
  unfold settled State.sendTime
  split
  · refine ends_bind (ends_modify (Ends.bind (delay_ends _ _) (fun _ t ht => ?_) (fun _ _ h => ?_)))
    · subst ht
      refine ends_bind (ends_modify (Ends.bind (delay_ends _ _) (fun _ t ht => ?_) (fun e u h => ?_)))
      · subst ht
        exact ends_modify rfl
      · have h' : Aborted (s.now + s.params.tRamp + s.params.tOsc) { s with now := s.now + s.params.tRamp } e u :=
          { h with }
        exact Aborted.from (t := { s with now := s.now + s.params.tRamp }) { Reads.refl s with now := by simp } h'
    · exact ({ h with } : Aborted _ s _ _).mono (by simp only [Params.ticks]; omega)
  · exact ends_pure rfl

/-- What a transaction leaves, whatever the CHIP did: the registers no exchange writes, the frame sent, some bytes
received, the exchange's events on the transport, the settle done, no transaction in flight. -/
structure Transacted (s t : State) (kind : DeadlineKind) (sent : List Byte) : Prop where
  untouched : s.Untouched t
  tx : t.txn.txBuf = s.txn.txBuf.writeRange 0 sent
  txLen : t.txn.txLen = sent.length
  rx : ∃ bytes : List Byte, bytes.length ≤ 256 + s.params.frameTrailerLen ∧
    t.txn.rxBuf = s.txn.rxBuf.writeRange 0 bytes ∧ t.txn.rxCount = bytes.length ∧
    t.out.line = s.out.line ++ exchangeEvents s.params s.sendTime sent bytes t.now
  after : s.sendTime ≤ t.now
  before : t.now ≤ s.sendTime + s.params.ticks kind
  count : t.out.sent = s.out.sent + 1
  settled : t.txn.settlePending = false
  phase : t.txn.phase = .none
  resume : t.mode.resume = s.mode.dev
  deadline : t.txn.deadline = s.sendTime + s.params.ticks kind

theorem le_sendTime (s : State) : s.now ≤ s.sendTime := by
  unfold State.sendTime; split <;> omega

/-- Reads after the frame has gone out, and the end of the transaction. -/
theorem transacted_of_reads {s t : State} {kind : DeadlineKind} {sent : List Byte}
    (hr : Reads (awaiting s sent) t) (hb : t.now ≤ s.sendTime + s.params.ticks kind)
    (hd : t.txn.deadline = s.sendTime + s.params.ticks kind)
    (hx : ∃ bytes : List Byte, bytes.length ≤ 256 + s.params.frameTrailerLen ∧
      t.txn.rxBuf = s.txn.rxBuf.writeRange 0 bytes ∧ t.txn.rxCount = bytes.length ∧
      t.out.line = (awaiting s sent).out.line ++ readEvents s.params s.sendTime bytes t.now) (d : DevState)
    (st : Byte) :
    Transacted s { t with txn.phase := .none, mode.dev := d, txn.lastStatus := st } kind sent where
  untouched :=
    { params := hr.params, host := hr.host, cfg := by simp only [hr.mode]; rfl, ac := hr.ac, tag := hr.tag
      tries := hr.tries.trans (settled_tries s), env := hr.env, call := hr.call, replies := hr.replies }
  tx := hr.txBuf
  txLen := hr.txLen
  rx := by
    obtain ⟨bytes, h1, h2, h3, h4⟩ := hx
    exact ⟨bytes, h1, h2, h3, h4.trans (List.append_assoc _ _ _)⟩
  after := hr.now
  before := hb
  count := hr.sent
  settled := hr.pending.trans (settled_pending s)
  phase := rfl
  resume := by simp only [hr.mode]; rfl
  deadline := hd

/-- Everything a framed transaction can end in (R230 to R234). -/
theorem chipTxn_ends {c : FrameCmd} {payload : List Byte} {kind : DeadlineKind} {ok : Byte} {s : State}
    (hl : payload.length ≤ maxPayload) :
    Ends (chipTxn c payload kind ok) s
      (fun r t => Transacted s t kind (frameBytes s.params (s.params.opcode c) payload) ∧
        match r with
        | .frame st body => st = ok ∧ lenAccepted (s.params.respLen c) body.length = true ∧
            body.length ≤ maxPayload ∧ t.mode.dev = s.mode.dev.afterSuccess ∧ t.txn.lastStatus = ok
        | _ => t.mode.dev = s.mode.dev)
      (Aborted (s.sendTime + s.params.ticks kind) s) := by
  unfold chipTxn
  refine Ends.bind (settle_ends s) (fun _ t ht => ?_) (fun _ _ h => h.mono (by omega))
  subst ht
  refine ends_bind (ends_modify (ends_get_bind (ends_step (send_ok hl) ?_)))
  simp only [settled_params, settled_mode, settled_now, settled_chip, settled_out, settled_txBuf,
    settled_rxBuf, settled_host, settled_ac, settled_tag, settled_env]
  refine Ends.bind (receive_ends kind (awaiting s (frameBytes s.params (s.params.opcode c) payload)))
    (fun r t ht => ?_) (fun e t h => ?_)
  · have hd : t.txn.deadline = s.sendTime + s.params.ticks kind := ht.deadline
    have hb : t.now ≤ s.sendTime + s.params.ticks kind := ht.now
    have hT := fun d st => transacted_of_reads (d := d) (st := st) ht.reads hb hd ht.bytes
    have hm : t.mode.resume = s.mode.dev := by rw [ht.reads.mode]; rfl
    have hp : t.params = s.params := ht.reads.params
    refine ends_bind (ends_modify ?_)
    cases r with
    | noResponse => exact ends_pure ⟨hT t.mode.resume t.txn.lastStatus, hm⟩
    | malformedFrame => exact ends_pure ⟨hT t.mode.resume t.txn.lastStatus, hm⟩
    | frame st body =>
      have hbody := ht.payload st body rfl
      simp only
      by_cases hst : st = ok
      · subst hst
        by_cases hlen : lenAccepted (s.params.respLen c) body.length = true
        · unfold Ends
          rw [judgeFrame_success (by simpa [hp] using hlen)]
          refine ⟨hT (t.mode.resume).afterSuccess st, rfl, hlen, hbody, ?_, rfl⟩
          simp only [hm]
        · unfold Ends
          rw [judgeFrame_length (by simpa [hp] using hlen)]
          exact ⟨hT t.mode.resume st, hm⟩
      · unfold Ends
        rw [judgeFrame_status hst]
        exact ⟨hT t.mode.resume st, hm⟩
  · exact ⟨h.reset, h.params, h.env, h.replies, le_trans (le_sendTime s) h.after, h.before, h.asserted⟩

/-- Everything an echo attempt can end in (R243). -/
theorem echoAttempt_ends (s : State) :
    Ends echoAttempt s
      (fun r t => Transacted s t .echo [s.params.opcEcho] ∧
        t.mode.dev = if r then s.mode.dev.afterSuccess else s.mode.dev)
      (Aborted (s.sendTime + s.params.tEcho) s) := by
  unfold echoAttempt
  refine Ends.bind (settle_ends s) (fun _ t ht => ?_) (fun _ _ h => h.mono (by omega))
  subst ht
  refine ends_bind (ends_modify (ends_step (echoSend_ok _) ?_))
  simp only [settled_params, settled_mode, settled_now, settled_chip, settled_out, settled_txBuf,
    settled_rxBuf, settled_host, settled_ac, settled_tag, settled_env]
  refine Ends.bind (echoReceive_ends (awaiting s [s.params.opcEcho])) (fun r t ht => ?_) (fun e t h => ?_)
  · obtain ⟨hreads, hn, hd, bytes, hb1, hb2, hb3, hb4, hb5⟩ := ht
    have hT := fun d st => transacted_of_reads (kind := .echo) (d := d) (st := st) hreads hn hd
      ⟨bytes, by omega, hb3, hb4, hb5⟩
    have hm : t.mode.resume = s.mode.dev := by rw [hreads.mode]; rfl
    refine ends_bind (ends_modify ?_)
    cases r with
    | none => exact ends_pure ⟨hT t.mode.resume t.txn.lastStatus, hm⟩
    | some b =>
      unfold judgeEcho
      refine ends_bind (ends_modify (ends_get_bind ?_))
      split
      · exact ends_pure ⟨hT t.mode.resume b, hm⟩
      · refine ends_step (leaveUninitialized_ok _) (ends_pure ⟨hT (t.mode.resume).afterSuccess b, ?_⟩)
        simp only [hm, if_true]
  · exact ⟨h.reset, h.params, h.env, h.replies, le_trans (le_sendTime s) h.after, h.before, h.asserted⟩

end Sys2Proof.Laws
end

