-- ==== Sys2Proof/Laws/Operations.lean ====
section
/-! SUPPORT. Everything the named operations of the CommandEngine and the ProtocolSelector (R244 to R249, R290 to R295)
can end in, WHATEVER the CHIP does. Later proofs cite these and unfold nothing. -/

namespace Sys2Proof.Laws

open Sys2Proof.Machine

/-! ## What any run of exchanges keeps -/

/-- The frame buffers are in canonical form and inside their sizes. -/
def FramesWf (s : State) : Prop :=
  (s.txn.txBuf.wf = true ∧ s.txn.txBuf.within (256 + s.params.frameTrailerLen) = true) ∧
    s.txn.rxBuf.wf = true ∧ s.txn.rxBuf.within (256 + s.params.frameTrailerLen) = true

/-- No transaction is in flight. -/
structure Quiescent (s : State) : Prop where
  dev : s.mode.dev ≠ .awaitingResponse
  resume : s.mode.resume ≠ .awaitingResponse
  txn : s.txn.phase = .none

/-- What a run of exchanges and register writes keeps, whatever the CHIP did: the host port, the parameters, the other
inputs and the records of results are as they were; time goes forward, a pending settle waited out before anything is
sent and before anything happens on the transport; the frame buffers stay well formed and no transaction is left in
flight. -/
structure Kept (s t : State) : Prop where
  params : t.params = s.params
  host : t.host = s.host
  env : t.env = s.env
  call : t.out.callResult = s.out.callResult
  replies : t.out.replies = s.out.replies
  now : s.now ≤ t.now
  waited : t.out.sent = s.out.sent ∧ t.txn.settlePending = s.txn.settlePending ∨ s.sendTime ≤ t.now
  sent : s.out.sent ≤ t.out.sent
  line : ∃ ev, t.out.line = s.out.line ++ ev ∧ ∀ e ∈ ev, s.sendTime ≤ e.time
  frames : FramesWf s → FramesWf t
  idle : Quiescent s → Quiescent t

theorem Kept.refl (s : State) : Kept s s :=
  ⟨rfl, rfl, rfl, rfl, rfl, le_refl _, .inl ⟨rfl, rfl⟩, le_refl _, ⟨[], by simp, fun _ h => nomatch h⟩, id, id⟩

/-- A later state with nothing sent and the settle as it was leaves no earlier. -/
theorem sendTime_le {s t : State} (hp : t.params = s.params) (hn : s.now ≤ t.now)
    (hs : t.txn.settlePending = s.txn.settlePending) : s.sendTime ≤ t.sendTime := by
  unfold State.sendTime
  rw [hp, hs]
  split <;> omega

theorem Kept.trans {s t u : State} (h : Kept s t) (k : Kept t u) : Kept s u where
  params := k.params.trans h.params
  host := k.host.trans h.host
  env := k.env.trans h.env
  call := k.call.trans h.call
  replies := k.replies.trans h.replies
  now := le_trans h.now k.now
  waited := by
    rcases h.waited with ⟨h1, h2⟩ | h1
    · rcases k.waited with ⟨k1, k2⟩ | k1
      · exact .inl ⟨k1.trans h1, k2.trans h2⟩
      · exact .inr (le_trans (sendTime_le h.params h.now h2) k1)
    · exact .inr (le_trans h1 k.now)
  sent := le_trans h.sent k.sent
  line := by
    obtain ⟨e, h1, h2⟩ := h.line
    obtain ⟨f, k1, k2⟩ := k.line
    have hle : s.sendTime ≤ t.sendTime := by
      rcases h.waited with ⟨-, h3⟩ | h3
      · exact sendTime_le h.params h.now h3
      · exact le_trans h3 (le_sendTime t)
    exact ⟨e ++ f, by rw [k1, h1, List.append_assoc],
      fun x hx => (List.mem_append.mp hx).elim (h2 x) fun hx => le_trans hle (k2 x hx)⟩
  frames := k.frames ∘ h.frames
  idle := k.idle ∘ h.idle

/-- A change of registers that no exchange writes and that keeps dev_state legal. -/
theorem Kept.of_same {s t : State} (hp : t.params = s.params) (hh : t.host = s.host) (he : t.env = s.env)
    (ho : t.out = s.out) (hn : t.now = s.now) (hs : t.txn.settlePending = s.txn.settlePending)
    (hb : t.txn.txBuf = s.txn.txBuf ∧ t.txn.rxBuf = s.txn.rxBuf) (hi : Quiescent s → Quiescent t) : Kept s t where
  params := hp
  host := hh
  env := he
  call := by rw [ho]
  replies := by rw [ho]
  now := by omega
  waited := .inl ⟨by rw [ho], hs⟩
  sent := by rw [ho]
  line := ⟨[], by rw [ho, List.append_nil], fun _ h => nomatch h⟩
  frames := by unfold FramesWf; rw [hp, hb.1, hb.2]; exact id
  idle := hi

theorem afterSuccess_ne {d : DevState} (h : d ≠ .awaitingResponse) : d.afterSuccess ≠ .awaitingResponse := by
  cases d <;> simp_all [DevState.afterSuccess]

/-- What is sent leaves at one time. -/
theorem sendEvents_time {p : Params} {t : Nat} {bytes : List Byte} {e : LineEvent} (h : e ∈ sendEvents p t bytes) :
    e.time = t := by
  unfold sendEvents at h
  split at h
  · obtain ⟨b, -, rfl⟩ := List.mem_map.mp h; rfl
  · simp only [List.cons_append, List.mem_cons, List.mem_append, List.mem_map, List.not_mem_nil, or_false] at h
    rcases h with rfl | rfl | ⟨b, -, rfl⟩ | rfl <;> rfl

/-- After a transaction. -/
theorem Transacted.kept {s t : State} {kind : DeadlineKind} {sent : List Byte} (h : Transacted s t kind sent)
    (hs : sent.length ≤ 256 + s.params.frameTrailerLen)
    (hd : t.mode.dev = s.mode.dev ∨ t.mode.dev = s.mode.dev.afterSuccess) : Kept s t where
  params := h.untouched.params
  host := h.untouched.host
  env := h.untouched.env
  call := h.untouched.call
  replies := h.untouched.replies
  now := le_trans (le_sendTime s) h.after
  waited := .inr h.after
  sent := by rw [h.count]; omega
  line := by
    obtain ⟨bytes, -, -, -, h1⟩ := h.rx
    exact ⟨_, h1, fun x hx => (List.mem_append.mp hx).elim (fun hx => le_of_eq (sendEvents_time hx).symm)
      (readEvents_time h.after)⟩
  frames := by
    rintro ⟨⟨h1, h2⟩, h3, h4⟩
    obtain ⟨bytes, hb, hr, -⟩ := h.rx
    unfold FramesWf
    rw [h.tx, hr, h.untouched.params]
    exact ⟨⟨wf_writeRange _ _ h1, within_writeRange h2 (by omega)⟩, wf_writeRange _ _ h3,
      within_writeRange h4 (by omega)⟩
  idle := fun q =>
    { dev := by rcases hd with hd | hd <;> rw [hd]; exacts [q.dev, afterSuccess_ne q.dev]
      resume := by rw [h.resume]; exact q.dev
      txn := h.phase }

/-- Once settled, the next transmission leaves at once. -/
theorem sendTime_settled {s : State} (h : s.txn.settlePending = false) : s.sendTime = s.now := by
  unfold State.sendTime; simp [h]

theorem Aborted.after_kept {b : Nat} {s t u : State} {e : Stop} (h : Kept s t) (k : Aborted b t e u) :
    Aborted b s e u where
  reset := k.reset
  params := k.params.trans h.params
  env := k.env.trans h.env
  replies := k.replies.trans h.replies
  after := le_trans h.now k.after
  before := k.before
  asserted := by rw [← h.env]; exact k.asserted

/-! ## One framed command -/

/-- What one framed command leaves: what any run keeps, and the registers it does not write. -/
structure Commanded (s t : State) (kind : DeadlineKind) : Prop where
  kept : Kept s t
  cfg : t.mode.cfg = s.mode.cfg
  ac : t.ac = s.ac
  tag : t.tag = s.tag
  tries : t.txn.echoTry = s.txn.echoTry
  settled : t.txn.settlePending = false
  before : t.now ≤ s.sendTime + s.params.ticks kind
  count : t.out.sent = s.out.sent + 1

theorem Commanded.sent {s t : State} {kind : DeadlineKind} (h : Commanded s t kind) : s.out.sent < t.out.sent := by
  rw [h.count]; exact Nat.lt_succ_self _

/-- dev_state after a transaction that answers this (R230, R234). -/
def devAfter (s : State) : Reception → DevState
  | .frame _ _ => s.mode.dev.afterSuccess
  | _ => s.mode.dev

/-- Everything a framed command can end in, in short (R230 to R234). -/
theorem command_ends {c : FrameCmd} {payload : List Byte} {kind : DeadlineKind} {ok : Byte} {s : State}
    (hl : payload.length ≤ maxPayload) :
    Ends (chipTxn c payload kind ok) s
      (fun r t => Commanded s t kind ∧ t.mode.dev = devAfter s r ∧
        ∀ st body, r = .frame st body → body.length ≤ maxPayload ∧ t.txn.lastStatus = ok)
      (Aborted (s.sendTime + s.params.ticks kind) s) := by
  refine (chipTxn_ends hl).mono (fun r t h => ?_) (fun _ _ h => h)
  obtain ⟨hT, hr⟩ := h
  have hd : t.mode.dev = devAfter s r := by cases r with
    | frame st body => exact hr.2.2.2.1
    | noResponse => exact hr
    | malformedFrame => exact hr
  refine ⟨⟨hT.kept (frameBytes_le hl) ?_, hT.untouched.cfg, hT.untouched.ac, hT.untouched.tag, hT.untouched.tries,
    hT.settled, hT.before, hT.count⟩, hd, ?_⟩
  · rw [hd]; cases r <;> simp [devAfter]
  · rintro st body rfl
    exact ⟨hr.2.2.1, hr.2.2.2.2⟩

/-! ## The echo probe -/

/-- Everything the attempts left of an echo probe can end in (R248). -/
theorem echoLoop_ends (n : Nat) (s : State) :
    Ends (echoLoop n) s
      (fun r t => Kept s t ∧ t.mode.cfg = s.mode.cfg ∧ t.ac = s.ac ∧ t.tag = s.tag ∧
        t.txn.echoTry ≤ s.txn.echoTry + n ∧
        (t.txn.settlePending = true → s.txn.settlePending = true) ∧
        (t.mode.dev = if r then s.mode.dev.afterSuccess else .error) ∧
        (r = true → t.txn.settlePending = false) ∧
        (0 < n → t.txn.settlePending = false ∧ s.out.sent < t.out.sent) ∧
        t.now ≤ s.sendTime + n * s.params.tEcho)
      (Aborted (s.sendTime + n * s.params.tEcho) s) := by
  induction n generalizing s with
  | zero =>
    unfold echoLoop
    refine ends_bind (ends_modify (ends_pure ⟨Kept.of_same rfl rfl rfl rfl rfl rfl ⟨rfl, rfl⟩ ?_, rfl, rfl, rfl,
      by simp, id, rfl, ?_, ?_, ?_⟩))
    · exact fun q => ⟨by simp, q.resume, q.txn⟩
    · exact fun h => by simp at h
    · exact fun h => by omega
    · have := le_sendTime s; simp only; omega
  | succ n ih =>
    unfold echoLoop
    refine ends_bind (ends_modify ?_)
    have hK : Kept s { s with txn.echoTry := s.txn.echoTry + 1 } :=
      Kept.of_same rfl rfl rfl rfl rfl rfl ⟨rfl, rfl⟩ fun q => ⟨q.dev, q.resume, q.txn⟩
    have hst : State.sendTime { s with txn.echoTry := s.txn.echoTry + 1 } = s.sendTime := rfl
    refine Ends.bind (echoAttempt_ends _) (fun r t ht => ?_) (fun e t h => ?_)
    · obtain ⟨hT, hd⟩ := ht
      have hT' := hT.kept (by simp only [List.length_singleton]; omega) (by cases r <;> simp [hd])
      have h1 := hT.untouched
      have hb : t.now ≤ s.sendTime + s.params.tEcho := hT.before
      cases r with
      | true =>
        refine ends_pure ⟨hK.trans hT', h1.cfg, h1.ac, h1.tag, ?_, ?_, hd, fun _ => hT.settled,
          fun _ => ⟨hT.settled, by rw [hT.count]; exact Nat.lt_succ_self _⟩, ?_⟩
        · rw [h1.tries]; simp only; omega
        · rw [hT.settled]; simp
        · rw [Nat.add_mul]; omega
      | false =>
        refine (ih t).mono (fun r u hu => ?_) (fun e u hu => ?_)
        · obtain ⟨k1, k2, k3, k4, k5, k6, k7, k8, k9, k10⟩ := hu
          simp only [Bool.false_eq_true, if_false] at hd
          rw [sendTime_settled hT.settled, h1.params] at k10
          rw [h1.tries] at k5
          have hsp : u.txn.settlePending = false := by
            cases hu : u.txn.settlePending with
            | false => rfl
            | true => exact absurd (k6 hu) (by simp [hT.settled])
          refine ⟨hK.trans (hT'.trans k1), k2.trans h1.cfg, k3.trans h1.ac, k4.trans h1.tag, ?_, ?_, ?_, k8,
            fun _ => ⟨hsp, Nat.lt_of_lt_of_le (by rw [hT.count]; exact Nat.lt_succ_self _) k1.sent⟩, ?_⟩
          · simp only at k5; omega
          · rw [hsp]; simp
          · rw [k7, hd]
          · simp only at k10; rw [Nat.add_mul]; omega
        · refine (Aborted.after_kept (hK.trans hT') hu).mono ?_
          rw [sendTime_settled hT.settled, h1.params]
          simp only; rw [Nat.add_mul]; omega
    · refine (Aborted.after_kept hK h).mono ?_
      rw [hst]; simp only; rw [Nat.add_mul]; omega

/-- Everything the echo probe can end in (R248). -/
theorem echoProbe_ends {s : State} (hp : s.params.wf = true) :
    Ends echoProbe s
      (fun r t => Kept s t ∧ t.mode.cfg = s.mode.cfg ∧ t.ac = s.ac ∧ t.tag = s.tag ∧
        t.txn.echoTry ≤ s.params.echoAttempts ∧ (t.txn.settlePending = false ∧ s.out.sent < t.out.sent) ∧
        (t.mode.dev = if r then s.mode.dev.afterSuccess else .error) ∧
        t.now ≤ s.sendTime + s.params.echoAttempts * s.params.tEcho)
      (Aborted (s.sendTime + s.params.echoAttempts * s.params.tEcho) s) := by
  unfold echoProbe
  refine ends_bind (ends_modify (ends_get_bind ?_))
  have hK : Kept s { s with txn.echoTry := 0 } :=
    Kept.of_same rfl rfl rfl rfl rfl rfl ⟨rfl, rfl⟩ fun q => ⟨q.dev, q.resume, q.txn⟩
  refine (echoLoop_ends _ _).mono (fun r t h => ?_) (fun e t h => Aborted.after_kept hK h)
  obtain ⟨k1, k2, k3, k4, k5, k6, k7, k8, k9, k10⟩ := h
  exact ⟨hK.trans k1, k2, k3, k4, by simpa using k5, k9 (attempts_pos hp), k7, k10⟩

/-! ## The convenience operations -/

/-- What a selecting or idling operation leaves beside what any run keeps. -/
structure Operated (s t : State) (bound : Nat) : Prop where
  kept : Kept s t
  ac : t.ac = s.ac
  sent : s.out.sent < t.out.sent
  before : t.now ≤ bound

/-- Everything SelectProtocol can end in (R245). -/
theorem selectProtocol_ends (cfg : ProtoCfg) (s : State) :
    Ends (selectProtocol cfg) s
      (fun c t => Operated s t (s.sendTime + s.params.tNoresp) ∧ t.tag = s.tag ∧ t.txn.echoTry = s.txn.echoTry ∧
        (c = .ok → t.mode.cfg = cfg ∧ t.mode.dev = .fieldOn ∧ t.txn.settlePending = true) ∧
        (c ≠ .ok → (c = .noResponse ∨ c = .malformedFrame) ∧ t.mode.cfg = s.mode.cfg ∧ t.mode.dev = s.mode.dev ∧
          t.txn.settlePending = false))
      (Aborted (s.sendTime + s.params.tNoresp) s) := by
  unfold selectProtocol protocol
  refine ends_get_bind (ends_bind ?_)
  refine ends_get_bind ((command_ends (by simp [maxPayload])).mono (fun r t h => ?_) (fun _ _ h => h))
  obtain ⟨hC, hd, -⟩ := h
  cases r with
  | frame st body =>
    refine ends_bind (ends_modify (ends_pure ⟨⟨?_, hC.ac, hC.sent, hC.before⟩, hC.tag, hC.tries, fun _ => ⟨rfl, rfl,
        rfl⟩,
      fun h => absurd rfl h⟩))
    have hk := hC.kept
    exact { hk with
      waited := .inr (by rcases hk.waited with ⟨h1, -⟩ | h1; exacts [absurd h1 (by rw [hC.count]; omega), h1])
      idle := fun q => ⟨by simp, (hk.idle q).resume, (hk.idle q).txn⟩ }
  | noResponse =>
    exact ends_pure ⟨⟨hC.kept, hC.ac, hC.sent, hC.before⟩, hC.tag, hC.tries, (fun h => nomatch h),
      fun _ => ⟨.inl rfl, hC.cfg, hd, hC.settled⟩⟩
  | malformedFrame =>
    exact ends_pure ⟨⟨hC.kept, hC.ac, hC.sent, hC.before⟩, hC.tag, hC.tries, (fun h => nomatch h),
      fun _ => ⟨.inr rfl, hC.cfg, hd, hC.settled⟩⟩

theorem reception_code (r : Reception) :
    r.code = .ok ∨ r.code = .noResponse ∨ r.code = .malformedFrame := by
  cases r <;> simp [Reception.code]

/-- Everything Idle can end in (R247). -/
theorem goIdle_ends {s : State} (hp : s.params.wf = true) :
    Ends goIdle s
      (fun c t => Operated s t (s.sendTime + s.params.tNoresp) ∧ t.tag = s.tag ∧ t.txn.echoTry = s.txn.echoTry ∧
        (c = .ok ∨ c = .noResponse ∨ c = .malformedFrame) ∧ t.mode.cfg = s.mode.cfg ∧ t.mode.dev = .idle ∧
        t.txn.settlePending = false)
      (Aborted (s.sendTime + s.params.tNoresp) s) := by
  unfold goIdle idleCmd
  refine ends_bind (ends_get_bind ?_)
  refine (command_ends (params_wf hp).2.2.2.2.2.2.2).mono (fun r t h => ?_) (fun _ _ h => h)
  obtain ⟨hC, hd, -⟩ := h
  refine ends_bind (ends_modify (ends_pure ⟨⟨hC.kept.trans ?_, hC.ac, hC.sent, hC.before⟩, hC.tag, hC.tries,
    reception_code r, hC.cfg, rfl, hC.settled⟩))
  exact Kept.of_same rfl rfl rfl rfl rfl rfl ⟨rfl, rfl⟩ fun q => ⟨by simp, q.resume, q.txn⟩

/-- Everything FieldOff can end in (R249). -/
theorem fieldOff_ends (s : State) :
    Ends fieldOff s
      (fun c t => Operated s t (s.sendTime + s.params.tNoresp) ∧ t.txn.echoTry = s.txn.echoTry ∧
        t.txn.settlePending = false ∧
        (c = .ok → t.mode.cfg = .plain .fieldOff ∧ t.mode.dev = .idle ∧ t.tag = { s.tag with valid := false }) ∧
        (c ≠ .ok → (c = .noResponse ∨ c = .malformedFrame) ∧ t.mode.cfg = s.mode.cfg ∧ t.mode.dev = s.mode.dev ∧
          t.tag = s.tag))
      (Aborted (s.sendTime + s.params.tNoresp) s) := by
  unfold fieldOff protocol
  refine ends_get_bind (ends_bind ?_)
  refine ends_get_bind ((command_ends (by simp [maxPayload])).mono (fun r t h => ?_) (fun _ _ h => h))
  obtain ⟨hC, hd, -⟩ := h
  cases r with
  | frame st body =>
    refine ends_bind (ends_modify (ends_pure ⟨⟨hC.kept.trans ?_, hC.ac, hC.sent, hC.before⟩, hC.tries, hC.settled,
      fun _ => ⟨rfl, rfl, by rw [← hC.tag]⟩, fun h => absurd rfl h⟩))
    exact Kept.of_same rfl rfl rfl rfl rfl rfl ⟨rfl, rfl⟩ fun q => ⟨by simp, q.resume, q.txn⟩
  | noResponse =>
    exact ends_pure ⟨⟨hC.kept, hC.ac, hC.sent, hC.before⟩, hC.tries, hC.settled, (fun h => nomatch h),
      fun _ => ⟨.inl rfl, hC.cfg, hd, hC.tag⟩⟩
  | malformedFrame =>
    exact ends_pure ⟨⟨hC.kept, hC.ac, hC.sent, hC.before⟩, hC.tries, hC.settled, (fun h => nomatch h),
      fun _ => ⟨.inr rfl, hC.cfg, hd, hC.tag⟩⟩

/-! ## The protocol selector -/

/-- Everything a selection of a configuration can end in (R290, R294, R295). -/
theorem applyConfig_ends {s : State} (hp : s.params.wf = true) (cfg : ProtoCfg) :
    Ends (applyConfig cfg) s
      (fun c t => Operated s t (s.sendTime + max s.params.tNoresp (s.params.echoAttempts * s.params.tEcho)) ∧
        (t.txn.echoTry = s.txn.echoTry ∨ t.txn.echoTry ≤ s.params.echoAttempts) ∧
        (c = .ok ∨ c = .noResponse ∨ c = .malformedFrame ∨ c = .deviceFault) ∧
        (c = .ok →
          (cfg.pid = .fieldOff → t.mode.cfg = .plain .fieldOff ∧ t.mode.dev = .idle ∧
            t.tag = { s.tag with valid := false } ∧ t.txn.settlePending = false) ∧
          (cfg.pid ≠ .fieldOff → t.mode.cfg = cfg ∧ t.mode.dev = .fieldOn ∧ t.tag = s.tag ∧
            (s.configured cfg = true → t.txn.settlePending = false))) ∧
        (c ≠ .ok → t.mode.cfg = s.mode.cfg ∧ t.tag = s.tag ∧ t.txn.settlePending = false) ∧
        (c = .noResponse ∨ c = .malformedFrame → t.mode.dev = s.mode.dev) ∧
        (c = .deviceFault → cfg.pid ≠ .fieldOff ∧ t.mode.dev = .error))
      (Aborted (s.sendTime + max s.params.tNoresp (s.params.echoAttempts * s.params.tEcho)) s) := by
  unfold applyConfig
  split
  · rename_i hf
    refine (fieldOff_ends s).mono (fun c t h => ?_) (fun _ _ h => h.mono (by omega))
    obtain ⟨hO, h1, h2, h3, h4⟩ := h
    refine ⟨⟨hO.kept, hO.ac, hO.sent, by have := hO.before; omega⟩, .inl h1, ?_, fun hc => ?_, fun hc => ?_,
        fun hc => ?_,
      fun hc => ?_⟩
    · by_cases hc : c = .ok
      · exact .inl hc
      · rcases (h4 hc).1 with h | h <;> simp [h]
    · obtain ⟨k1, k2, k3⟩ := h3 hc
      exact ⟨fun _ => ⟨k1, k2, k3, h2⟩, fun h => absurd hf h⟩
    · exact ⟨(h4 hc).2.1, (h4 hc).2.2.2, h2⟩
    · exact (h4 (by rcases hc with rfl | rfl <;> simp)).2.2.1
    · subst hc; have := (h4 (by simp)).1; simp at this
  · rename_i hf
    refine ends_get_bind ?_
    split
    · rename_i hcf
      refine ends_bind ((echoProbe_ends hp).mono (fun r t h => ?_) (fun _ _ h => h.mono (by omega)))
      obtain ⟨k1, k2, k3, k4, k5, k6, k7, k8⟩ := h
      have hc' : s.mode.dev = .fieldOn ∧ s.mode.cfg = cfg := by
        simpa [State.configured] using hcf
      have hO : Operated s t (s.sendTime + max s.params.tNoresp (s.params.echoAttempts * s.params.tEcho)) :=
        ⟨k1, k3, k6.2, by omega⟩
      cases r with
      | true =>
        refine ends_pure ⟨hO, .inr k5, .inl rfl, fun _ => ⟨fun h => absurd h hf,
          fun _ => ⟨k2.trans hc'.2, ?_, k4, fun _ => k6.1⟩⟩, fun h => absurd rfl h, (fun h => by simp at h),
              (fun h => by simp at h)⟩
        rw [k7, hc'.1]; rfl
      | false =>
        refine ends_pure ⟨hO, .inr k5, by simp, (fun h => by simp at h), fun _ => ⟨k2, k4, k6.1⟩,
            (fun h => by simp at h),
          fun _ => ⟨hf, ?_⟩⟩
        rw [k7]; rfl
    · rename_i hcf
      refine (selectProtocol_ends cfg s).mono (fun c t h => ?_) (fun _ _ h => h.mono (by omega))
      obtain ⟨hO, h1, h2, h3, h4⟩ := h
      refine ⟨⟨hO.kept, hO.ac, hO.sent, by have := hO.before; omega⟩, .inl h2, ?_, fun hc => ?_, fun hc => ?_,
          fun hc => ?_,
        fun hc => ?_⟩
      · by_cases hc : c = .ok
        · exact .inl hc
        · rcases (h4 hc).1 with h | h <;> simp [h]
      · exact ⟨fun h => absurd h hf, fun _ => ⟨(h3 hc).1, (h3 hc).2.1, h1, fun h => absurd h hcf⟩⟩
      · exact ⟨(h4 hc).2.1, h1, (h4 hc).2.2.2⟩
      · exact (h4 (by rcases hc with rfl | rfl <;> simp)).2.2.1
      · subst hc; have := (h4 (by simp)).1; simp at this

end Sys2Proof.Laws
end

