-- ==== Sys2Proof/Laws/CascadeSteps.lean ====
section
/-! SUPPORT. The cascade's three kinds of step (R313 to R326), each as what it makes of its exchange's result. -/

namespace Sys2Proof.Laws

open Sys2Proof.Machine

/-! ## REQA -/

/-- An ATQA of the exact length is captured (R313, R315). -/
theorem stepReqa_goOn {s t : State} {st a0 a1 : Byte} {more : List Byte}
    (h : (sendReceive (reqaBytes s.params)).run s = .ok (.frame st (a0 :: a1 :: more)) t)
    (hl : more.length = s.params.rxTrailerLen) :
    stepReqa.run s = .ok .goOn { t with
      ac.atqa0 := a0
      ac.atqa1 := a1
      ac.sizeClass := sizeClassOf a0
      ac.level := some .l1
      ac.step := .anticol } := by
  unfold stepReqa
  simp only [run_bind, run_get, h]
  simp only [List.length_cons, reqaReplyLen, hl, run_ite]
  rw [if_neg (by omega)]
  rfl

/-- No reply at REQA (R314). -/
theorem stepReqa_silent {s t : State} (h : (sendReceive (reqaBytes s.params)).run s = .ok .noResponse t) :
    stepReqa.run s = .ok .noTag { t with ac.step := .done } := by
  unfold stepReqa
  simp only [run_bind, run_get, h]
  rfl

/-- Anything else at REQA (R310). -/
theorem stepReqa_failed {s t : State} {r : Reception} (h : (sendReceive (reqaBytes s.params)).run s = .ok r t)
    (hn : r ≠ .noResponse) (hl : ∀ st reply, r = .frame st reply → reply.length ≠ reqaReplyLen s.params) :
    stepReqa.run s = .ok .failed { t with ac.step := .done } := by
  unfold stepReqa
  simp only [run_bind, run_get, h]
  cases r with
  | noResponse => exact absurd rfl hn
  | malformedFrame => rfl
  | frame st reply =>
    match reply, hl st reply rfl with
    | [], _ => rfl
    | [_], _ => rfl
    | a0 :: a1 :: more, hne => simp only [run_ite]; rw [if_pos hne]; rfl

/-! ## ANTICOL -/

/-- A reply of the exact length whose BCC is good (R316 to R318). -/
theorem stepAnticol_goOn {s t : State} {n : Level} {st c0 c1 c2 c3 b : Byte} {more : List Byte}
    (h : (sendReceive (anticolBytes s.params n)).run s = .ok (.frame st (c0 :: c1 :: c2 :: c3 :: b :: more)) t)
    (hl : more.length = s.params.rxTrailerLen) (hb : bccOk s.params c0 c1 c2 c3 b = true) :
    (stepAnticol n).run s = .ok .goOn { t with
      ac.cand := t.ac.cand.writeRange 0 [c0, c1, c2, c3, b]
      ac.step := .select } := by
  unfold stepAnticol
  simp only [run_bind, run_get, h, List.length_cons, anticolReplyLen, hl, run_ite]
  rw [if_neg (by omega)]
  rw [storeBytes_ok (by simp [bufSize])]
  simp only [hb, if_true]
  rfl

/-- A reply of the exact length whose BCC is bad (R318). -/
theorem stepAnticol_bcc {s t : State} {n : Level} {st c0 c1 c2 c3 b : Byte} {more : List Byte}
    (h : (sendReceive (anticolBytes s.params n)).run s = .ok (.frame st (c0 :: c1 :: c2 :: c3 :: b :: more)) t)
    (hl : more.length = s.params.rxTrailerLen) (hb : bccOk s.params c0 c1 c2 c3 b = false) :
    (stepAnticol n).run s = .ok .failed { t with
      ac.cand := t.ac.cand.writeRange 0 [c0, c1, c2, c3, b]
      ac.step := .done } := by
  unfold stepAnticol
  simp only [run_bind, run_get, h, List.length_cons, anticolReplyLen, hl, run_ite]
  rw [if_neg (by omega)]
  rw [storeBytes_ok (by simp [bufSize])]
  simp only [hb, Bool.false_eq_true, if_false]
  rfl

/-- Anything else at ANTICOL (R310). -/
theorem stepAnticol_failed {s t : State} {n : Level} {r : Reception}
    (h : (sendReceive (anticolBytes s.params n)).run s = .ok r t)
    (hl : ∀ st reply, r = .frame st reply → reply.length ≠ anticolReplyLen s.params) :
    (stepAnticol n).run s = .ok .failed { t with ac.step := .done } := by
  unfold stepAnticol
  simp only [run_bind, run_get, h]
  cases r with
  | noResponse => rfl
  | malformedFrame => rfl
  | frame st reply =>
    match reply, hl st reply rfl with
    | [], _ => rfl
    | [_], _ => rfl
    | [_, _], _ => rfl
    | [_, _, _], _ => rfl
    | [_, _, _, _], _ => rfl
    | c0 :: c1 :: c2 :: c3 :: b :: more, hne => simp only [run_ite]; rw [if_pos hne]; rfl

/-! ## SELECT -/

/-- The state after SELECT's exchange, its SAK kept and the marker noted. -/
theorem appendUid_ok {s : State} {bytes : List Byte} (h : s.ac.uidLen + bytes.length ≤ 10) :
    (appendUid bytes).run s = .ok ⟨⟩ { s with
      ac.uidBuf := s.ac.uidBuf.writeRange s.ac.uidLen bytes
      ac.uidLen := s.ac.uidLen + bytes.length } := by
  unfold appendUid
  simp only [run_bind, run_get]
  rw [storeBytes_ok (by simpa [bufSize] using h)]
  rfl

/-- No room for more UID bytes: no run from reset forms such an index (R81). -/
theorem appendUid_fault {s : State} {bytes : List Byte} (h : 10 < s.ac.uidLen + bytes.length) :
    (appendUid bytes).run s = .error (.fault (.bufferIndex .uid s.ac.uidLen)) s := by
  unfold appendUid storeBytes
  simp only [run_bind, run_get, run_ite]
  rw [if_neg (show ¬ s.ac.uidLen + bytes.length ≤ bufSize s.params .uid by simp only [bufSize]; omega)]
  rfl

/-- The cascade bit set, a level left and the marker good: on to the next level (R322). -/
theorem cascaded_goOn {s : State} {n m : Level} {c0 c1 c2 c3 : Byte} (hm : markerBad s.params c0 = false)
    (hn : n.next = some m) (hu : s.ac.uidLen ≤ 7) :
    (cascaded n c0 c1 c2 c3).run s = .ok .goOn { s with
      ac.ctPresent := true
      ac.uidBuf := s.ac.uidBuf.writeRange s.ac.uidLen [c1, c2, c3]
      ac.uidLen := s.ac.uidLen + 3
      ac.level := some m
      ac.step := .anticol } := by
  unfold cascaded
  simp only [run_bind, run_modify, run_get, hm, Bool.false_eq_true, if_false, hn]
  rw [appendUid_ok (by simp only [List.length_cons, List.length_nil]; omega)]
  rfl

/-- The cascade bit set at level 3, or a bad marker: the cascade fails, uid_buf as it was (R319, R324). -/
theorem cascaded_failed {s : State} {n : Level} {c0 c1 c2 c3 : Byte}
    (h : n.next = none ∨ markerBad s.params c0 = true) :
    (cascaded n c0 c1 c2 c3).run s = .ok .failed { s with ac.ctPresent := true, ac.step := .done } := by
  unfold cascaded
  simp only [run_bind, run_modify, run_get, run_ite]
  split
  · rfl
  · rename_i hm
    rw [show n.next = none from h.resolve_right hm]
    rfl

/-- The Tag register after MakeTag (R326). -/
def madeTag (s : State) (uid : List Byte) : TagReg :=
  { valid := true, uid := s.tag.uid.writeRange 0 uid, len := s.ac.uidLen, atqa0 := s.ac.atqa0, atqa1 := s.ac.atqa1
    sak := s.ac.sak }

/-- MakeTag takes the whole UID into the Tag register (R326). -/
theorem makeTag_ok {s : State} {uid : List Byte} (hr : s.ac.uidBuf.readRange 0 s.ac.uidLen = some uid)
    (hl : s.ac.uidLen ≤ 10) :
    makeTag.run s = .ok .tag { s with tag := madeTag s uid, ac.step := .done } := by
  have hlen := (readRange_eq_some.mp hr).1
  unfold makeTag
  simp only [run_bind, run_get]
  rw [loadBytes_ok (bytes := uid) (by simp [State.validLen]) (by simpa [State.buf] using hr)]
  simp only
  rw [storeBytes_ok (by simp only [bufSize]; omega)]
  rfl

/-- The cascade bit clear: all four bytes appended and the Tag made (R323, R326). -/
theorem completeUid_ok {s : State} {c0 c1 c2 c3 : Byte} {done : List Byte} (hu : s.ac.uidLen ≤ 6)
    (hr : s.ac.uidBuf.readRange 0 s.ac.uidLen = some done) :
    (completeUid c0 c1 c2 c3).run s = .ok .tag { s with
      ac.ctPresent := false
      ac.complete := true
      ac.uidBuf := s.ac.uidBuf.writeRange s.ac.uidLen [c0, c1, c2, c3]
      ac.uidLen := s.ac.uidLen + 4
      ac.step := .done
      tag := { valid := true, uid := s.tag.uid.writeRange 0 (done ++ [c0, c1, c2, c3]), len := s.ac.uidLen + 4
               atqa0 := s.ac.atqa0, atqa1 := s.ac.atqa1, sak := s.ac.sak } } := by
  obtain ⟨hlen, hread⟩ := readRange_eq_some.mp hr
  unfold completeUid
  simp only [run_bind, run_modify]
  rw [appendUid_ok (by simp only [List.length_cons, List.length_nil]; omega)]
  simp only
  rw [makeTag_ok (uid := done ++ [c0, c1, c2, c3])]
  · rfl
  · rw [readRange_eq_some]
    refine ⟨by simp [hlen], fun k hk => ?_⟩
    simp only [List.length_cons, List.length_nil] at hk
    rw [Nat.zero_add, read_writeRange]
    split
    · rename_i hc
      rw [List.getElem?_append_right (by omega), hlen]
    · rename_i hc
      simp only [List.length_cons, List.length_nil] at hc
      rw [List.getElem?_append_left (by omega)]
      simpa using hread k (by omega)
  · simp only [List.length_cons, List.length_nil]; omega

/-- A SAK of the exact length leads to its judgement (R320, R321). -/
theorem stepSelect_judged {s t : State} {n : Level} {st c0 c1 c2 c3 b k : Byte} {more : List Byte}
    (h : (sendReceive (selectBytes s.params n c0 c1 c2 c3 b)).run s = .ok (.frame st (k :: more)) t)
    (hp : t.params = s.params) (hl : more.length = s.params.sakCrcLen + s.params.rxTrailerLen) :
    (stepSelect n c0 c1 c2 c3 b).run s =
      (if cascadeBit s.params k then cascaded n c0 c1 c2 c3 else completeUid c0 c1 c2 c3).run
        { t with ac.sak := k } := by
  unfold stepSelect
  simp only [run_bind, run_get, h]
  unfold judgeSelect
  rw [← hp] at hl ⊢
  simp only [run_bind, run_get, List.length_cons, selectReplyLen, hl, run_ite]
  rw [if_neg (by omega)]
  rfl

/-- Anything else at SELECT (R310). -/
theorem stepSelect_failed {s t : State} {n : Level} {c0 c1 c2 c3 b : Byte} {r : Reception}
    (h : (sendReceive (selectBytes s.params n c0 c1 c2 c3 b)).run s = .ok r t) (hp : t.params = s.params)
    (hl : ∀ st reply, r = .frame st reply → reply.length ≠ selectReplyLen s.params) :
    (stepSelect n c0 c1 c2 c3 b).run s = .ok .failed { t with ac.step := .done } := by
  unfold stepSelect
  simp only [run_bind, run_get, h]
  cases r with
  | noResponse => rfl
  | malformedFrame => rfl
  | frame st reply =>
    unfold judgeSelect
    match reply, hl st reply rfl with
    | [], _ => rfl
    | k :: more, hne =>
      rw [← hp] at hne
      simp only [run_bind, run_get, run_ite]
      rw [if_pos hne]
      rfl

/-- SELECT's bytes read from cand are those it is run with (R320, R45). -/
theorem stepSelectCand_ok {s : State} {n : Level} {c0 c1 c2 c3 b : Byte}
    (h : s.ac.cand.readRange 0 5 = some [c0, c1, c2, c3, b]) :
    (stepSelectCand n).run s = (stepSelect n c0 c1 c2 c3 b).run s := by
  obtain ⟨-, hc⟩ := readRange_eq_some.mp h
  have key : ∀ (i : Nat) (v : Byte), i < 5 → [c0, c1, c2, c3, b][i]? = some v → (loadByte .cand i).run s = .ok v s :=
    fun i v hi hv => loadByte_ok (by simpa [State.validLen] using hi) (by simpa [State.buf, hv] using hc i hi)
  unfold stepSelectCand
  simp only [run_bind, key 0 c0 (by omega) rfl, key 1 c1 (by omega) rfl, key 2 c2 (by omega) rfl,
    key 3 c3 (by omega) rfl, key 4 b (by omega) rfl]

end Sys2Proof.Laws
end

