-- ==== Sys2Proof/Laws/Cascade.lean ====
section
/-! SUPPORT. Everything the cascade's steps and the whole cascade can end in, WHATEVER the CHIP does (R310 to R326). -/

namespace Sys2Proof.Laws

open Sys2Proof.Machine

theorem ends_of_ok {α : Type} {p : Proc α} {s t : State} {a : α} {Q : α → State → Prop} {R : Stop → State → Prop}
    (h : p.run s = .ok a t) (hq : Q a t) : Ends p s Q R := by
  unfold Ends; rw [h]; exact hq

theorem ends_of_error {α : Type} {p : Proc α} {s t : State} {e : Stop} {Q : α → State → Prop}
    {R : Stop → State → Prop} (h : p.run s = .error e t) (hr : R e t) : Ends p s Q R := by
  unfold Ends; rw [h]; exact hr

/-- Everything SEND_RECV can end in, inside the engine (R246). -/
theorem sendReceive_ends {b : List Byte} {s : State} (hl : b.length ≤ maxPayload) :
    Ends (sendReceive b) s
      (fun r t => Commanded s t .detect ∧ t.mode.dev = devAfter s r ∧
        (t.mode.dev = s.mode.dev ∨ t.txn.lastStatus = s.params.stData))
      (Aborted (s.sendTime + s.params.tDetect) s) := by
  unfold sendReceive sendRecv
  refine ends_get_bind ((command_ends hl).mono (fun r t h => ⟨h.1, h.2.1, ?_⟩) (fun _ _ h => h))
  obtain ⟨-, hd, hs⟩ := h
  cases r with
  | frame st body => exact .inr (hs st body rfl).2
  | noResponse => exact .inl hd
  | malformedFrame => exact .inl hd

/-- The cascade's buffers and the Tag's are in canonical form and inside their sizes. -/
def CascadeBufs (s : State) : Prop :=
  (s.ac.uidBuf.wf = true ∧ s.ac.uidBuf.within 10 = true) ∧ (s.ac.cand.wf = true ∧ s.ac.cand.within 5 = true) ∧
    s.tag.uid.wf = true ∧ s.tag.uid.within 10 = true

/-- Between the levels of a cascade: as many UID bytes as the levels before this one gave, all written (R322, R60). -/
def UidAt (n : Level) (s : State) : Prop :=
  s.ac.uidLen = 3 * (n.num - 1) ∧ s.ac.uidBuf.filled s.ac.uidLen = true

/-- The UID bytes so far are some cascade's (R44). -/
def UidWf (s : State) : Prop :=
  s.ac.uidLen ∈ [0, 3, 4, 6, 7, 10] ∧ s.ac.uidBuf.filled s.ac.uidLen = true

/-- What a step of the cascade leaves, whatever the CHIP did. -/
structure Stepped (s t : State) (r : StepResult) : Prop where
  kept : Kept s t
  cfg : t.mode.cfg = s.mode.cfg
  dev : t.mode.dev = s.mode.dev ∨ t.mode.dev = s.mode.dev.afterSuccess
  success : t.mode.dev = s.mode.dev ∨ t.txn.lastStatus = s.params.stData
  tries : t.txn.echoTry = s.txn.echoTry
  settled : t.txn.settlePending = false
  before : t.now ≤ s.sendTime + s.params.tDetect
  count : t.out.sent = s.out.sent + 1
  bufs : CascadeBufs s → CascadeBufs t
  same : r ≠ .tag → t.tag = s.tag
  made : r = .tag → t.tag.valid = true ∧ t.tag.len = s.ac.uidLen + 4 ∧ t.tag.uid.filled t.tag.len = true
  ended : r ≠ .goOn → t.ac.step = .done

theorem kept_ac {s : State} {a : CascadeRegs} {g : TagReg} : Kept s { s with ac := a, tag := g } :=
  Kept.of_same rfl rfl rfl rfl rfl rfl ⟨rfl, rfl⟩ fun q => ⟨q.dev, q.resume, q.txn⟩

theorem dev_of_after {s t : State} {r : Reception} (h : t.mode.dev = devAfter s r) :
    t.mode.dev = s.mode.dev ∨ t.mode.dev = s.mode.dev.afterSuccess := by
  rw [h]; cases r <;> simp [devAfter]

/-- A step that changes the cascade's registers after its exchange. -/
theorem stepped_of {s t : State} {r : Reception} {a : CascadeRegs} {g : TagReg} {q : StepResult}
    (h : Commanded s t .detect)
    (hd : t.mode.dev = devAfter s r ∧ (t.mode.dev = s.mode.dev ∨ t.txn.lastStatus = s.params.stData))
    (hb : CascadeBufs t → CascadeBufs { t with ac := a, tag := g }) (hg : q ≠ .tag → g = t.tag)
    (hm : q = .tag → g.valid = true ∧ g.len = t.ac.uidLen + 4 ∧ g.uid.filled g.len = true)
    (he : q ≠ .goOn → a.step = .done) : Stepped s { t with ac := a, tag := g } q where
  kept := h.kept.trans kept_ac
  cfg := h.cfg
  dev := dev_of_after hd.1
  success := hd.2
  tries := h.tries
  settled := h.settled
  before := h.before
  count := h.count
  bufs := fun hs => hb (by unfold CascadeBufs at hs ⊢; rw [h.ac, h.tag]; exact hs)
  same := fun hq => (hg hq).trans h.tag
  made := fun hq => by rw [← h.ac]; exact hm hq
  ended := he

theorem reqaBytes_le (p : Params) : (reqaBytes p).length ≤ maxPayload := by
  simp [reqaBytes, maxPayload]
theorem anticolBytes_le (p : Params) (n : Level) : (anticolBytes p n).length ≤ maxPayload := by
  simp [anticolBytes, maxPayload]
theorem selectBytes_le (p : Params) (n : Level) (c0 c1 c2 c3 b : Byte) :
    (selectBytes p n c0 c1 c2 c3 b).length ≤ maxPayload := by
  simp [selectBytes, maxPayload]

/-- A list that has exactly so many bytes has its first ones and the rest. -/
theorem exists_two {l : List Byte} {k : Nat} (h : l.length = 2 + k) : ∃ a b m, l = a :: b :: m ∧ m.length = k := by
  match l, h with
  | a :: b :: m, h => exact ⟨a, b, m, rfl, by simp at h; omega⟩
  | [_], h => simp at h; omega
  | [], h => simp at h; omega

theorem exists_five {l : List Byte} {k : Nat} (h : l.length = 5 + k) :
    ∃ a b c d e m, l = a :: b :: c :: d :: e :: m ∧ m.length = k := by
  match l, h with
  | a :: b :: c :: d :: e :: m, h => exact ⟨a, b, c, d, e, m, rfl, by simp at h; omega⟩
  | [_, _, _, _], h => simp at h; omega
  | [_, _, _], h => simp at h; omega
  | [_, _], h => simp at h; omega
  | [_], h => simp at h; omega
  | [], h => simp at h; omega

theorem exists_one {l : List Byte} {k : Nat} (h : l.length = 1 + k) : ∃ a m, l = a :: m ∧ m.length = k := by
  match l, h with
  | a :: m, h => exact ⟨a, m, rfl, by simp at h; omega⟩
  | [], h => simp at h; omega

/-- Everything REQA can end in (R313 to R315). -/
theorem stepReqa_ends (s : State) :
    Ends stepReqa s
      (fun r t => Stepped s t r ∧ r ≠ .tag ∧ t.ac.uidLen = s.ac.uidLen ∧ t.ac.uidBuf = s.ac.uidBuf ∧
        t.ac.cand = s.ac.cand ∧ (r = .goOn → t.ac.step = .anticol ∧ t.ac.level = some .l1))
      (Aborted (s.sendTime + s.params.tDetect) s) := by
  have hx := sendReceive_ends (s := s) (reqaBytes_le s.params)
  unfold Ends at hx
  cases hrun : (sendReceive (reqaBytes s.params)).run s with
  | error e t =>
    simp only [hrun] at hx
    exact ends_of_error (e := e) (by unfold stepReqa; exact bind_error (p := sendReceive (reqaBytes s.params)) hrun) hx
  | ok r t =>
    simp only [hrun] at hx
    obtain ⟨hC, hd⟩ := hx
    have done : ∀ q : StepResult, q ≠ .goOn → q ≠ .tag →
        Stepped s { t with ac := { t.ac with step := .done }, tag := t.tag } q := fun q h1 h2 =>
      stepped_of (t := t) hC hd (fun h => h) (fun _ => rfl) (fun h => absurd h h2) (fun _ => rfl)
    by_cases hn : r = .noResponse
    · subst hn
      exact ends_of_ok (stepReqa_silent hrun) ⟨done _ (by simp) (by simp), by simp, by rw [hC.ac], by rw [hC.ac],
        by rw [hC.ac], fun h => by simp at h⟩
    · by_cases hf : ∃ st reply, r = .frame st reply ∧ reply.length = reqaReplyLen s.params
      · obtain ⟨st, reply, rfl, hl⟩ := hf
        obtain ⟨a0, a1, more, rfl, hm⟩ := exists_two hl
        exact ends_of_ok (stepReqa_goOn hrun hm)
          ⟨stepped_of (t := t) (g := t.tag) hC hd (fun h => h) (fun _ => rfl) (fun h => by simp at h) (fun h => absurd
              rfl h),
            by simp, by rw [hC.ac], by rw [hC.ac], by rw [hC.ac], fun _ => ⟨rfl, rfl⟩⟩
      · exact ends_of_ok (stepReqa_failed hrun hn fun st reply h hl => hf ⟨st, reply, h, hl⟩)
          ⟨done _ (by simp) (by simp), by simp, by rw [hC.ac], by rw [hC.ac], by rw [hC.ac], fun h => by simp at h⟩

theorem filled_writeRange_five (m : Memory) (c0 c1 c2 c3 b : Byte) :
    (m.writeRange 0 [c0, c1, c2, c3, b]).filled 5 = true := by
  unfold Memory.filled
  rw [show (5 : Nat) = [c0, c1, c2, c3, b].length from rfl, readRange_writeRange]
  rfl

/-- Everything ANTICOL can end in (R316 to R318). -/
theorem stepAnticol_ends (n : Level) (s : State) :
    Ends (stepAnticol n) s
      (fun r t => Stepped s t r ∧ (r = .goOn ∨ r = .failed) ∧ t.ac.uidLen = s.ac.uidLen ∧
        t.ac.uidBuf = s.ac.uidBuf ∧ t.ac.level = s.ac.level ∧
        (r = .goOn → t.ac.step = .select ∧ t.ac.cand.filled 5 = true))
      (Aborted (s.sendTime + s.params.tDetect) s) := by
  have hx := sendReceive_ends (s := s) (anticolBytes_le s.params n)
  unfold Ends at hx
  cases hrun : (sendReceive (anticolBytes s.params n)).run s with
  | error e t =>
    simp only [hrun] at hx
    exact ends_of_error (e := e)
      (by unfold stepAnticol; exact bind_error (p := sendReceive (anticolBytes s.params n)) hrun) hx
  | ok r t =>
    simp only [hrun] at hx
    obtain ⟨hC, hd⟩ := hx
    by_cases hf : ∃ st reply, r = .frame st reply ∧ reply.length = anticolReplyLen s.params
    · obtain ⟨st, reply, rfl, hl⟩ := hf
      obtain ⟨c0, c1, c2, c3, b, more, rfl, hm⟩ := exists_five hl
      have hb : ∀ a : AcStep, CascadeBufs t →
          CascadeBufs { t with
            ac := { t.ac with cand := t.ac.cand.writeRange 0 [c0, c1, c2, c3, b], step := a }, tag := t.tag } := by
        rintro a ⟨h1, ⟨h2, h3⟩, h4⟩
        exact ⟨h1, ⟨wf_writeRange _ _ h2, within_writeRange h3 (by simp)⟩, h4⟩
      by_cases hbcc : bccOk s.params c0 c1 c2 c3 b = true
      · exact ends_of_ok (stepAnticol_goOn hrun hm hbcc)
          ⟨stepped_of (t := t) (g := t.tag) hC hd (hb _) (fun _ => rfl) (fun h => by simp at h) (fun h => absurd rfl h),
            .inl rfl, by rw [hC.ac], by rw [hC.ac], by rw [hC.ac], fun _ => ⟨rfl, filled_writeRange_five _ _ _ _ _ _⟩⟩
      · exact ends_of_ok (stepAnticol_bcc hrun hm (by simpa using hbcc))
          ⟨stepped_of (t := t) (g := t.tag) hC hd (hb _) (fun _ => rfl) (fun h => by simp at h) (fun _ => rfl),
            .inr rfl, by rw [hC.ac], by rw [hC.ac], by rw [hC.ac], fun h => by simp at h⟩
    · exact ends_of_ok (stepAnticol_failed hrun fun st reply h hl => hf ⟨st, reply, h, hl⟩)
        ⟨stepped_of (t := t) (g := t.tag) hC hd (fun h => h) (fun _ => rfl) (fun h => by simp at h) (fun _ => rfl),
          .inr rfl, by rw [hC.ac], by rw [hC.ac], by rw [hC.ac], fun h => by simp at h⟩

theorem filled_append {m : Memory} {n : Nat} (bytes : List Byte) (h : m.filled n = true) :
    (m.writeRange n bytes).filled (n + bytes.length) = true := by
  unfold Memory.filled at h ⊢
  rw [readRange_isSome] at h ⊢
  intro k hk
  rw [Nat.zero_add, read_writeRange]
  split
  · rw [List.getElem?_eq_getElem (by omega)]; rfl
  · simpa using h k (by omega)

theorem filled_writeRange_zero (m : Memory) (bytes : List Byte) :
    (m.writeRange 0 bytes).filled bytes.length = true := by
  unfold Memory.filled
  rw [readRange_writeRange]; rfl

/-- The procedure ended by the reset input, or by a fault that only UID bytes out of step with the level cause. -/
def AbortedOr (bound : Nat) (s : State) (fault : Prop) (e : Stop) (t : State) : Prop :=
  Aborted bound s e t ∨ (∃ f, e = .fault f) ∧ fault

/-- Everything SELECT can end in (R320 to R326). -/
theorem stepSelect_ends (n : Level) (c0 c1 c2 c3 b : Byte) (s : State) :
    Ends (stepSelect n c0 c1 c2 c3 b) s
      (fun r t => Stepped s t r ∧ r ≠ .noTag ∧ (r = .failed → t.ac.uidLen = s.ac.uidLen ∧ t.ac.uidBuf = s.ac.uidBuf) ∧
        (r = .goOn → t.ac.step = .anticol ∧ ∃ m, n.next = some m ∧ t.ac.level = some m ∧
          t.ac.uidLen = s.ac.uidLen + 3 ∧ (UidAt n s → UidAt m t)) ∧
        (r = .tag → t.ac.uidLen = s.ac.uidLen + 4 ∧ t.ac.uidBuf.filled t.ac.uidLen = true ∧ s.ac.uidLen ≤ 6))
      (AbortedOr (s.sendTime + s.params.tDetect) s (¬ UidAt n s)) := by
  have hx := sendReceive_ends (s := s) (selectBytes_le s.params n c0 c1 c2 c3 b)
  unfold Ends at hx
  cases hrun : (sendReceive (selectBytes s.params n c0 c1 c2 c3 b)).run s with
  | error e t =>
    simp only [hrun] at hx
    exact ends_of_error (e := e)
      (by unfold stepSelect; exact bind_error (p := sendReceive (selectBytes s.params n c0 c1 c2 c3 b)) hrun) (.inl hx)
  | ok r t =>
    simp only [hrun] at hx
    obtain ⟨hC, hd⟩ := hx
    have hp := hC.kept.params
    by_cases hf : ∃ st reply, r = .frame st reply ∧ reply.length = selectReplyLen s.params
    · obtain ⟨st, reply, rfl, hl⟩ := hf
      obtain ⟨k, more, rfl, hm⟩ := exists_one (k := s.params.sakCrcLen + s.params.rxTrailerLen)
        (by rw [hl, selectReplyLen]; omega)
      have hj := stepSelect_judged hrun hp hm
      by_cases hk : cascadeBit s.params k = true
      · rw [hk, if_pos rfl] at hj
        by_cases hbad : n.next = none ∨ markerBad t.params c0 = true
        · rw [cascaded_failed (s := { t with ac.sak := k }) hbad] at hj
          exact ends_of_ok hj
            ⟨stepped_of (t := t) (g := t.tag) hC hd (fun h => h) (fun _ => rfl) (fun h => by simp at h) (fun _ => rfl),
              by simp, fun _ => by simp only [hC.ac, and_self], fun h => by simp at h, fun h => by simp at h⟩
        · push Not at hbad
          obtain ⟨hn, hmk⟩ := hbad
          obtain ⟨m, hm'⟩ := Option.ne_none_iff_exists'.mp hn
          by_cases hu : s.ac.uidLen ≤ 7
          · rw [cascaded_goOn (s := { t with ac.sak := k }) (m := m) (by simpa using hmk) hm'
              (by simp only [hC.ac]; exact hu)] at hj
            refine ends_of_ok hj
              ⟨stepped_of (t := t) (g := t.tag) hC hd ?_ (fun _ => rfl) (fun h => by simp at h) (fun h => absurd rfl h),
                by simp, fun h => by simp at h, fun _ => ⟨rfl, m, hm', rfl, by simp only [hC.ac], ?_⟩,
                    fun h => by simp at h⟩
            · rintro ⟨⟨h1, h2⟩, h3⟩
              exact ⟨⟨wf_writeRange _ _ h1, within_writeRange h2 (by
                simp only [hC.ac, List.length_cons, List.length_nil]; omega)⟩, h3⟩
            · rintro ⟨h1, h2⟩
              refine ⟨?_, ?_⟩
              · simp only [hC.ac, h1]
                cases n <;> simp [Level.next] at hm' <;> subst hm' <;> rfl
              · simp only [hC.ac]
                exact filled_append [c1, c2, c3] h2
          · refine ends_of_error (e := .fault (.bufferIndex .uid t.ac.uidLen))
              (t := { t with ac.sak := k, ac.ctPresent := true }) ?_ (.inr ⟨⟨_, rfl⟩, ?_⟩)
            · rw [hj]
              unfold cascaded
              simp only [run_bind, run_modify, run_get, run_ite]
              rw [if_neg hmk, hm']
              simp only [run_bind]
              rw [appendUid_fault (by simp only [hC.ac, List.length_cons, List.length_nil]; omega)]
            · rintro ⟨h, -⟩
              cases n <;> simp [Level.num] at h <;> omega
      · rw [if_neg hk] at hj
        cases hr : s.ac.uidBuf.readRange 0 s.ac.uidLen with
        | some done =>
          by_cases hu : s.ac.uidLen ≤ 6
          · have hlen := (readRange_eq_some.mp hr).1
            rw [completeUid_ok (s := { t with ac.sak := k }) (done := done) (by simp only [hC.ac]; exact hu)
              (by simp only [hC.ac]; exact hr)] at hj
            refine ends_of_ok hj
              ⟨stepped_of (t := t) hC hd ?_ (fun h => absurd rfl h) (fun _ => ⟨rfl, rfl, ?_⟩) (fun _ => rfl),
                by simp, fun h => by simp at h, fun h => by simp at h, fun _ => ⟨by simp only [hC.ac], ?_, hu⟩⟩
            · rintro ⟨⟨h1, h2⟩, h3, h4, h5⟩
              refine ⟨⟨wf_writeRange _ _ h1, within_writeRange h2 ?_⟩, h3, wf_writeRange _ _ h4,
                  within_writeRange h5 ?_⟩
              · simp only [hC.ac, List.length_cons, List.length_nil]; omega
              · simp only [List.length_append, List.length_cons, List.length_nil]; omega
            · have h0 := filled_writeRange_zero t.tag.uid (done ++ [c0, c1, c2, c3])
              rw [show (done ++ [c0, c1, c2, c3]).length = t.ac.uidLen + 4 by simp [hlen, hC.ac]] at h0
              exact h0
            · simp only [hC.ac]
              exact filled_append [c0, c1, c2, c3] (by unfold Memory.filled; rw [hr]; rfl)
          · refine ends_of_error (e := .fault (.bufferIndex .uid t.ac.uidLen))
              (t := { t with ac.sak := k, ac.ctPresent := false, ac.complete := true }) ?_ (.inr ⟨⟨_, rfl⟩, ?_⟩)
            · rw [hj]
              unfold completeUid
              simp only [run_bind, run_modify]
              rw [appendUid_fault (by simp only [hC.ac, List.length_cons, List.length_nil]; omega)]
            · rintro ⟨h, -⟩
              cases n <;> simp [Level.num] at h <;> omega
        | none =>
          have hnot : ¬ UidAt n s := by
            rintro ⟨-, h⟩
            unfold Memory.filled at h
            rw [hr] at h
            cases h
          unfold Ends
          rw [hj]
          unfold completeUid
          simp only [run_bind, run_modify]
          by_cases hu : s.ac.uidLen ≤ 6
          · rw [appendUid_ok (by simp only [hC.ac, List.length_cons, List.length_nil]; omega)]
            simp only
            unfold makeTag loadBytes
            have hz : (Memory.writeRange t.ac.uidBuf t.ac.uidLen [c0, c1, c2,
                c3]).readRange 0 (t.ac.uidLen + 4) = none := by
              rw [hC.ac]
              cases hz : (Memory.writeRange s.ac.uidBuf s.ac.uidLen [c0, c1, c2, c3]).readRange 0 (s.ac.uidLen + 4) with
              | none => rfl
              | some v =>
                exfalso
                have h1 : (s.ac.uidBuf.readRange 0 s.ac.uidLen).isSome := by
                  rw [readRange_isSome]
                  have h2 := readRange_isSome.mp (show (Memory.readRange _ 0 _).isSome by rw [hz]; rfl)
                  intro j hj'
                  have h3 := h2 j (by omega)
                  rwa [Nat.zero_add, read_writeRange_outside _ _ (.inl hj'), ← Nat.zero_add j] at h3
                rw [hr] at h1
                cases h1
            simp [State.validLen, State.buf, hz]
            exact .inr ⟨⟨_, rfl⟩, hnot⟩
          · rw [appendUid_fault (by simp only [hC.ac, List.length_cons, List.length_nil]; omega)]
            exact .inr ⟨⟨_, rfl⟩, hnot⟩
    · exact ends_of_ok (stepSelect_failed hrun hp fun st reply h hl => hf ⟨st, reply, h, hl⟩)
        ⟨stepped_of (t := t) (g := t.tag) hC hd (fun h => h) (fun _ => rfl) (fun h => by simp at h) (fun _ => rfl),
          by simp, fun _ => by simp only [hC.ac, and_self], fun h => by simp at h, fun h => by simp at h⟩

/-! ## The whole cascade -/

/-- What some steps of the cascade leave, at most so many exchanges, whatever the CHIP did. -/
structure Climbed (k : Nat) (s t : State) (r : StepResult) : Prop where
  kept : Kept s t
  cfg : t.mode.cfg = s.mode.cfg
  dev : t.mode.dev = s.mode.dev ∨ t.mode.dev = s.mode.dev.afterSuccess
  tries : t.txn.echoTry = s.txn.echoTry
  settled : t.txn.settlePending = false
  before : t.now ≤ s.sendTime + k * s.params.tDetect
  bufs : CascadeBufs s → CascadeBufs t
  same : r ≠ .tag → t.tag = s.tag
  made : r = .tag → t.tag.valid = true ∧ t.tag.len = t.ac.uidLen ∧ t.tag.uid.filled t.tag.len = true
  ended : r ≠ .goOn → t.ac.step = .done

theorem Stepped.climbed {s t : State} {r : StepResult} (h : Stepped s t r)
    (hu : r = .tag → t.ac.uidLen = s.ac.uidLen + 4) : Climbed 1 s t r where
  kept := h.kept
  cfg := h.cfg
  dev := h.dev
  tries := h.tries
  settled := h.settled
  before := by have := h.before; omega
  bufs := h.bufs
  same := h.same
  made := fun hr => ⟨(h.made hr).1, by rw [(h.made hr).2.1, hu hr], (h.made hr).2.2⟩
  ended := h.ended

theorem afterSuccess_idem (d : DevState) : d.afterSuccess.afterSuccess = d.afterSuccess := by cases d <;> rfl

theorem Climbed.trans {j k : Nat} {s t u : State} {r : StepResult} (h : Climbed j s t .goOn) (g : Climbed k t u r) :
    Climbed (j + k) s u r where
  kept := h.kept.trans g.kept
  cfg := g.cfg.trans h.cfg
  dev := by
    rcases h.dev with h1 | h1 <;> rcases g.dev with h2 | h2 <;> rw [h2, h1] <;> simp [afterSuccess_idem]
  tries := g.tries.trans h.tries
  settled := g.settled
  before := by
    have h1 := g.before
    have h2 := h.before
    rw [sendTime_settled h.settled, h.kept.params] at h1
    rw [Nat.add_mul]; omega
  bufs := g.bufs ∘ h.bufs
  same := fun hr => (g.same hr).trans (h.same (by simp))
  made := g.made
  ended := g.ended

theorem Climbed.mono {j k : Nat} {s t : State} {r : StepResult} (h : Climbed j s t r) (hk : j ≤ k) :
    Climbed k s t r :=
  { h with before := le_trans h.before (Nat.add_le_add_left (Nat.mul_le_mul_right _ hk) _) }

theorem AbortedOr.after_kept {b : Nat} {s t u : State} {e : Stop} {P P' : Prop} (h : Kept s t)
    (k : AbortedOr b t P e u) (hp : P → P') : AbortedOr b s P' e u := by
  rcases k with k | ⟨k1, k2⟩
  · exact .inl (Aborted.after_kept h k)
  · exact .inr ⟨k1, hp k2⟩

theorem AbortedOr.mono {b b' : Nat} {s t : State} {e : Stop} {P : Prop} (h : AbortedOr b s P e t) (hb : b ≤ b') :
    AbortedOr b' s P e t := by
  rcases h with h | h
  · exact .inl (h.mono hb)
  · exact .inr h

theorem filled_five {m : Memory} (h : m.filled 5 = true) :
    ∃ c0 c1 c2 c3 b, m.readRange 0 5 = some [c0, c1, c2, c3, b] := by
  unfold Memory.filled at h
  obtain ⟨l, hl⟩ := Option.isSome_iff_exists.mp h
  have hlen := (readRange_eq_some.mp hl).1
  obtain ⟨c0, c1, c2, c3, b, m', rfl, hm⟩ := exists_five (k := 0) (by omega)
  rw [List.length_eq_zero_iff] at hm
  subst hm
  exact ⟨c0, c1, c2, c3, b, hl⟩

/-- One level of the cascade: ANTICOL, then SELECT with the bytes it left in cand. -/
theorem level_ends (n : Level) (s : State) :
    Ends (do
        match ← stepAnticol n with
        | .goOn => stepSelectCand n
        | r => return r : Proc StepResult) s
      (fun r t => Climbed 2 s t r ∧ r ≠ .noTag ∧ (UidAt n s → UidWf t) ∧
        (r = .goOn → t.ac.step = .anticol ∧ ∃ m, n.next = some m ∧ t.ac.level = some m ∧ (UidAt n s → UidAt m t)) ∧
        (r = .tag → UidAt n s → t.ac.uidLen = 3 * (n.num - 1) + 4))
      (AbortedOr (s.sendTime + 2 * s.params.tDetect) s (¬ UidAt n s)) := by
  have hwf : ∀ t : State, UidAt n t → UidWf t := by
    rintro t ⟨h1, h2⟩
    exact ⟨by rw [h1]; cases n <;> simp [Level.num], h2⟩
  refine Ends.bind (stepAnticol_ends n s) (fun r t h => ?_) (fun e t h => .inl (h.mono (by omega)))
  obtain ⟨hS, hr, hu, hb, -, hgo⟩ := h
  have hC := hS.climbed (fun h => by rcases hr with rfl | rfl <;> simp at h)
  have hat : UidAt n s → UidAt n t := by
    rintro ⟨h1, h2⟩; unfold UidAt; rw [hu, hb]; exact ⟨h1, h2⟩
  rcases hr with rfl | rfl
  · obtain ⟨c0, c1, c2, c3, b, hc⟩ := filled_five (hgo rfl).2
    simp only
    unfold Ends
    rw [stepSelectCand_ok hc]
    refine Ends.mono (stepSelect_ends n c0 c1 c2 c3 b t) (fun r u h => ?_) (fun e u h => ?_)
    · obtain ⟨gS, gn, gf, gg, gt⟩ := h
      refine ⟨hC.trans (gS.climbed fun hr => (gt hr).1), gn, fun ha => ?_, fun hr => ?_, fun hr ha => ?_⟩
      · cases r with
        | noTag => exact absurd rfl gn
        | failed =>
          obtain ⟨g1, g2⟩ := gf rfl
          refine hwf u ?_
          unfold UidAt; rw [g1, g2]; exact hat ha
        | goOn =>
          obtain ⟨-, m, hm, -, -, h5⟩ := gg rfl
          obtain ⟨h6, h7⟩ := h5 (hat ha)
          exact ⟨by rw [h6]; cases m <;> simp [Level.num], h7⟩
        | tag =>
          obtain ⟨g1, g2, -⟩ := gt rfl
          refine ⟨?_, g2⟩
          rw [g1, (hat ha).1]
          cases n <;> simp [Level.num]
      · obtain ⟨h1, m, hm, h3, -, h5⟩ := gg hr
        exact ⟨h1, m, hm, h3, fun ha => h5 (hat ha)⟩
      · rw [(gt hr).1, (hat ha).1]
    · refine (AbortedOr.after_kept hS.kept h fun hn ha => hn (hat ha)).mono ?_
      rw [sendTime_settled hS.settled, hS.kept.params]
      have := hS.before; omega
  · exact ends_pure ⟨hC.mono (by omega), by simp, fun ha => hwf t (hat ha), fun h => by simp at h,
      fun h => by simp at h⟩

/-- The levels that are left, as one level and then the rest. -/
theorem cascadeLevels_cons (n : Level) (rest : List Level) (s : State) :
    (cascadeLevels (n :: rest)).run s = (do
      match ← (do
        match ← stepAnticol n with
        | .goOn => stepSelectCand n
        | r => return r : Proc StepResult) with
      | .goOn => cascadeLevels rest
      | r => return r : Proc StepResult).run s := by
  rw [cascadeLevels]
  simp only [run_bind]
  cases (stepAnticol n).run s with
  | error e t => rfl
  | ok r t =>
    cases r with
    | goOn =>
      simp only [run_bind]
      -- the matchers of the two sides differ in the module alone
      all_goals
        cases (stepSelectCand n).run t with
        | error e u => rfl
        | ok r u => cases r <;> rfl
    | noTag => rfl
    | failed => rfl
    | tag => rfl

/-- Everything the levels of a cascade can end in (R310 to R326). -/
theorem levels_ends (n : Level) (rest : List Level)
    (hc : (n, rest) = (.l3, []) ∨ (n, rest) = (.l2, [.l3]) ∨ (n, rest) = (.l1, [.l2, .l3])) (s : State) :
    Ends (cascadeLevels (n :: rest)) s
      (fun r t => Climbed (2 + 2 * rest.length) s t r ∧ (r = .tag ∨ r = .failed) ∧ (UidAt n s → UidWf t) ∧
        (r = .tag → UidAt n s → t.tag.len ∈ [4, 7, 10]))
      (AbortedOr (s.sendTime + (2 + 2 * rest.length) * s.params.tDetect) s (¬ UidAt n s)) := by
  induction rest generalizing n s with
  | nil =>
    have hn : n.next = none := by
      rcases hc with h | h | h <;> simp at h
      subst h; rfl
    unfold Ends
    rw [cascadeLevels_cons]
    refine Ends.bind (level_ends n s) (fun r t h => ?_) (fun e t h => h.mono (by simp))
    obtain ⟨h1, h2, h3, h4, h5⟩ := h
    cases r with
    | noTag => exact absurd rfl h2
    | goOn => obtain ⟨-, m, hm, -⟩ := h4 rfl; rw [hn] at hm; cases hm
    | failed => exact ends_pure ⟨h1, .inr rfl, h3, fun h => by simp at h⟩
    | tag =>
      refine ends_pure ⟨h1, .inl rfl, h3, fun _ ha => ?_⟩
      rw [(h1.made rfl).2.1, h5 rfl ha]
      cases n <;> simp [Level.num]
  | cons m rest ih =>
    have hn : n.next = some m := by
      rcases hc with h | h | h <;> simp at h <;> obtain ⟨rfl, rfl, rfl⟩ := h <;> rfl
    have hc' : (m, rest) = (.l3, []) ∨ (m, rest) = (.l2, [.l3]) ∨ (m, rest) = (.l1, [.l2, .l3]) := by
      rcases hc with h | h | h <;> simp at h <;> obtain ⟨rfl, rfl, rfl⟩ := h <;> simp
    unfold Ends
    rw [cascadeLevels_cons]
    refine Ends.bind (level_ends n s) (fun r t h => ?_)
      (fun e t h => h.mono (Nat.add_le_add_left (Nat.mul_le_mul_right _ (by omega)) _))
    obtain ⟨h1, h2, h3, h4, h5⟩ := h
    cases r with
    | noTag => exact absurd rfl h2
    | failed => exact ends_pure ⟨h1.mono (by omega), .inr rfl, h3, fun h => by simp at h⟩
    | tag =>
      refine ends_pure ⟨h1.mono (by omega), .inl rfl, h3, fun _ ha => ?_⟩
      rw [(h1.made rfl).2.1, h5 rfl ha]
      cases n <;> simp [Level.num]
    | goOn =>
      obtain ⟨-, m', hm', -, hat⟩ := h4 rfl
      rw [hn] at hm'
      cases hm'
      refine (ih m hc' t).mono (fun r u g => ?_) (fun e u g => ?_)
      · obtain ⟨g1, g2, g3, g4⟩ := g
        refine ⟨(h1.trans g1).mono (by simp only [List.length_cons]; omega), g2, fun ha => g3 (hat ha),
          fun hr ha => g4 hr (hat ha)⟩
      · refine (AbortedOr.after_kept h1.kept g fun hn ha => hn (hat ha)).mono ?_
        rw [sendTime_settled h1.settled, h1.kept.params]
        have := h1.before
        simp only [List.length_cons]
        have hd : (2 + 2 * (rest.length + 1)) * s.params.tDetect =
            2 * s.params.tDetect + (2 + 2 * rest.length) * s.params.tDetect := by
          rw [← Nat.add_mul]; congr 1; omega
        omega

/-- The state CascadeEntry leaves (R312). -/
def entered (s : State) : State :=
  { s with
    tag.valid := false
    ac.level := none
    ac.uidLen := 0
    ac.ctPresent := false
    ac.complete := false
    ac.atqa0 := 0x00#8
    ac.atqa1 := 0x00#8
    ac.sizeClass := 0#2
    ac.sak := 0x00#8
    ac.step := .reqa }

theorem cascadeEntry_ok (s : State) : cascadeEntry.run s = .ok ⟨⟩ (entered s) := rfl

/-- Everything the whole cascade can end in (R310, R312). -/
theorem cascade_ends (s : State) :
    Ends cascade s
      (fun r t => Kept s t ∧ t.mode.cfg = s.mode.cfg ∧
        (t.mode.dev = s.mode.dev ∨ t.mode.dev = s.mode.dev.afterSuccess) ∧ t.txn.echoTry = s.txn.echoTry ∧
        t.txn.settlePending = false ∧ t.now ≤ s.sendTime + 7 * s.params.tDetect ∧
        (CascadeBufs s → CascadeBufs t) ∧ UidWf t ∧ t.ac.step = .done ∧ r ≠ .goOn ∧
        (r ≠ .tag → t.tag.valid = false) ∧
        (r = .tag → t.tag.valid = true ∧ t.tag.len ∈ [4, 7, 10] ∧ t.tag.uid.filled t.tag.len = true))
      (Aborted (s.sendTime + 7 * s.params.tDetect) s) := by
  unfold cascade
  refine ends_step (cascadeEntry_ok s) ?_
  have hK : Kept s (entered s) := kept_ac
  have hst : (entered s).sendTime = s.sendTime := rfl
  have hpar : (entered s).params = s.params := rfl
  have hul : (entered s).ac.uidLen = 0 := rfl
  have hz : ∀ m : Memory, m.filled 0 = true := fun _ => rfl
  refine Ends.bind (stepReqa_ends _) (fun r t h => ?_) (fun e t h => (Aborted.after_kept hK h).mono ?_)
  · obtain ⟨hS, hnt, hu, hb, -, hgo⟩ := h
    have hC := hS.climbed (fun h => absurd h hnt)
    have hat : UidAt .l1 t := ⟨hu, by rw [hu]; exact hz _⟩
    have hwf : UidWf t := ⟨by rw [hu, hul]; simp, by rw [hu]; exact hz _⟩
    have h7 : ∀ u : State, ∀ r k, k ≤ 7 → Climbed k (entered s) u r → u.now ≤ s.sendTime + 7 * s.params.tDetect :=
      fun u r k hk g => (g.mono hk).before
    cases r with
    | tag => exact absurd rfl hnt
    | noTag =>
      exact ends_pure ⟨hK.trans hC.kept, hC.cfg, hC.dev, hC.tries, hC.settled, h7 _ _ 1 (by omega) hC, hC.bufs,
        hwf, hC.ended (by simp), by simp, fun h => by rw [hC.same h]; rfl, fun h => by simp at h⟩
    | failed =>
      exact ends_pure ⟨hK.trans hC.kept, hC.cfg, hC.dev, hC.tries, hC.settled, h7 _ _ 1 (by omega) hC, hC.bufs,
        hwf, hC.ended (by simp), by simp, fun h => by rw [hC.same h]; rfl, fun h => by simp at h⟩
    | goOn =>
      refine (levels_ends .l1 [.l2, .l3] (.inr (.inr rfl)) t).mono (fun r u g => ?_) (fun e u g => ?_)
      · obtain ⟨g1, g2, g3, g4⟩ := g
        have gC := hC.trans g1
        have gr : r ≠ .goOn := by rcases g2 with rfl | rfl <;> simp
        exact ⟨hK.trans gC.kept, gC.cfg, gC.dev, gC.tries, gC.settled, h7 _ _ 7 (le_refl _) gC, gC.bufs, g3 hat,
          gC.ended gr, gr, fun h => by rw [gC.same h]; rfl,
          fun h => ⟨(gC.made h).1, g4 h hat, (gC.made h).2.2⟩⟩
      · rcases g with g | ⟨-, g⟩
        · refine (Aborted.after_kept (hK.trans hC.kept) g).mono ?_
          rw [sendTime_settled hC.settled, hC.kept.params]
          have := hC.before
          rw [hst, hpar] at this
          rw [hpar]
          simp only [List.length_cons, List.length_nil] at this ⊢
          omega
        · exact absurd hat g
  · rw [hst]
    exact Nat.add_le_add_left (Nat.le_mul_of_pos_left _ (by omega)) _

end Sys2Proof.Laws
end

