-- ==== Sys2Proof/Laws/Echo.lean ====
section
/-! SUPPORT. The echo probe where the CHIP's answers are known (R248), and what leaves on the transport in it. -/

namespace Sys2Proof.Laws

open Sys2Proof.Machine

/-- Failing attempts take time forward. -/
theorem echoFails_le {p : Params} {k n t u : Nat} {line line' : ChipLine} {events : List LineEvent}
    (h : EchoFails p k n t line u line' events) : t ≤ u := by
  induction k generalizing n t line events with
  | zero => exact h.1 ▸ le_refl _
  | succ k ih =>
    obtain ⟨received, v, mid, rest, h1, h2, -⟩ := h
    have := ih h2
    rcases h1 with ⟨-, rfl, -⟩ | ⟨b, -, ha, -⟩
    · omega
    · have := le_of_delivers ha; omega

/-- What k failing attempts of an echo probe leave (R243, R248). -/
structure EchoFailed (s : State) (k u : Nat) (line' : ChipLine) (events : List LineEvent) (t : State) : Prop where
  untouched : { s with txn.echoTry := s.txn.echoTry + k }.Untouched t
  dev : t.mode.dev = s.mode.dev
  send : t.sendTime = u
  chip : t.chip = line'
  sent : t.out.sent = s.out.sent + k
  record : t.out.line = s.out.line ++ events
  last : t.txn.tLast = s.txn.tLast
  rx : ∀ a, 1 ≤ a → t.txn.rxBuf.read a = s.txn.rxBuf.read a
  tx : ∀ a, 1 ≤ a → t.txn.txBuf.read a = s.txn.txBuf.read a
  zero : k = 0 → t = s
  some : 0 < k → t.now = u ∧ t.txn.settlePending = false ∧ t.txn.phase = .none ∧
    t.txn.txBuf.read 0 = Option.some s.params.opcEcho ∧ t.txn.txLen = 1 ∧ t.mode.resume = s.mode.dev

/-- The first k attempts fail: the probe goes on with what is left (R248). -/
theorem echoLoop_fails {k : Nat} (m : Nat) {s : State} {u : Nat} {line' : ChipLine} {events : List LineEvent}
    (hT : 0 < s.params.tEcho) (h : EchoFails s.params k s.out.sent s.sendTime s.chip u line' events)
    (hq : s.quietUntil u) :
    ∃ t, (echoLoop (k + m)).run s = (echoLoop m).run t ∧ EchoFailed s k u line' events t := by
  induction k generalizing s events with
  | zero =>
    obtain ⟨rfl, rfl, rfl⟩ := h
    exact ⟨s, by rw [Nat.zero_add], ⟨rfl, rfl, rfl, rfl, rfl, rfl, rfl, rfl, rfl⟩, rfl, rfl, rfl, rfl, by simp, rfl,
      fun _ _ => rfl, fun _ _ => rfl, fun _ => rfl, fun h => absurd h (lt_irrefl _)⟩
  | succ k ih =>
    obtain ⟨received, v, mid, rest, h1, h2, rfl⟩ := h
    have hvu := echoFails_le h2
    have key : ∃ t, echoAttempt.run { s with txn.echoTry := s.txn.echoTry + 1 } = .ok false t ∧
        received.length ≤ 1 ∧
        Exchanged { s with txn.echoTry := s.txn.echoTry + 1 } t .echo [s.params.opcEcho] received v mid ∧
        t.mode.dev = s.mode.dev := by
      rcases h1 with ⟨ha, rfl, rfl⟩ | ⟨b, hb, ha, rfl⟩
      · obtain ⟨t, g1, g2, g3, -⟩ := echoAttempt_silent (s := { s with txn.echoTry := s.txn.echoTry + 1 }) ha
          (quietUntil_mono hq hvu)
        exact ⟨t, g1, by simp, g2, g3⟩
      · obtain ⟨t, g1, g2, g3, -⟩ := echoAttempt_wrong (s := { s with txn.echoTry := s.txn.echoTry + 1 }) hT ha hb
          (quietUntil_mono hq hvu)
        exact ⟨t, g1, by simp, g2, g3⟩
    obtain ⟨t, g1, hb, g2, g3⟩ := key
    have hp : t.params = s.params := g2.untouched.params
    have hts : t.sendTime = v := by rw [sendTime_settled g2.settled, g2.now]
    obtain ⟨w, w1, w2⟩ := ih (s := t) (by rw [hp]; exact hT) (by rw [hp, g2.count, hts, g2.chip]; exact h2)
      (by unfold State.quietUntil; rw [g2.untouched.env]; exact hq)
    refine ⟨w, ?_, ?_⟩
    · rw [show k + 1 + m = (k + m) + 1 by omega, echoLoop]
      simp only [run_bind, run_modify]
      rw [g1]
      exact w1
    · have hun := w2.untouched
      have hg := g2.untouched
      refine ⟨⟨hun.params.trans hg.params, hun.host.trans hg.host, hun.cfg.trans hg.cfg, hun.ac.trans hg.ac,
          hun.tag.trans hg.tag, ?_, hun.env.trans hg.env, hun.call.trans hg.call, hun.replies.trans hg.replies⟩,
        w2.dev.trans g3, w2.send, w2.chip, ?_, ?_, ?_, ?_, ?_, fun h => absurd h (by omega), fun _ => ?_⟩
      · rw [hun.tries]; simp only; rw [hg.tries]; simp only; omega
      · rw [w2.sent, g2.count]; simp only; omega
      · rw [w2.record, g2.record, List.append_assoc]; rfl
      · rw [w2.last, g2.stamp]; simp [State.stampAfter]
      · intro a ha; rw [w2.rx a ha]; exact g2.rx.2 a (by omega)
      · intro a ha; rw [w2.tx a ha]; exact g2.tx.2 a (by simpa using ha)
      · have h0 : t.txn.txBuf.read 0 = some s.params.opcEcho := by simpa using g2.tx.1 0 (by simp)
        rcases Nat.eq_zero_or_pos k with rfl | hk
        · obtain rfl := w2.zero rfl
          exact ⟨by rw [← w2.send]; exact (sendTime_settled g2.settled).symm, g2.settled, g2.phase, h0, g2.txLen,
            g2.resume⟩
        · obtain ⟨x1, x2, x3, x4, x5, x6⟩ := w2.some hk
          exact ⟨x1, x2, x3, by rw [x4, hp], x5, x6.trans g3⟩

/-- Under UART only echo bytes leave in an echo probe, whatever the CHIP does (R114, R248). -/
theorem echoLoop_sends (n : Nat) (s : State) (hn : 0 < n) :
    Ends (echoLoop n) s
      (fun _ t => t.params = s.params ∧ t.txn.txLen = 1 ∧ t.txn.txBuf.read 0 = some s.params.opcEcho ∧
        ∃ events, t.out.line = s.out.line ++ events ∧
          (s.params.transport = .uart → ∀ e ∈ events, ∃ time, e = .tx time s.params.opcEcho))
      (fun _ _ => True) := by
  induction n generalizing s with
  | zero => omega
  | succ n ih =>
    unfold echoLoop
    refine ends_bind (ends_modify (Ends.bind (echoAttempt_ends _) (fun r t ht => ?_) (fun _ _ _ => trivial)))
    obtain ⟨hT, -⟩ := ht
    obtain ⟨bytes, -, -, -, h1⟩ := hT.rx
    have hp : t.params = s.params := hT.untouched.params
    have hb : t.txn.txBuf.read 0 = some s.params.opcEcho := by rw [hT.tx, read_writeRange]; simp
    have key : ∃ events, t.out.line = s.out.line ++ events ∧
        (s.params.transport = .uart → ∀ e ∈ events, ∃ time, e = .tx time s.params.opcEcho) := by
      refine ⟨_, h1, fun (hu : s.params.transport = .uart) e he => ?_⟩
      simp [exchangeEvents, readEvents_uart hu, sendEvents, hu] at he
      exact ⟨_, he⟩
    have hl : t.txn.txLen = 1 := hT.txLen
    cases r with
    | true => exact ends_pure ⟨hp, hl, hb, key⟩
    | false =>
      simp only [Bool.false_eq_true, if_false]
      rcases Nat.eq_zero_or_pos n with rfl | hn'
      · unfold echoLoop
        exact ends_bind (ends_modify (ends_pure ⟨hp, hl, hb, key⟩))
      · refine (ih t hn').mono (fun _ u hu => ?_) (fun _ _ h => h)
        obtain ⟨k1, k2, k3, ev', k4, k5⟩ := hu
        obtain ⟨ev, e1, e2⟩ := key
        rw [hp] at k1 k3 k5
        exact ⟨k1, k2, k3, ev ++ ev', by rw [k4, e1, List.append_assoc],
          fun hu e he => (List.mem_append.mp he).elim (e2 hu e) (k5 hu e)⟩

end Sys2Proof.Laws
end

