-- ==== Sys2Proof/Laws/PerInstr.lean ====
section
/-! SUPPORT. A statement made for each constructor of Instr: how many bytes its encoding has. A host request and a
command frame have a header of two bytes and never exceed 256, a frame's trailer apart (R111, R131, R137); an air
command fits a SEND_RECV payload (R124 to R126). -/

namespace Sys2Proof.Laws

/-- The bytes an instruction's encoding has, by its own operands. -/
def encodedLength (p : Params) : Instr → Nat
  | .protocol _ _ => 4 + p.frameTrailerLen
  | .sendRecv b => 2 + b.length + p.frameTrailerLen
  | .idle => 2 + p.idleParams.length + p.frameTrailerLen
  | .readReg q => 2 + q.length + p.frameTrailerLen
  | .writeReg q => 2 + q.length + p.frameTrailerLen
  | .baudrate q => 2 + q.length + p.frameTrailerLen
  | .idn => 2 + p.frameTrailerLen
  | .echo => 1
  | .reqa => 2
  | .anticolL1 => 3
  | .anticolL2 => 3
  | .anticolL3 => 3
  | .selectL1 _ _ _ _ _ => 8
  | .selectL2 _ _ _ _ _ => 8
  | .selectL3 _ _ _ _ _ => 8
  | .radioScan pl => 2 + pl.length
  | .echoTest pl => 2 + pl.length
  | .calibration pl => 2 + pl.length
  | .getChipId pl => 2 + pl.length
  | .getUid pl => 2 + pl.length
  | .runAnticol pl => 2 + pl.length
  | .goIdle pl => 2 + pl.length
  | .selectProtocol pl => 2 + pl.length
  | .fieldOff pl => 2 + pl.length

/-- An encoding has the length its operands give it, at least one byte and at most 256 and the trailer. -/
def EncodedSize.Statement (i : Instr) : Prop :=
  ∀ p : Params, p.wf = true → i.wf = true →
    (encode p i).length = encodedLength p i ∧ 1 ≤ (encode p i).length ∧ (encode p i).length ≤ 256 + p.frameTrailerLen

/-- A header of two bytes and a payload of at most 254 bytes. -/
theorem header_size {p : Params} (op len : Byte) {pl : List Byte} (h : decide (pl.length ≤ maxPayload) = true) :
    (op :: len :: pl).length = 2 + pl.length ∧ 1 ≤ (op :: len :: pl).length ∧
      (op :: len :: pl).length ≤ 256 + p.frameTrailerLen := by
  have h' : pl.length ≤ 254 := of_decide_eq_true h
  simp only [List.length_cons]
  omega

/-- A command frame: the header, a payload of at most 254 bytes and the trailer. -/
theorem frame_size {p : Params} (c : FrameCmd) {pl : List Byte} (h : pl.length ≤ maxPayload) :
    (encodeChip p c pl).length = 2 + pl.length + p.frameTrailerLen ∧ 1 ≤ (encodeChip p c pl).length ∧
      (encodeChip p c pl).length ≤ 256 + p.frameTrailerLen := by
  have h' := frameBytes_length p (p.opcode c) pl
  have h'' := frameBytes_le (p := p) (op := p.opcode c) h
  exact ⟨h', by unfold encodeChip; omega, h''⟩

/-- An encoding of a fixed length. -/
theorem fixed_size {p : Params} {bytes : List Byte} {n : Nat} (h : bytes.length = n) (h1 : 1 ≤ n) (hn : n ≤ 256) :
    bytes.length = n ∧ 1 ≤ bytes.length ∧ bytes.length ≤ 256 + p.frameTrailerLen := by
  omega

theorem EncodedSize.radioScan (pl : List Byte) : EncodedSize.Statement (.radioScan pl) :=
  fun _ _ h => header_size _ _ h

theorem EncodedSize.echoTest (pl : List Byte) : EncodedSize.Statement (.echoTest pl) :=
  fun _ _ h => header_size _ _ h

theorem EncodedSize.calibration (pl : List Byte) : EncodedSize.Statement (.calibration pl) :=
  fun _ _ h => header_size _ _ h

theorem EncodedSize.getChipId (pl : List Byte) : EncodedSize.Statement (.getChipId pl) :=
  fun _ _ h => header_size _ _ h

theorem EncodedSize.getUid (pl : List Byte) : EncodedSize.Statement (.getUid pl) :=
  fun _ _ h => header_size _ _ h

theorem EncodedSize.runAnticol (pl : List Byte) : EncodedSize.Statement (.runAnticol pl) :=
  fun _ _ h => header_size _ _ h

theorem EncodedSize.goIdle (pl : List Byte) : EncodedSize.Statement (.goIdle pl) :=
  fun _ _ h => header_size _ _ h

theorem EncodedSize.selectProtocol (pl : List Byte) : EncodedSize.Statement (.selectProtocol pl) :=
  fun _ _ h => header_size _ _ h

theorem EncodedSize.fieldOff (pl : List Byte) : EncodedSize.Statement (.fieldOff pl) :=
  fun _ _ h => header_size _ _ h

theorem EncodedSize.idn : EncodedSize.Statement .idn :=
  fun _ _ _ => frame_size .idn (Nat.zero_le _)

theorem EncodedSize.protocol (w q : Byte) : EncodedSize.Statement (.protocol w q) :=
  fun _ _ _ => frame_size .protocol (pl := [w, q]) (Nat.le_of_ble_eq_true rfl)

theorem EncodedSize.sendRecv (b : List Byte) : EncodedSize.Statement (.sendRecv b) :=
  fun _ _ h => frame_size .sendRecv (of_decide_eq_true (Bool.and_eq_true_iff.mp h).2)

theorem EncodedSize.idle : EncodedSize.Statement .idle :=
  fun _ hp _ => frame_size .idle (params_wf hp).2.2.2.2.2.2.2

theorem EncodedSize.readReg (q : List Byte) : EncodedSize.Statement (.readReg q) :=
  fun _ _ h => frame_size .readReg (of_decide_eq_true h)

theorem EncodedSize.writeReg (q : List Byte) : EncodedSize.Statement (.writeReg q) :=
  fun _ _ h => frame_size .writeReg (of_decide_eq_true h)

theorem EncodedSize.baudrate (q : List Byte) : EncodedSize.Statement (.baudrate q) :=
  fun _ _ h => frame_size .baudrate (of_decide_eq_true h)

theorem EncodedSize.echo : EncodedSize.Statement .echo :=
  fun _ _ _ => fixed_size rfl (Nat.le_of_ble_eq_true rfl) (Nat.le_of_ble_eq_true rfl)

theorem EncodedSize.reqa : EncodedSize.Statement .reqa :=
  fun _ _ _ => fixed_size rfl (Nat.le_of_ble_eq_true rfl) (Nat.le_of_ble_eq_true rfl)

theorem EncodedSize.anticolL1 : EncodedSize.Statement .anticolL1 :=
  fun _ _ _ => fixed_size rfl (Nat.le_of_ble_eq_true rfl) (Nat.le_of_ble_eq_true rfl)

theorem EncodedSize.anticolL2 : EncodedSize.Statement .anticolL2 :=
  fun _ _ _ => fixed_size rfl (Nat.le_of_ble_eq_true rfl) (Nat.le_of_ble_eq_true rfl)

theorem EncodedSize.anticolL3 : EncodedSize.Statement .anticolL3 :=
  fun _ _ _ => fixed_size rfl (Nat.le_of_ble_eq_true rfl) (Nat.le_of_ble_eq_true rfl)

theorem EncodedSize.selectL1 (c0 c1 c2 c3 b : Byte) : EncodedSize.Statement (.selectL1 c0 c1 c2 c3 b) :=
  fun _ _ _ => fixed_size rfl (Nat.le_of_ble_eq_true rfl) (Nat.le_of_ble_eq_true rfl)

theorem EncodedSize.selectL2 (c0 c1 c2 c3 b : Byte) : EncodedSize.Statement (.selectL2 c0 c1 c2 c3 b) :=
  fun _ _ _ => fixed_size rfl (Nat.le_of_ble_eq_true rfl) (Nat.le_of_ble_eq_true rfl)

theorem EncodedSize.selectL3 (c0 c1 c2 c3 b : Byte) : EncodedSize.Statement (.selectL3 c0 c1 c2 c3 b) :=
  fun _ _ _ => fixed_size rfl (Nat.le_of_ble_eq_true rfl) (Nat.le_of_ble_eq_true rfl)

end Sys2Proof.Laws
end

