-- ==== Sys2Proof/Laws/Requests.lean ====
section
/-! SUPPORT. Everything the host requests can end in, WHATEVER the CHIP does (R361 to R375): the dispatcher's checks,
then, for each request, the one Finish that ends it. -/

namespace Sys2Proof.Laws

open Sys2Proof.Machine

/-! ## The dispatcher's checks -/

/-- A request refused with this code (R361, R362, R373). -/
def Refuses (k : RequestKind) (payload : List Byte) (s : State) (c : OutcomeCode) : Prop :=
  c = .unsupported ∧ k = .calibration ∨
    k ≠ .calibration ∧ c = .invalidRequest ∧
      (lengthWrong k payload = true ∨ k = .selectProtocol ∧ validCfg payload = false) ∨
    k ≠ .calibration ∧ c = .deviceFault ∧ s.mode.dev = .error ∧ allowedInError k = false ∨
    k ≠ .calibration ∧ c = .notReady ∧ allowed k s.mode.dev s.mode.cfg = false ∧
      (s.mode.dev = .error → allowedInError k = true)

/-- A request that runs (R361, R362, R373). -/
structure Runs (k : RequestKind) (payload : List Byte) (s : State) : Prop where
  kind : k ≠ .calibration
  length : lengthWrong k payload = false
  cfg : k = .selectProtocol → validCfg payload = true
  error : s.mode.dev = .error → allowedInError k = true
  allowed : allowed k s.mode.dev s.mode.cfg = true

/-- A request is refused and changes nothing, or it runs (R373). -/
theorem hostRequest_cases (k : RequestKind) (payload : List Byte) (body : Proc Unit) (s : State) :
    (∃ c, (hostRequest k payload body).run s = .error (.outcome c) s ∧ Refuses k payload s c) ∨
      (hostRequest k payload body).run s = body.run s ∧ Runs k payload s := by
  unfold hostRequest
  simp only [run_bind, run_get, run_ite]
  by_cases h1 : k = .calibration
  · exact .inl ⟨.unsupported, by rw [if_pos h1]; rfl, .inl ⟨rfl, h1⟩⟩
  rw [if_neg h1]
  by_cases h2 : lengthWrong k payload = true
  · exact .inl ⟨.invalidRequest, by rw [if_pos h2]; rfl, .inr (.inl ⟨h1, rfl, .inl h2⟩)⟩
  rw [if_neg h2]
  by_cases h3 : (k = .selectProtocol && !validCfg payload) = true
  · refine .inl ⟨.invalidRequest, by rw [if_pos h3]; rfl, .inr (.inl ⟨h1, rfl, .inr ?_⟩)⟩
    simpa using h3
  rw [if_neg h3]
  by_cases h4 : (s.mode.dev = .error && !allowedInError k) = true
  · refine .inl ⟨.deviceFault, by rw [if_pos h4]; rfl, .inr (.inr (.inl ⟨h1, rfl, ?_⟩))⟩
    simpa using h4
  rw [if_neg h4]
  have h4' : s.mode.dev = .error → allowedInError k = true := by
    intro h; simpa [h] using h4
  by_cases h5 : (!allowed k s.mode.dev s.mode.cfg) = true
  · exact .inl ⟨.notReady, by rw [if_pos h5]; rfl, .inr (.inr (.inr ⟨h1, rfl, by simpa using h5, h4'⟩))⟩
  rw [if_neg h5]
  refine .inr ⟨rfl, h1, by simpa using h2, fun hk => ?_, h4', by simpa using h5⟩
  simpa [hk] using h3

/-! ## The end of a request -/

/-- A procedure ends in one Finish, or the reset input ends it. -/
def Finishes (p : Proc Unit) (s : State) (bound : Nat) (P : OutcomeCode → State → Prop) : Prop :=
  (∃ u code data, conclude p s = .next (u.finish code data) ∧ Kept s u ∧ data.length ≤ maxPayload ∧
      (code ≠ .ok → data = []) ∧ u.now ≤ bound ∧ P code u) ∨
    ∃ u, conclude p s = .next u.resetAction ∧ Aborted bound s .reset u

theorem Finishes.mono {p : Proc Unit} {s : State} {b b' : Nat} {P P' : OutcomeCode → State → Prop}
    (h : Finishes p s b P) (hb : b ≤ b') (hP : ∀ c u, P c u → P' c u) : Finishes p s b' P' := by
  rcases h with ⟨u, c, d, h1, h2, h3, h4, h5, h6⟩ | ⟨u, h1, h2⟩
  · exact .inl ⟨u, c, d, h1, h2, h3, h4, le_trans h5 hb, hP c u h6⟩
  · exact .inr ⟨u, h1, h2.mono hb⟩

/-- What an ending says of the procedure concluded. -/
theorem finishes_of_ends {p : Proc Unit} {s : State} {bound : Nat} {P : OutcomeCode → State → Prop}
    (h : Ends p s
      (fun _ t => ∃ u code data, t = u.finish code data ∧ Kept s u ∧ data.length ≤ maxPayload ∧
        (code ≠ .ok → data = []) ∧ u.now ≤ bound ∧ P code u)
      (fun e t => Aborted bound s e t ∨
        ∃ code, e = .outcome code ∧ Kept s t ∧ code ≠ .ok ∧ t.now ≤ bound ∧ P code t)) : Finishes p s bound P := by
  unfold Ends at h
  cases hp : p.run s with
  | ok a t =>
    rw [hp] at h
    obtain ⟨u, code, data, rfl, h2, h3, h4, h5, h6⟩ := h
    exact .inl ⟨u, code, data, conclude_ok hp, h2, h3, h4, h5, h6⟩
  | error e t =>
    rw [hp] at h
    rcases h with h | ⟨code, rfl, h2, h3, h4, h5⟩
    · obtain rfl := h.reset
      exact .inr ⟨t, conclude_reset hp, h⟩
    · exact .inl ⟨t, code, [], conclude_raise hp, h2, by simp, fun _ => rfl, h4, h5⟩

theorem tagReply_length (uid : List Byte) (a0 a1 k : Byte) : (tagReply uid a0 a1 k).length = uid.length + 4 := by
  simp [tagReply]

/-- The Tag's reply, where the Tag register is whole (R134, R363). -/
theorem tagData_ok {s : State} {uid : List Byte} (hv : s.tag.valid = true)
    (hr : s.tag.uid.readRange 0 s.tag.len = some uid) :
    tagData.run s = .ok (tagReply uid s.tag.atqa0 s.tag.atqa1 s.tag.sak) s := by
  unfold tagData
  simp only [run_bind, run_get, hv, if_true]
  rw [loadBytes_ok (bytes := uid) (by simp [State.validLen]) (by simpa [State.buf] using hr)]
  rfl

/-- A read of a Tag register that is not whole faults; no run from reset meets one (R59). -/
theorem tagData_ends (s : State) :
    Ends tagData s
      (fun d t => t = s ∧ s.tag.valid = true ∧ d.length = s.tag.len + 4)
      (fun e _ => (∃ f, e = .fault f) ∧ ¬ (s.tag.valid = true ∧ s.tag.uid.filled s.tag.len = true)) := by
  unfold tagData
  refine ends_get_bind ?_
  split
  · rename_i hv
    cases hr : s.tag.uid.readRange 0 s.tag.len with
    | some uid =>
      have hl := (readRange_eq_some.mp hr).1
      refine ends_step (loadBytes_ok (bytes := uid) (by simp [State.validLen]) (by simpa [State.buf] using hr))
        (ends_pure ⟨rfl, hv, ?_⟩)
      rw [tagReply_length, hl]
    | none =>
      unfold Ends
      simp [loadBytes, State.validLen, State.buf, hr, Memory.filled]
  · rename_i hv
    refine ends_throw ⟨⟨_, rfl⟩, fun h => hv h.1⟩

/-- The end of a request that ran the cascade (R364, R369). -/
theorem cascadeReply_ends {r : StepResult} {s : State} (hr : r ≠ .goOn)
    (ht : r = .tag → s.tag.valid = true ∧ s.tag.len ≤ 10 ∧ s.tag.uid.filled s.tag.len = true)
    (R : Stop → State → Prop) :
    Ends (cascadeReply r) s
      (fun _ t => ∃ code data, t = s.finish code data ∧ data.length ≤ maxPayload ∧ (code ≠ .ok → data = []) ∧
        (code = .ok ∧ r = .tag ∨ code = .noTagDetected ∧ r = .noTag ∨ code = .anticollisionFailed ∧
            r = .failed)) R := by
  cases r with
  | goOn => exact absurd rfl hr
  | noTag => exact ends_modify ⟨_, _, rfl, by simp, fun _ => rfl, by simp⟩
  | failed => exact ends_modify ⟨_, _, rfl, by simp, fun _ => rfl, by simp⟩
  | tag =>
    obtain ⟨h1, h2, h3⟩ := ht rfl
    unfold cascadeReply
    refine ends_bind ((tagData_ends s).mono (fun d t h => ?_) (fun e t h => absurd ⟨h1, h3⟩ h.2))
    obtain ⟨rfl, -, hl⟩ := h
    exact ends_modify ⟨_, _, rfl, by unfold maxPayload; omega, fun h => absurd rfl h, by simp⟩

/-- The registers that a request which runs leaves legal: the cascade's and the Tag's buffers, the UID so far, the Tag
and where the cascade stands. -/
structure TagKept (s u : State) : Prop where
  bufs : CascadeBufs s → CascadeBufs u
  uid : UidWf s → UidWf u
  step : u.ac.step = s.ac.step ∨ u.ac.step = .done
  tag : u.tag.valid = true → s.tag.valid = true ∧ u.tag.len = s.tag.len ∧ u.tag.uid = s.tag.uid ∨
    u.tag.len ∈ [4, 7, 10] ∧ u.tag.uid.filled u.tag.len = true

theorem TagKept.of_same {s u : State} (ha : u.ac = s.ac) (ht : u.tag = s.tag ∨ u.tag = { s.tag with valid := false }) :
    TagKept s u where
  bufs := by
    unfold CascadeBufs; rw [ha]
    rcases ht with h | h <;> rw [h] <;> exact id
  uid := by unfold UidWf; rw [ha]; exact id
  step := .inl (by rw [ha])
  tag := by
    rcases ht with h | h <;> rw [h]
    · exact fun h => .inl ⟨h, rfl, rfl⟩
    · exact fun h => by simp at h

theorem TagKept.trans {s t u : State} (h : TagKept s t) (k : TagKept t u) : TagKept s u where
  bufs := k.bufs ∘ h.bufs
  uid := k.uid ∘ h.uid
  step := by
    rcases k.step with k1 | k1
    · rw [k1]; exact h.step
    · exact .inr k1
  tag := fun hv => by
    rcases k.tag hv with ⟨h1, h2, h3⟩ | h1
    · rw [h2, h3]; exact h.tag h1
    · exact .inr h1

theorem len_le_ten {n : Nat} (h : n ∈ [4, 7, 10]) : n ≤ 10 := by
  simp at h; omega

/-! ## The requests -/

/-- What a request that runs leaves of the mode (R417): its code, its states before and after. -/
abbrev ModeAfter := OutcomeCode → State → Prop

/-- ECHO_TEST (R365). -/
theorem echoTest_finishes {s : State} (hp : s.params.wf = true) :
    Finishes echoTest s (s.sendTime + s.params.echoAttempts * s.params.tEcho)
      (fun c u => TagKept s u ∧ s.out.sent < u.out.sent ∧ u.tag = s.tag ∧ u.ac = s.ac ∧ u.mode.cfg = s.mode.cfg ∧
        u.txn.echoTry ≤ s.params.echoAttempts ∧ u.txn.settlePending = false ∧
        (c = .ok ∧ u.mode.dev = s.mode.dev.afterSuccess ∨ c = .deviceFault ∧ u.mode.dev = .error)) := by
  refine finishes_of_ends ?_
  unfold echoTest
  refine ends_bind ((echoProbe_ends hp).mono (fun r t h => ?_) (fun e t h => .inl h))
  obtain ⟨k1, k2, k3, k4, k5, k6, k7, k8⟩ := h
  have hT := TagKept.of_same k3 (.inl k4)
  cases r with
  | true =>
    exact ends_modify ⟨t, .ok, [], rfl, k1, by simp, fun _ => rfl, k8, hT, k6.2, k4, k3, k2, k5, k6.1, .inl ⟨rfl, k7⟩⟩
  | false =>
    exact ends_modify ⟨t, .deviceFault, [], rfl, k1, by simp, fun _ => rfl, k8, hT, k6.2, k4, k3, k2, k5, k6.1,
      .inr ⟨rfl, k7⟩⟩

/-- GET_CHIP_ID (R367). -/
theorem getChipId_finishes (s : State) :
    Finishes getChipId s (s.sendTime + s.params.tNoresp)
      (fun c u => TagKept s u ∧ s.out.sent < u.out.sent ∧ u.tag = s.tag ∧ u.ac = s.ac ∧ u.mode.cfg = s.mode.cfg ∧
        u.txn.echoTry = s.txn.echoTry ∧ u.txn.settlePending = false ∧
        (c = .ok ∧ u.mode.dev = s.mode.dev.afterSuccess ∨
          (c = .noResponse ∨ c = .malformedFrame) ∧ u.mode.dev = s.mode.dev)) := by
  refine finishes_of_ends ?_
  unfold getChipId getIdn idn
  refine ends_bind (ends_get_bind ((command_ends (by simp)).mono (fun r t h => ?_) (fun e t h => .inl h)))
  obtain ⟨hC, hd, hb⟩ := h
  have hT := TagKept.of_same hC.ac (.inl hC.tag)
  cases r with
  | frame st body =>
    exact ends_modify ⟨t, .ok, body, rfl, hC.kept, (hb st body rfl).1, fun h => absurd rfl h, hC.before, hT, hC.sent,
        hC.tag, hC.ac,
      hC.cfg, hC.tries, hC.settled, .inl ⟨rfl, hd⟩⟩
  | noResponse =>
    exact ends_modify ⟨t, .noResponse, [], rfl, hC.kept, by simp, fun _ => rfl, hC.before, hT, hC.sent, hC.tag, hC.ac,
        hC.cfg,
      hC.tries, hC.settled, .inr ⟨.inl rfl, hd⟩⟩
  | malformedFrame =>
    exact ends_modify ⟨t, .malformedFrame, [], rfl, hC.kept, by simp, fun _ => rfl, hC.before, hT, hC.sent, hC.tag,
        hC.ac,
      hC.cfg, hC.tries, hC.settled, .inr ⟨.inr rfl, hd⟩⟩

/-- GET_UID, where the Tag register is whole while it is valid (R368). -/
theorem getUid_finishes {s : State}
    (ht : s.tag.valid = true → s.tag.len ≤ 10 ∧ s.tag.uid.filled s.tag.len = true) :
    Finishes getUid s s.now (fun c u => u = s ∧ (c = .ok ∧ s.tag.valid = true ∨ c = .noTagDetected)) := by
  refine finishes_of_ends ?_
  unfold getUid
  refine ends_get_bind ?_
  split
  · rename_i hv
    obtain ⟨h1, h2⟩ := ht hv
    refine ends_bind ((tagData_ends s).mono (fun d t h => ?_) (fun e t h => absurd ⟨hv, h2⟩ h.2))
    obtain ⟨rfl, -, hl⟩ := h
    exact ends_modify ⟨t, .ok, d, rfl, Kept.refl _, by unfold maxPayload; omega, fun h => absurd rfl h, le_refl _, rfl,
      .inl ⟨rfl, hv⟩⟩
  · exact ends_modify ⟨s, .noTagDetected, [], rfl, Kept.refl _, by simp, fun _ => rfl, le_refl _, rfl, .inr rfl⟩

/-- GET_UID in any state: it ends so, or it faults (R59). -/
theorem getUid_next {s t : State} (h : conclude getUid s = .next t) :
    ∃ c d, t = s.finish c d ∧ (c = .ok ∨ c = .noTagDetected) := by
  have hE : Ends getUid s (fun _ t => ∃ c d, t = s.finish c d ∧ (c = .ok ∨ c = .noTagDetected))
      (fun e _ => ∃ f, e = .fault f) := by
    unfold getUid
    refine ends_get_bind ?_
    split
    · refine ends_bind ((tagData_ends s).mono (fun d t h => ?_) (fun e t h => h.1))
      obtain ⟨rfl, -, -⟩ := h
      exact ends_modify ⟨_, _, rfl, .inl rfl⟩
    · exact ends_modify ⟨_, _, rfl, .inr rfl⟩
  rcases conclude_next h with ⟨a, hp⟩ | ⟨c, u, hp, -⟩ | ⟨u, hp, -⟩
  · exact hE.ok hp
  · obtain ⟨f, hf⟩ := hE.error hp; cases hf
  · obtain ⟨f, hf⟩ := hE.error hp; cases hf

/-- RUN_ANTICOL (R369). -/
theorem runAnticol_finishes (s : State) :
    Finishes runAnticol s (s.sendTime + 7 * s.params.tDetect)
      (fun c u => TagKept s u ∧ u.mode.cfg = s.mode.cfg ∧ u.ac.step = .done ∧
        (u.mode.dev = s.mode.dev ∨ u.mode.dev = s.mode.dev.afterSuccess) ∧
        u.txn.echoTry = s.txn.echoTry ∧ u.txn.settlePending = false ∧
        (c = .ok ∨ (c = .noTagDetected ∨ c = .anticollisionFailed) ∧ u.tag.valid = false)) := by
  refine finishes_of_ends ?_
  unfold runAnticol
  refine ends_bind ((cascade_ends s).mono (fun r t h => ?_) (fun e t h => .inl h))
  obtain ⟨k1, k2, k3, k4, k5, k6, k7, k8, k9, k10, k11, k12⟩ := h
  have hT : TagKept s t := ⟨k7, fun _ => k8, .inr k9, fun hv => .inr (by
    by_cases hr : r = .tag
    · exact (k12 hr).2
    · rw [k11 hr] at hv; cases hv)⟩
  refine (cascadeReply_ends k10 (fun hr => ?_) _).mono (fun _ u h => ?_) (fun _ _ h => h)
  · obtain ⟨h1, h2, h3⟩ := k12 hr
    exact ⟨h1, len_le_ten h2, h3⟩
  · obtain ⟨code, data, rfl, h2, h3, h4⟩ := h
    refine ⟨t, code, data, rfl, k1, h2, h3, k6, hT, k2, k9, k3, k4, k5, ?_⟩
    rcases h4 with ⟨h, -⟩ | ⟨h, hr⟩ | ⟨h, hr⟩
    · exact .inl h
    · exact .inr ⟨.inl h, k11 (by rw [hr]; simp)⟩
    · exact .inr ⟨.inr h, k11 (by rw [hr]; simp)⟩

/-- GO_IDLE (R370). -/
theorem goIdle_finishes {s : State} (hp : s.params.wf = true) :
    Finishes goIdleReq s (s.sendTime + s.params.tNoresp)
      (fun c u => TagKept s u ∧ s.out.sent < u.out.sent ∧ u.tag = s.tag ∧ u.ac = s.ac ∧ u.mode.cfg = s.mode.cfg ∧
        u.txn.echoTry = s.txn.echoTry ∧ u.txn.settlePending = false ∧ u.mode.dev = .idle ∧
        (c = .ok ∨ c = .noResponse ∨ c = .malformedFrame)) := by
  refine finishes_of_ends ?_
  unfold goIdleReq
  refine ends_bind ((goIdle_ends hp).mono (fun c t h => ?_) (fun e t h => .inl h))
  obtain ⟨hO, h1, h2, h3, h4, h5, h6⟩ := h
  exact ends_modify ⟨t, c, [], rfl, hO.kept, by simp, fun _ => rfl, hO.before,
    TagKept.of_same hO.ac (.inl h1), hO.sent, h1, hO.ac, h4, h2, h6, h5, h3⟩

/-- What a field-off leaves of the mode and the Tag (R249, R294). -/
def FieldOffAfter (s : State) (c : OutcomeCode) (u : State) : Prop :=
  c = .ok ∧ u.mode.dev = .idle ∧ u.mode.cfg = .plain .fieldOff ∧ u.tag = { s.tag with valid := false } ∨
    (c = .noResponse ∨ c = .malformedFrame) ∧ u.mode.dev = s.mode.dev ∧ u.mode.cfg = s.mode.cfg ∧ u.tag = s.tag

/-- FIELD_OFF (R372). -/
theorem fieldOff_finishes (s : State) :
    Finishes fieldOffReq s (s.sendTime + s.params.tNoresp)
      (fun c u => TagKept s u ∧ s.out.sent < u.out.sent ∧ u.ac = s.ac ∧ u.txn.echoTry = s.txn.echoTry ∧
        u.txn.settlePending = false ∧ FieldOffAfter s c u) := by
  refine finishes_of_ends ?_
  unfold fieldOffReq
  refine ends_bind ((fieldOff_ends s).mono (fun c t h => ?_) (fun e t h => .inl h))
  obtain ⟨hO, h1, h2, h3, h4⟩ := h
  by_cases hc : c = .ok
  · obtain ⟨g1, g2, g3⟩ := h3 hc
    exact ends_modify ⟨t, c, [], rfl, hO.kept, by simp, fun _ => rfl, hO.before,
      TagKept.of_same hO.ac (.inr g3), hO.sent, hO.ac, h1, h2, .inl ⟨hc, g2, g1, g3⟩⟩
  · obtain ⟨g1, g2, g3, g4⟩ := h4 hc
    exact ends_modify ⟨t, c, [], rfl, hO.kept, by simp, fun _ => rfl, hO.before,
      TagKept.of_same hO.ac (.inl g4), hO.sent, hO.ac, h1, h2, .inr ⟨g1, g3, g2, g4⟩⟩

/-- What a selection leaves of the mode and the Tag (R245, R290 to R295). -/
def SelectAfter (s : State) (cfg : ProtoCfg) (c : OutcomeCode) (u : State) : Prop :=
  cfg.pid = .fieldOff ∧ FieldOffAfter s c u ∧ u.txn.settlePending = false ∨
    cfg.pid ≠ .fieldOff ∧ u.tag = s.tag ∧
      (c = .ok ∧ u.mode.dev = .fieldOn ∧ u.mode.cfg = cfg ∧
          (s.configured cfg = true → u.txn.settlePending = false) ∨
        (c = .noResponse ∨ c = .malformedFrame) ∧ u.mode.dev = s.mode.dev ∧ u.mode.cfg = s.mode.cfg ∧
          u.txn.settlePending = false ∨
        c = .deviceFault ∧ u.mode.dev = .error ∧ u.mode.cfg = s.mode.cfg ∧ u.txn.settlePending = false)

/-- A selection, in short. -/
theorem select_ends {s : State} (hp : s.params.wf = true) (cfg : ProtoCfg) :
    Ends (applyConfig cfg) s
      (fun c t => Kept s t ∧ t.now ≤ s.sendTime + max s.params.tNoresp (s.params.echoAttempts * s.params.tEcho) ∧
        TagKept s t ∧ s.out.sent < t.out.sent ∧ t.ac = s.ac ∧ (t.txn.echoTry = s.txn.echoTry ∨
            t.txn.echoTry ≤ s.params.echoAttempts) ∧
        SelectAfter s cfg c t)
      (Aborted (s.sendTime + max s.params.tNoresp (s.params.echoAttempts * s.params.tEcho)) s) := by
  refine (applyConfig_ends hp cfg).mono (fun c t h => ?_) (fun e t h => h)
  obtain ⟨hO, h1, h2, h3, h4, h5, h6⟩ := h
  have hac := hO.ac
  by_cases hf : cfg.pid = .fieldOff
  · by_cases hc : c = .ok
    · obtain ⟨g1, g2, g3, g4⟩ := (h3 hc).1 hf
      exact ⟨hO.kept, hO.before, TagKept.of_same hac (.inr g3), hO.sent, hac, h1, .inl ⟨hf, .inl ⟨hc, g2, g1, g3⟩, g4⟩⟩
    · obtain ⟨g1, g2, g3⟩ := h4 hc
      have hc' : c = .noResponse ∨ c = .malformedFrame := by
        rcases h2 with h | h | h | h
        · exact absurd h hc
        · exact .inl h
        · exact .inr h
        · exact absurd hf (h6 h).1
      exact ⟨hO.kept, hO.before, TagKept.of_same hac (.inl g2), hO.sent, hac, h1, .inl ⟨hf, .inr ⟨hc', h5 hc', g1,
          g2⟩, g3⟩⟩
  · by_cases hc : c = .ok
    · obtain ⟨g1, g2, g3, g4⟩ := (h3 hc).2 hf
      exact ⟨hO.kept, hO.before, TagKept.of_same hac (.inl g3), hO.sent, hac, h1, .inr ⟨hf, g3, .inl ⟨hc, g2, g1, g4⟩⟩⟩
    · obtain ⟨g1, g2, g3⟩ := h4 hc
      refine ⟨hO.kept, hO.before, TagKept.of_same hac (.inl g2), hO.sent, hac, h1, .inr ⟨hf, g2, .inr ?_⟩⟩
      rcases h2 with h | h | h | h
      · exact absurd h hc
      · exact .inl ⟨.inl h, h5 (.inl h), g1, g3⟩
      · exact .inl ⟨.inr h, h5 (.inr h), g1, g3⟩
      · exact .inr ⟨h, (h6 h).2, g1, g3⟩

/-- SELECT_PROTOCOL of a configuration that is asked for in order (R371). -/
theorem selectProtocol_finishes {s : State} (hp : s.params.wf = true) {pid tx rx : Byte} {cfg : ProtoCfg}
    (hc : airConfig pid tx rx = some cfg) :
    Finishes (selectProtocolReq [pid, tx, rx]) s
      (s.sendTime + max s.params.tNoresp (s.params.echoAttempts * s.params.tEcho))
      (fun c u => TagKept s u ∧ s.out.sent < u.out.sent ∧ u.ac = s.ac ∧
        (u.txn.echoTry = s.txn.echoTry ∨ u.txn.echoTry ≤ s.params.echoAttempts) ∧ SelectAfter s cfg c u) := by
  refine finishes_of_ends ?_
  unfold selectProtocolReq selectAir
  simp only [hc]
  refine ends_bind ((select_ends hp cfg).mono (fun c t h => ?_) (fun e t h => .inl h))
  obtain ⟨h1, h2, h3, hs, h4, h5, h6⟩ := h
  exact ends_modify ⟨t, c, [], rfl, h1, by simp, fun _ => rfl, h2, h3, hs, h4, h5, h6⟩

/-- RADIO_SCAN (R364). -/
theorem radioScan_finishes {s : State} (hp : s.params.wf = true) :
    Finishes radioScan s
      (s.sendTime + max s.params.tNoresp (s.params.echoAttempts * s.params.tEcho) +
        (s.params.tRamp + s.params.tOsc + 7 * s.params.tDetect))
      (fun c u => TagKept s u ∧ s.out.sent < u.out.sent ∧ (u.txn.echoTry = s.txn.echoTry ∨
          u.txn.echoTry ≤ s.params.echoAttempts) ∧
        u.txn.settlePending = false ∧
        ((c = .noResponse ∨ c = .malformedFrame) ∧ u.ac = s.ac ∧ u.mode.dev = s.mode.dev ∧ u.mode.cfg = s.mode.cfg ∧
            u.tag = s.tag ∨
          c = .deviceFault ∧ u.ac = s.ac ∧ u.mode.dev = .error ∧ u.mode.cfg = s.mode.cfg ∧ u.tag = s.tag ∨
          u.ac.step = .done ∧ u.mode.dev = .fieldOn ∧ u.mode.cfg = cascadeCfg ∧
            (c = .ok ∨ (c = .noTagDetected ∨ c = .anticollisionFailed) ∧ u.tag.valid = false))) := by
  refine finishes_of_ends ?_
  unfold radioScan selectAir
  have hc : airConfig 2#8 0#8 0#8 = some cascadeCfg := rfl
  have hpid : cascadeCfg.pid ≠ .fieldOff := by decide
  simp only [hc]
  refine Ends.bind (select_ends hp cascadeCfg) (fun c t h => ?_) (fun e t h => .inl (h.mono (by omega)))
  obtain ⟨h1, h2, h3, hn, h4, h5, h6⟩ := h
  unfold SelectAfter at h6
  rcases h6 with ⟨hf, -⟩ | ⟨-, htag, ⟨rfl, hd, hcfg, -⟩ | ⟨hcc, hd, hcfg, hs⟩ | ⟨rfl, hd, hcfg, hs⟩⟩
  · exact absurd hf hpid
  · refine ends_bind ((cascade_ends t).mono (fun r u h => ?_) (fun e u h => ?_))
    · obtain ⟨k1, k2, k3, k4, k5, k6, k7, k8, k9, k10, k11, k12⟩ := h
      have hT : TagKept t u := ⟨k7, fun _ => k8, .inr k9, fun hv => .inr (by
        by_cases hr : r = .tag
        · exact (k12 hr).2
        · rw [k11 hr] at hv; cases hv)⟩
      have hdev : u.mode.dev = .fieldOn := by
        rcases k3 with h | h <;> rw [h, hd]; rfl
      have hnow : u.now ≤ s.sendTime + max s.params.tNoresp (s.params.echoAttempts * s.params.tEcho) +
          (s.params.tRamp + s.params.tOsc + 7 * s.params.tDetect) := by
        rw [h1.params] at k6
        have : t.sendTime ≤ t.now + (s.params.tRamp + s.params.tOsc) := by
          unfold State.sendTime; rw [h1.params]; split <;> omega
        omega
      refine (cascadeReply_ends k10 (fun hr => ?_) _).mono (fun _ v h => ?_) (fun _ _ h => h)
      · obtain ⟨g1, g2, g3⟩ := k12 hr
        exact ⟨g1, len_le_ten g2, g3⟩
      · obtain ⟨code, data, rfl, g2, g3, g4⟩ := h
        refine ⟨u, code, data, rfl, h1.trans k1, g2, g3, hnow, h3.trans hT, Nat.lt_of_lt_of_le hn k1.sent, ?_, k5,
          .inr (.inr ⟨k9, hdev, k2.trans hcfg, ?_⟩)⟩
        · rw [k4]; exact h5
        · rcases g4 with ⟨h, -⟩ | ⟨h, hr⟩ | ⟨h, hr⟩
          · exact .inl h
          · exact .inr ⟨.inl h, k11 (by rw [hr]; simp)⟩
          · exact .inr ⟨.inr h, k11 (by rw [hr]; simp)⟩
    · refine .inl ((Aborted.after_kept h1 h).mono ?_)
      rw [h1.params]
      have : t.sendTime ≤ t.now + (s.params.tRamp + s.params.tOsc) := by
        unfold State.sendTime; rw [h1.params]; split <;> omega
      omega
  · rcases hcc with rfl | rfl
    · exact ends_raise (.inr ⟨_, rfl, h1, by simp, by omega, h3, hn, h5, hs, .inl ⟨.inl rfl, h4, hd, hcfg, htag⟩⟩)
    · exact ends_raise (.inr ⟨_, rfl, h1, by simp, by omega, h3, hn, h5, hs, .inl ⟨.inr rfl, h4, hd, hcfg, htag⟩⟩)
  · exact ends_raise (.inr ⟨_, rfl, h1, by simp, by omega, h3, hn, h5, hs, .inr (.inl ⟨rfl, h4, hd, hcfg, htag⟩)⟩)

/-! ## A whole request -/

/-- A whole request: refused at once with nothing changed, or its procedure (R373). -/
theorem request_finishes {k : RequestKind} {payload : List Byte} {body : Proc Unit} {s : State} {b : Nat}
    {P : OutcomeCode → State → Prop} (hb : s.now ≤ b) (h : Runs k payload s → Finishes body s b P) :
    Finishes (hostRequest k payload body) s b
      (fun c u => u = s ∧ Refuses k payload s c ∨ Runs k payload s ∧ P c u) := by
  rcases hostRequest_cases k payload body s with ⟨c, hr, hc⟩ | ⟨hr, hR⟩
  · exact .inl ⟨s, c, [], conclude_raise hr, Kept.refl s, by simp, fun _ => rfl, hb, .inl ⟨rfl, hc⟩⟩
  · have hcon : conclude (hostRequest k payload body) s = conclude body s := by unfold conclude; rw [hr]
    rcases h hR with ⟨u, code, data, h1, h2, h3, h4, h5, h6⟩ | ⟨u, h1, h2⟩
    · exact .inl ⟨u, code, data, hcon.trans h1, h2, h3, h4, h5, .inr ⟨hR, h6⟩⟩
    · exact .inr ⟨u, hcon.trans h1, h2⟩

/-- A SELECT_PROTOCOL that runs has three bytes that ask for a configuration (R361). -/
theorem runs_select {payload : List Byte} {s : State} (h : Runs .selectProtocol payload s) :
    ∃ pid tx rx cfg, payload = [pid, tx, rx] ∧ airConfig pid tx rx = some cfg := by
  have hv := h.cfg rfl
  match payload, hv with
  | [pid, tx, rx], hv =>
    obtain ⟨cfg, hc⟩ := Option.isSome_iff_exists.mp (show (airConfig pid tx rx).isSome from hv)
    exact ⟨pid, tx, rx, cfg, rfl, hc⟩
  | [], hv => cases hv
  | [_], hv => cases hv
  | [_, _], hv => cases hv
  | _ :: _ :: _ :: _ :: _, hv => cases hv

/-- SELECT_PROTOCOL whatever its payload (R371). -/
theorem select_finishes {s : State} (hp : s.params.wf = true) (payload : List Byte) :
    Finishes (hostRequest .selectProtocol payload (selectProtocolReq payload)) s
      (s.sendTime + max s.params.tNoresp (s.params.echoAttempts * s.params.tEcho))
      (fun c u => u = s ∧ Refuses .selectProtocol payload s c ∨ Runs .selectProtocol payload s ∧
        ∃ cfg, (TagKept s u ∧ s.out.sent < u.out.sent ∧ u.ac = s.ac ∧
          (u.txn.echoTry = s.txn.echoTry ∨ u.txn.echoTry ≤ s.params.echoAttempts) ∧ SelectAfter s cfg c u) ∧
          ∃ pid tx rx, payload = [pid, tx, rx] ∧ airConfig pid tx rx = some cfg) := by
  refine request_finishes (le_trans (le_sendTime s) (Nat.le_add_right _ _)) fun h => ?_
  obtain ⟨pid, tx, rx, cfg, rfl, hc⟩ := runs_select h
  exact (selectProtocol_finishes hp hc).mono (le_refl _) fun _ _ h => ⟨cfg, h, pid, tx, rx, rfl, hc⟩

/-- What an answer of a request says, once the reset input is not the one that ended it. -/
theorem Finishes.next {p : Proc Unit} {s t : State} {b : Nat} {P : OutcomeCode → State → Prop}
    (h : Finishes p s b P) (hn : conclude p s = .next t) (hr : s.env.resetLine = []) :
    ∃ u code data, t = u.finish code data ∧ Kept s u ∧ data.length ≤ maxPayload ∧ (code ≠ .ok → data = []) ∧
      u.now ≤ b ∧ P code u := by
  rcases h with ⟨u, c, d, h1, h2⟩ | ⟨u, h1, h2⟩
  · rw [h1] at hn
    cases hn
    exact ⟨u, c, d, rfl, h2⟩
  · obtain ⟨r, hr', -⟩ := h2.asserted
    rw [hr] at hr'
    cases hr'

/-- However a request ends, it is over by the bound. -/
theorem Finishes.time {p : Proc Unit} {s t : State} {b : Nat} {P : OutcomeCode → State → Prop}
    (h : Finishes p s b P) (hn : conclude p s = .next t) : t.now ≤ b ∧ s.now ≤ t.now ∧ t.params = s.params := by
  rcases h with ⟨u, c, d, h1, h2, -, -, h5, -⟩ | ⟨u, h1, h2⟩
  · rw [h1] at hn
    cases hn
    exact ⟨h5, h2.now, h2.params⟩
  · rw [h1] at hn
    cases hn
    exact ⟨h2.before, h2.after, h2.params⟩

end Sys2Proof.Laws
end

