-- ==== Sys2Proof/Laws/Rows.lean ====
section
/-! SUPPORT. Everything a chip row and an air row can end in, WHATEVER the CHIP does (R230, R236 to R243,
R310 to R326). -/

namespace Sys2Proof.Laws

open Sys2Proof.Machine

/-! ## Chip rows -/

/-- The deadline kind of a chip row (R115). -/
def rowKind : Instr → DeadlineKind
  | .echo => .echo
  | .sendRecv _ => .detect
  | _ => .noresp

/-- A success of this row sets settle_pending (R208). -/
def rowSettles (p : Params) : Instr → Bool
  | .baudrate _ => true
  | .protocol wire _ => wire != p.pidFieldOff
  | _ => false

/-- What a command returned is a success. -/
def Succeeded (r : CallResult) : Prop :=
  r = .alive ∨ ∃ st body, r = .frame st body

/-- What a chip row leaves: the exchange, the settle that some commands' success asks for, and what it returned. -/
def CalledRow (i : Instr) (s : State) (o : Host.Outcome State Fault Refusal) : Prop :=
  (∃ u r pend, o = .next { u with txn.settlePending := pend, out.callResult := some r } ∧
      Transacted s u (rowKind i) (encode s.params i) ∧
      (u.mode.dev = s.mode.dev ∨ u.mode.dev = s.mode.dev.afterSuccess ∧ Succeeded r) ∧
      (pend = true → rowSettles s.params i = true ∧ ∃ st body, r = .frame st body)) ∨
    ∃ u, o = .next u.resetAction ∧ Aborted (s.sendTime + s.params.ticks (rowKind i)) s .reset u

/-- What settles after a command's result (R208). -/
theorem settleAfter_ok (c : FrameCmd) (payload : List Byte) (r : Reception) (s : State) :
    (settleAfter c payload r).run s = .ok r
      (match r with
        | .frame _ _ => { s with txn.settlePending := s.txn.settlePending || setsSettle s.params c payload }
        | _ => s) := by
  cases r <;> rfl

/-- A framed command run for its caller, its settle with it. -/
theorem callFramed_row {i : Instr} {c : FrameCmd} {payload : List Byte} {ok : Byte} {q : Proc Reception} {s : State}
    (hl : payload.length ≤ maxPayload)
    (hq : q.run s = (do settleAfter c payload (← chipTxn c payload (rowKind i) ok) : Proc Reception).run s)
    (he : exec i s = conclude (callFramed q) s) (hb : encode s.params i = encodeChip s.params c payload)
    (hs : rowSettles s.params i = setsSettle s.params c payload) : CalledRow i s (exec i s) := by
  have h := chipTxn_ends (c := c) (payload := payload) (kind := rowKind i) (ok := ok) (s := s) hl
  unfold Ends at h
  rw [he]
  cases hr : (chipTxn c payload (rowKind i) ok).run s with
  | error e u =>
    rw [hr] at h
    obtain rfl := h.reset
    exact .inr ⟨u, conclude_reset (by simp only [callFramed, run_bind, hq, hr]), h⟩
  | ok r u =>
    rw [hr] at h
    obtain ⟨hT, h2⟩ := h
    have hT' : Transacted s u (rowKind i) (encode s.params i) := by rw [hb]; exact hT
    cases r with
    | frame st body =>
      refine .inl ⟨u, .frame st body, setsSettle s.params c payload, ?_, hT', .inr ⟨h2.2.2.2.1, .inr ⟨_, _, rfl⟩⟩,
        fun hp => ⟨hs.trans hp, _, _, rfl⟩⟩
      refine conclude_ok (a := ⟨⟩) ?_
      simp only [callFramed, run_bind, hq, hr, settleAfter_ok, hT.settled, hT.untouched.params, Bool.false_or]
      rfl
    | noResponse =>
      refine .inl ⟨u, .noResponse, u.txn.settlePending, ?_, hT', .inl h2, fun hp => ?_⟩
      · exact conclude_ok (a := ⟨⟩) (by simp only [callFramed, run_bind, hq, hr, settleAfter_ok]; rfl)
      · rw [hT.settled] at hp; cases hp
    | malformedFrame =>
      refine .inl ⟨u, .malformedFrame, u.txn.settlePending, ?_, hT', .inl h2, fun hp => ?_⟩
      · exact conclude_ok (a := ⟨⟩) (by simp only [callFramed, run_bind, hq, hr, settleAfter_ok]; rfl)
      · rw [hT.settled] at hp; cases hp

/-- A command whose success settles nothing. -/
theorem settleAfter_none {c : FrameCmd} {payload : List Byte} {q : Proc Reception}
    (h : ∀ p, setsSettle p c payload = false) (s : State) :
    q.run s = (do settleAfter c payload (← q) : Proc Reception).run s := by
  simp only [run_bind]
  cases hr : q.run s with
  | error e u => rfl
  | ok r u => cases r <;> simp [settleAfter_ok, h]

/-- Everything a chip row can end in (R230, R236 to R243). -/
theorem chipRow_ends {i : Instr} {s : State} (hp : s.params.wf = true) (hi : i.space = .chip) (hw : i.wf = true) :
    CalledRow i s (exec i s) := by
  have hid := (params_wf hp).2.2.2.2.2.2.2
  cases i <;> simp only [Instr.space, reduceCtorEq] at hi
  case idn =>
    refine callFramed_row (q := idn) (c := .idn) (payload := []) (ok := s.params.stOk) (Nat.zero_le _) ?_ rfl rfl rfl
    rw [← settleAfter_none (fun _ => rfl)]; simp only [idn, run_bind, run_get]; rfl
  case protocol w q =>
    refine callFramed_row (q := protocolAtEntry w q) (c := .protocol) (payload := [w, q]) (ok := s.params.stOk)
      (by simp [maxPayload]) ?_ rfl rfl rfl
    simp only [protocolAtEntry, protocol, run_bind, run_get]; rfl
  case sendRecv b =>
    refine callFramed_row (q := sendRecv b) (c := .sendRecv) (payload := b) (ok := s.params.stData)
      (of_decide_eq_true (Bool.and_eq_true_iff.mp hw).2) ?_ rfl rfl rfl
    rw [← settleAfter_none (fun _ => rfl)]; simp only [sendRecv, run_bind, run_get]; rfl
  case idle =>
    refine callFramed_row (q := idleCmd) (c := .idle) (payload := s.params.idleParams) (ok := s.params.stOk) hid ?_ rfl
      rfl rfl
    rw [← settleAfter_none (fun _ => rfl)]; simp only [idleCmd, run_bind, run_get]; rfl
  case readReg q =>
    refine callFramed_row (q := readReg q) (c := .readReg) (payload := q) (ok := s.params.stOk) (of_decide_eq_true hw)
      ?_ rfl rfl rfl
    rw [← settleAfter_none (fun _ => rfl)]; simp only [readReg, run_bind, run_get]; rfl
  case writeReg q =>
    refine callFramed_row (q := writeReg q) (c := .writeReg) (payload := q) (ok := s.params.stOk) (of_decide_eq_true hw)
      ?_ rfl rfl rfl
    rw [← settleAfter_none (fun _ => rfl)]; simp only [writeReg, run_bind, run_get]; rfl
  case baudrate q =>
    refine callFramed_row (q := baudrate q) (c := .baudrate) (payload := q) (ok := s.params.stOk) (of_decide_eq_true hw)
      ?_ rfl rfl rfl
    simp only [baudrate, run_bind, run_get]; rfl
  case echo =>
    have h := echoAttempt_ends s
    unfold Ends at h
    cases hr : echoAttempt.run s with
    | error e u =>
      rw [hr] at h
      obtain rfl := h.reset
      exact .inr ⟨u, conclude_reset (by simp only [run_bind, hr]), h⟩
    | ok r u =>
      rw [hr] at h
      obtain ⟨hT, h2⟩ := h
      refine .inl ⟨u, echoResult r, u.txn.settlePending, ?_, hT, ?_, fun hp => ?_⟩
      · exact conclude_ok (a := ⟨⟩) (by simp only [run_bind, hr]; rfl)
      · cases r
        · exact .inl h2
        · exact .inr ⟨h2, .inl rfl⟩
      · rw [hT.settled] at hp; cases hp

/-! ## Air rows -/

/-- The level an air row is of, none for REQA. -/
def airLevel : Instr → Option Level
  | .anticolL1 => some .l1
  | .anticolL2 => some .l2
  | .anticolL3 => some .l3
  | .selectL1 _ _ _ _ _ => some .l1
  | .selectL2 _ _ _ _ _ => some .l2
  | .selectL3 _ _ _ _ _ => some .l3
  | _ => none

/-- What an air row leaves: the step's own effect, and where it ends the cascade the end of the request. A SELECT whose
UID bytes so far are out of step with its level may fault. -/
def SteppedRow (i : Instr) (s : State) (o : Host.Outcome State Fault Refusal) : Prop :=
  (∃ u r, Stepped s u r ∧ (r = .tag → i ≠ .reqa) ∧ (r = .goOn → o = .next u ∧ u.tag = s.tag ∧
        ((u.ac.step = .anticol ∧ ∃ m, u.ac.level = some m ∧
            (i = .reqa → m = .l1 ∧ u.ac.uidLen = s.ac.uidLen ∧ u.ac.uidBuf = s.ac.uidBuf) ∧
            (∀ n, airLevel i = some n → n.next = some m ∧ (UidAt n s → UidAt m u))) ∨
          i ≠ .reqa ∧ u.ac.step = .select ∧ u.ac.cand.filled 5 = true ∧ u.ac.level = s.ac.level ∧
              u.ac.uidLen = s.ac.uidLen ∧
            u.ac.uidBuf = s.ac.uidBuf)) ∧
      (r ≠ .goOn → ∃ code data, o = .next (u.finish code data) ∧ data.length ≤ maxPayload ∧
        (code ≠ .ok → data = []) ∧ code ∈ [.ok, .noTagDetected, .anticollisionFailed] ∧ (code = .ok ↔ r = .tag) ∧
        (r = .tag → u.ac.uidLen = s.ac.uidLen + 4 ∧ u.ac.uidBuf.filled u.ac.uidLen = true) ∧
        (r ≠ .tag → u.ac.uidLen = s.ac.uidLen ∧ u.ac.uidBuf = s.ac.uidBuf))) ∨
    (∃ u, o = .next u.resetAction ∧ Aborted (s.sendTime + s.params.tDetect) s .reset u) ∨
    (∃ f, o = .fault f) ∧ ∃ n, airLevel i = some n ∧ ¬ UidAt n s

/-- A step that ends the cascade ends the request. -/
theorem runStep_ended {p : Proc StepResult} {s u : State} {r : StepResult} (h : p.run s = .ok r u) (hr : r ≠ .goOn)
    (ht : r = .tag → u.tag.valid = true ∧ u.tag.len ≤ 10 ∧ u.tag.uid.filled u.tag.len = true) :
    ∃ code data, conclude (runStep p) s = .next (u.finish code data) ∧ data.length ≤ maxPayload ∧
      (code ≠ .ok → data = []) ∧ code ∈ [.ok, .noTagDetected, .anticollisionFailed] ∧ (code = .ok ↔ r = .tag) := by
  have hC := cascadeReply_ends hr ht (fun _ _ => False)
  unfold Ends at hC
  cases hc : (cascadeReply r).run u with
  | error e v => rw [hc] at hC; exact hC.elim
  | ok a v =>
    rw [hc] at hC
    obtain ⟨code, data, rfl, h2, h3, h4⟩ := hC
    refine ⟨code, data, ?_, h2, h3, ?_⟩
    · exact conclude_ok (a := ⟨⟩) (by simp only [runStep, run_bind, h, hc])
    · rcases h4 with ⟨h, h'⟩ | ⟨h, h'⟩ | ⟨h, h'⟩ <;> simp [h, h']

theorem runStep_goOn {p : Proc StepResult} {s u : State} (h : p.run s = .ok .goOn u) :
    conclude (runStep p) s = .next u :=
  conclude_ok (a := ⟨⟩) (by simp only [runStep, run_bind, h]; rfl)

theorem runStep_error {p : Proc StepResult} {s u : State} {e : Stop} (h : p.run s = .error e u) :
    (runStep p).run s = .error e u := by
  simp only [runStep, run_bind, h]

theorem reqa_row (s : State) : SteppedRow .reqa s (exec .reqa s) := by
  have h := stepReqa_ends s
  unfold Ends at h
  cases hr : stepReqa.run s with
  | error e u =>
    rw [hr] at h
    obtain rfl := h.reset
    exact .inr (.inl ⟨u, conclude_reset (runStep_error hr), h⟩)
  | ok r u =>
    rw [hr] at h
    obtain ⟨hS, hnt, hl, hb, -, hg⟩ := h
    refine .inl ⟨u, r, hS, fun h => absurd h hnt, fun hgo => ?_, fun hne => ?_⟩
    · subst hgo
      exact ⟨runStep_goOn hr, hS.same (by simp),
        .inl ⟨(hg rfl).1, .l1, (hg rfl).2, fun _ => ⟨rfl, hl, hb⟩, fun n hn => by simp [airLevel] at hn⟩⟩
    · obtain ⟨code, data, h1, h2, h3, h4, h5⟩ := runStep_ended hr hne (fun h => absurd h hnt)
      exact ⟨code, data, h1, h2, h3, h4, h5, fun h => absurd h hnt, fun _ => ⟨hl, hb⟩⟩

theorem anticol_row {i : Instr} {n : Level} {s : State} (he : exec i s = conclude (runStep (stepAnticol n)) s)
    (hn : i ≠ .reqa) : SteppedRow i s (exec i s) := by
  have h := stepAnticol_ends n s
  unfold Ends at h
  rw [he]
  cases hr : (stepAnticol n).run s with
  | error e u =>
    rw [hr] at h
    obtain rfl := h.reset
    exact .inr (.inl ⟨u, conclude_reset (runStep_error hr), h⟩)
  | ok r u =>
    rw [hr] at h
    obtain ⟨hS, hc, hl, hb, hlev, hg⟩ := h
    have hnt : r ≠ .tag := by rcases hc with rfl | rfl <;> simp
    refine .inl ⟨u, r, hS, fun _ => hn, fun hgo => ?_, fun hne => ?_⟩
    · subst hgo
      exact ⟨runStep_goOn hr, hS.same (by simp), .inr ⟨hn, (hg rfl).1, (hg rfl).2, hlev, hl, hb⟩⟩
    · obtain ⟨code, data, h1, h2, h3, h4, h5⟩ := runStep_ended hr hne (fun h => absurd h hnt)
      exact ⟨code, data, h1, h2, h3, h4, h5, fun h => absurd h hnt, fun _ => ⟨hl, hb⟩⟩

theorem select_row {i : Instr} {n : Level} {c0 c1 c2 c3 b : Byte} {s : State}
    (he : exec i s = conclude (runStep (stepSelect n c0 c1 c2 c3 b)) s) (hn : airLevel i = some n) :
    SteppedRow i s (exec i s) := by
  have h := stepSelect_ends n c0 c1 c2 c3 b s
  unfold Ends at h
  rw [he]
  cases hr : (stepSelect n c0 c1 c2 c3 b).run s with
  | error e u =>
    rw [hr] at h
    rcases h with h | ⟨⟨f, rfl⟩, h⟩
    · obtain rfl := h.reset
      exact .inr (.inl ⟨u, conclude_reset (runStep_error hr), h⟩)
    · exact .inr (.inr ⟨⟨f, conclude_fault (runStep_error hr)⟩, n, hn, h⟩)
  | ok r u =>
    rw [hr] at h
    obtain ⟨hS, hnn, hf, hg, ht⟩ := h
    refine .inl ⟨u, r, hS, fun _ h => by subst h; simp [airLevel] at hn, fun hgo => ?_, fun hne => ?_⟩
    · subst hgo
      obtain ⟨h1, m, h2, h3, -, h5⟩ := hg rfl
      refine ⟨runStep_goOn hr, hS.same (by simp), .inl ⟨h1, m, h3, fun h => ?_, fun n' hn' => ?_⟩⟩
      · subst h; simp [airLevel] at hn
      · rw [hn] at hn'; cases hn'; exact ⟨h2, h5⟩
    · obtain ⟨code, data, h1, h2, h3, h4, h5⟩ := runStep_ended hr hne (fun h => by
        obtain ⟨g1, g2, g3⟩ := hS.made h
        exact ⟨g1, by rw [g2]; have := (ht h).2.2; omega, g3⟩)
      refine ⟨code, data, h1, h2, h3, h4, h5, fun h => ⟨(ht h).1, (ht h).2.1⟩, fun h => hf ?_⟩
      cases r with
      | goOn => exact absurd rfl hne
      | noTag => exact absurd rfl hnn
      | failed => rfl
      | tag => exact absurd rfl h

/-- Everything an air row can end in (R310 to R326). -/
theorem airRow_ends {i : Instr} (s : State) (hi : i.space = .air) : SteppedRow i s (exec i s) := by
  cases i <;> simp only [Instr.space, reduceCtorEq] at hi
  case reqa => exact reqa_row s
  case anticolL1 => exact anticol_row rfl (by simp)
  case anticolL2 => exact anticol_row rfl (by simp)
  case anticolL3 => exact anticol_row rfl (by simp)
  case selectL1 => exact select_row rfl rfl
  case selectL2 => exact select_row rfl rfl
  case selectL3 => exact select_row rfl rfl

end Sys2Proof.Laws
end

