-- ==== Sys2Proof/Tests/Slice0.lean ====
section
/-! SUPPORT. The model's own tests. Expected values come from spec/95_test_vectors.md (its vector ids are named), from
the encoding rules of spec/30_encoding.md, or by hand from the rule named. Then, for every statement that has
hypotheses, a concrete state and operands that meet them. -/

set_option Elab.async false

namespace Sys2Proof.Tests

open Sys2Proof.Machine

/-! ## Helpers -/

/-- The defaults with the OPEN parameters given values: IDLE_PARAMS = [], as the conventions of spec/95 have it. -/
def params : Params :=
  { Params.default with idleParams := [], protoParam15693 := 0x0A#8, protoParam18092 := 0x0B#8 }

/-- The same under SPI. -/
def spiParams : Params := { params with transport := .spi }

/-- IDLE with no settle pending. -/
def start : State :=
  { State.reset with params := params, mode.dev := .idle, txn.settlePending := false }

/-- FIELD_ON for ISO14443A with no settle pending. -/
def field : State :=
  { start with mode := { dev := .fieldOn, resume := .idle, cfg := .plain .iso14443A } }

/-- ERROR. -/
def dead : State := { start with mode.dev := .error }

/-- IDLE with no settle pending, under SPI. -/
def spiStart : State := { start with params := spiParams }

/-- Bytes that come one tick apart after so many transmissions. -/
def feed (after time : Nat) : List Byte → List Arrival
  | [] => []
  | b :: bs => { time := time, after := after, byte := b } :: feed after (time + 1) bs

/-- The state with these bytes on their way. -/
def hearing (s : State) (as : List Arrival) : State := { s with chip.rx := as }

/-- A state in which a request is latched. -/
def asked (s : State) (sel : Byte) (payload : List Byte) : State := s.present sel payload

/-- The answer is a next state of which this holds. -/
def answers (o : Host.Outcome State Fault Refusal) (p : State → Bool) : Bool :=
  match o with
  | .next t => p t
  | _ => false

theorem of_answers {o : Host.Outcome State Fault Refusal} {p : State → Bool} (h : answers o p = true) :
    ∃ t, o = .next t ∧ p t = true := by
  cases o with
  | next t => exact ⟨t, rfl, h⟩
  | fault f => cases h
  | refused r => cases h

/-- The procedure ends normally, its value and state meeting this. -/
def ends {α : Type} (r : EStateM.Result Stop State α) (p : α → State → Bool) : Bool :=
  match r with
  | .ok a t => p a t
  | .error _ _ => false

theorem of_ends {α : Type} {r : EStateM.Result Stop State α} {p : α → State → Bool} (h : ends r p = true) :
    ∃ a t, r = .ok a t ∧ p a t = true := by
  cases r with
  | ok a t => exact ⟨a, t, rfl, h⟩
  | error e t => cases h

/-- The bytes handed to the transport. -/
def sentBytes (t : State) : List Byte :=
  t.out.line.filterMap fun e =>
    match e with
    | .tx _ b => some b
    | _ => none

/-- The reply that stands in rsp_buf. -/
def replyOf (t : State) : Option (List Byte) := t.host.rspBuf.readRange 0 t.host.rspLen

/-- The Tag register's bytes. -/
def tagOf (t : State) : Option (List Byte) := if t.tag.valid then t.tag.uid.readRange 0 t.tag.len else none

/-! ## Well-formedness: an ill-formed term for each check -/

theorem test_wf_refuses_host_payload_255 :
    ([Instr.radioScan, .echoTest, .calibration, .getChipId, .getUid, .runAnticol, .goIdle, .selectProtocol,
      .fieldOff].all fun i => !(i (List.replicate 255 0#8)).wf && (i (List.replicate 254 0#8)).wf) = true := by
  decide +kernel

theorem test_wf_refuses_empty_sendRecv : (Instr.sendRecv []).wf = false := by decide

theorem test_wf_refuses_chip_payload_255 :
    ([Instr.sendRecv, .readReg, .writeReg, .baudrate].all fun i =>
      !(i (List.replicate 255 0#8)).wf && (i (List.replicate 254 0#8)).wf) = true := by
  decide +kernel

/-! ## Decoding: words written out from the encoding rules (R114 to R126, R131, R132) -/

theorem test_decode_radioScan : decode params .host [0x00#8, 0x00#8] = .ok (.radioScan [], []) := by decide
theorem test_decode_echoTest : decode params .host [0x01#8, 0x00#8] = .ok (.echoTest [], []) := by decide
theorem test_decode_calibration :
    decode params .host [0x02#8, 0x02#8, 0x01#8, 0x02#8] = .ok (.calibration [0x01#8, 0x02#8], []) := by decide
theorem test_decode_getChipId : decode params .host [0x03#8, 0x00#8] = .ok (.getChipId [], []) := by decide
theorem test_decode_getUid : decode params .host [0x04#8, 0x01#8, 0x00#8] = .ok (.getUid [0x00#8], []) := by decide
theorem test_decode_runAnticol : decode params .host [0x05#8, 0x00#8] = .ok (.runAnticol [], []) := by decide
theorem test_decode_goIdle : decode params .host [0x06#8, 0x00#8] = .ok (.goIdle [], []) := by decide
theorem test_decode_selectProtocol :
    decode params .host [0x07#8, 0x03#8, 0x03#8, 0x01#8, 0x02#8] =
      .ok (.selectProtocol [0x03#8, 0x01#8, 0x02#8], []) := by decide
theorem test_decode_fieldOff : decode params .host [0x08#8, 0x00#8] = .ok (.fieldOff [], []) := by decide
theorem test_decode_idn : decode params .chip [0x01#8, 0x00#8] = .ok (.idn, []) := by decide
theorem test_decode_protocol :
    decode params .chip [0x02#8, 0x02#8, 0x03#8, 0x61#8] = .ok (.protocol 0x03#8 0x61#8, []) := by decide
theorem test_decode_sendRecv :
    decode params .chip [0x04#8, 0x02#8, 0x26#8, 0x07#8] = .ok (.sendRecv [0x26#8, 0x07#8], []) := by decide
theorem test_decode_idle : decode params .chip [0x07#8, 0x00#8] = .ok (.idle, []) := by decide
theorem test_decode_readReg :
    decode params .chip [0x08#8, 0x03#8, 0x69#8, 0x01#8, 0x00#8] = .ok (.readReg [0x69#8, 0x01#8, 0x00#8], []) := by
  decide
theorem test_decode_writeReg :
    decode params .chip [0x09#8, 0x02#8, 0x3A#8, 0x58#8] = .ok (.writeReg [0x3A#8, 0x58#8], []) := by decide
theorem test_decode_baudrate : decode params .chip [0x0A#8, 0x01#8, 0x75#8] = .ok (.baudrate [0x75#8], []) := by decide
theorem test_decode_echo : decode params .chip [0x55#8] = .ok (.echo, []) := by decide
theorem test_decode_reqa : decode params .air [0x26#8, 0x07#8] = .ok (.reqa, []) := by decide
theorem test_decode_anticolL1 : decode params .air [0x93#8, 0x20#8, 0x08#8] = .ok (.anticolL1, []) := by decide
theorem test_decode_anticolL2 : decode params .air [0x95#8, 0x20#8, 0x08#8] = .ok (.anticolL2, []) := by decide
theorem test_decode_anticolL3 : decode params .air [0x97#8, 0x20#8, 0x08#8] = .ok (.anticolL3, []) := by decide
theorem test_decode_selectL1 :
    decode params .air [0x93#8, 0x70#8, 0xDE#8, 0xAD#8, 0xBE#8, 0xEF#8, 0x22#8, 0x28#8] =
      .ok (.selectL1 0xDE#8 0xAD#8 0xBE#8 0xEF#8 0x22#8, []) := by decide
theorem test_decode_selectL2 :
    decode params .air [0x95#8, 0x70#8, 0xC5#8, 0x1A#8, 0x2B#8, 0x80#8, 0x74#8, 0x28#8] =
      .ok (.selectL2 0xC5#8 0x1A#8 0x2B#8 0x80#8 0x74#8, []) := by decide
theorem test_decode_selectL3 :
    decode params .air [0x97#8, 0x70#8, 0x66#8, 0x77#8, 0x99#8, 0xAA#8, 0x22#8, 0x28#8] =
      .ok (.selectL3 0x66#8 0x77#8 0x99#8 0xAA#8 0x22#8, []) := by decide

/-- R136, R113, R137, R115: what is no instruction is refused by name. -/
theorem test_decode_refuses :
    decode params .host [0x09#8, 0x00#8] = .error (.reservedSelector 0x09#8) ∧
      decode params .host [0x00#8, 0xFF#8] = .error (.illegalLength 0xFF#8) ∧
      decode params .host [0x07#8, 0x03#8, 0x02#8] = .error .truncated ∧
      decode params .chip [0x03#8, 0x00#8] = .error (.unknownOpcode 0x03#8) ∧
      decode params .chip [0x01#8, 0x01#8, 0x00#8] = .error (.wrongPayload 0x01#8) ∧
      decode params .air [0x93#8, 0x70#8, 0x08#8] = .error .unknownAir := by decide

/-- R137: a frame ends after its trailer, and one that stops before it is truncated. -/
theorem test_decode_trailer :
    decode { params with frameTrailerLen := 1 } .chip [0x01#8, 0x00#8] = .error .truncated ∧
      decode { params with frameTrailerLen := 1 } .chip [0x55#8, 0x00#8] = .ok (.echo, [0x00#8]) := by decide

/-- Every row of spec/opcode_table.json, its match value at its width. -/
theorem test_decode_table_words :
    [decodeTableWord 8 0x00, decodeTableWord 8 0x03, decodeTableWord 8 0x05, decodeTableWord 8 0x06,
      decodeTableWord 8 0x08] =
      [some (.radioScan []), some (.getChipId []), some (.runAnticol []), some (.goIdle []), some (.fieldOff [])] ∧
    [decodeTableWord 8 0x0A, decodeTableWord 8 0x09, decodeTableWord 8 0x55] =
      [some (.baudrate []), some (.writeReg []), some .echo] ∧
    [decodeTableWord 24 0x932008, decodeTableWord 24 0x972008, decodeTableWord 64 0x9570000000000028] =
      [some .anticolL1, some .anticolL3, some (.selectL2 0#8 0#8 0#8 0#8 0#8)] := by decide +kernel

/-- The host's fetch word runs as the first instruction after reset: a host row, a chip row, an air row. -/
theorem test_withFetchWord :
    answers (step (State.reset.withFetchWord 8 0x04)) (fun t => replyOf t == some [0x03#8]) = true ∧
      answers (step (State.reset.withFetchWord 8 0x55)) (fun t => sentBytes t == [0x55#8]) = true ∧
      answers (step (State.reset.withFetchWord 16 0x2607)) (fun t => replyOf t == some [0x03#8]) = true := by
  decide +kernel

/-! ## Reset and the handshake (R58, R360, R451) -/

theorem test_reset_then_request :
    answers (Host.Core.run Sys2Proof.core 3
        { State.reset with env.hostLine := [⟨0, .present 0x04#8 []⟩, ⟨1, .take⟩] })
      (fun t => replyOf t == some [0x03#8] && t.host.phase == .done) = true := by decide +kernel

/-- R360: a Present of 255 bytes at READY is no step of the HOST's, and is gone. -/
theorem test_present_too_long :
    answers (step { start with env.hostLine := [⟨0, .present 0x04#8 (List.replicate 255 0#8)⟩] })
      (fun t => t == start) = true := by decide +kernel

theorem test_reset_during_request :
    answers (step (asked { start with env.resetLine := [100] } 0x03#8 []))
      (fun t => t.now == 100 && t.mode.dev == .uninitialized && t.host.phase == .ready) = true := by decide +kernel

/-! ## The frame codec (FR1 to FR23) -/

theorem test_FR3 :
    ends ((encodeFrame 0x04#8 ((List.range 254).map (BitVec.ofNat 8))).run start) (fun _ t =>
      t.txn.txLen == 256 && t.txn.txBuf.read 1 == some 0xFE#8 && t.txn.txBuf.read 255 == some 0xFD#8) = true := by
  decide +kernel

/-- The read exchange: chip-select, control byte 02, 7 bytes clocked in at 40, release; and for a length byte of 0xFF
two bytes clocked in. -/
theorem test_FR8_FR9 :
    ends ((receive .noresp).run { spiStart with
        chip.ready := [⟨40, 0⟩], chip.miso := [0x80#8, 0x05#8, 0x44#8, 0x00#8, 0x28#8, 0x00#8, 0x00#8] })
      (fun r t => r == .frame 0x80#8 [0x44#8, 0x00#8, 0x28#8, 0x00#8, 0x00#8] && t.now == 40 &&
        t.out.line == .select 40 :: .tx 40 0x02#8 :: List.replicate 7 (.dummy 40) ++ [.release 40]) = true ∧
      ends ((receive .noresp).run { spiStart with chip.ready := [⟨40, 0⟩], chip.miso := [0x00#8, 0xFF#8] })
        (fun r t => r == .malformedFrame &&
          t.out.line == [.select 40, .tx 40 0x02#8, .dummy 40, .dummy 40, .release 40]) = true := by decide +kernel

/-- The poll exchange: control byte 03 and a flag byte a tick, to the third; and one that runs out at tick 2 (R170). -/
theorem test_FR10 :
    let polling := { spiStart with params.readyMethod := .poll, chip.miso := [0x06#8, 0x06#8, 0x0E#8] }
    ends ((waitReady 10).run polling) (fun r t => r && t.now == 2 &&
        t.out.line == [.select 0, .tx 0 0x03#8, .dummy 0, .dummy 1, .dummy 2, .release 2]) = true ∧
      ends ((waitReady 2).run polling) (fun r t => !r && t.now == 2 &&
        t.out.line == [.select 0, .tx 0 0x03#8, .dummy 0, .dummy 1, .release 2]) = true := by decide +kernel

/-- EchoSend under SPI shifts 00 55; the echo's reply is read in a second exchange. -/
theorem test_FR11 :
    ends (echoSend.run spiStart) (fun _ t =>
        t.out.line == [.select 0, .tx 0 0x00#8, .tx 0 0x55#8, .release 0]) = true ∧
      ends (echoReceive.run { spiStart with chip.ready := [⟨3, 0⟩], chip.miso := [0x55#8] }) (fun r t =>
        r == some 0x55#8 && t.out.line == [.select 3, .tx 3 0x02#8, .dummy 3, .release 3]) = true := by decide +kernel

theorem test_FR19_FR21 :
    answers (exec (.getChipId []) (hearing start [⟨10, 1, 0x00#8⟩, ⟨510, 1, 0x00#8⟩]))
        (fun t => replyOf t == some [0x01#8] && t.now == 510) = true ∧
      answers (exec (.getChipId []) (hearing start [⟨2500000, 1, 0x00#8⟩]))
        (fun t => replyOf t == some [0x01#8] && t.now == 2500000) = true := by decide +kernel

/-! ## The chip rows (CE1 to CE13) -/

theorem test_CE2 :
    answers (exec .idn (hearing { start with mode.dev := .uninitialized, txn.settlePending := true }
        (feed 1 18010 [0x00#8, 0x00#8])))
      (fun t => t.out.callResult == some (.frame 0x00#8 []) && t.mode.dev == .idle && t.now == 18011) = true := by
  decide +kernel

theorem test_CE3 :
    answers (exec (.protocol 0x02#8 0x00#8) (hearing start (feed 1 10 [0x00#8, 0x00#8])))
      (fun t => sentBytes t == [0x02#8, 0x02#8, 0x02#8, 0x00#8] && t.txn.settlePending && t.mode.dev == .idle) =
        true := by
  decide +kernel

/-- R208(b): PROTOCOL with FIELD_OFF's wire_pid, and one that fails, set no settle. -/
theorem test_protocol_sets_no_settle :
    answers (exec (.protocol 0x00#8 0x00#8) (hearing start (feed 1 10 [0x00#8, 0x00#8])))
        (fun t => t.out.callResult == some (.frame 0x00#8 []) && !t.txn.settlePending) = true ∧
      answers (exec (.protocol 0x02#8 0x00#8) (hearing start (feed 1 10 [0x82#8, 0x00#8])))
        (fun t => t.out.callResult == some .noResponse && !t.txn.settlePending) = true := by decide +kernel

theorem test_CE5_CE6 :
    answers (exec (.sendRecv [0x26#8, 0x07#8])
        (hearing start (feed 1 10 [0x80#8, 0x05#8, 0x44#8, 0x00#8, 0x28#8, 0x00#8, 0x00#8])))
      (fun t => t.out.callResult == some (.frame 0x80#8 [0x44#8, 0x00#8, 0x28#8, 0x00#8, 0x00#8])) = true ∧
    answers (exec (.sendRecv [0x26#8, 0x07#8]) (hearing start (feed 1 10 [0x87#8, 0x00#8])))
      (fun t => t.out.callResult == some .noResponse && t.txn.lastStatus == 0x87#8) = true := by decide +kernel

theorem test_CE7 :
    answers (exec .idle field) (fun t =>
      t.out.callResult == some .noResponse && t.now == 2500000 && sentBytes t == [0x07#8, 0x00#8] &&
        t.mode.dev == .fieldOn) = true := by decide +kernel

theorem test_CE8 :
    answers (exec (.readReg [0x69#8, 0x01#8, 0x00#8]) (hearing start (feed 1 10 [0x00#8, 0x01#8, 0x5F#8])))
      (fun t => t.out.callResult == some (.frame 0x00#8 [0x5F#8])) = true := by decide +kernel

theorem test_CE9 :
    answers (exec (.writeReg [0x3A#8, 0x58#8]) (hearing start (feed 1 10 [0x00#8, 0x00#8])))
      (fun t => sentBytes t == [0x09#8, 0x02#8, 0x3A#8, 0x58#8] && t.out.callResult == some (.frame 0x00#8 [])) =
        true := by
  decide +kernel

theorem test_TS7 :
    answers (exec (.baudrate [0x75#8]) (hearing start (feed 1 10 [0x00#8, 0x00#8])))
      (fun t => sentBytes t == [0x0A#8, 0x01#8, 0x75#8] && t.txn.settlePending) = true := by decide +kernel

theorem test_CE10 :
    answers (exec .echo (hearing start (feed 1 2 [0x55#8]))) (fun t =>
      t.out.callResult == some .alive && t.txn.lastStatus == 0x55#8 && t.now == 2) = true := by decide +kernel

theorem test_CE13 :
    answers (exec .echo (hearing start (feed 1 1 [0xAA#8]))) (fun t =>
      t.out.callResult == some .fail && t.txn.lastStatus == 0xAA#8) = true := by decide +kernel

/-! ## The host rows (HR1 to HR19, PS1 to PS12, P1 to P5) -/

theorem test_P1 :
    answers (exec (.radioScan []) (hearing { State.reset with params := params } (
        feed 1 18100 [0x00#8, 0x00#8] ++
        feed 2 36201 [0x80#8, 0x05#8, 0x04#8, 0x00#8, 0x28#8, 0x00#8, 0x00#8] ++
        feed 3 36307 [0x80#8, 0x08#8, 0xDE#8, 0xAD#8, 0xBE#8, 0xEF#8, 0x22#8, 0x28#8, 0x00#8, 0x00#8] ++
        feed 4 36416 [0x80#8, 0x06#8, 0x08#8, 0xB6#8, 0xDD#8, 0x08#8, 0x00#8, 0x00#8])))
      (fun t => replyOf t == some [0x00#8, 0x04#8, 0xDE#8, 0xAD#8, 0xBE#8, 0xEF#8, 0x04#8, 0x00#8, 0x08#8] &&
        t.now == 36423 && t.mode.dev == .fieldOn && t.ac.level == some .l1) = true := by decide +kernel

theorem test_HR18 :
    answers (exec (.radioScan []) start) (fun t =>
      replyOf t == some [0x01#8] && t.now == 2500000 && t.mode.dev == .idle) = true := by decide +kernel

theorem test_P2b :
    answers (exec (.runAnticol []) (hearing field (
        feed 1 100 [0x80#8, 0x05#8, 0x44#8, 0x00#8, 0x28#8, 0x00#8, 0x00#8] ++
        feed 2 206 [0x80#8, 0x08#8, 0x88#8, 0x04#8, 0xA2#8, 0xB3#8, 0x9D#8, 0x28#8, 0x00#8, 0x00#8] ++
        feed 3 315 [0x80#8, 0x06#8, 0x04#8, 0xDA#8, 0x17#8, 0x08#8, 0x00#8, 0x00#8] ++
        feed 4 422 [0x80#8, 0x08#8, 0xC5#8, 0x1A#8, 0x2B#8, 0x80#8, 0x74#8, 0x28#8, 0x00#8, 0x00#8] ++
        feed 5 531 [0x80#8, 0x06#8, 0x00#8, 0xFE#8, 0x51#8, 0x08#8, 0x00#8, 0x00#8])))
      (fun t => replyOf t == some [0x00#8, 0x07#8, 0x04#8, 0xA2#8, 0xB3#8, 0xC5#8, 0x1A#8, 0x2B#8, 0x80#8, 0x44#8,
          0x00#8, 0x00#8] && t.now == 538 && t.ac.sizeClass == 1#2) = true := by decide +kernel

theorem test_P3a :
    answers (exec (.runAnticol []) field) (fun t =>
      replyOf t == some [0x03#8] && t.now == 1000000 && t.ac.step == .done) = true := by decide +kernel

theorem test_CE11_CE12 :
    answers (exec (.echoTest []) (hearing start (feed 2 10003 [0x55#8]))) (fun t =>
        replyOf t == some [0x00#8] && t.txn.echoTry == 2 && t.now == 10003) = true ∧
      answers (exec (.echoTest []) start) (fun t =>
        replyOf t == some [0x05#8] && t.txn.echoTry == 3 && t.now == 30000 && t.mode.dev == .error) = true := by
  decide +kernel

theorem test_TS1_HR17 :
    answers (exec (.echoTest []) (hearing { State.reset with params := params } (feed 1 18002 [0x55#8]))) (fun t =>
        t.out.line == [.tx 18000 0x55#8] && !t.txn.settlePending) = true ∧
      answers (exec (.echoTest []) (hearing dead (feed 1 1 [0x55#8]))) (fun t =>
        replyOf t == some [0x00#8] && t.mode.dev == .error) = true := by decide +kernel

theorem test_HR3 :
    answers (exec (.calibration [0x01#8, 0x02#8]) dead) (fun t =>
      replyOf t == some [0x08#8] && sentBytes t == []) = true := by decide +kernel

theorem test_HR15 :
    answers (exec (.getChipId []) (hearing start (feed 1 10 [0x00#8, 0x03#8, 0x4E#8, 0x46#8, 0x43#8]))) (fun t =>
      replyOf t == some [0x00#8, 0x4E#8, 0x46#8, 0x43#8] && sentBytes t == [0x01#8, 0x00#8]) = true := by
  decide +kernel

theorem test_HR4_HR13 :
    answers (exec (.getUid [0x00#8]) start) (fun t => replyOf t == some [0x06#8]) = true ∧
      answers (exec (.getUid []) State.reset) (fun t => replyOf t == some [0x03#8]) = true := by decide +kernel

theorem test_HR9_HR10 :
    answers (exec (.goIdle []) dead) (fun t => replyOf t == some [0x01#8] && t.mode.dev == .idle) = true ∧
      answers (exec (.goIdle []) State.reset) (fun t => replyOf t == some [0x07#8] && sentBytes t == []) = true := by
  decide +kernel

theorem test_PS5 :
    answers (exec (.selectProtocol [0x03#8, 0x01#8, 0x02#8]) (hearing start (feed 1 10 [0x00#8, 0x00#8]))) (fun t =>
      sentBytes t == [0x02#8, 0x02#8, 0x03#8, 0x61#8] && t.mode.cfg == ⟨.iso14443B, .r212, .r424⟩ &&
        t.txn.settlePending) = true := by decide +kernel

theorem test_PS3_PS8 :
    answers (exec (.selectProtocol [0x02#8, 0x00#8, 0x00#8]) (hearing field (feed 1 10 [0x55#8]))) (fun t =>
        sentBytes t == [0x55#8] && replyOf t == some [0x00#8] && !t.txn.settlePending) = true ∧
      answers (exec (.selectProtocol [0x03#8, 0x03#8, 0x00#8]) start) (fun t =>
        replyOf t == some [0x06#8] && sentBytes t == []) = true := by decide +kernel

theorem test_CE14_CE15 :
    answers (exec (.fieldOff []) (hearing dead (feed 1 10 [0x00#8, 0x00#8]))) (fun t =>
        sentBytes t == [0x02#8, 0x02#8, 0x00#8, 0x00#8] && t.mode.dev == .idle && !t.tag.valid) = true ∧
      answers (exec (.fieldOff []) dead) (fun t => replyOf t == some [0x01#8] && t.mode.dev == .error) = true := by
  decide +kernel

/-! ## The air rows (AC1 to AC16) -/

/-- The cascade entered at a level, the candidate bytes in cand (R312). -/
def atLevel (n : Level) (uidLen : Nat) (uid : List Byte) : State :=
  { asked field 0x05#8 [] with
    ac.step := .select, ac.level := some n, ac.uidLen := uidLen
    ac.uidBuf := Memory.empty.writeRange 0 uid
    ac.cand := Memory.empty.writeRange 0 [0x88#8, 0x04#8, 0xA2#8, 0xB3#8, 0x9D#8] }

theorem test_AC1_AC5 :
    answers (exec .reqa field) (fun t => replyOf t == some [0x03#8] && t.now == 1000000) = true ∧
      answers (exec .reqa (hearing field (feed 1 10 [0x80#8, 0x05#8, 0xC4#8, 0x00#8, 0x28#8, 0x00#8, 0x00#8])))
        (fun t => t.ac.atqa0 == 0xC4#8 && t.ac.sizeClass == 3#2 && t.ac.step == .anticol) = true := by decide +kernel

theorem test_AC2_AC4 :
    answers (exec .reqa (hearing field (feed 1 10 [0x87#8, 0x00#8])))
        (fun t => replyOf t == some [0x03#8] && t.txn.lastStatus == 0x87#8) = true ∧
      answers (exec .reqa (hearing field (feed 1 10 [0x80#8, 0x02#8, 0x04#8, 0x00#8])))
        (fun t => replyOf t == some [0x04#8]) = true := by decide +kernel

theorem test_AC7 :
    answers (exec .anticolL1 (hearing field
        (feed 1 10 [0x80#8, 0x08#8, 0xDE#8, 0xAD#8, 0xBE#8, 0xEF#8, 0x23#8, 0x28#8, 0x00#8, 0x00#8])))
      (fun t => replyOf t == some [0x04#8] &&
        t.ac.cand.readRange 0 5 == some [0xDE#8, 0xAD#8, 0xBE#8, 0xEF#8, 0x23#8]) = true := by decide +kernel

theorem test_anticolL2 :
    answers (exec .anticolL2 (hearing field
        (feed 1 10 [0x80#8, 0x08#8, 0xC5#8, 0x1A#8, 0x2B#8, 0x80#8, 0x74#8, 0x28#8, 0x00#8, 0x00#8])))
      (fun t => t.ac.step == .select && sentBytes t == [0x04#8, 0x03#8, 0x95#8, 0x20#8, 0x08#8]) = true := by
  decide +kernel

theorem test_anticolL3 :
    answers (exec .anticolL3 (hearing field
        (feed 1 10 [0x80#8, 0x08#8, 0x66#8, 0x77#8, 0x99#8, 0xAA#8, 0x22#8, 0x28#8, 0x00#8, 0x00#8])))
      (fun t => t.ac.step == .select && sentBytes t == [0x04#8, 0x03#8, 0x97#8, 0x20#8, 0x08#8]) = true := by
  decide +kernel

theorem test_selectL1_cascades :
    answers (exec (.selectL1 0x88#8 0x04#8 0xA2#8 0xB3#8 0x9D#8) (hearing (atLevel .l1 0 [])
        (feed 1 10 [0x80#8, 0x06#8, 0x04#8, 0xDA#8, 0x17#8, 0x08#8, 0x00#8, 0x00#8])))
      (fun t => t.ac.uidBuf.readRange 0 3 == some [0x04#8, 0xA2#8, 0xB3#8] && t.ac.level == some .l2 &&
        t.ac.ctPresent) = true := by decide +kernel

theorem test_selectL2_completes :
    answers (exec (.selectL2 0xC5#8 0x1A#8 0x2B#8 0x80#8 0x74#8) (hearing (atLevel .l2 3 [0x04#8, 0xA2#8, 0xB3#8])
        (feed 1 10 [0x80#8, 0x06#8, 0x00#8, 0xFE#8, 0x51#8, 0x08#8, 0x00#8, 0x00#8])))
      (fun t => tagOf t == some [0x04#8, 0xA2#8, 0xB3#8, 0xC5#8, 0x1A#8, 0x2B#8, 0x80#8] && t.host.rspOk) = true := by
  decide +kernel

theorem test_AC15 :
    answers (exec (.selectL3 0x66#8 0x77#8 0x99#8 0xAA#8 0x22#8) (hearing
        (atLevel .l3 6 [0x04#8, 0x11#8, 0x22#8, 0x33#8, 0x44#8, 0x55#8])
        (feed 1 10 [0x80#8, 0x06#8, 0x24#8, 0xD8#8, 0x36#8, 0x08#8, 0x00#8, 0x00#8])))
      (fun t => replyOf t == some [0x04#8] && t.ac.uidLen == 6 && !t.tag.valid) = true := by decide +kernel

/-! ## Witnesses: a state and operands that meet the hypotheses of each statement that has any -/

/-- Bytes in time, decided. -/
def inTime (n dl ib : Nat) : Nat → List Arrival → Bool
  | _, [] => true
  | last, a :: as => a.after ≤ n && a.time < min dl (last + ib) && inTime n dl ib (max last a.time) as

theorem of_inTime {n dl ib : Nat} : ∀ {last : Nat} {as : List Arrival}, inTime n dl ib last as = true →
    bytesInTime n dl ib last as
  | _, [], _ => trivial
  | last, a :: as, h => by
    simp only [inTime, Bool.and_eq_true, decide_eq_true_eq] at h
    exact ⟨h.1.1, h.1.2, of_inTime h.2⟩

/-- Bytes that come in time under UART are what the CHIP delivers. -/
theorem delivers_uart {p : Params} {kind : DeadlineKind} {n t : Nat} {line : ChipLine} (first : Arrival)
    (more rest : List Arrival) (hp : p.transport = .uart) (hl : line.rx = first :: more ++ rest)
    (h : inTime n (t + p.ticks kind) (p.ticks kind + 1) t [first] = true)
    (hm : inTime n (t + p.ticks kind) p.tIb (max t first.time) more = true) :
    ChipDelivers p kind n t line (first.byte :: more.map (·.byte)) (lastArrival t (first :: more))
      { line with rx := rest } := by
  simp only [inTime, Bool.and_true, Bool.and_eq_true, decide_eq_true_eq] at h
  simp only [ChipDelivers, hp]
  exact ⟨first, more, hl, by trivial, by trivial, h.1, by omega, of_inTime hm, by trivial⟩

/-- No settle pending, the time 0, nothing sent, no reset to come. -/
def fresh (s : State) : Bool :=
  !s.txn.settlePending && s.now == 0 && s.out.sent == 0 && s.env.resetLine == []

/-- The state with an answer to its next exchange to come under SPI: ready at once, then these bytes, then others. -/
def spiHear (s : State) (bytes rest : List Byte) : State :=
  { s with params := spiParams, chip := ⟨[], [⟨0, 1⟩], bytes ++ rest, 0⟩ }

/-- The state with a CHIP that is silent under SPI. -/
def spiMute (s : State) : State := { s with params := spiParams, chip := ⟨[], [], [], 0⟩ }

/-- The bytes of a frame. -/
def frame (st : Byte) (payload : List Byte) : List Byte := st :: BitVec.ofNat 8 payload.length :: payload

/-- The hypotheses of a statement about one exchange that the CHIP answers with these bytes. -/
structure Heard (s : State) (kind : DeadlineKind) (bytes : List Byte) (u : Nat) (line' : ChipLine) : Prop where
  params : s.params.wf = true
  quiet : s.quietUntil u
  answer : ChipAnswers s.params kind (s.out.sent + 1) s.sendTime s.chip bytes u line'

/-- The same for a frame. -/
structure Framed (s : State) (kind : DeadlineKind) (st : Byte) (payload : List Byte) (u : Nat) (line' : ChipLine) :
    Prop where
  params : s.params.wf = true
  quiet : s.quietUntil u
  answer : ChipFrame s.params kind (s.out.sent + 1) s.sendTime s.chip st payload (frame st payload) u line'

/-- The same for a CHIP that is silent. -/
structure Unheard (s : State) (kind : DeadlineKind) (line' : ChipLine) : Prop where
  params : s.params.wf = true
  quiet : s.quietUntil (s.sendTime + s.params.ticks kind)
  answer : ChipSilent s.params kind (s.out.sent + 1) s.sendTime s.chip line'

theorem spiParams_wf : spiParams.wf = true := by decide +kernel

theorem ticks_pos (kind : DeadlineKind) : 0 < spiParams.ticks kind := by cases kind <;> decide

theorem heard (s : State) (kind : DeadlineKind) (bytes rest : List Byte) (h : fresh s = true) :
    Heard (spiHear s bytes rest) kind bytes 0 ⟨[], [], rest, 0⟩ := by
  simp only [fresh, Bool.and_eq_true, Bool.not_eq_true', beq_iff_eq] at h
  obtain ⟨⟨⟨h1, h2⟩, h3⟩, h4⟩ := h
  refine ⟨spiParams_wf, ?_, ?_⟩
  · simp [State.quietUntil]
  · have ht : (spiHear s bytes rest).sendTime = 0 := by simp [State.sendTime, spiHear, h1, h2]
    rw [ht]
    show ChipDelivers spiParams kind (s.out.sent + 1) 0 ⟨[], [⟨0, 1⟩], bytes ++ rest, 0⟩ bytes 0 _
    simp only [ChipDelivers, show spiParams.transport = .spi from rfl, show spiParams.readyMethod = .irq from rfl]
    exact ⟨⟨0, 1⟩, by trivial, by trivial, by trivial, by simp [h3], by simpa using ticks_pos kind, rfl⟩

theorem framed (s : State) (kind : DeadlineKind) (st : Byte) (payload rest : List Byte) (h : fresh s = true)
    (hl : payload.length ≤ 254) :
    Framed (spiHear s (frame st payload) rest) kind st payload 0 ⟨[], [], rest, 0⟩ := by
  obtain ⟨h1, h2, h3⟩ := heard s kind (frame st payload) rest h
  exact ⟨h1, h2, hl, ⟨[], rfl, by simp [frame, responseBytes]⟩, h3⟩

theorem unheard (s : State) (kind : DeadlineKind) (h : fresh s = true) :
    Unheard (spiMute s) kind ⟨[], [], [], 0⟩ := by
  simp only [fresh, Bool.and_eq_true, Bool.not_eq_true', beq_iff_eq] at h
  obtain ⟨⟨⟨h1, h2⟩, h3⟩, h4⟩ := h
  refine ⟨spiParams_wf, ?_, ?_⟩
  · simp [State.quietUntil, spiMute, h4]
  · show ChipQuiet spiParams kind _ _ ⟨[], [], [], 0⟩ _
    simp [ChipQuiet, spiParams, params, Params.default]

/-! ### Encoding and the step -/

theorem test_meets_DecodeOfEncode :
    params.wf = true ∧ (Instr.sendRecv [0#8]).wf = true ∧ (Instr.sendRecv (List.replicate 254 0#8)).wf = true ∧
      (Instr.radioScan []).wf = true := by decide +kernel

theorem test_meets_DecodeStopsAtLength :
    params.wf = true ∧ (Instr.readReg (List.replicate 254 0#8)).wf = true ∧
      (Instr.readReg (List.replicate 254 0#8)).space ≠ .air := by decide +kernel

theorem test_meets_EncodeOfDecode :
    decode params .host [0x04#8, 0x00#8, 0xAA#8] = .ok (.getUid [], [0xAA#8]) ∧
      decode params .chip [0x55#8, 0x00#8] = .ok (.echo, [0x00#8]) ∧
      decode params .air [0x26#8, 0x07#8] = .ok (.reqa, []) := by decide

theorem test_meets_ReservedSelectorsDecodeToNothing : 9 ≤ (0x09#8).toNat ∧ 9 ≤ (0xFF#8).toNat := by decide

/-- GET_UID latched with a payload of one byte. -/
def latched : State := asked start 0x04#8 [0x00#8]

theorem test_meets_StepRunsDecoded :
    latched.resetDue = false ∧ fetchBytes.run latched = .ok (some (.host, [0x04#8, 0x01#8, 0x00#8])) latched ∧
      decode latched.params .host [0x04#8, 0x01#8, 0x00#8] = .ok (.getUid [0x00#8], []) := ⟨rfl, rfl, rfl⟩

theorem test_meets_PositionSelectsInstruction_request :
    latched.params.wf = true ∧ latched.resetDue = false ∧ latched.host.phase = .busy ∧ latched.ac.step = .off ∧
      latched.host.reqBuf.readRange 0 1 = some [0x00#8] ∧ (Instr.getUid [0x00#8]).wf = true ∧
      encode latched.params (.getUid [0x00#8]) = [0x04#8, 0x01#8, 0x00#8] := by decide +kernel

/-- RUN_ANTICOL at a position of its cascade. -/
def standing (a : AcStep) (n : Option Level) : State := { asked field 0x05#8 [] with ac.step := a, ac.level := n }

theorem test_meets_PositionSelectsInstruction_reqa :
    (standing .reqa none).params.wf = true ∧ (standing .reqa none).resetDue = false ∧
      (standing .reqa none).host.phase = .busy ∧ (standing .reqa none).ac.step = .reqa := by decide +kernel

theorem test_meets_PositionSelectsInstruction_anticol :
    ∀ n ∈ [Level.l1, .l2, .l3], (standing .anticol (some n)).params.wf = true ∧
      (standing .anticol (some n)).resetDue = false ∧ (standing .anticol (some n)).host.phase = .busy ∧
      (standing .anticol (some n)).ac.level = some n := by decide +kernel

theorem test_meets_PositionSelectsInstruction_select :
    ∀ n ∈ [Level.l1, .l2, .l3], (atLevel n 0 []).params.wf = true ∧ (atLevel n 0 []).resetDue = false ∧
      (atLevel n 0 []).host.phase = .busy ∧ (atLevel n 0 []).ac.step = .select ∧
      (atLevel n 0 []).ac.cand.readRange 0 5 = some [0x88#8, 0x04#8, 0xA2#8, 0xB3#8, 0x9D#8] := by decide +kernel

/-- ECHO at the CommandEngine's entry, a byte after it. -/
def called : State := { start with env.chipCall := some (encode params .echo ++ [0x00#8]) }

theorem test_meets_PositionSelectsInstruction_call :
    called.params.wf = true ∧ called.resetDue = false ∧ called.host.phase = .ready ∧ Instr.echo.space = .chip ∧
      Instr.echo.wf = true ∧ called.env.chipCall = some (encode called.params .echo ++ [0x00#8]) := by decide +kernel

theorem test_meets_ReservedRequestRefused :
    ∀ sel ∈ [0x09#8, 0xFF#8], (asked start sel [0x01#8]).resetDue = false ∧
      (asked start sel [0x01#8]).host.phase = .busy ∧ (asked start sel [0x01#8]).ac.step = .off ∧
      9 ≤ (asked start sel [0x01#8]).host.reqSel.toNat ∧
      (asked start sel [0x01#8]).host.reqBuf.readRange 0 1 = some [0x01#8] := by decide +kernel

/-- A HOST step to come. -/
def hosting (s : State) (time : Nat) (act : HostAct) : State := { s with env.hostLine := [⟨time, act⟩] }

/-- A reply that stands ready. -/
def replied : State := start.finish .ok [0x01#8]

theorem test_meets_HostHandshake :
    (∀ s ∈ [start, replied], s.resetDue = false ∧ s.env.chipCall = none ∧ s.env.hostLine = [] ∧ s.now < 1) ∧
      start.host.phase = .ready ∧ replied.host.phase = .done ∧
      replied.host.rspBuf.readRange 0 replied.host.rspLen = some [0x00#8, 0x01#8] ∧
      254 < (List.replicate 255 0#8).length ∧
      (hosting start 0 (.present 0x04#8 (List.replicate 254 0#8))).env.hostLine =
        [⟨0, .present 0x04#8 (List.replicate 254 0#8)⟩] := by decide +kernel

/-! ### Reset and the invariant -/

theorem test_meets_DueResetComesFirst :
    { start with env.resetLine := [0, 7] }.env.resetLine = 0 :: [7] ∧ 0 ≤ start.now := by decide

theorem test_meets_ResetAbandonsRequest :
    start.now < 1 ∧ ∃ t, exec .idn { { start with env.resetLine := [1, 7] } with env.resetLine := [] } = .next t ∧
      1 < t.now := by
  obtain ⟨t, h, ht⟩ := of_answers (o := exec .idn start) (p := fun t => 1 < t.now) (by decide +kernel)
  exact ⟨by decide, t, h, by simpa using ht⟩

/-- RUN_ANTICOL at SELECT of level 2. -/
def midway : State := atLevel .l2 3 [0x04#8, 0xA2#8, 0xB3#8]

theorem midway_inv : midway.Inv where
  params := by decide +kernel
  buffers := by intro b; cases b <;> decide +kernel
  reply := ⟨by decide, by decide, by decide, by decide, by decide, by decide⟩
  request := ⟨by decide, by decide⟩
  mode := ⟨by decide, by decide, by decide, by decide, by decide⟩
  cascade := ⟨by decide, by decide +kernel, by decide, by decide, fun _ => ⟨.l2, rfl, rfl⟩, by decide +kernel,
      by decide,
    by decide⟩
  tag := ⟨by decide, by decide⟩
  tries := by decide

theorem test_meets_StepKeepsInv : midway.Inv ∧ ∃ t, step midway = .next t := by
  obtain ⟨t, h, -⟩ := of_answers (o := step midway) (p := fun _ => true) (by decide +kernel)
  exact ⟨midway_inv, t, h⟩

theorem test_meets_InvStepCompletes :
    midway.Inv ∧ called.host.phase = .ready ∧ called.env.chipCall = some [0x55#8, 0x00#8] ∧
      decode called.params .chip [0x55#8, 0x00#8] = .ok (.echo, [0x00#8]) := ⟨midway_inv, rfl, rfl, rfl⟩

theorem test_meets_ParamsFixedTimeForward : ∃ t, step midway = .next t := test_meets_StepKeepsInv.2

/-! ### Time and the transport -/

theorem test_meets_ModularExpiryAgrees :
    2 ^ 31 - 1 < 2 ^ 31 ∧ 2 ^ 32 - 100 ≤ 2 ^ 32 - 100 + (2 ^ 31 - 1) ∧
      2 ^ 32 - 100 + (2 ^ 31 - 1) - (2 ^ 32 - 100) < 2 ^ 31 := by decide

/-- A reset just at the end of the wait does not cut it short. -/
theorem test_meets_DelaysElapse :
    { start with env.resetLine := [9000] }.quietUntil (start.now + start.params.tRamp) ∧
      { start with env.resetLine := [9000] }.quietUntil (start.now + start.params.tOsc) := by
  constructor <;> intro r hr <;> simp at hr <;> subst hr <;> decide

theorem test_meets_SettleWaitsBoth :
    start.txn.settlePending = false ∧ State.reset.txn.settlePending = true ∧
      State.reset.quietUntil (State.reset.now + State.reset.params.tRamp + State.reset.params.tOsc) :=
  ⟨rfl, rfl, fun _ hr => (nomatch hr)⟩

theorem test_meets_EncodeFrameWrites :
    start.params.frameTrailerLen = 0 ∧ 254 < (List.replicate 255 0#8).length ∧
      (List.replicate 254 0#8).length ≤ 254 := by decide +kernel

theorem test_meets_FlushDiscardsWaiting :
    (hearing start [⟨0, 0, 0x11#8⟩, ⟨1, 0, 0x22#8⟩]).chip.rx = [⟨0, 0, 0x11#8⟩] ++ [⟨1, 0, 0x22#8⟩] ∧
      (∀ a ∈ [(⟨0, 0, 0x11#8⟩ : Arrival)], a.time ≤ start.now ∧ a.after ≤ start.out.sent) ∧
      (∀ a ∈ [(⟨1, 0, 0x22#8⟩ : Arrival)].head?, start.now < a.time ∨ start.out.sent < a.after) ∧
      start.params.transport = .uart ∧ spiStart.params.transport = .spi := by decide

/-- In time by one tick; just at the deadline; nothing at all; on entry at the deadline. -/
theorem test_meets_RxByteDeadlineWins :
    (hearing start [⟨9, 0, 0x11#8⟩]).chip.rx = ⟨9, 0, 0x11#8⟩ :: [] ∧ 0 ≤ start.out.sent ∧ start.now < 10 ∧ 9 < 10 ∧
      start.quietUntil 10 ∧ start.now < 9 ∧ NoneBefore start.out.sent 9 [⟨9, 0, 0x11#8⟩] ∧
      NoneBefore start.out.sent 9 start.chip.rx ∧ 0 ≤ start.now := by
  refine ⟨rfl, by decide, by decide, by decide, fun _ hr => (nomatch hr), by decide, fun a ha _ => ?_,
    fun _ ha => (nomatch ha), by decide⟩
  obtain rfl := Option.some.inj ha
  decide

theorem shortest_longest {payload : List Byte} (h : payload ∈ [[], List.replicate 254 0#8]) :
    payload.length ≤ 254 := by
  rcases List.mem_pair.mp h with rfl | rfl
  · exact Nat.zero_le _
  · exact Nat.le_of_eq List.length_replicate

/-- A frame of no payload and one of the longest, under SPI. -/
theorem test_meets_ReceiveRoundTrip_spi :
    ∀ payload ∈ [[], List.replicate 254 0#8],
      ChipDelivers spiParams .noresp 1 0 ⟨[], [⟨0, 1⟩], frame 0x00#8 payload ++ [], 0⟩ (frame 0x00#8 payload) 0
        ⟨[], [], [], 0⟩ ∧ spiParams.frameTrailerLen = 0 ∧ payload.length ≤ 254 := by
  intro payload hp
  exact ⟨(heard spiStart .noresp (frame 0x00#8 payload) [] rfl).answer, rfl, shortest_longest hp⟩

/-- Under UART, its deadline and its inter-byte limit met by one tick. -/
theorem test_meets_ReceiveRoundTrip_uart :
    ChipDelivers params .noresp 0 0 ⟨[⟨2499500, 0, 0x00#8⟩, ⟨2499999, 0, 0x00#8⟩], [], [], 0⟩ [0x00#8, 0x00#8] 2499999
      ⟨[], [], [], 0⟩ :=
  delivers_uart ⟨2499500, 0, 0x00#8⟩ [⟨2499999, 0, 0x00#8⟩] [] rfl rfl (by decide) (by decide)

theorem test_meets_ReceiveClassifies_quiet :
    ChipQuiet params .noresp 0 0 (hearing start [⟨2500000, 0, 0x00#8⟩]).chip
      (hearing start [⟨2500000, 0, 0x00#8⟩]).chip := by
  refine ⟨rfl, fun a ha _ => ?_⟩
  simp [hearing] at ha
  subst ha
  decide

theorem test_meets_ReceiveClassifies_one :
    ChipStopsShort params .noresp 0 0 (hearing start [⟨10, 0, 0x00#8⟩, ⟨510, 0, 0x00#8⟩]).chip [0x00#8] 10 510
      (hearing start [⟨510, 0, 0x00#8⟩]).chip := by
  refine ⟨rfl, delivers_uart ⟨10, 0, 0x00#8⟩ [] [⟨510, 0, 0x00#8⟩] rfl rfl (by decide) (by decide), by decide,
    fun a ha _ => ?_⟩
  simp [hearing] at ha
  subst ha
  decide

theorem test_meets_ReceiveClassifies_ff :
    ChipDelivers params .noresp 0 0 (hearing start (feed 0 10 [0x00#8, 0xFF#8])).chip [0x00#8, 0xFF#8] 11
      (hearing start []).chip :=
  delivers_uart ⟨10, 0, 0x00#8⟩ [⟨11, 0, 0xFF#8⟩] [] rfl rfl (by decide) (by decide)

/-- One payload byte short of the length byte's count. -/
theorem test_meets_ReceiveClassifies_cut :
    ChipStopsShort params .noresp 0 0 (hearing start (feed 0 10 [0x00#8, 0x02#8, 0x4E#8])).chip
        [0x00#8, 0x02#8, 0x4E#8] 12 512 (hearing start []).chip ∧
      [0x4E#8].length < (0x02#8).toNat + params.frameTrailerLen ∧ 0x02#8 ≠ 0xFF#8 := by
  refine ⟨⟨rfl, delivers_uart ⟨10, 0, 0x00#8⟩ [⟨11, 0, 0x02#8⟩, ⟨12, 0, 0x4E#8⟩] [] rfl rfl (by decide) (by decide),
    by decide, fun a ha => nomatch ha⟩, by decide, by decide⟩

theorem test_meets_StaleBytesInvisible :
    params.wf = true ∧ (hearing start [⟨0, 0, 0x11#8⟩]).chip.rx = [⟨0, 0, 0x11#8⟩] ++ [] ∧
      (∀ a ∈ [(⟨0, 0, 0x11#8⟩ : Arrival)], a.time ≤ start.sendTime ∧ a.after ≤ start.out.sent) ∧
      start.params.transport = .uart ∧ Instr.idn.space = .chip ∧ start.quietUntil start.sendTime :=
  ⟨by decide +kernel, rfl, by decide, rfl, rfl, fun _ hr => (nomatch hr)⟩

/-! ### The chip commands -/

theorem test_meets_FramedCommandsSucceed :
    ∀ reply ∈ [[], List.replicate 254 0#8],
      Framed (spiHear start (frame 0x00#8 reply) []) .noresp spiParams.stOk reply 0 ⟨[], [], [], 0⟩ ∧
      Framed (spiHear start (frame 0x80#8 reply) []) .detect spiParams.stData reply 0 ⟨[], [], [], 0⟩ ∧
      spiParams.lenIdn.min ≤ reply.length ∧ reply.length ≤ spiParams.lenIdn.max := by
  intro reply hr
  have hl := shortest_longest hr
  exact ⟨framed start _ _ _ [] rfl hl, framed start _ _ _ [] rfl hl, Nat.zero_le _, hl⟩

theorem test_meets_SettlingCommandsSucceed :
    Framed (spiHear start (frame 0x00#8 []) []) .noresp spiParams.stOk [] 0 ⟨[], [], [], 0⟩ ∧
      (List.replicate 254 0#8).length ≤ 254 ∧ spiParams.lenBaudrate.min ≤ 0 ∧ 0 ≤ spiParams.lenBaudrate.max ∧
      0x02#8 ≠ spiParams.pidFieldOff ∧ spiParams.lenProtocol.min ≤ 0 ∧ 0 ≤ spiParams.lenProtocol.max :=
  ⟨framed start _ _ _ [] rfl (by simp), by decide +kernel, by decide, by decide, by decide, by decide, by decide⟩

theorem test_meets_EchoAttemptAnswers :
    Heard (spiHear start [0x55#8] []) .echo [spiParams.echoByte] 0 ⟨[], [], [], 0⟩ ∧
      (0xAA#8 ≠ spiParams.echoByte ∧ Heard (spiHear start [0xAA#8] []) .echo [0xAA#8] 0 ⟨[], [], [], 0⟩) ∧
      Unheard (spiMute start) .echo ⟨[], [], [], 0⟩ :=
  ⟨heard start _ _ [] rfl, ⟨by decide, heard start _ _ [] rfl⟩, unheard start _ rfl⟩

/-- UART, every command's one accepted length being 1. -/
def strictParams : Params :=
  { params with
    lenIdn := ⟨1, 1⟩, lenProtocol := ⟨1, 1⟩, lenSendRecv := ⟨1, 1⟩, lenIdle := ⟨1, 1⟩, lenReadReg := ⟨1, 1⟩
    lenWriteReg := ⟨1, 1⟩, lenBaudrate := ⟨1, 1⟩ }

/-- The state with these bytes to come, one tick apart from tick 10. -/
def wired (s : State) (bytes : List Byte) : State :=
  { s with params := strictParams, chip := ⟨feed 1 10 bytes, [], [], 0⟩ }

/-- The hypotheses of a statement about an exchange that fails, for a command with this deadline and success status. -/
structure Failing (s : State) (kind : DeadlineKind) (ok : Byte) (answer : Reception) (received : List Byte)
    (status : Byte) (v u : Nat) : Prop where
  params : s.params.wf = true
  quiet : s.quietUntil u
  fails : ∃ line', ChipFails s.params kind ok ⟨1, 1⟩ (s.out.sent + 1) s.sendTime s.chip s.txn.lastStatus answer received
    status v u line'

/-- Every way an exchange can fail: another status, a length too short and one too long, silence, a length byte of
0xFF, a status byte alone, a payload one byte short. -/
structure FailsEveryWay (s : State) (kind : DeadlineKind) (ok : Byte) : Prop where
  status : Failing (wired s [0x87#8, 0x00#8]) kind ok .noResponse [0x87#8, 0x00#8] 0x87#8 11 11
  short : Failing (wired s [ok, 0x00#8]) kind ok .malformedFrame [ok, 0x00#8] ok 11 11
  long : Failing (wired s [ok, 0x02#8, 0x01#8, 0x02#8]) kind ok .malformedFrame [ok, 0x02#8, 0x01#8, 0x02#8] ok 13 13
  silence : Failing (wired s []) kind ok .noResponse [] s.txn.lastStatus 0 (strictParams.ticks kind)
  illegal : Failing (wired s [ok, 0xFF#8]) kind ok .malformedFrame [ok, 0xFF#8] s.txn.lastStatus 11 11
  alone : Failing (wired s [ok]) kind ok .noResponse [ok] s.txn.lastStatus 10 510
  cut : Failing (wired s [ok, 0x02#8, 0x4E#8]) kind ok .malformedFrame [ok, 0x02#8, 0x4E#8] s.txn.lastStatus 12 512

theorem strictParams_wf : strictParams.wf = true := by decide +kernel

/-- Bytes one tick apart from tick 10 are delivered. -/
theorem delivers_feed (kind : DeadlineKind) (first : Byte) (more : List Byte) (hm : more.length ≤ 3) :
    ChipAnswers strictParams kind 1 0 ⟨feed 1 10 (first :: more), [], [], 0⟩ (first :: more) (10 + more.length)
      ⟨[], [], [], 0⟩ := by
  have ht : 100 < strictParams.ticks kind := by cases kind <;> decide
  have hi : strictParams.tIb = 500 := rfl
  have one : inTime 1 (0 + strictParams.ticks kind) (strictParams.ticks kind + 1) 0 [⟨10, 1, first⟩] = true := by
    simp only [inTime, Bool.and_true, Bool.and_eq_true, decide_eq_true_eq]; omega
  match more with
  | [] => exact delivers_uart ⟨10, 1, first⟩ [] [] rfl rfl one rfl
  | [a] =>
    refine delivers_uart ⟨10, 1, first⟩ [⟨11, 1, a⟩] [] rfl rfl one ?_
    simp only [inTime, Bool.and_true, Bool.and_eq_true, decide_eq_true_eq]; omega
  | [a, b] =>
    refine delivers_uart ⟨10, 1, first⟩ [⟨11, 1, a⟩, ⟨12, 1, b⟩] [] rfl rfl one ?_
    simp only [inTime, Bool.and_true, Bool.and_eq_true, decide_eq_true_eq]; omega
  | [a, b, c] =>
    refine delivers_uart ⟨10, 1, first⟩ [⟨11, 1, a⟩, ⟨12, 1, b⟩, ⟨13, 1, c⟩] [] rfl rfl one ?_
    simp only [inTime, Bool.and_true, Bool.and_eq_true, decide_eq_true_eq]; omega

theorem fails_every_way (s : State) (kind : DeadlineKind) (ok : Byte) (h : fresh s = true) (hok : 0x87#8 ≠ ok) :
    FailsEveryWay s kind ok := by
  simp only [fresh, Bool.and_eq_true, Bool.not_eq_true', beq_iff_eq] at h
  obtain ⟨⟨⟨h1, h2⟩, h3⟩, h4⟩ := h
  have mk : ∀ {bytes answer received status v u line'},
      ChipFails strictParams kind ok ⟨1, 1⟩ 1 0 ⟨feed 1 10 bytes, [], [], 0⟩ s.txn.lastStatus answer received status v u
        line' → Failing (wired s bytes) kind ok answer received status v u := by
    intro bytes answer received status v u line' hf
    refine ⟨strictParams_wf, fun r hr => by simp [wired, h4] at hr, line', ?_⟩
    have ht : (wired s bytes).sendTime = 0 := by simp [State.sendTime, wired, h1, h2]
    have hn : (wired s bytes).out.sent + 1 = 1 := by simp [wired, h3]
    rw [ht, hn]
    exact hf
  have none : ∀ n limit, NoneBefore n limit [] := fun _ _ _ ha => nomatch ha
  exact {
    status := mk (.status (reply := []) hok ⟨by decide, ⟨[], rfl, rfl⟩, delivers_feed kind _ [_] (by decide)⟩)
    short := mk (.length (reply := []) (.inl (by decide))
      ⟨by decide, ⟨[], rfl, rfl⟩, delivers_feed kind _ [_] (by decide)⟩)
    long := mk (.length (reply := [0x01#8, 0x02#8]) (.inr (by decide))
      ⟨by decide, ⟨[], rfl, rfl⟩, delivers_feed kind _ [_, _, _] (by decide)⟩)
    silence := by simpa using mk (bytes := []) (.silence (v := 0) (line' := ⟨[], [], [], 0⟩) ⟨rfl, none _ _⟩)
    illegal := mk (.illegal (delivers_feed kind _ [_] (by decide)))
    alone := mk (.alone ⟨rfl, delivers_feed kind _ [] (by decide), by cases kind <;> decide, none _ _⟩)
    cut := mk (.cut (len := 0x02#8) (body := [0x4E#8]) (by decide) (by decide)
      ⟨rfl, delivers_feed kind _ [_, _] (by decide), by cases kind <;> decide, none _ _⟩) }

theorem test_meets_FramedCommandsFail :
    FailsEveryWay start .noresp strictParams.stOk ∧ FailsEveryWay start .detect strictParams.stData ∧
      strictParams.lenIdn = ⟨1, 1⟩ ∧ strictParams.lenSendRecv = ⟨1, 1⟩ :=
  ⟨fails_every_way start _ _ rfl (by decide), fails_every_way start _ _ rfl (by decide), rfl, rfl⟩

/-- Under SPI a CHIP that is silent. -/
theorem test_meets_FramedCommandsFail_spi : Unheard (spiMute start) .noresp ⟨[], [], [], 0⟩ := unheard start _ rfl

theorem test_meets_ChipCommandAlwaysCompletes :
    start.params.wf = true ∧ (Instr.sendRecv [0x26#8, 0x07#8]).space = .chip ∧
      (Instr.sendRecv [0x26#8, 0x07#8]).wf = true ∧ start.env.resetLine = [] := by decide +kernel

/-! ### The protocol selector -/

theorem test_meets_SelectorConfiguration :
    4 < (0x05#8).toNat ∧ 2 < (0x03#8).toNat ∧ { params with protoLowB := 0x0F#8 }.protoLowB.toNat < 16 := by decide

/-- Both answer OK: for ISO14443A the second sends the echo byte; for FIELD_OFF both send PROTOCOL. -/
theorem test_meets_ReselectionChangesNothing :
    ∀ pid ∈ [0#8, 2#8], ∃ s t u, s.params.wf = true ∧ (selectAir pid 0#8 0#8).run s = .ok .ok t ∧
      (selectAir pid 0#8 0#8).run t = .ok .ok u := by
  intro pid hpid
  have key : ∀ s : State, s.params.wf = true →
      ends ((selectAir pid 0#8 0#8).run s) (fun a t => a == .ok &&
        ends ((selectAir pid 0#8 0#8).run t) fun b _ => b == .ok) = true →
      ∃ s t u, s.params.wf = true ∧ (selectAir pid 0#8 0#8).run s = .ok .ok t ∧
        (selectAir pid 0#8 0#8).run t = .ok .ok u := by
    intro s hs h
    obtain ⟨a, t, h1, h2⟩ := of_ends h
    simp only [Bool.and_eq_true, beq_iff_eq] at h2
    obtain ⟨rfl, h2⟩ := h2
    obtain ⟨b, u, h3, h4⟩ := of_ends h2
    obtain rfl := beq_iff_eq.mp h4
    exact ⟨s, t, u, hs, h1, h3⟩
  simp at hpid
  rcases hpid with rfl | rfl
  · exact key (hearing start (feed 1 10 [0x00#8, 0x00#8] ++ feed 2 20 [0x00#8, 0x00#8])) (by decide +kernel)
      (by decide +kernel)
  · exact key (hearing start (feed 1 10 [0x00#8, 0x00#8] ++ feed 2 18020 [0x55#8])) (by decide +kernel)
      (by decide +kernel)

/-! ### Host requests -/

theorem test_meets_WrongPayloadRefused :
    [0x00#8] ≠ [] ∧ [0x02#8, 0x00#8].length ≠ 3 ∧ 4 < (0x05#8).toNat ∧ 2 < (0x03#8).toNat := by decide

theorem test_meets_GatingTable :
    dead.mode.dev = .error ∧ (0x03#8).toNat ≤ 4 ∧ (0x02#8).toNat ≤ 2 ∧ State.reset.mode.dev = .uninitialized ∧
      start.mode.dev = .idle ∧ { field with mode.cfg := ⟨.iso14443B, .r212, .r424⟩ }.mode.dev = .fieldOn ∧
      { field with mode.cfg := ⟨.iso14443B, .r212, .r424⟩ }.mode.cfg ≠
        { pid := .iso14443A, tx := .r106, rx := .r106 } := by
  decide

/-- A state with a Tag. -/
def tagged : State :=
  { start with tag := ⟨true, Memory.empty.writeRange 0 [0xDE#8, 0xAD#8, 0xBE#8, 0xEF#8], 4, 0x04#8, 0x00#8, 0x08#8⟩ }

theorem test_meets_GetUidReadsTag :
    tagged.mode.dev = .idle ∧ tagged.tag.valid = true ∧
      tagged.tag.uid.readRange 0 tagged.tag.len = some [0xDE#8, 0xAD#8, 0xBE#8, 0xEF#8] ∧ start.tag.valid = false := by
  decide

theorem test_meets_GetChipIdReplies :
    (spiHear start (frame 0x00#8 []) []).mode.dev = .idle ∧
      (∀ reply ∈ [[], List.replicate 254 0#8],
        Framed (spiHear start (frame 0x00#8 reply) []) .noresp spiParams.stOk reply 0 ⟨[], [], [], 0⟩) ∧
      FailsEveryWay start .noresp strictParams.stOk ∧ strictParams.lenIdn = ⟨1, 1⟩ :=
  ⟨rfl, fun reply hr => (test_meets_FramedCommandsSucceed reply hr).1, fails_every_way start _ _ rfl (by decide), rfl⟩

/-- Alive at once; alive at the last attempt, after two silences; silent at all three. -/
theorem test_meets_EchoTestReplies :
    (0 < spiParams.echoAttempts ∧ EchoFails spiParams 0 0 0 (spiHear start [0x55#8] []).chip 0
        (spiHear start [0x55#8] []).chip [] ∧ Heard (spiHear start [0x55#8] []) .echo [spiParams.echoByte] 0
        ⟨[], [], [], 0⟩) ∧
      (2 < spiParams.echoAttempts ∧ (∃ events, EchoFails spiParams 2 0 0 ⟨[], [⟨0, 3⟩], [0x55#8], 0⟩ 20000
          ⟨[], [⟨0, 3⟩], [0x55#8], 0⟩ events) ∧
        ChipAnswers spiParams .echo 3 20000 ⟨[], [⟨0, 3⟩], [0x55#8], 0⟩ [0x55#8] 20000 ⟨[], [], [], 0⟩) ∧
      ∃ events, EchoFails spiParams spiParams.echoAttempts 0 0 (spiMute start).chip 30000 (spiMute start).chip
        events := by
  have hs : ∀ n t : Nat, n < 3 → ChipSilent spiParams .echo n t ⟨[], [⟨0, 3⟩], [0x55#8], 0⟩
      ⟨[], [⟨0, 3⟩], [0x55#8], 0⟩ := by
    intro n t hn
    refine ⟨rfl, fun e he ha => ?_⟩
    simp [ChipLine.flushed, spiParams, params, Params.default] at he
    subst he
    simp at ha
    omega
  have hm : ∀ n t : Nat, ChipSilent spiParams .echo n t ⟨[], [], [], 0⟩ ⟨[], [], [], 0⟩ :=
    fun n t => ⟨rfl, fun e he => nomatch he⟩
  refine ⟨⟨by decide, ⟨rfl, rfl, rfl⟩, heard start _ _ [] rfl⟩, ⟨by decide, ?_, ?_⟩, ?_⟩
  · exact ⟨_, [], 10000, _, _, .inl ⟨hs 1 0 (by decide), rfl, rfl⟩,
      ⟨[], 20000, _, _, .inl ⟨hs 2 10000 (by decide), rfl, rfl⟩, ⟨rfl, rfl, rfl⟩, rfl⟩, rfl⟩
  · exact ⟨⟨0, 3⟩, rfl, rfl, rfl, by decide, by decide, rfl⟩
  · exact ⟨_, [], 10000, _, _, .inl ⟨hm 1 0, rfl, rfl⟩, ⟨[], 20000, _, _, .inl ⟨hm 2 10000, rfl, rfl⟩,
      ⟨[], 30000, _, _, .inl ⟨hm 3 20000, rfl, rfl⟩, ⟨rfl, rfl, rfl⟩, rfl⟩, rfl⟩, rfl⟩

theorem test_meets_GoIdleReplies :
    field.mode.dev = .fieldOn ∧ dead.mode.dev = .error ∧
      Framed (spiHear field (frame 0x00#8 []) []) .noresp spiParams.stOk [] 0 ⟨[], [], [], 0⟩ ∧
      FailsEveryWay dead .noresp strictParams.stOk ∧ strictParams.lenIdle = ⟨1, 1⟩ :=
  ⟨rfl, rfl, framed field _ _ _ [] rfl (by simp), fails_every_way dead _ _ rfl (by decide), rfl⟩

theorem test_meets_FieldOffReplies :
    dead.mode.dev ≠ .awaitingResponse ∧ field.mode.dev ≠ .error ∧
      Framed (spiHear dead (frame 0x00#8 []) []) .noresp spiParams.stOk [] 0 ⟨[], [], [], 0⟩ ∧
      FailsEveryWay field .noresp strictParams.stOk ∧ strictParams.lenProtocol = ⟨1, 1⟩ :=
  ⟨by decide, by decide, framed dead _ _ _ [] rfl (by simp), fails_every_way field _ _ rfl (by decide), rfl⟩

/-- From IDLE, and from FIELD_ON with another protocol's configuration in force. -/
theorem test_meets_SelectProtocolConfigures :
    Framed (spiHear start (frame 0x00#8 []) []) .noresp spiParams.stOk [] 0 ⟨[], [], [], 0⟩ ∧
      Framed (spiHear field (frame 0x00#8 []) []) .noresp spiParams.stOk [] 0 ⟨[], [], [], 0⟩ ∧
      start.mode.dev = .idle ∧ field.mode.dev = .fieldOn ∧
      ¬(field.mode.dev = .fieldOn ∧ field.mode.cfg = ⟨.iso14443B, .r106, .r424⟩) ∧ Rate.code .r424 = 2#8 ∧
      FailsEveryWay start .noresp strictParams.stOk :=
  ⟨framed start _ _ _ [] rfl (by simp), framed field _ _ _ [] rfl (by simp), rfl, rfl, by decide, rfl,
    fails_every_way start _ _ rfl (by decide)⟩

/-- Alive at once, alive at the last attempt, silent at all three. -/
theorem test_meets_SelectProtocolInForce :
    field.mode.dev = .fieldOn ∧ airConfig 2#8 3#8 3#8 = some field.mode.cfg ∧ field.mode.cfg.pid ≠ .fieldOff ∧
      Heard (spiHear field [0x55#8] []) .echo [spiParams.echoByte] 0 ⟨[], [], [], 0⟩ ∧
      (2 < spiParams.echoAttempts ∧ (∃ events, EchoFails spiParams 2 field.out.sent field.sendTime
          ⟨[], [⟨0, 3⟩], [0x55#8], 0⟩ 20000 ⟨[], [⟨0, 3⟩], [0x55#8], 0⟩ events) ∧
        ChipAnswers spiParams .echo (field.out.sent + 2 + 1) 20000 ⟨[], [⟨0, 3⟩], [0x55#8], 0⟩ [0x55#8] 20000
          ⟨[], [], [], 0⟩) ∧
      ∃ events, EchoFails spiParams spiParams.echoAttempts (spiMute field).out.sent (spiMute field).sendTime
        (spiMute field).chip 30000 (spiMute field).chip events :=
  ⟨rfl, rfl, by decide, heard field _ _ [] rfl, test_meets_EchoTestReplies.2.1, test_meets_EchoTestReplies.2.2⟩

/-! ### The cascade -/

/-- A reply to the next SEND_RECV under SPI. -/
theorem air {n t : Nat} {rises : List ReadyRise} {rest command : List Byte} (reply : List Byte)
    (hl : reply.length ≤ 254 ∧ lenAccepted spiParams.lenSendRecv reply.length = true) :
    AirAnswers spiParams n t ⟨[], ⟨0, n + 1⟩ :: rises, frame 0x80#8 reply ++ rest, 0⟩ command reply t
      ⟨[], rises, rest, 0⟩
      (exchangeEvents spiParams t (frameBytes spiParams spiParams.opcSendRecv command) (frame 0x80#8 reply) t) := by
  refine ⟨hl.2, frame 0x80#8 reply, ⟨hl.1, ⟨[], rfl, (List.append_nil _).symm⟩, ?_⟩, rfl⟩
  show ChipDelivers spiParams .detect (n + 1) t ⟨[], ⟨0, n + 1⟩ :: rises, frame 0x80#8 reply ++ rest, 0⟩ _ t _
  simp only [ChipDelivers, show spiParams.transport = .spi from rfl, show spiParams.readyMethod = .irq from rfl]
  exact ⟨⟨0, n + 1⟩, by trivial, by trivial, by trivial, by simp,
    Nat.lt_of_lt_of_le (ticks_pos .detect) (Nat.le_add_left _ _), by simp⟩

/-- An answer to REQA, its three trailing bytes with it. -/
def atqa : List Byte := [0x44#8, 0x03#8, 0x28#8, 0x00#8, 0x00#8]

/-- What follows the SAK in an answer to SELECT: its CRC and the three trailing bytes. -/
def sakRest : List Byte := [0xFC#8, 0x70#8, 0x08#8, 0x00#8, 0x00#8]

/-- An answer to SELECT with this SAK. -/
def sakReply (k : Byte) : List Byte := k :: sakRest

/-- The answers of a Tag with a UID of 4 bytes, and what comes after them. -/
def short (rest : List Byte) : List Byte :=
  frame 0x80#8 atqa ++ (frame 0x80#8 [0xDE#8, 0xAD#8, 0xBE#8, 0xEF#8, 0x22#8, 0x28#8, 0x00#8, 0x00#8] ++
    (frame 0x80#8 (sakReply 0x08#8) ++ rest))

/-- The answers of a Tag with a UID of 10 bytes. -/
def long : List Byte :=
  frame 0x80#8 atqa ++ (frame 0x80#8 [0x88#8, 0x04#8, 0xA2#8, 0xB3#8, 0x9D#8, 0x28#8, 0x00#8, 0x00#8] ++
    (frame 0x80#8 (sakReply 0x04#8) ++
      (frame 0x80#8 [0x88#8, 0xC5#8, 0x1A#8, 0x2B#8, 0x7C#8, 0x28#8, 0x00#8, 0x00#8] ++
        (frame 0x80#8 (sakReply 0x04#8) ++
          (frame 0x80#8 [0x66#8, 0x77#8, 0x99#8, 0xAA#8, 0x22#8, 0x28#8, 0x00#8, 0x00#8] ++
            (frame 0x80#8 (sakReply 0x20#8) ++ []))))))

theorem short_answers (n t : Nat) :
    ∃ events, CascadeAnswers spiParams n t ⟨[], [⟨0, n + 1⟩, ⟨0, n + 2⟩, ⟨0, n + 3⟩], short [], 0⟩ 0x44#8 0x03#8
      [0xDE#8, 0xAD#8, 0xBE#8, 0xEF#8] 0x08#8 (n + 3) t ⟨[], [], [], 0⟩ events :=
  ⟨_, _, _, _, _, _, air atqa (by decide), rfl, ⟨_, _, _, _, _, _, _, _, 0x08#8, sakRest, _, _, _, _,
    air [0xDE#8, 0xAD#8, 0xBE#8, 0xEF#8, 0x22#8, 0x28#8, 0x00#8, 0x00#8] (by decide), rfl, by decide,
    air (sakReply 0x08#8) (by decide), rfl, (if_neg (by decide)).mpr ⟨rfl, rfl, rfl, rfl, rfl, rfl⟩⟩, rfl⟩

theorem long_answers :
    ∃ events, CascadeAnswers spiParams 0 0
      ⟨[], [⟨0, 1⟩, ⟨0, 2⟩, ⟨0, 3⟩, ⟨0, 4⟩, ⟨0, 5⟩, ⟨0, 6⟩, ⟨0, 7⟩], long, 0⟩ 0x44#8 0x03#8
      [0x04#8, 0xA2#8, 0xB3#8, 0xC5#8, 0x1A#8, 0x2B#8, 0x66#8, 0x77#8, 0x99#8, 0xAA#8] 0x20#8 7 0
      ⟨[], [], [], 0⟩ events :=
  ⟨_, _, _, _, _, _, air atqa (by decide), rfl, ⟨_, _, _, _, _, _, _, _, 0x04#8, sakRest, _, _, _, _,
    air [0x88#8, 0x04#8, 0xA2#8, 0xB3#8, 0x9D#8, 0x28#8, 0x00#8, 0x00#8] (by decide), rfl, by decide,
    air (sakReply 0x04#8) (by decide), rfl, (if_pos (by decide)).mpr ⟨by decide, _, _, rfl,
      ⟨_, _, _, _, _, _, _, _, 0x04#8, sakRest, _, _, _, _,
      air [0x88#8, 0xC5#8, 0x1A#8, 0x2B#8, 0x7C#8, 0x28#8, 0x00#8, 0x00#8] (by decide), rfl, by decide,
      air (sakReply 0x04#8) (by decide), rfl, (if_pos (by decide)).mpr ⟨by decide, _, _, rfl,
        ⟨_, _, _, _, _, _, _, _, 0x20#8, sakRest, _, _, _, _,
        air [0x66#8, 0x77#8, 0x99#8, 0xAA#8, 0x22#8, 0x28#8, 0x00#8, 0x00#8] (by decide), rfl, by decide,
        air (sakReply 0x20#8) (by decide), rfl, (if_neg (by decide)).mpr ⟨rfl, rfl, rfl, rfl, rfl, rfl⟩⟩, rfl⟩⟩,
      rfl⟩⟩, rfl⟩

/-- UIDs of one level and of three. -/
theorem test_meets_RunAnticolMakesTag :
    ({ field with params := spiParams, chip := ⟨[], [⟨0, 1⟩, ⟨0, 2⟩, ⟨0, 3⟩], short [], 0⟩ } : State).mode.dev
        = .fieldOn ∧
      field.mode.cfg = { pid := .iso14443A, tx := .r106, rx := .r106 } ∧ field.env.resetLine = [] ∧
      (∃ u line' events, CascadeAnswers spiParams 0 0 ⟨[], [⟨0, 1⟩, ⟨0, 2⟩, ⟨0, 3⟩], short [], 0⟩ 0x44#8 0x03#8
        [0xDE#8, 0xAD#8, 0xBE#8, 0xEF#8] 0x08#8 3 u line' events) ∧
      ∃ uid u line' events, uid.length = 10 ∧ CascadeAnswers spiParams 0 0
        ⟨[], [⟨0, 1⟩, ⟨0, 2⟩, ⟨0, 3⟩, ⟨0, 4⟩, ⟨0, 5⟩, ⟨0, 6⟩, ⟨0, 7⟩], long, 0⟩ 0x44#8 0x03#8 uid 0x20#8 7 u line'
        events :=
  ⟨rfl, rfl, rfl, ⟨_, _, short_answers 0 0⟩,
    long_answers.elim fun e h => ⟨_, _, _, e, rfl, h⟩⟩

/-- From IDLE: the answer to PROTOCOL, then those of a Tag once T_RAMP and T_OSC have run. -/
theorem test_meets_RadioScanMakesTag :
    start.mode.dev = .idle ∧ spiParams.wf = true ∧ start.env.resetLine = [] ∧
      (∃ mid, ChipFrame spiParams .noresp (start.out.sent + 1) start.sendTime
          ⟨[], [⟨0, 1⟩, ⟨0, 2⟩, ⟨0, 3⟩, ⟨0, 4⟩], frame 0x00#8 [] ++ short [],
              0⟩ spiParams.stOk [] (frame 0x00#8 []) 0 mid ∧
        ∃ m u line' events, CascadeAnswers spiParams 1 (0 + spiParams.tRamp + spiParams.tOsc) mid 0x44#8 0x03#8
          [0xDE#8, 0xAD#8, 0xBE#8, 0xEF#8] 0x08#8 m u line' events) ∧
      spiParams.lenProtocol.min ≤ 0 ∧ 0 ≤ spiParams.lenProtocol.max ∧
      FailsEveryWay start .noresp strictParams.stOk := by
  refine ⟨rfl, spiParams_wf, rfl, ⟨⟨[], [⟨0, 2⟩, ⟨0, 3⟩, ⟨0, 4⟩], short [], 0⟩,
    ⟨Nat.zero_le _, ⟨[], rfl, rfl⟩, ⟨0, 1⟩, rfl, rfl, rfl, by decide, by decide, rfl⟩, _, _, _,
    short_answers 1 _⟩, by decide, by decide, fails_every_way start _ _ rfl (by decide)⟩

/-- The field on for ISO14443A: alive at the second attempt, after a byte that is not ECHO_BYTE, then the answers of a
Tag; silent at all three attempts. -/
theorem test_meets_RadioScanReprobes :
    field.mode.dev = .fieldOn ∧ field.mode.cfg = { pid := .iso14443A, tx := .r106, rx := .r106 } ∧
      spiParams.wf = true ∧ field.env.resetLine = [] ∧ 1 < spiParams.echoAttempts ∧
      (∃ mid far, (∃ failed, EchoFails spiParams 1 0 0
          ⟨[], [⟨0, 1⟩, ⟨0, 2⟩, ⟨0, 3⟩, ⟨0, 4⟩, ⟨0, 5⟩], 0xAA#8 :: 0x55#8 :: short [], 0⟩ 0 mid failed) ∧
        ChipAnswers spiParams .echo 2 0 mid [spiParams.echoByte] 0 far ∧
        ∃ m u line' events, CascadeAnswers spiParams 2 0 far 0x44#8 0x03#8 [0xDE#8, 0xAD#8, 0xBE#8, 0xEF#8] 0x08#8 m u
          line' events) ∧
      ∃ events, EchoFails spiParams spiParams.echoAttempts (spiMute field).out.sent (spiMute field).sendTime
        (spiMute field).chip 30000 (spiMute field).chip events := by
  refine ⟨rfl, rfl, spiParams_wf, rfl, by decide,
    ⟨⟨[], [⟨0, 2⟩, ⟨0, 3⟩, ⟨0, 4⟩, ⟨0, 5⟩], 0x55#8 :: short [], 0⟩, _, ?_, ?_, _, _, _, short_answers 2 0⟩,
    test_meets_EchoTestReplies.2.2⟩
  · exact ⟨_, [0xAA#8], 0, _, _, .inr ⟨0xAA#8, by decide, ⟨⟨0, 1⟩, rfl, rfl, rfl, by decide, by decide, rfl⟩, rfl⟩,
      ⟨rfl, rfl, rfl⟩, rfl⟩
  · exact ⟨⟨0, 2⟩, rfl, rfl, rfl, by decide, by decide, rfl⟩

/-! ### Whole requests -/

/-- exec answers a next state of which this holds. -/
theorem runs {i : Instr} {s : State} {P : State → Prop} [DecidablePred P]
    (h : answers (exec i s) (fun t => decide (P t)) = true) : ∃ t, exec i s = .next t ∧ P t := by
  obtain ⟨t, ht, hp⟩ := of_answers h
  exact ⟨t, ht, of_decide_eq_true hp⟩

theorem test_meets_EveryRequestEnds :
    tagged.params.wf = true ∧ (Instr.getUid []).space = .host ∧ (Instr.getUid []).wf = true ∧
      tagged.env.resetLine = [] ∧ tagged.tag.valid = true ∧ tagged.TagWf :=
  ⟨by decide +kernel, rfl, rfl, rfl, rfl, ⟨by decide, by decide⟩⟩

/-- A state in which every kind runs: the reserved selector's request latched, the CHIP silent. -/
theorem test_meets_OutcomeTable :
    let s := asked start 0x09#8 []
    s.params.wf = true ∧ s.env.resetLine = [] ∧ s.mode.dev ≠ .awaitingResponse ∧ s.resetDue = false ∧
      s.host.phase = .busy ∧ s.ac.step = .off ∧ 9 ≤ s.host.reqSel.toNat ∧
      ([Instr.radioScan, .echoTest, .calibration, .getChipId, .getUid, .runAnticol, .goIdle, .selectProtocol,
        .fieldOff].all fun i => answers (exec (i []) s) fun _ => true) = true ∧
      answers (step s) (fun _ => true) = true := by decide +kernel

/-- Each of the changes that are allowed happens. -/
theorem test_meets_DevStateTransitions :
    let s := { start with mode.dev := .uninitialized }
    (∃ t, exec (.calibration []) State.reset = .next t ∧ t.mode.dev = .uninitialized) ∧
      (∃ t, exec (.goIdle []) dead = .next t ∧ t.mode.dev = .idle) ∧
      (∃ t, exec (.echoTest []) start = .next t ∧ t.mode.dev = .error) ∧
      (∃ t, exec (.selectProtocol [2#8, 0#8, 0#8]) (hearing start (feed 1 10 [0#8, 0#8])) = .next t ∧
        t.mode.dev = .fieldOn) ∧
      (∃ t, exec (.goIdle []) field = .next t ∧ t.mode.dev = .idle) ∧
      (∃ t, exec .idn (hearing s (feed 1 10 [0#8, 0#8])) = .next t ∧ t.mode.dev = .idle) ∧
      (∃ t, exec .reqa (hearing s (feed 1 10 [0x80#8, 0#8])) = .next t ∧ t.mode.dev = .idle) ∧
      (∃ t, exec (.fieldOff []) (hearing s (feed 1 10 [0#8, 0#8])) = .next t ∧ t.mode.dev = .idle) ∧
      ∃ t, exec (.getChipId []) start = .next t ∧ t.host.lastOutcome = .noResponse :=
  ⟨runs (by decide +kernel), runs (by decide +kernel), runs (by decide +kernel), runs (by decide +kernel),
    runs (by decide +kernel), runs (by decide +kernel), runs (by decide +kernel), runs (by decide +kernel),
    runs (by decide +kernel)⟩

/-- The settle is set by a selection and by PROTOCOL at the CommandEngine's entry; it is waited out and cleared where
something else sends. -/
theorem test_meets_SettleTriggers :
    (∃ t, exec (.protocol 2#8 0#8) (hearing start (feed 1 10 [0#8, 0#8])) = .next t ∧ t.txn.settlePending = true) ∧
    (∃ t, exec (.selectProtocol [2#8, 0#8, 0#8]) (hearing start (feed 1 10 [0#8, 0#8])) = .next t ∧
        t.txn.settlePending = true) ∧
      State.reset.txn.settlePending = true ∧
      ∃ t, exec (.getChipId []) { start with txn.settlePending := true } = .next t ∧ 0 < t.out.sent ∧
        t.txn.settlePending = false :=
  ⟨runs (by decide +kernel), runs (by decide +kernel), rfl, runs (by decide +kernel)⟩

/-- Each of the changes that are allowed happens: a cascade that fails clears the Tag, one that ends OK makes one, as a
single air row does, and a field-off clears it, by either row. -/
theorem test_meets_TagChangesOnlyByCascadeOrFieldOff :
    let s := { tagged with mode := field.mode }
    s.params.wf = true ∧ s.env.resetLine = [] ∧
      (∃ t, exec (.runAnticol []) s = .next t ∧ t.tag ≠ s.tag ∧ t.host.lastOutcome = .noTagDetected) ∧
      (∃ t, exec (.fieldOff []) (hearing s (feed 1 10 [0#8, 0#8])) = .next t ∧ t.tag ≠ s.tag) ∧
      (∃ t, exec (.selectProtocol [0#8, 1#8, 2#8]) (hearing s (feed 1 10 [0#8, 0#8])) = .next t ∧ t.tag ≠ s.tag) ∧
      ∃ t, exec (.selectL2 0xC5#8 0x1A#8 0x2B#8 0x80#8 0x74#8) (hearing midway
          (feed 1 10 (frame 0x80#8 [0x00#8, 0xFE#8, 0x51#8, 0x08#8, 0x00#8, 0x00#8]))) = .next t ∧
        t.tag ≠ midway.tag ∧ t.host.lastOutcome = .ok :=
  ⟨by decide +kernel, rfl, runs (by decide +kernel), runs (by decide +kernel), runs (by decide +kernel),
    runs (by decide +kernel)⟩

/-- Both failures of the cascade, over a Tag that was valid; single air rows that go on, end in a Tag and fail. -/
theorem test_meets_CascadeFailureLeaksNothing :
    let s := { tagged with mode := field.mode }
    (∃ t, exec (.runAnticol []) s = .next t ∧ t.host.lastOutcome = .noTagDetected) ∧
      (∃ t, exec (.radioScan []) (hearing s (feed 1 10 [0x55#8] ++ feed 2 20 [0x80#8, 0x01#8, 0x00#8])) = .next t ∧
        t.host.lastOutcome = .anticollisionFailed) ∧
      midway.tag.valid = false ∧
      (∃ t, exec .reqa (hearing midway (feed 1 10 (frame 0x80#8 [0x44#8, 0x00#8, 0x28#8, 0x00#8, 0x00#8]))) = .next t ∧
        t.ac.step = .anticol) ∧
      (∃ t, exec (.selectL2 0xC5#8 0x1A#8 0x2B#8 0x80#8 0x74#8) (hearing midway
          (feed 1 10 (frame 0x80#8 [0x00#8, 0xFE#8, 0x51#8, 0x08#8, 0x00#8, 0x00#8]))) = .next t ∧
        t.ac.step = .done ∧ t.host.lastOutcome = .ok) ∧
      ∃ t, exec .anticolL2 midway = .next t ∧ t.ac.step = .done ∧ t.host.lastOutcome = .anticollisionFailed :=
  ⟨runs (by decide +kernel), runs (by decide +kernel), rfl, runs (by decide +kernel), runs (by decide +kernel),
    runs (by decide +kernel)⟩

/-- The whole settle and the whole of the last wait, for one of each kind; a cut by a reset. -/
theorem test_meets_RequestsEndInTime :
    let s := { start with txn.settlePending := true }
    (∃ t, exec (.getUid []) s = .next t ∧ t.now = 0) ∧
      (∃ t, exec (.getChipId []) s = .next t ∧ t.now = 18000 + 2500000) ∧
      (∃ t, exec (.echoTest []) s = .next t ∧ t.now = 18000 + 3 * 10000) ∧
      (∃ t, exec (.selectProtocol [2#8, 0#8, 0#8]) s = .next t ∧ t.now = 18000 + 2500000) ∧
      (∃ t, exec (.runAnticol []) { field with txn.settlePending := true } = .next t ∧ t.now = 18000 + 1000000) ∧
      (∃ t, exec (.radioScan []) s = .next t ∧ t.now = 18000 + 2500000) ∧
      ∃ t, exec (.getChipId []) { s with env.resetLine := [5] } = .next t ∧ t.now = 5 :=
  ⟨runs (by decide +kernel), runs (by decide +kernel), runs (by decide +kernel), runs (by decide +kernel),
    runs (by decide +kernel), runs (by decide +kernel), runs (by decide +kernel)⟩

/-! ### The cascade's steps -/

/-- An answer to the next SEND_RECV of a cascade step. -/
theorem aired (s : State) (reply : List Byte) (h : fresh s = true) (hl : reply.length ≤ 254) :
    Framed (spiHear s (frame 0x80#8 reply) []) .detect spiParams.stData reply 0 ⟨[], [], [], 0⟩ :=
  framed s .detect 0x80#8 reply [] h hl

theorem test_meets_ReqaCaptures :
    Framed (spiHear field (frame 0x80#8 atqa) []) .detect spiParams.stData atqa 0 ⟨[], [], [], 0⟩ ∧
      lenAccepted spiParams.lenSendRecv (2 + 3) = true ∧ spiParams.rxTrailerLen = 3 :=
  ⟨aired field _ rfl (by decide), by decide, rfl⟩

/-- A BCC that is right and one that is wrong. -/
theorem test_meets_AnticolCaptures :
    (∀ b : Byte, Framed (spiHear (standing .anticol (some .l1))
        (frame 0x80#8 [0xDE#8, 0xAD#8, 0xBE#8, 0xEF#8, b, 0x28#8, 0x00#8, 0x00#8]) []) .detect spiParams.stData
        [0xDE#8, 0xAD#8, 0xBE#8, 0xEF#8, b, 0x28#8, 0x00#8, 0x00#8] 0 ⟨[], [], [], 0⟩) ∧
      lenAccepted spiParams.lenSendRecv (5 + 3) = true ∧ spiParams.verifyBcc = true ∧
      0x22#8 = 0xDE#8 ^^^ 0xAD#8 ^^^ 0xBE#8 ^^^ 0xEF#8 ∧ 0x23#8 ≠ 0xDE#8 ^^^ 0xAD#8 ^^^ 0xBE#8 ^^^ 0xEF#8 :=
  ⟨fun _ => aired _ _ rfl (Nat.le_of_ble_eq_true rfl), by decide, rfl, by decide, by decide⟩

/-- The marker there; and not there, CHECK_CT being true. -/
theorem test_meets_SelectCascades :
    Framed (spiHear (atLevel .l2 3 [0x04#8, 0xA2#8, 0xB3#8]) (frame 0x80#8 (sakReply 0x04#8)) []) .detect
        spiParams.stData (sakReply 0x04#8) 0 ⟨[], [], [], 0⟩ ∧
      lenAccepted spiParams.lenSendRecv (1 + 5) = true ∧ (0x04#8 &&& spiParams.sakCascadeMask) ≠ 0#8 ∧
      0x88#8 = spiParams.ctByte ∧ (atLevel .l3 6 []).ac.uidLen ≤ 7 ∧
      { spiParams with checkCt := true }.checkCt = true ∧ 0x08#8 ≠ spiParams.ctByte :=
  ⟨aired _ _ rfl (by decide), by decide, by decide, rfl, by decide, rfl, by decide⟩

theorem test_meets_SelectCompletes :
    Framed (spiHear (atLevel .l3 6 [0x04#8, 0xA2#8, 0xB3#8, 0xC5#8, 0x1A#8,
        0x2B#8]) (frame 0x80#8 (sakReply 0x20#8)) [])
        .detect spiParams.stData (sakReply 0x20#8) 0 ⟨[], [], [], 0⟩ ∧
      (atLevel .l3 6 [0x04#8, 0xA2#8, 0xB3#8, 0xC5#8, 0x1A#8, 0x2B#8]).ac.uidBuf.readRange 0 6 =
        some [0x04#8, 0xA2#8, 0xB3#8, 0xC5#8, 0x1A#8, 0x2B#8] ∧
      (atLevel .l1 0 []).ac.uidBuf.readRange 0 0 = some [] ∧
      (0x20#8 &&& spiParams.sakCascadeMask) = 0#8 ∧ lenAccepted spiParams.lenSendRecv (1 + 5) = true :=
  ⟨aired _ _ rfl (by decide), by decide, by decide, by decide, by decide⟩

/-- Every failure of the exchange; a reply of no byte and one of 254. -/
theorem test_meets_CascadeStepFails :
    FailsEveryWay field .detect strictParams.stData ∧
      (∀ reply ∈ [[], List.replicate 254 0#8],
        Framed (spiHear field (frame 0x80#8 reply) []) .detect spiParams.stData reply 0 ⟨[], [], [], 0⟩) ∧
      lenAccepted spiParams.lenSendRecv 0 = true ∧ lenAccepted spiParams.lenSendRecv 254 = true :=
  ⟨fails_every_way field _ _ rfl (by decide), fun _ h => aired field _ rfl (shortest_longest h), by decide, by decide⟩

theorem test_meets_RunAnticolIsItsSteps :
    let s := asked field 0x05#8 []
    s.params.wf = true ∧ s.env.resetLine = [] ∧ s.host.phase = .busy ∧ s.mode.dev = .fieldOn ∧
      s.mode.cfg = { pid := .iso14443A, tx := .r106, rx := .r106 } ∧
      (∃ entered, cascadeEntry.run s = .ok ⟨⟩ entered) ∧ ∃ t, exec (.runAnticol []) s = .next t := by
  obtain ⟨t, h, -⟩ := of_answers (o := exec (.runAnticol []) (asked field 0x05#8 [])) (p := fun _ => true)
    (by decide +kernel)
  exact ⟨by decide +kernel, rfl, rfl, rfl, rfl, ⟨_, rfl⟩, t, h⟩

end Sys2Proof.Tests
end

section
/-! PROOFS. The state of spec/10_state.md: what reset leaves in the registers. -/

namespace Sys2Proof.Proofs

open Sys2Proof.Machine

/-- Settles O11: `State.reset` is R58's table, so each valued row is read off its field. The rows R58 leaves
unspecified (R59) are no part of the statement. -/
theorem resetValues : Obligations.ResetValues := by
  unfold Obligations.ResetValues
  simp only [State.reset, and_self]

end Sys2Proof.Proofs
end

section
/-! PROOFS. The transport of spec/40_transport_frame.md: the frame's bytes, the flush, one byte against its deadline,
and a whole frame received. -/

namespace Sys2Proof.Proofs

open Sys2Proof.Machine Sys2Proof.Laws

/-! ## A frame's bytes -/

/-- Without a trailer a frame is R162's bytes. -/
theorem frameBytes_of_no_trailer {p : Params} (h : p.frameTrailerLen = 0) (op : Byte) (payload : List Byte) :
    frameBytes p op payload = op :: BitVec.ofNat 8 payload.length :: payload := by
  simp [frameBytes, trailerBytes, h]

/-- A response without a trailer is the bytes EncodeFrame makes of its status and payload. -/
theorem responseBytes_nil (status : Byte) (payload : List Byte) :
    responseBytes status payload [] = status :: BitVec.ofNat 8 payload.length :: payload := by
  simp [responseBytes]

theorem encodeFrame_refuses {s : State} {payload : List Byte} (op : Byte) (hl : maxPayload < payload.length) :
    (encodeFrame op payload).run s = .error (.outcome .invalidRequest) s := by
  simp [encodeFrame, hl]

/-- A frame of an admissible payload fits tx_buf, whatever the trailer's length. -/
theorem encodeFrame_ok {s : State} {payload : List Byte} (op : Byte) (hl : payload.length ≤ maxPayload) :
    (encodeFrame op payload).run s = .ok ⟨⟩
      { s with
        txn.txBuf := s.txn.txBuf.writeRange 0 (frameBytes s.params op payload)
        txn.txLen := (frameBytes s.params op payload).length } := by
  have hfit : 0 + (frameBytes s.params op payload).length ≤ bufSize s.params .tx := by
    simpa [bufSize] using frameBytes_le (p := s.params) (op := op) hl
  unfold encodeFrame
  simp only [run_bind, show ¬ maxPayload < payload.length by omega, if_false, run_get, storeBytes_ok hfit, run_modify,
    State.setBuf, State.buf]

/-- Settles O21: the frame is written from index 0 on, and a range written there holds just its bytes. -/
theorem encodeFrameWrites : Obligations.EncodeFrameWrites := by
  unfold Obligations.EncodeFrameWrites
  intro s op payload htr
  refine ⟨fun hl => encodeFrame_refuses op hl, fun hl => ?_⟩
  have hf := frameBytes_of_no_trailer htr op payload
  have hlen : (frameBytes s.params op payload).length = 2 + payload.length := by
    rw [frameBytes_length, htr, Nat.add_zero]
  refine ⟨_, encodeFrame_ok op hl, by rw [hlen], ?_⟩
  rw [← hf]
  exact holds_writeRange s.txn.txBuf _

/-! ## The flush -/

/-- What is dropped from the head of a list is its longest prefix of the predicate. -/
theorem dropWhile_prefix {α : Type} {q : α → Bool} {xs ys : List α} (hx : ∀ a ∈ xs, q a = true)
    (hy : ∀ a ∈ ys.head?, q a = false) : (xs ++ ys).dropWhile q = ys := by
  rw [List.dropWhile_append_of_pos hx]
  cases ys with
  | nil => rfl
  | cons y ys => exact List.dropWhile_cons_of_neg (by simp [hy y rfl])

/-- Under UART the flush before the next transmission leaves the channel from the first byte on that does not wait. -/
theorem flushed_uart {p : Params} {n t : Nat} {line : ChipLine} {waiting coming : List Arrival}
    (hp : p.transport = .uart) (hrx : line.rx = waiting ++ coming) (hw : ∀ a ∈ waiting, a.time ≤ t ∧ a.after ≤ n)
    (hc : ∀ a ∈ coming.head?, t < a.time ∨ n < a.after) :
    line.flushed p (n + 1) t = { line with rx := coming } := by
  have hwait : ∀ a ∈ waiting, (decide (a.time ≤ t) && decide (a.after < n + 1)) = true := fun a ha => by
    simpa [Nat.lt_succ_iff] using hw a ha
  have hcome : ∀ a ∈ coming.head?, (decide (a.time ≤ t) && decide (a.after < n + 1)) = false := fun a ha => by
    have := hc a ha
    simp only [Bool.and_eq_false_iff, decide_eq_false_iff_not]
    omega
  simp only [ChipLine.flushed, hp, hrx, dropWhile_prefix hwait hcome]

theorem flushed_spi {p : Params} (n t : Nat) (line : ChipLine) (hp : p.transport = .spi) :
    line.flushed p n t = line := by
  simp only [ChipLine.flushed, hp]

/-- Settles O22: FlushRx drops the channel's longest prefix of waiting bytes, which is `waiting`, as the first byte
after it does not wait. -/
theorem flushDiscardsWaiting : Obligations.FlushDiscardsWaiting := by
  unfold Obligations.FlushDiscardsWaiting
  intro s waiting coming hrx hw hc
  refine ⟨fun hp => ?_, fun hp => ?_⟩
  · rw [flushRx_ok, flushed_uart hp hrx hw hc]
  · rw [flushRx_ok, flushed_spi _ _ _ hp]

/-! ## One byte against its deadline -/

/-- Where the deadline has passed on entry, RxByte answers at once, whatever waits. -/
theorem rxByte_late {dl : Nat} {s : State} (h : dl ≤ s.now) : (rxByte dl).run s = .ok none s := by
  simp [rxByte, h]

/-- Settles O23: the three cases of R164, each a rule of RxByte; in the second the time goes on to the deadline. -/
theorem rxByteDeadlineWins : Obligations.RxByteDeadlineWins := by
  unfold Obligations.RxByteDeadlineWins
  intro s dl
  refine ⟨fun a rest hrx hafter hnow htime hquiet => rxByte_take hnow hrx hafter htime hquiet,
    fun hnow hnone hquiet => ?_, rxByte_late⟩
  rw [rxByte_timeout hnone hquiet, max_eq_right hnow.le]

/-! ## A whole frame -/

/-- Settles O24: the bytes are a response with an empty trailer, so the receive's rule for a whole frame gives the
answer and the state it leaves. -/
theorem receiveRoundTrip : Obligations.ReceiveRoundTrip := by
  unfold Obligations.ReceiveRoundTrip
  intro s kind status payload u line' hwf htr hl hdel hquiet
  refine ⟨frameBytes_of_no_trailer htr status payload, ?_⟩
  rw [← responseBytes_nil] at hdel ⊢
  have hcount : (responseBytes status payload []).length = 2 + payload.length := by
    rw [responseBytes_nil, List.length_cons, List.length_cons]; omega
  have hrun := receive_frame (trailer := []) (ticks_pos hwf kind) (tIb_pos hwf) hl htr.symm hdel hquiet
  exact ⟨_, hrun, rfl, rfl, hcount, rfl, holds_writeRange s.txn.rxBuf _⟩

end Sys2Proof.Proofs
end

section
/-! PROOFS. The TimeoutSupervisor of spec/41_timeout_supervisor.md: its delays (R203, R204). -/

namespace Sys2Proof.Proofs

open Sys2Proof.Machine Sys2Proof.Laws

/-- Settles O19: both delays are instances of the one rule of a delay kind, T(RAMP) being T_RAMP and T(OSC) T_OSC. -/
theorem delaysElapse : Obligations.DelaysElapse := by
  unfold Obligations.DelaysElapse
  intro s
  exact ⟨fun hquiet => delay_ok (kind := .ramp) hquiet, fun hquiet => delay_ok (kind := .osc) hquiet⟩

end Sys2Proof.Proofs
end

section
/-! PROOFS. The host requests of spec/45_host_requests.md: CALIBRATION (R366), a reserved selector (R361(a)), and the
outcomes each kind of request can give (R374). -/

namespace Sys2Proof.Proofs

open Sys2Proof.Machine Sys2Proof.Laws

/-! ## CALIBRATION -/

/-- Settles O35: the dispatcher refuses CALIBRATION before any other check, so it never runs. -/
theorem calibrationUnsupported : Obligations.CalibrationUnsupported := by
  unfold Obligations.CalibrationUnsupported
  intro s payload
  rcases hostRequest_cases .calibration payload (raiseOutcome .unsupported) s with ⟨c, hrun, hc⟩ | ⟨-, hruns⟩
  · obtain rfl : c = .unsupported := by simpa [Refuses] using hc
    exact conclude_raise hrun
  · exact absurd rfl hruns.kind

/-! ## A reserved selector -/

/-- A buffer read changes nothing, and ends early only in a fault (R59). -/
theorem loadBytes_ends (b : Buf) (start n : Nat) (s : State) :
    Ends (loadBytes b start n) s (fun _ t => t = s) (fun e _ => ∃ f, e = .fault f) := by
  unfold loadBytes
  refine ends_get_bind ?_
  split
  · split
    · exact ends_pure rfl
    · exact ends_throw ⟨_, rfl⟩
  · exact ends_throw ⟨_, rfl⟩

theorem requestBytes_ends (s : State) :
    Ends requestBytes s (fun bytes t => t = s ∧ ∃ rest, bytes = s.host.reqSel :: rest)
      (fun e _ => ∃ f, e = .fault f) := by
  unfold requestBytes
  refine ends_get_bind (Ends.bind (loadBytes_ends _ _ _ s) (fun payload t ht => ?_) fun _ _ he => he)
  exact ends_pure ⟨ht, _, rfl⟩

/-- Outside the cascade's positions a busy engine fetches the latched request. -/
theorem fetchBytes_request {s : State} (hb : s.host.phase = .busy) (ha : s.ac.step = .off ∨ s.ac.step = .done) :
    fetchBytes.run s = (do return some (.host, ← requestBytes) : Proc (Option (Space × List Byte))).run s := by
  have hpos : s.position = .request := by rcases ha with h | h <;> simp only [State.position, h]
  unfold fetchBytes
  simp only [run_bind, run_get, hb, hpos]

theorem readInstr_reserved {p : Params} {sel : Byte} (hs : 9 ≤ sel.toNat) (rest : List Byte) :
    readInstr p .host (sel :: rest) = .reserved := by
  simp only [readInstr, decode, decodeHost, show 8 < sel.toNat from hs, if_true]

/-- A reserved selector is fetched as such, but for a request whose bytes cannot be read. -/
theorem fetch_reserved {s : State} (hb : s.host.phase = .busy) (ha : s.ac.step = .off ∨ s.ac.step = .done)
    (hs : 9 ≤ s.host.reqSel.toNat) : fetch s = .reserved ∨ ∃ f, fetch s = .fault f := by
  unfold fetch
  rw [fetchBytes_request hb ha, run_bind]
  cases hrun : requestBytes.run s with
  | ok bytes t =>
    obtain ⟨-, rest, rfl⟩ := (requestBytes_ends s).ok hrun
    exact .inl (readInstr_reserved hs rest)
  | error e t =>
    obtain ⟨f, rfl⟩ := (requestBytes_ends s).error hrun
    exact .inr ⟨f, rfl⟩

/-- The step that meets a reserved selector answers no state but the refusal's (R361(a)). -/
theorem step_reserved {s t : State} (hd : s.resetDue = false) (hb : s.host.phase = .busy)
    (ha : s.ac.step = .off ∨ s.ac.step = .done) (hs : 9 ≤ s.host.reqSel.toNat) (h : step s = .next t) :
    t = s.finish .invalidRequest [] := by
  unfold step at h
  rw [hd, if_neg Bool.false_ne_true] at h
  rcases fetch_reserved hb ha hs with hf | ⟨f, hf⟩
  · rw [hf] at h
    cases h
    rfl
  · rw [hf] at h
    cases h

/-! ## What the dispatcher's checks refuse with -/

/-- The outcomes of R361(c), R361(d) and R362 for each kind, no request being met in AWAITING_RESPONSE. -/
def refusals : RequestKind → List OutcomeCode
  | .calibration => [.unsupported]
  | .runAnticol => [.invalidRequest, .deviceFault, .notReady]
  | .goIdle => [.invalidRequest, .notReady]
  | .echoTest | .fieldOff => [.invalidRequest]
  | .radioScan | .getChipId | .getUid | .selectProtocol => [.invalidRequest, .deviceFault]

/-- The payload is one that validation refuses (R361(c), R361(d)). -/
def PayloadRefused (k : RequestKind) (payload : List Byte) : Prop :=
  lengthWrong k payload = true ∨ k = .selectProtocol ∧ validCfg payload = false

/-- The kinds that R362 has NotReady for. -/
theorem kind_of_not_allowed {k : RequestKind} {d : DevState} {cfg : ProtoCfg} (h : allowed k d cfg = false)
    (hd : d ≠ .awaitingResponse) (he : d = .error → allowedInError k = true) : k = .runAnticol ∨ k = .goIdle := by
  cases d with
  | awaitingResponse => exact absurd rfl hd
  | error => exact absurd (he rfl) (by simpa [allowed] using h)
  | fieldOn => simp only [allowed, Bool.or_eq_false_iff, bne_eq_false_iff_eq] at h; exact .inl h.1
  | uninitialized | idle => simpa [allowed, or_iff_not_imp_left] using h

theorem Refuses.mem_refusals {k : RequestKind} {payload : List Byte} {s : State} {c : OutcomeCode}
    (h : Refuses k payload s c) (hd : s.mode.dev ≠ .awaitingResponse) : c ∈ refusals k := by
  rcases h with ⟨rfl, rfl⟩ | ⟨hk, rfl, -⟩ | ⟨hk, rfl, -, he⟩ | ⟨-, rfl, ha, he⟩
  · simp [refusals]
  · cases k <;> simp_all [refusals]
  · cases k <;> simp_all [refusals, allowedInError]
  · rcases kind_of_not_allowed ha hd he with rfl | rfl <;> simp [refusals]

/-- InvalidRequest comes from the payload alone. -/
theorem Refuses.payload {k : RequestKind} {payload : List Byte} {s : State}
    (h : Refuses k payload s .invalidRequest) : PayloadRefused k payload := by
  rcases h with ⟨hc, -⟩ | ⟨-, -, hp⟩ | ⟨-, hc, -⟩ | ⟨-, hc, -⟩
  · cases hc
  · exact hp
  · cases hc
  · cases hc

theorem PayloadRefused.ne_nil {k : RequestKind} {payload : List Byte} (h : PayloadRefused k payload)
    (hk : payloadLen k = some 0) : payload ≠ [] := by
  rintro rfl
  rcases h with hl | ⟨rfl, -⟩
  · simp [lengthWrong, hk] at hl
  · simp [payloadLen] at hk

theorem PayloadRefused.select {payload : List Byte} (h : PayloadRefused .selectProtocol payload) :
    payload.length ≠ 3 ∨ validCfg payload = false := by
  rcases h with hl | ⟨-, hv⟩
  · exact .inl (by simpa [lengthWrong, payloadLen] using hl)
  · exact .inr hv

/-! ## What the requests' own procedures end in -/

/-- The outcomes of R364 to R372 for a request that has passed the checks. -/
def results : RequestKind → List OutcomeCode
  | .radioScan => [.ok, .noResponse, .malformedFrame, .noTagDetected, .anticollisionFailed, .deviceFault]
  | .echoTest => [.ok, .deviceFault]
  | .calibration => []
  | .getChipId | .goIdle | .fieldOff => [.ok, .noResponse, .malformedFrame]
  | .getUid => [.ok, .noTagDetected]
  | .runAnticol => [.ok, .noTagDetected, .anticollisionFailed]
  | .selectProtocol => [.ok, .noResponse, .malformedFrame, .deviceFault]

theorem invalidRequest_not_mem_results (k : RequestKind) : .invalidRequest ∉ results k := by
  cases k <;> decide

/-- The recorded outcome of a procedure that the reset input does not end is the code of its Finish. -/
theorem Finishes.outcome_mem {p : Proc Unit} {s t : State} {b : Nat} {P : OutcomeCode → State → Prop}
    {codes : List OutcomeCode} (h : Finishes p s b P) (hP : ∀ c u, P c u → c ∈ codes) (hr : s.env.resetLine = [])
    (hn : conclude p s = .next t) : t.host.lastOutcome ∈ codes := by
  obtain ⟨u, code, data, rfl, -, -, -, -, hu⟩ := h.next hn hr
  exact hP code u hu

section
variable {s t : State}

theorem radioScan_outcome (hp : s.params.wf = true) (hr : s.env.resetLine = [])
    (h : conclude radioScan s = .next t) : t.host.lastOutcome ∈ results .radioScan := by
  refine Finishes.outcome_mem (radioScan_finishes hp) (fun c u hc => ?_) hr h
  obtain ⟨-, -, -, -, ⟨rfl | rfl, -⟩ | ⟨rfl, -⟩ | ⟨-, -, -, rfl | ⟨rfl | rfl, -⟩⟩⟩ := hc <;> simp [results]

theorem echoTest_outcome (hp : s.params.wf = true) (hr : s.env.resetLine = [])
    (h : conclude echoTest s = .next t) : t.host.lastOutcome ∈ results .echoTest := by
  refine Finishes.outcome_mem (echoTest_finishes hp) (fun c u hc => ?_) hr h
  obtain ⟨-, -, -, -, -, -, -, ⟨rfl, -⟩ | ⟨rfl, -⟩⟩ := hc <;> simp [results]

theorem getChipId_outcome (hr : s.env.resetLine = []) (h : conclude getChipId s = .next t) :
    t.host.lastOutcome ∈ results .getChipId := by
  refine Finishes.outcome_mem (getChipId_finishes s) (fun c u hc => ?_) hr h
  obtain ⟨-, -, -, -, -, -, -, ⟨rfl, -⟩ | ⟨rfl | rfl, -⟩⟩ := hc <;> simp [results]

theorem getUid_outcome (h : conclude getUid s = .next t) : t.host.lastOutcome ∈ results .getUid := by
  obtain ⟨c, d, rfl, rfl | rfl⟩ := getUid_next h <;> simp [results]

theorem runAnticol_outcome (hr : s.env.resetLine = []) (h : conclude runAnticol s = .next t) :
    t.host.lastOutcome ∈ results .runAnticol := by
  refine Finishes.outcome_mem (runAnticol_finishes s) (fun c u hc => ?_) hr h
  obtain ⟨-, -, -, -, -, -, rfl | ⟨rfl | rfl, -⟩⟩ := hc <;> simp [results]

theorem goIdle_outcome (hp : s.params.wf = true) (hr : s.env.resetLine = [])
    (h : conclude goIdleReq s = .next t) : t.host.lastOutcome ∈ results .goIdle := by
  refine Finishes.outcome_mem (goIdle_finishes hp) (fun c u hc => ?_) hr h
  obtain ⟨-, -, -, -, -, -, -, -, rfl | rfl | rfl⟩ := hc <;> simp [results]

theorem FieldOffAfter.mem_results {c : OutcomeCode} (h : FieldOffAfter s c t) : c ∈ results .fieldOff := by
  obtain ⟨rfl, -⟩ | ⟨rfl | rfl, -⟩ := h <;> simp [results]

theorem fieldOff_outcome (hr : s.env.resetLine = []) (h : conclude fieldOffReq s = .next t) :
    t.host.lastOutcome ∈ results .fieldOff := by
  refine Finishes.outcome_mem (fieldOff_finishes s) (fun c u hc => ?_) hr h
  obtain ⟨-, -, -, -, -, hf⟩ := hc
  exact FieldOffAfter.mem_results hf

theorem SelectAfter.mem_results {cfg : ProtoCfg} {c : OutcomeCode} (h : SelectAfter s cfg c t) :
    c ∈ results .selectProtocol := by
  obtain ⟨-, hf, -⟩ | ⟨-, -, ⟨rfl, -⟩ | ⟨rfl | rfl, -⟩ | ⟨rfl, -⟩⟩ := h
  · exact (show results .fieldOff ⊆ results .selectProtocol by decide) (FieldOffAfter.mem_results hf)
  all_goals simp [results]

theorem selectProtocol_outcome {payload : List Byte} (hp : s.params.wf = true) (hr : s.env.resetLine = [])
    (hruns : Runs .selectProtocol payload s) (h : conclude (selectProtocolReq payload) s = .next t) :
    t.host.lastOutcome ∈ results .selectProtocol := by
  obtain ⟨pid, tx, rx, cfg, rfl, hcfg⟩ := runs_select hruns
  refine Finishes.outcome_mem (selectProtocol_finishes hp hcfg) (fun c u hc => ?_) hr h
  obtain ⟨-, -, -, -, hs⟩ := hc
  exact SelectAfter.mem_results hs

end

/-! ## The outcome table -/

/-- A whole request's answer is its refusal or its procedure's answer (R373). -/
theorem request_next {k : RequestKind} {payload : List Byte} {body : Proc Unit} {s t : State}
    (h : conclude (hostRequest k payload body) s = .next t) :
    (∃ c, t = s.finish c [] ∧ Refuses k payload s c) ∨ Runs k payload s ∧ conclude body s = .next t := by
  rcases hostRequest_cases k payload body s with ⟨c, hrun, hc⟩ | ⟨hrun, hruns⟩
  · rw [conclude_raise hrun] at h
    cases h
    exact .inl ⟨c, rfl, hc⟩
  · refine .inr ⟨hruns, ?_⟩
    unfold conclude at h ⊢
    rwa [← hrun]

/-- A row of R374's table: a request gives its procedure's results and its refusals, and InvalidRequest for its payload
alone. -/
theorem request_outcome {k : RequestKind} {payload : List Byte} {body : Proc Unit} {s t : State}
    {codes : List OutcomeCode} {invalid : Prop} (hd : s.mode.dev ≠ .awaitingResponse)
    (hbody : Runs k payload s → conclude body s = .next t → t.host.lastOutcome ∈ results k)
    (hcodes : results k ++ refusals k ⊆ codes) (hinvalid : PayloadRefused k payload → invalid)
    (h : conclude (hostRequest k payload body) s = .next t) :
    t.host.lastOutcome ∈ codes ∧ (t.host.lastOutcome = .invalidRequest → invalid) := by
  rcases request_next h with ⟨c, rfl, hc⟩ | ⟨hruns, hrun⟩
  · rw [finish_lastOutcome]
    refine ⟨hcodes (List.mem_append_right _ (Refuses.mem_refusals hc hd)), ?_⟩
    rintro rfl
    exact hinvalid (Refuses.payload hc)
  · have hmem := hbody hruns hrun
    refine ⟨hcodes (List.mem_append_left _ hmem), fun hi => ?_⟩
    rw [hi] at hmem
    exact absurd hmem (invalidRequest_not_mem_results k)

/-- Settles O48: each row is its procedure's results with its kind's refusals; CALIBRATION's is O35's, and a reserved
selector's is the refusal of R361(a). -/
theorem outcomeTable : Obligations.OutcomeTable := by
  unfold Obligations.OutcomeTable
  intro s t payload hp hr hd
  have empty : ∀ {k : RequestKind}, payloadLen k = some 0 → PayloadRefused k payload → payload ≠ [] :=
    fun hk h => h.ne_nil hk
  refine ⟨?radioScan, ?echoTest, ?calibration, ?getChipId, ?getUid, ?runAnticol, ?goIdle, ?selectProtocol, ?fieldOff,
    ?reserved⟩
  case radioScan => exact request_outcome hd (fun _ => radioScan_outcome hp hr) (by decide) (empty rfl)
  case echoTest => exact request_outcome hd (fun _ => echoTest_outcome hp hr) (by decide) (empty rfl)
  case calibration =>
    intro h
    rw [calibrationUnsupported s payload] at h
    cases h
    simp
  case getChipId => exact request_outcome hd (fun _ => getChipId_outcome hr) (by decide) (empty rfl)
  case getUid => exact request_outcome hd (fun _ => getUid_outcome) (by decide) (empty rfl)
  case runAnticol => exact request_outcome hd (fun _ => runAnticol_outcome hr) (by decide) (empty rfl)
  case goIdle => exact request_outcome hd (fun _ => goIdle_outcome hp hr) (by decide) (empty rfl)
  case selectProtocol =>
    exact request_outcome hd (selectProtocol_outcome hp hr) (by decide) PayloadRefused.select
  case fieldOff => exact request_outcome hd (fun _ => fieldOff_outcome hr) (by decide) (empty rfl)
  case reserved =>
    intro hdue hb ha hs h
    rw [step_reserved hdue hb ha hs h, finish_lastOutcome]

end Sys2Proof.Proofs
end

section
/-! PROOFS. The encoding spaces of spec/30_encoding.md: decode and encode agree, in both directions. -/

namespace Sys2Proof.Proofs

open Sys2Proof.Laws

/-! ## Decoding an encoding -/

/-- A host request's bytes decode to it, whatever follows (R131, R132). -/
theorem decode_encode_host {i : Instr} (p : Params) (hi : i.space = .host) (hw : i.wf = true) (rest : List Byte) :
    decodeHost (encode p i ++ rest) = .ok (i, rest) := by
  cases i <;> cases hi
  all_goals exact decodeHost_request (by simpa [Instr.wf] using hw) (by decide) rfl rest

/-- A chip command's bytes decode to it, whatever follows (R111, R114, R137). -/
theorem decode_encode_chip {i : Instr} {p : Params} (hp : p.wf = true) (hi : i.space = .chip) (hw : i.wf = true)
    (rest : List Byte) : decodeChip p (encode p i ++ rest) = .ok (i, rest) := by
  cases i <;> cases hi
  case idn => exact decodeChip_frame hp (Nat.zero_le _) rfl rest
  case protocol w q => exact decodeChip_frame (pl := [w, q]) hp (show 2 ≤ 254 by decide) rfl rest
  case sendRecv b =>
    simp only [Instr.wf, Bool.and_eq_true, decide_eq_true_eq] at hw
    have hne : b ≠ [] := List.ne_nil_of_length_pos hw.1
    exact decodeChip_frame hp hw.2 (by simp [frameInstr, hne]) rest
  case idle =>
    obtain ⟨-, -, -, -, -, -, -, hl⟩ := params_wf hp
    exact decodeChip_frame hp hl (by simp [frameInstr]) rest
  case echo => simp [encode, decodeChip]
  all_goals exact decodeChip_frame hp (by simpa [Instr.wf] using hw) rfl rest

/-- A select-command byte names its own level (R9, R125). -/
theorem levelOf_sel {p : Params} (hp : p.wf = true) (n : Level) : levelOf p (p.sel n) = some n := by
  obtain ⟨-, -, -, -, -, hsel, -⟩ := params_wf hp
  simp only [List.nodup_cons, List.mem_cons, List.not_mem_nil, or_false, not_or] at hsel
  obtain ⟨⟨h12, h13⟩, h23, -⟩ := hsel
  cases n
  · simp [levelOf, Params.sel]
  · simp [levelOf, Params.sel, Ne.symm h12]
  · simp [levelOf, Params.sel, Ne.symm h13, Ne.symm h23]

theorem decodeAir_anticol {p : Params} (hp : p.wf = true) (n : Level) :
    decodeAir p (anticolBytes p n) = .ok (anticolInstr n, []) := by
  simp [anticolBytes, decodeAir, levelOf_sel hp]

theorem decodeAir_select {p : Params} (hp : p.wf = true) (n : Level) (c0 c1 c2 c3 b : Byte) :
    decodeAir p (selectBytes p n c0 c1 c2 c3 b) = .ok (selectInstr c0 c1 c2 c3 b n, []) := by
  simp [selectBytes, decodeAir, levelOf_sel hp]

theorem decodeAir_reqa (p : Params) : decodeAir p (reqaBytes p) = .ok (.reqa, []) := by
  simp [reqaBytes, decodeAir]

/-- An air command's bytes decode to it (R124 to R126). -/
theorem decode_encode_air {i : Instr} {p : Params} (hp : p.wf = true) (hi : i.space = .air) :
    decodeAir p (encode p i) = .ok (i, []) := by
  cases i <;> cases hi
  case reqa => exact decodeAir_reqa p
  case anticolL1 => exact decodeAir_anticol hp .l1
  case anticolL2 => exact decodeAir_anticol hp .l2
  case anticolL3 => exact decodeAir_anticol hp .l3
  case selectL1 => exact decodeAir_select hp .l1 _ _ _ _ _
  case selectL2 => exact decodeAir_select hp .l2 _ _ _ _ _
  case selectL3 => exact decodeAir_select hp .l3 _ _ _ _ _

/-- Settles O2: in the host and the chip space what follows the encoding is left over. -/
theorem decodeStopsAtLength : Obligations.DecodeStopsAtLength := by
  unfold Obligations.DecodeStopsAtLength
  intro p i rest hp hw hair
  cases hs : i.space with
  | host => exact decode_encode_host p hs hw rest
  | chip => exact decode_encode_chip hp hs hw rest
  | air => exact absurd hs hair

/-- Settles O1: an air command is the whole of its bytes; in the other two spaces nothing is left over. -/
theorem decodeOfEncode : Obligations.DecodeOfEncode := by
  unfold Obligations.DecodeOfEncode
  intro p i hp hw
  by_cases hair : i.space = .air
  · rw [hair]
    exact decode_encode_air hp hair
  · simpa using decodeStopsAtLength p i [] hp hw hair

/-! ## Encoding what was decoded -/

/-- What a host request decodes to has the selector and the payload it was read from. -/
theorem hostInstr_inv {p : Params} {sel : Byte} {payload : List Byte} {i : Instr}
    (h : hostInstr sel payload = some i) (hl : payload.length ≤ maxPayload) :
    i.space = .host ∧ i.wf = true ∧ encode p i = encodeHost sel payload := by
  have hw : decide (payload.length ≤ maxPayload) = true := decide_eq_true hl
  have hsel : ∀ n, sel.toNat = n → sel = BitVec.ofNat 8 n := fun n hn => by
    rw [← hn, BitVec.ofNat_toNat, BitVec.setWidth_eq]
  unfold hostInstr at h
  split at h
  case h_10 => cases h
  all_goals
    rename_i hn
    cases h
    rw [hsel _ hn]
    exact ⟨rfl, hw, rfl⟩

theorem decodeHost_inv {p : Params} {bytes rest : List Byte} {i : Instr} (h : decodeHost bytes = .ok (i, rest)) :
    i.space = .host ∧ i.wf = true ∧ encode p i ++ rest = bytes := by
  unfold decodeHost at h
  split at h
  · cases h
  · rename_i sel body
    split at h
    · cases h
    · split at h
      · cases h
      · rename_i payload after htake
        split at h
        · rename_i j hj
          cases h
          obtain ⟨hl, rfl⟩ := takeCounted_inv htake
          obtain ⟨hspace, hwf, henc⟩ := hostInstr_inv (p := p) hj hl
          exact ⟨hspace, hwf, by rw [henc]; rfl⟩
        · cases h

/-- What a frame decodes to has the command and the payload it was read from. -/
theorem frameInstr_inv {p : Params} {c : FrameCmd} {payload : List Byte} {i : Instr}
    (h : frameInstr p c payload = some i) (hl : payload.length ≤ maxPayload) :
    i.space = .chip ∧ i.wf = true ∧ encode p i = encodeChip p c payload := by
  have hw : decide (payload.length ≤ maxPayload) = true := decide_eq_true hl
  cases c with
  | idn =>
    simp only [frameInstr, Option.ite_none_right_eq_some, Option.some.injEq] at h
    obtain ⟨rfl, rfl⟩ := h
    exact ⟨rfl, rfl, rfl⟩
  | protocol =>
    simp only [frameInstr] at h
    split at h
    · cases h
      exact ⟨rfl, rfl, rfl⟩
    · cases h
  | sendRecv =>
    simp only [frameInstr, Option.ite_none_left_eq_some, Option.some.injEq] at h
    obtain ⟨hne, rfl⟩ := h
    have h1 : 1 ≤ payload.length := List.length_pos_iff.mpr hne
    exact ⟨rfl, by simp [Instr.wf, h1, hl], rfl⟩
  | idle =>
    simp only [frameInstr, Option.ite_none_right_eq_some, Option.some.injEq] at h
    obtain ⟨rfl, rfl⟩ := h
    exact ⟨rfl, rfl, rfl⟩
  | readReg | writeReg | baudrate =>
    cases h
    exact ⟨rfl, hw, rfl⟩

theorem frameCmdOf_inv {p : Params} {op : Byte} {c : FrameCmd} (h : frameCmdOf p op = some c) : p.opcode c = op := by
  simpa using List.find?_some h

theorem decodeChip_inv {p : Params} {bytes rest : List Byte} {i : Instr} (h : decodeChip p bytes = .ok (i, rest)) :
    i.space = .chip ∧ i.wf = true ∧ encode p i ++ rest = bytes := by
  unfold decodeChip at h
  split at h
  · cases h
  · rename_i op body
    split at h
    · rename_i hecho
      cases h
      exact ⟨rfl, rfl, by rw [hecho]; rfl⟩
    · split at h
      · cases h
      · rename_i c hc
        split at h
        · cases h
        · rename_i payload after htake
          split at h
          · cases h
          · rename_i next htrailer
            split at h
            · rename_i j hj
              cases h
              obtain ⟨hl, rfl⟩ := takeCounted_inv htake
              obtain rfl := takeTrailer_inv htrailer
              obtain ⟨hspace, hwf, henc⟩ := frameInstr_inv hj hl
              refine ⟨hspace, hwf, ?_⟩
              rw [henc, encodeChip, frameCmdOf_inv hc, frameBytes]
              simp
            · cases h

theorem levelOf_inv {p : Params} {a : Byte} {n : Level} (h : levelOf p a = some n) : p.sel n = a := by
  unfold levelOf at h
  split at h
  · cases h; exact Eq.symm ‹_›
  · split at h
    · cases h; exact Eq.symm ‹_›
    · split at h
      · cases h; exact Eq.symm ‹_›
      · cases h

theorem anticolInstr_spec (p : Params) (n : Level) :
    (anticolInstr n).space = .air ∧ (anticolInstr n).wf = true ∧ encode p (anticolInstr n) = anticolBytes p n := by
  cases n <;> exact ⟨rfl, rfl, rfl⟩

theorem selectInstr_spec (p : Params) (n : Level) (c0 c1 c2 c3 b : Byte) :
    (selectInstr c0 c1 c2 c3 b n).space = .air ∧ (selectInstr c0 c1 c2 c3 b n).wf = true ∧
      encode p (selectInstr c0 c1 c2 c3 b n) = selectBytes p n c0 c1 c2 c3 b := by
  cases n <;> exact ⟨rfl, rfl, rfl⟩

theorem decodeAir_inv {p : Params} {bytes rest : List Byte} {i : Instr} (h : decodeAir p bytes = .ok (i, rest)) :
    i.space = .air ∧ i.wf = true ∧ encode p i ++ rest = bytes := by
  unfold decodeAir at h
  split at h
  · split at h
    · rename_i hc
      obtain ⟨rfl, rfl⟩ := hc
      cases h
      exact ⟨rfl, rfl, rfl⟩
    · cases h
  · split at h
    · rename_i hc
      obtain ⟨rfl, rfl⟩ := hc
      split at h
      · rename_i n hn
        cases h
        obtain ⟨hspace, hwf, henc⟩ := anticolInstr_spec p n
        exact ⟨hspace, hwf, by rw [henc, anticolBytes, levelOf_inv hn]; rfl⟩
      · cases h
    · cases h
  · split at h
    · rename_i hc
      obtain ⟨rfl, rfl⟩ := hc
      split at h
      · rename_i n hn
        cases h
        obtain ⟨hspace, hwf, henc⟩ := selectInstr_spec p n _ _ _ _ _
        exact ⟨hspace, hwf, by rw [henc, selectBytes, levelOf_inv hn]; rfl⟩
      · cases h
    · cases h
  · cases h

/-- Settles O3: each space's decoder, read backwards. -/
theorem encodeOfDecode : Obligations.EncodeOfDecode := by
  unfold Obligations.EncodeOfDecode
  intro p space bytes rest i h
  cases space with
  | host => exact decodeHost_inv h
  | chip => exact decodeChip_inv h
  | air => exact decodeAir_inv h

/-! ## Single words -/

/-- Settles O4: the words are closed, and each is read by computation. -/
theorem specWordsDecode : Obligations.SpecWordsDecode := by
  unfold Obligations.SpecWordsDecode
  refine ⟨?_, ?_, ?_, ?_, ?_, ?_, ?_, ?_, ?_⟩
  all_goals decide +kernel

/-- Settles O5: the selector is judged first. -/
theorem reservedSelectorsDecodeToNothing : Obligations.ReservedSelectorsDecodeToNothing := by
  unfold Obligations.ReservedSelectorsDecodeToNothing
  intro p sel rest hs
  simp only [decode, decodeHost, show 8 < sel.toNat from hs, if_true]

end Sys2Proof.Proofs
end

section
/-! PROOFS. The step of spec/10_state.md section 7 and spec/45_host_requests.md section 1: what stands at each control
position, the handshake, the reply, and a due reset. -/

namespace Sys2Proof.Proofs

open Sys2Proof.Machine Sys2Proof.Laws

/-! ## The fetch -/

theorem readInstr_ok {p : Params} {space : Space} {bytes rest : List Byte} {i : Instr}
    (h : decode p space bytes = .ok (i, rest)) : readInstr p space bytes = .run i := by
  simp only [readInstr, h]

/-- With no reset due, the step runs what the fetch reads. -/
theorem step_of_fetch {s : State} (hd : s.resetDue = false) :
    step s = match fetch s with
      | .run i => exec i (s.accept i)
      | .reserved => conclude reservedRequest s
      | .nothing => conclude hostTurn s
      | .fault f => .fault f
      | .refused r => .refused r := by
  unfold step
  rw [hd]
  rfl

theorem fetch_of_bytes {s t : State} {space : Space} {bytes : List Byte}
    (h : fetchBytes.run s = .ok (some (space, bytes)) t) : fetch s = readInstr s.params space bytes := by
  simp only [fetch, h]

theorem fetch_of_none {s t : State} (h : fetchBytes.run s = .ok none t) : fetch s = .nothing := by
  simp only [fetch, h]

/-- Settles O6: the fetch hands the bytes to the decoder, whose answer the step runs. -/
theorem stepRunsDecoded : Obligations.StepRunsDecoded := by
  unfold Obligations.StepRunsDecoded
  intro s space bytes rest i hd hf hdec
  rw [step_of_fetch hd, fetch_of_bytes hf, readInstr_ok hdec]

/-! ## The bytes at each control position -/

section
variable {s : State}

theorem requestBytes_ok {payload : List Byte} (hl : s.host.reqLen = payload.length)
    (hr : s.host.reqBuf.readRange 0 payload.length = some payload) :
    requestBytes.run s = .ok (s.host.reqSel :: BitVec.ofNat 8 payload.length :: payload) s := by
  have hload : (loadBytes .req 0 s.host.reqLen).run s = .ok payload s :=
    loadBytes_ok (by simp [State.validLen]) (by rw [hl]; exact hr)
  unfold requestBytes
  simp only [run_bind, run_get, hload, run_pure]
  rw [hl]

/-- The latched request (R131, R360). -/
theorem fetchBytes_latched {payload : List Byte} (hb : s.host.phase = .busy) (ha : s.ac.step = .off ∨ s.ac.step = .done)
    (hl : s.host.reqLen = payload.length) (hr : s.host.reqBuf.readRange 0 payload.length = some payload) :
    fetchBytes.run s = .ok (some (.host, s.host.reqSel :: BitVec.ofNat 8 payload.length :: payload)) s := by
  rw [fetchBytes_request hb ha]
  simp only [run_bind, requestBytes_ok hl hr, run_pure]

theorem fetchBytes_reqa (hb : s.host.phase = .busy) (ha : s.ac.step = .reqa) :
    fetchBytes.run s = .ok (some (.air, reqaBytes s.params)) s := by
  have hpos : s.position = .reqa := by simp only [State.position, ha]
  unfold fetchBytes
  simp only [run_bind, run_get, hb, hpos, run_pure]

theorem fetchBytes_anticol {n : Level} (hb : s.host.phase = .busy) (ha : s.ac.step = .anticol)
    (hn : s.ac.level = some n) : fetchBytes.run s = .ok (some (.air, anticolBytes s.params n)) s := by
  have hpos : s.position = .anticol n := by simp only [State.position, ha, hn]
  unfold fetchBytes
  simp only [run_bind, run_get, hb, hpos, run_pure]

/-- cand's bytes, one by one. -/
theorem loadByte_cand {bytes : List Byte} {k : Nat} {v : Byte} (h : s.ac.cand.readRange 0 5 = some bytes) (hk : k < 5)
    (hv : bytes[k]? = some v) : (loadByte .cand k).run s = .ok v s := by
  obtain ⟨-, hread⟩ := readRange_eq_some.mp h
  exact loadByte_ok hk (by simpa [State.buf, hv] using hread k hk)

/-- SELECT's bytes are cand's (R126, R320; log entry 17). -/
theorem fetchBytes_select {n : Level} {c0 c1 c2 c3 b : Byte} (hb : s.host.phase = .busy) (ha : s.ac.step = .select)
    (hn : s.ac.level = some n) (hc : s.ac.cand.readRange 0 5 = some [c0, c1, c2, c3, b]) :
    fetchBytes.run s = .ok (some (.air, selectBytes s.params n c0 c1 c2 c3 b)) s := by
  have hpos : s.position = .select n := by simp only [State.position, ha, hn]
  have hsel : (selectFetch n).run s = .ok (selectBytes s.params n c0 c1 c2 c3 b) s := by
    unfold selectFetch
    simp only [run_bind, loadByte_cand (k := 0) hc (by decide) rfl, loadByte_cand (k := 1) hc (by decide) rfl,
      loadByte_cand (k := 2) hc (by decide) rfl, loadByte_cand (k := 3) hc (by decide) rfl,
      loadByte_cand (k := 4) hc (by decide) rfl, run_get, run_pure]
  unfold fetchBytes
  simp only [run_bind, run_get, hb, hpos, hsel, run_pure]

/-- At READY the CommandEngine's entry comes first (log entry 15). -/
theorem fetchBytes_call {bytes : List Byte} (hb : s.host.phase = .ready) (hc : s.env.chipCall = some bytes) :
    fetchBytes.run s = .ok (some (.chip, bytes)) s := by
  unfold fetchBytes
  simp only [run_bind, run_get, hb, hc, run_pure]

/-- With no request latched and nothing at the entry there is nothing to run. -/
theorem fetchBytes_idle (hc : s.env.chipCall = none) (hb : s.host.phase = .ready ∨ s.host.phase = .done) :
    fetchBytes.run s = .ok none s := by
  unfold fetchBytes
  rcases hb with hb | hb <;> simp only [run_bind, run_get, hb, hc, run_pure]

theorem accept_of_not_chip {i : Instr} (h : i.space ≠ .chip) : s.accept i = s := by
  unfold State.accept
  rw [if_neg h]

theorem step_reqa (hd : s.resetDue = false) (hb : s.host.phase = .busy) (ha : s.ac.step = .reqa) :
    step s = exec .reqa s :=
  stepRunsDecoded s _ _ [] .reqa hd (fetchBytes_reqa hb ha) (decodeAir_reqa s.params)

theorem step_anticol {n : Level} (hp : s.params.wf = true) (hd : s.resetDue = false) (hb : s.host.phase = .busy)
    (ha : s.ac.step = .anticol) (hn : s.ac.level = some n) : step s = exec (anticolInstr n) s := by
  have hacc : s.accept (anticolInstr n) = s := accept_of_not_chip (by rw [(anticolInstr_spec s.params n).1]; decide)
  have hrun := stepRunsDecoded s _ _ [] _ hd (fetchBytes_anticol hb ha hn) (decodeAir_anticol hp n)
  rwa [hacc] at hrun

theorem step_select {n : Level} {c0 c1 c2 c3 b : Byte} (hp : s.params.wf = true) (hd : s.resetDue = false)
    (hb : s.host.phase = .busy) (ha : s.ac.step = .select) (hn : s.ac.level = some n)
    (hc : s.ac.cand.readRange 0 5 = some [c0, c1, c2, c3, b]) : step s = exec (selectInstr c0 c1 c2 c3 b n) s := by
  have hacc : s.accept (selectInstr c0 c1 c2 c3 b n) = s :=
    accept_of_not_chip (by rw [(selectInstr_spec s.params n c0 c1 c2 c3 b).1]; decide)
  have hrun := stepRunsDecoded s _ _ [] _ hd (fetchBytes_select hb ha hn hc) (decodeAir_select hp n c0 c1 c2 c3 b)
  rwa [hacc] at hrun

end

/-- Settles O7: each position's bytes are an encoding, which decodes to its instruction. -/
theorem positionSelectsInstruction : Obligations.PositionSelectsInstruction := by
  unfold Obligations.PositionSelectsInstruction
  intro s hp hd
  refine ⟨?request, step_reqa hd, ?anticol, ?select, ?call⟩
  case request =>
    intro i sel payload hb ha hsel hl hr hi hw henc
    have hdec : decode s.params .host (s.host.reqSel :: BitVec.ofNat 8 payload.length :: payload) = .ok (i, []) := by
      rw [hsel, ← henc, ← hi]
      exact decodeOfEncode s.params i hp hw
    have hrun := stepRunsDecoded s _ _ [] i hd (fetchBytes_latched hb ha hl hr) hdec
    rwa [accept_of_not_chip (by rw [hi]; decide)] at hrun
  case anticol => exact fun hb ha => ⟨step_anticol hp hd hb ha, step_anticol hp hd hb ha, step_anticol hp hd hb ha⟩
  case select =>
    intro c0 c1 c2 c3 b hb ha hc
    exact ⟨fun hn => step_select hp hd hb ha hn hc, fun hn => step_select hp hd hb ha hn hc,
      fun hn => step_select hp hd hb ha hn hc⟩
  case call =>
    intro i rest hb hi hw hc
    have hrun := stepRunsDecoded s _ _ rest i hd (fetchBytes_call hb hc) (decode_encode_chip hp hi hw rest)
    rwa [State.accept, if_pos hi] at hrun

/-- Settles O8: the selector is fetched as reserved, and its request raises InvalidRequest and does no more. -/
theorem reservedRequestRefused : Obligations.ReservedRequestRefused := by
  unfold Obligations.ReservedRequestRefused
  intro s payload hd hb ha hs hl hr
  rw [step_of_fetch hd, fetch_of_bytes (fetchBytes_latched hb ha hl hr), readInstr_reserved hs]
  exact conclude_raise (run_raise _ _)

/-! ## The reply -/

/-- Settles O9: Finish writes the code and the data from index 0 of rsp_buf. -/
theorem finishReply : Obligations.FinishReply := by
  unfold Obligations.FinishReply
  intro s code data
  refine ⟨?_, holds_writeRange _ _, rfl⟩
  cases code <;> rfl

/-! ## The handshake -/

section
variable {s : State}

theorem step_hostTurn (hd : s.resetDue = false) (hc : s.env.chipCall = none)
    (hb : s.host.phase = .ready ∨ s.host.phase = .done) : step s = conclude hostTurn s := by
  rw [step_of_fetch hd, fetch_of_none (fetchBytes_idle hc hb)]

/-- With no HOST step due the CLOCK ticks (R52). -/
theorem hostTurn_tick (h : ∀ e ∈ s.env.hostLine.head?, s.now < e.time) : conclude hostTurn s = .next s.tick := by
  refine conclude_ok (a := ⟨⟩) ?_
  unfold hostTurn
  simp only [run_bind, run_get]
  split
  · rfl
  · rename_i e rest hl
    rw [if_pos (h e (by rw [hl]; rfl))]
    rfl

section
variable {e : HostEvent} {rest : List HostEvent}

/-- A Present that is due and allowed (R360). -/
theorem hostTurn_present {sel : Byte} {payload : List Byte} (hl : s.env.hostLine = e :: rest) (ht : e.time ≤ s.now)
    (hb : s.host.phase = .ready) (ha : e.act = .present sel payload) (hp : payload.length ≤ maxPayload) :
    hostTurn.run s = .ok ⟨⟩ ({ s with env.hostLine := rest }.present sel payload) := by
  unfold hostTurn
  simp only [run_bind, run_get, hl, show ¬ s.now < e.time by omega, if_false, run_set, hb, ha, hp, if_true, run_modify]

/-- A Present of more bytes than a request holds is dropped (log entry 9). -/
theorem hostTurn_long {sel : Byte} {payload : List Byte} (hl : s.env.hostLine = e :: rest) (ht : e.time ≤ s.now)
    (hb : s.host.phase = .ready) (ha : e.act = .present sel payload) (hp : maxPayload < payload.length) :
    hostTurn.run s = .ok ⟨⟩ { s with env.hostLine := rest } := by
  unfold hostTurn
  simp only [run_bind, run_get, hl, show ¬ s.now < e.time by omega, if_false, run_set, hb, ha,
    show ¬ payload.length ≤ maxPayload by omega, run_pure]

/-- A Take that is due and allowed returns the reply (R360). -/
theorem hostTurn_take {reply : List Byte} (hl : s.env.hostLine = e :: rest) (ht : e.time ≤ s.now)
    (hb : s.host.phase = .done) (ha : e.act = .take)
    (hr : s.host.rspBuf.readRange 0 s.host.rspLen = some reply) :
    hostTurn.run s = .ok ⟨⟩ ({ s with env.hostLine := rest }.take reply) := by
  have hload : (loadBytes .rsp 0 s.host.rspLen).run { s with env.hostLine := rest } =
      .ok reply { s with env.hostLine := rest } := loadBytes_ok (by simp [State.validLen]) hr
  unfold hostTurn
  simp only [run_bind, run_get, hl, show ¬ s.now < e.time by omega, if_false, run_set, hb, ha, hload, run_modify]

/-- A HOST step that the phase does not allow is dropped (R461). -/
theorem hostTurn_dropped (hl : s.env.hostLine = e :: rest) (ht : e.time ≤ s.now)
    (h : s.host.phase = .ready ∧ e.act = .take ∨ s.host.phase = .done ∧ e.act ≠ .take ∨ s.host.phase = .busy) :
    hostTurn.run s = .ok ⟨⟩ { s with env.hostLine := rest } := by
  unfold hostTurn
  simp only [run_bind, run_get, hl, show ¬ s.now < e.time by omega, if_false, run_set]
  split
  · simp_all
  · simp_all
  · rfl

end

end

/-- Settles O10: by the phase and the event that is due, if one is. -/
theorem hostHandshake : Obligations.HostHandshake := by
  unfold Obligations.HostHandshake
  intro s e rest hd hc hb
  rw [step_hostTurn hd hc hb]
  refine ⟨fun hl => hostTurn_tick (by simp [hl]), fun hl ht => hostTurn_tick (by simpa [hl] using ht), ?_⟩
  intro hl ht
  refine ⟨fun sel payload ha => ⟨fun hr hp => ?present, fun hr hp => conclude_ok (hostTurn_long hl ht hr ha hp),
    fun hdone => conclude_ok (hostTurn_dropped hl ht (.inr (.inl ⟨hdone, by simp [ha]⟩)))⟩,
    fun ha => ⟨fun hr => conclude_ok (hostTurn_dropped hl ht (.inl ⟨hr, ha⟩)), fun reply hdone hr =>
      conclude_ok (hostTurn_take hl ht hdone ha hr)⟩⟩
  case present => exact ⟨_, conclude_ok (hostTurn_present hl ht hr ha hp), rfl, holds_writeRange _ _⟩

/-! ## A due reset -/

theorem step_reset {s : State} (hd : s.resetDue = true) : step s = .next s.resetAction := by
  unfold step
  rw [hd]
  rfl

/-- Settles O12: the reset action sets R30's registers and nothing else, and the assertion is used up. -/
theorem dueResetComesFirst : Obligations.DueResetComesFirst := by
  unfold Obligations.DueResetComesFirst
  intro s r rest hl hr
  have hd : s.resetDue = true := by simp [State.resetDue, hl, hr]
  rw [step_reset hd]
  simp only [State.resetAction, hl, List.tail_cons]

end Sys2Proof.Proofs
end

section
/-! PROOFS. The reset input (spec/70_reset_and_hazards.md section 1) and the time: one property of every procedure of
the engine, proved along the way the procedures are put together, gives what a reset cuts short (R452) and that time and
the parameters only go forward (R8, R52). -/

namespace Sys2Proof.Proofs

open Sys2Proof.Machine Sys2Proof.Laws

/-! ## Steady procedures -/

/-- The state with these ticks of the reset input to come. -/
def asserting (s : State) (line : List Nat) : State := { s with env.resetLine := line }


theorem asserting_self {s : State} {line : List Nat} (h : s.env.resetLine = line) : asserting s line = s := by
  subst h
  rfl

/-- The parameters are as they were and time has not gone back. -/
def Onward (s t : State) : Prop := t.params = s.params ∧ s.now ≤ t.now

theorem Onward.refl (s : State) : Onward s s := ⟨rfl, le_rfl⟩

theorem Onward.trans {s t u : State} (h : Onward s t) (k : Onward t u) : Onward s u :=
  ⟨k.1.trans h.1, h.2.trans k.2⟩

/-- What no procedure of the engine writes: the parameters, the inputs that are not the CHIP's and the HOST's
replies. -/
structure Unwritten (s t : State) : Prop where
  params : t.params = s.params
  env : t.env = s.env
  replies : t.out.replies = s.out.replies

theorem Unwritten.refl (s : State) : Unwritten s s := ⟨rfl, rfl, rfl⟩

theorem Unwritten.trans {s t u : State} (h : Unwritten s t) (k : Unwritten t u) : Unwritten s u :=
  ⟨k.params.trans h.params, k.env.trans h.env, k.replies.trans h.replies⟩

theorem Unwritten.asserting {s t : State} (h : Unwritten s t) (line : List Nat) :
    Unwritten (asserting s line) (asserting t line) :=
  ⟨h.params, by simp only [Proofs.asserting, h.env], h.replies⟩

/-- The reset input ends a procedure at its tick r (R452). -/
def AbandonedAt {α : Type} (p : Proc α) (s : State) (r : Nat) : Prop :=
  ∃ u, p.run s = .error .reset u ∧ u.now = r ∧ Unwritten s u

/-- A procedure that is over by the tick r runs as if the reset input were not asserted then. -/
def UnmovedBy {α : Type} (p : Proc α) (s : State) (r : Nat) (rest : List Nat) : Prop :=
  Ends p s
    (fun a t => Unwritten s t ∧ t.now ≤ r ∧ p.run (asserting s (r :: rest)) = .ok a (asserting t (r :: rest)))
    (fun e t => t.now ≤ r ∧ p.run (asserting s (r :: rest)) = .error e (asserting t (r :: rest)))

/-- Time and parameters go forward, and an assertion of the reset input that comes first either changes nothing or ends
the procedure at its tick. -/
structure Steady {α : Type} (p : Proc α) : Prop where
  onward : ∀ s, Ends p s (fun _ t => Onward s t) (fun _ t => Onward s t)
  cut : ∀ s r rest, s.env.resetLine = [] → s.now ≤ r →
    UnmovedBy p s r rest ∨ AbandonedAt p (asserting s (r :: rest)) r

theorem steady_bind {α β : Type} {p : Proc α} {f : α → Proc β} (hp : Steady p) (hf : ∀ a, Steady (f a)) :
    Steady (p >>= f) where
  onward s := (hp.onward s).bind
    (fun a t ht => ((hf a).onward t).mono (fun _ _ hu => ht.trans hu) fun _ _ hu => ht.trans hu) fun _ _ h => h
  cut s r rest hl hn := by
    rcases hp.cut s r rest hl hn with hsame | ⟨u, hrun, hu⟩
    case inr => exact .inr ⟨u, bind_error hrun, hu⟩
    cases hrun : p.run s with
    | error e t =>
      obtain ⟨ht, hasserted⟩ := hsame.error hrun
      exact .inl (ends_of_error (bind_error hrun) ⟨ht, bind_error hasserted⟩)
    | ok a t =>
      obtain ⟨hst, ht, hasserted⟩ := hsame.ok hrun
      rcases (hf a).cut t r rest (by rw [hst.env]; exact hl) ht with hsame' | ⟨u, hrun', hu, htu⟩
      · refine .inl (ends_step hrun (hsame'.mono (fun b u h => ?_) fun e u h => ?_))
        · exact ⟨hst.trans h.1, h.2.1, (bind_ok hasserted).trans h.2.2⟩
        · exact ⟨h.1, (bind_ok hasserted).trans h.2⟩
      · exact .inr ⟨u, (bind_ok hasserted).trans hrun', hu, (hst.asserting _).trans htu⟩

/-- A read of the state, where what follows does not look at the reset input. -/
theorem steady_get {α : Type} {f : State → Proc α} (hf : ∀ s, Steady (f s))
    (hs : ∀ s line, f (asserting s line) = f s) : Steady (get >>= f) where
  onward s := ends_get_bind ((hf s).onward s)
  cut s r rest hl hn := by
    have hrun : ∀ t, (get >>= f).run t = (f t).run t := fun t => rfl
    rcases (hf s).cut s r rest hl hn with hsame | ⟨u, hu, hrest⟩
    · refine .inl (ends_get_bind (hsame.mono (fun a t h => ?_) fun e t h => ?_))
      · exact ⟨h.1, h.2.1, by rw [hrun, hs]; exact h.2.2⟩
      · exact ⟨h.1, by rw [hrun, hs]; exact h.2⟩
    · exact .inr ⟨u, by rw [hrun, hs]; exact hu, hrest⟩

/-- A procedure that takes no time, writes none of the registers of `Unwritten` and does not look at the reset input. -/
def Timeless {α : Type} (p : Proc α) : Prop :=
  ∀ s, Ends p s
    (fun a t => Unwritten s t ∧ t.now = s.now ∧ ∀ line, p.run (asserting s line) = .ok a (asserting t line))
    (fun e t => Unwritten s t ∧ t.now = s.now ∧ ∀ line, p.run (asserting s line) = .error e (asserting t line))

theorem Timeless.steady {α : Type} {p : Proc α} (h : Timeless p) : Steady p where
  onward s := (h s).mono (fun _ _ k => ⟨k.1.params, k.2.1.ge⟩) fun _ _ k => ⟨k.1.params, k.2.1.ge⟩
  cut s _ _ _ hn := .inl ((h s).mono (fun _ _ k => ⟨k.1, k.2.1.trans_le hn, k.2.2 _⟩) fun _ _ k =>
    ⟨k.2.1.trans_le hn, k.2.2 _⟩)

theorem steady_pure {α : Type} (a : α) : Steady (pure a : Proc α) :=
  Timeless.steady fun s => ends_pure ⟨.refl s, rfl, fun _ => rfl⟩

theorem steady_throw {α : Type} (e : Stop) : Steady (throw e : Proc α) :=
  Timeless.steady fun s => ends_throw ⟨.refl s, rfl, fun _ => rfl⟩

theorem steady_raise {α : Type} (c : OutcomeCode) : Steady (raiseOutcome c : Proc α) := steady_throw _

theorem steady_ite {α : Type} {c : Prop} [Decidable c] {p q : Proc α} (hp : Steady p) (hq : Steady q) :
    Steady (if c then p else q) := by
  split
  · exact hp
  · exact hq

/-- A write of registers that are not among `Unwritten`, each to a value read from such registers. -/
theorem steady_write {f : State → State}
    (hf : ∀ s, (f s).params = s.params ∧ (f s).env = s.env ∧ (f s).out.replies = s.out.replies ∧ (f s).now = s.now := by
      exact fun _ => ⟨rfl, rfl, rfl, rfl⟩)
    (hs : ∀ s line, f (asserting s line) = asserting (f s) line := by exact fun _ _ => rfl) : Steady (modify f) :=
  Timeless.steady fun s =>
    have ⟨hparams, henv, hreplies, hnow⟩ := hf s
    ends_modify ⟨⟨hparams, henv, hreplies⟩, hnow, fun line => by rw [run_modify, hs]⟩

/-- The only procedure that takes time: it stops where the reset input is asserted before its end (R452, R470). -/
theorem steady_waitUntil (t : Nat) : Steady (waitUntil t) where
  onward s := (waitUntil_ends t s).mono (fun _ u h => by subst h; exact ⟨rfl, le_max_left _ _⟩)
    fun _ _ h => ⟨h.params, h.after⟩
  cut s r rest hl hn := by
    by_cases hr : t ≤ r
    · have hquiet : s.quietUntil t := by simp [State.quietUntil, hl]
      have hquiet' : (asserting s (r :: rest)).quietUntil t := by simpa [State.quietUntil, asserting] using hr
      exact .inl (ends_of_ok (waitUntil_quiet hquiet) ⟨⟨rfl, rfl, rfl⟩, max_le hn hr, waitUntil_quiet hquiet'⟩)
    · refine .inr ⟨{ asserting s (r :: rest) with now := max s.now r }, ?_, max_eq_right hn, rfl, rfl, rfl⟩
      unfold waitUntil
      simp only [run_bind, run_get, asserting, show ¬ t ≤ s.now by omega, if_false, show r < t by omega, if_true,
        run_set, run_throw]

/-! ## Buffers and the transport -/

/-- Everything but the reset input reads the same. -/
theorem buf_asserting (s : State) (line : List Nat) (b : Buf) :
    (asserting s line).buf b = s.buf b ∧ (asserting s line).validLen b = s.validLen b := by
  cases b <;> exact ⟨rfl, rfl⟩

theorem steady_loadBytes (b : Buf) (start n : Nat) : Steady (loadBytes b start n) := by
  refine steady_get (fun s => ?_) fun s line => by rw [(buf_asserting s line b).1, (buf_asserting s line b).2]
  refine steady_ite ?_ (steady_throw _)
  cases (s.buf b).readRange start n with
  | none => exact steady_throw _
  | some bytes => exact steady_pure bytes

theorem steady_loadByte (b : Buf) (i : Nat) : Steady (loadByte b i) := by
  refine steady_get (fun s => ?_) fun s line => by rw [(buf_asserting s line b).1, (buf_asserting s line b).2]
  refine steady_ite ?_ (steady_throw _)
  cases (s.buf b).read i with
  | none => exact steady_throw _
  | some v => exact steady_pure v

theorem setBuf_unwritten (s : State) (b : Buf) (m : Memory) :
    Unwritten s (s.setBuf b m) ∧ (s.setBuf b m).now = s.now ∧
      ∀ line, (asserting s line).setBuf b m = asserting (s.setBuf b m) line := by
  cases b <;> exact ⟨⟨rfl, rfl, rfl⟩, rfl, fun _ => rfl⟩

theorem steady_storeBytes (b : Buf) (start : Nat) (bytes : List Byte) : Steady (storeBytes b start bytes) := by
  refine Timeless.steady fun s => ?_
  by_cases hfit : start + bytes.length ≤ bufSize s.params b
  · obtain ⟨hunwritten, hnow, hassert⟩ := setBuf_unwritten s b ((s.buf b).writeRange start bytes)
    refine ends_of_ok (storeBytes_ok hfit) ⟨hunwritten, hnow, fun line => ?_⟩
    rw [← hassert, ← (buf_asserting s line b).1]
    exact storeBytes_ok hfit
  · have hrun : ∀ line, (storeBytes b start bytes).run (asserting s line) =
        .error (.fault (.bufferIndex b start)) (asserting s line) := fun line => by
      simp only [storeBytes, run_bind, run_get, asserting, if_neg hfit, run_throw]
    exact ends_of_error (asserting_self (s := s) rfl ▸ hrun s.env.resetLine) ⟨.refl s, rfl, hrun⟩

theorem steady_emit (e : LineEvent) : Steady (emit e) :=
  steady_write

theorem steady_txByte (b : Byte) : Steady (txByte b) := steady_get (fun _ => steady_emit _) fun _ _ => rfl

theorem steady_assertSelect : Steady assertSelect := steady_get (fun _ => steady_emit _) fun _ _ => rfl

theorem steady_releaseSelect : Steady releaseSelect := steady_get (fun _ => steady_emit _) fun _ _ => rfl

theorem steady_txBytes : ∀ bytes : List Byte, Steady (txBytes bytes)
  | [] => steady_pure _
  | b :: bs => steady_bind (steady_txByte b) fun _ => steady_txBytes bs

theorem steady_flushRx : Steady flushRx := by
  unfold flushRx
  refine steady_write (fun s => ?_) fun s line => ?_
  · dsimp only
    split <;> exact ⟨rfl, rfl, rfl, rfl⟩
  · cases hp : s.params.transport with
    | uart =>
      simp only [asserting, hp]
      rfl
    | spi => simp only [asserting, hp]

theorem steady_transmit : Steady transmit := by
  refine steady_get (fun s => steady_bind (steady_loadBytes _ _ _) fun bytes => ?_) fun _ _ => rfl
  have hcount : Steady (modify fun s : State => { s with out.sent := s.out.sent + 1 }) :=
    steady_write
  cases s.params.transport with
  | uart => exact steady_bind steady_flushRx fun _ => steady_bind (steady_txBytes bytes) fun _ => hcount
  | spi =>
    exact steady_bind steady_assertSelect fun _ => steady_bind (steady_txByte _) fun _ =>
      steady_bind (steady_txBytes bytes) fun _ => steady_bind steady_releaseSelect fun _ => hcount

theorem steady_encodeFrame (op : Byte) (payload : List Byte) : Steady (encodeFrame op payload) :=
  steady_ite (steady_raise _) (steady_get (fun _ => steady_bind (steady_storeBytes _ _ _) fun _ =>
    steady_write) fun _ _ => rfl)

theorem steady_send (op : Byte) (payload : List Byte) : Steady (send op payload) :=
  steady_bind (steady_encodeFrame op payload) fun _ => steady_transmit

/-! ## Receiving -/

theorem steady_rxByte (dl : Nat) : Steady (rxByte dl) := by
  refine steady_get (fun s => steady_ite (steady_pure _) ?_) fun _ _ => rfl
  have htimeout : Steady (do waitUntil dl; return none : Proc (Option Byte)) :=
    steady_bind (steady_waitUntil dl) fun _ => steady_pure _
  cases s.chip.rx with
  | nil => exact htimeout
  | cons a rest =>
    exact steady_ite (steady_bind (steady_waitUntil _) fun _ =>
      steady_bind steady_write fun _ => steady_pure _) htimeout

theorem steady_spiIn : Steady spiIn := by
  refine steady_get (fun s => steady_bind (steady_emit _) fun _ => ?_) fun _ _ => rfl
  cases s.chip.miso with
  | nil => exact steady_bind steady_write fun _ => steady_pure _
  | cons b rest => exact steady_bind steady_write fun _ => steady_pure _

theorem steady_waitReadyIrq (dl : Nat) : Steady (waitReadyIrq dl) := by
  refine steady_get (fun s => steady_ite (steady_pure _) ?_) fun _ _ => rfl
  have htimeout : Steady (do waitUntil dl; return false : Proc Bool) :=
    steady_bind (steady_waitUntil dl) fun _ => steady_pure _
  cases s.chip.ready with
  | nil => exact htimeout
  | cons e rest =>
    exact steady_ite (steady_bind (steady_waitUntil _) fun _ =>
      steady_bind steady_write fun _ => steady_pure _) htimeout

theorem steady_pollLoop (dl : Nat) : ∀ n, Steady (pollLoop dl n)
  | 0 => steady_bind steady_releaseSelect fun _ => steady_pure _
  | n + 1 =>
    steady_get (fun _ => steady_ite (steady_bind steady_releaseSelect fun _ => steady_pure _)
      (steady_bind steady_spiIn fun _ => steady_get (fun _ =>
        steady_ite (steady_bind steady_releaseSelect fun _ => steady_pure _)
          (steady_get (fun _ => steady_bind (steady_waitUntil _) fun _ => steady_pollLoop dl n) fun _ _ => rfl))
        fun _ _ => rfl)) fun _ _ => rfl

theorem steady_waitReady (dl : Nat) : Steady (waitReady dl) := by
  refine steady_get (fun s => ?_) fun _ _ => rfl
  cases s.params.readyMethod with
  | irq => exact steady_waitReadyIrq dl
  | poll =>
    exact steady_get (fun _ => steady_bind steady_assertSelect fun _ => steady_bind (steady_txByte _) fun _ =>
      steady_pollLoop dl _) fun _ _ => rfl

theorem steady_arm (kind : DeadlineKind) : Steady (arm kind) :=
  steady_write

theorem steady_beginReceive (kind : DeadlineKind) : Steady (beginReceive kind) :=
  steady_bind (steady_arm kind) fun _ => steady_write

theorem steady_recordByte (b : Byte) : Steady (recordByte b) :=
  steady_get (fun _ => steady_bind (steady_storeBytes _ _ _) fun _ =>
    steady_write) fun _ _ => rfl

theorem steady_stampByte : Steady stampByte := steady_write

theorem steady_setTxnPhase (ph : TxnPhase) : Steady (setTxnPhase ph) :=
  steady_write

theorem steady_receivedFrame : Steady receivedFrame :=
  steady_bind (steady_loadByte _ _) fun _ => steady_bind (steady_loadByte _ _) fun _ =>
    steady_bind (steady_loadBytes _ _ _) fun _ => steady_pure _

theorem steady_rxRest : ∀ n, Steady (rxRest n)
  | 0 => steady_pure _
  | n + 1 => by
    refine steady_get (fun s => steady_bind (steady_rxByte _) fun r => ?_) fun _ _ => rfl
    cases r with
    | none => exact steady_pure _
    | some b => exact steady_bind (steady_recordByte b) fun _ => steady_bind steady_stampByte fun _ => steady_rxRest n

theorem steady_receiveUart (kind : DeadlineKind) : Steady (receiveUart kind) := by
  refine steady_bind (steady_beginReceive kind) fun _ => steady_get (fun _ =>
    steady_bind (steady_rxByte _) fun r => ?_) fun _ _ => rfl
  cases r with
  | none => exact steady_pure _
  | some status =>
    refine steady_bind (steady_recordByte status) fun _ => steady_bind steady_stampByte fun _ =>
      steady_bind (steady_setTxnPhase _) fun _ => steady_get (fun _ => steady_bind (steady_rxByte _) fun r => ?_)
        fun _ _ => rfl
    cases r with
    | none => exact steady_pure _
    | some len =>
      exact steady_bind (steady_recordByte len) fun _ => steady_bind steady_stampByte fun _ =>
        steady_ite (steady_pure _) (steady_get (fun _ => steady_bind (steady_rxRest _) fun _ =>
          steady_ite steady_receivedFrame (steady_pure _)) fun _ _ => rfl)

theorem steady_spiRest : ∀ n, Steady (spiRest n)
  | 0 => steady_pure _
  | n + 1 => steady_bind steady_spiIn fun _ => steady_bind (steady_recordByte _) fun _ => steady_spiRest n

theorem steady_receiveSpi (kind : DeadlineKind) : Steady (receiveSpi kind) := by
  refine steady_bind (steady_beginReceive kind) fun _ => steady_get (fun _ =>
    steady_bind (steady_waitReady _) fun _ => steady_ite ?_ (steady_pure _)) fun _ _ => rfl
  refine steady_bind (steady_setTxnPhase _) fun _ => steady_bind steady_assertSelect fun _ => steady_get (fun _ =>
    steady_bind (steady_txByte _) fun _ => steady_bind steady_spiIn fun _ => steady_bind (steady_recordByte _) fun _ =>
    steady_bind steady_spiIn fun _ => steady_bind (steady_recordByte _) fun _ => ?_) fun _ _ => rfl
  exact steady_ite (steady_bind steady_releaseSelect fun _ => steady_pure _)
    (steady_get (fun _ => steady_bind (steady_spiRest _) fun _ => steady_bind steady_releaseSelect fun _ =>
      steady_receivedFrame) fun _ _ => rfl)

theorem steady_receive (kind : DeadlineKind) : Steady (receive kind) := by
  refine steady_get (fun s => ?_) fun _ _ => rfl
  cases s.params.transport with
  | uart => exact steady_receiveUart kind
  | spi => exact steady_receiveSpi kind

theorem steady_echoSend : Steady echoSend :=
  steady_get (fun _ => steady_bind (steady_storeBytes _ _ _) fun _ =>
    steady_bind steady_write fun _ => steady_transmit) fun _ _ => rfl

theorem steady_echoReceive : Steady echoReceive := by
  refine steady_bind (steady_beginReceive .echo) fun _ => steady_get (fun s => ?_) fun _ _ => rfl
  cases s.params.transport with
  | uart =>
    refine steady_get (fun _ => steady_bind (steady_rxByte _) fun r => ?_) fun _ _ => rfl
    cases r with
    | none => exact steady_pure _
    | some b => exact steady_bind (steady_recordByte b) fun _ => steady_pure _
  | spi =>
    exact steady_get (fun _ => steady_bind (steady_waitReady _) fun _ => steady_ite
      (steady_bind steady_assertSelect fun _ => steady_get (fun _ => steady_bind (steady_txByte _) fun _ =>
        steady_bind steady_spiIn fun _ => steady_bind (steady_recordByte _) fun _ =>
        steady_bind steady_releaseSelect fun _ => steady_pure _) fun _ _ => rfl) (steady_pure _)) fun _ _ => rfl

/-! ## The CommandEngine and the ProtocolSelector -/

theorem steady_delay (kind : DeadlineKind) : Steady (delay kind) :=
  steady_bind (steady_arm kind) fun _ => steady_get (fun _ => steady_waitUntil _) fun _ _ => rfl

theorem steady_settle : Steady settle :=
  steady_get (fun _ => steady_ite (steady_bind (steady_setTxnPhase _) fun _ => steady_bind (steady_delay _) fun _ =>
    steady_bind (steady_setTxnPhase _) fun _ => steady_bind (steady_delay _) fun _ =>
    steady_write) (steady_pure _)) fun _ _ => rfl

theorem steady_enterAwaiting : Steady enterAwaiting := steady_write

theorem steady_leaveAwaiting : Steady leaveAwaiting := steady_write

theorem steady_leaveUninitialized : Steady leaveUninitialized := by
  unfold leaveUninitialized
  refine steady_write (fun s => ?_) fun s line => ?_
  · split <;> exact ⟨rfl, rfl, rfl, rfl⟩
  · by_cases hd : s.mode.dev = .uninitialized <;> simp only [asserting, hd, if_true, if_false]

theorem steady_judgeFrame (c : FrameCmd) (ok status : Byte) (payload : List Byte) :
    Steady (judgeFrame c ok status payload) :=
  steady_bind steady_write fun _ => steady_ite (steady_pure _)
    (steady_get (fun _ => steady_ite (steady_pure _) (steady_bind steady_leaveUninitialized fun _ => steady_pure _))
      fun _ _ => rfl)

theorem steady_chipTxn (c : FrameCmd) (payload : List Byte) (kind : DeadlineKind) (ok : Byte) :
    Steady (chipTxn c payload kind ok) := by
  refine steady_bind steady_settle fun _ => steady_bind steady_enterAwaiting fun _ => steady_get (fun _ =>
    steady_bind (steady_send _ _) fun _ => steady_bind (steady_receive kind) fun r =>
    steady_bind steady_leaveAwaiting fun _ => ?_) fun _ _ => rfl
  cases r with
  | frame status body => exact steady_judgeFrame _ _ _ _
  | noResponse => exact steady_pure _
  | malformedFrame => exact steady_pure _

theorem steady_idn : Steady idn := steady_get (fun _ => steady_chipTxn _ _ _ _) fun _ _ => rfl

theorem steady_protocol (wire param : Byte) : Steady (protocol wire param) :=
  steady_get (fun _ => steady_chipTxn _ _ _ _) fun _ _ => rfl

theorem steady_sendRecv (b : List Byte) : Steady (sendRecv b) :=
  steady_get (fun _ => steady_chipTxn _ _ _ _) fun _ _ => rfl

theorem steady_idleCmd : Steady idleCmd := steady_get (fun _ => steady_chipTxn _ _ _ _) fun _ _ => rfl

theorem steady_readReg (q : List Byte) : Steady (readReg q) :=
  steady_get (fun _ => steady_chipTxn _ _ _ _) fun _ _ => rfl

theorem steady_writeReg (q : List Byte) : Steady (writeReg q) :=
  steady_get (fun _ => steady_chipTxn _ _ _ _) fun _ _ => rfl

theorem steady_settleAfter (c : FrameCmd) (payload : List Byte) (r : Reception) :
    Steady (settleAfter c payload r) := by
  cases r with
  | frame status body =>
    exact steady_bind steady_write fun _ => steady_pure _
  | noResponse => exact steady_pure _
  | malformedFrame => exact steady_pure _

theorem steady_baudrate (q : List Byte) : Steady (baudrate q) :=
  steady_get (fun _ => steady_bind (steady_chipTxn _ _ _ _) fun _ => steady_settleAfter _ _ _) fun _ _ => rfl

theorem steady_judgeEcho (r : Option Byte) : Steady (judgeEcho r) := by
  cases r with
  | none => exact steady_pure _
  | some b =>
    exact steady_bind steady_write fun _ => steady_get (fun _ =>
      steady_ite (steady_pure _) (steady_bind steady_leaveUninitialized fun _ => steady_pure _)) fun _ _ => rfl

theorem steady_echoAttempt : Steady echoAttempt :=
  steady_bind steady_settle fun _ => steady_bind steady_enterAwaiting fun _ => steady_bind steady_echoSend fun _ =>
    steady_bind steady_echoReceive fun _ => steady_bind steady_leaveAwaiting fun _ => steady_judgeEcho _

theorem steady_echoLoop : ∀ n, Steady (echoLoop n)
  | 0 => steady_bind steady_write fun _ => steady_pure _
  | n + 1 =>
    steady_bind steady_write fun _ =>
      steady_bind steady_echoAttempt fun _ => steady_ite (steady_pure _) (steady_echoLoop n)

theorem steady_echoProbe : Steady echoProbe :=
  steady_bind steady_write fun _ =>
    steady_get (fun _ => steady_echoLoop _) fun _ _ => rfl

theorem steady_selectProtocol (cfg : ProtoCfg) : Steady (selectProtocol cfg) := by
  refine steady_get (fun _ => steady_bind (steady_protocol _ _) fun r => ?_) fun _ _ => rfl
  cases r with
  | frame status body =>
    exact steady_bind steady_write fun _ => steady_pure _
  | noResponse => exact steady_pure _
  | malformedFrame => exact steady_pure _

theorem steady_goIdle : Steady goIdle :=
  steady_bind steady_idleCmd fun _ =>
    steady_bind steady_write fun _ => steady_pure _

theorem steady_fieldOff : Steady fieldOff := by
  refine steady_get (fun _ => steady_bind (steady_protocol _ _) fun r => ?_) fun _ _ => rfl
  cases r with
  | frame status body =>
    exact steady_bind steady_write fun _ => steady_pure _
  | noResponse => exact steady_pure _
  | malformedFrame => exact steady_pure _

theorem steady_applyConfig (cfg : ProtoCfg) : Steady (applyConfig cfg) :=
  steady_ite steady_fieldOff (steady_get (fun _ => steady_ite (steady_bind steady_echoProbe fun _ =>
    steady_ite (steady_pure _) (steady_pure _)) (steady_selectProtocol cfg)) fun _ _ => rfl)

theorem steady_selectAir (pid tx rx : Byte) : Steady (selectAir pid tx rx) := by
  unfold selectAir
  cases airConfig pid tx rx with
  | none => exact steady_raise _
  | some cfg => exact steady_applyConfig cfg

/-! ## The cascade -/

theorem steady_endCascade (r : StepResult) : Steady (endCascade r) :=
  steady_bind steady_write fun _ => steady_pure _

theorem steady_stepReqa : Steady stepReqa := by
  refine steady_get (fun s => steady_bind (steady_sendRecv _) fun r => ?_) fun _ _ => rfl
  split
  · exact steady_endCascade _
  · exact steady_endCascade _
  · exact steady_ite (steady_endCascade _) (steady_bind steady_write
      fun _ => steady_bind steady_write fun _ => steady_pure _)
  · exact steady_endCascade _

theorem steady_setAcStep (a : AcStep) : Steady (setAcStep a) :=
  steady_write

theorem steady_stepAnticol (n : Level) : Steady (stepAnticol n) := by
  refine steady_get (fun s => steady_bind (steady_sendRecv _) fun r => ?_) fun _ _ => rfl
  split
  · exact steady_ite (steady_endCascade _) (steady_bind (steady_storeBytes _ _ _) fun _ =>
      steady_ite (steady_bind (steady_setAcStep _) fun _ => steady_pure _) (steady_endCascade _))
  · exact steady_endCascade _

theorem steady_appendUid (bytes : List Byte) : Steady (appendUid bytes) :=
  steady_get (fun _ => steady_bind (steady_storeBytes _ _ _) fun _ =>
    steady_write) fun _ _ => rfl

theorem steady_cascaded (n : Level) (c0 c1 c2 c3 : Byte) : Steady (cascaded n c0 c1 c2 c3) := by
  refine steady_bind steady_write fun _ => steady_get (fun _ =>
    steady_ite (steady_endCascade _) ?_) fun _ _ => rfl
  cases n.next with
  | none => exact steady_endCascade _
  | some m =>
    exact steady_bind (steady_appendUid _) fun _ =>
      steady_bind steady_write fun _ => steady_pure _

theorem steady_makeTag : Steady makeTag :=
  steady_get (fun _ => steady_bind (steady_loadBytes _ _ _) fun _ => steady_bind (steady_storeBytes _ _ _) fun _ =>
    steady_bind steady_write fun _ => steady_endCascade _)
    fun _ _ => rfl

theorem steady_completeUid (c0 c1 c2 c3 : Byte) : Steady (completeUid c0 c1 c2 c3) :=
  steady_bind steady_write fun _ =>
    steady_bind (steady_appendUid _) fun _ => steady_makeTag

theorem steady_judgeSelect (n : Level) (c0 c1 c2 c3 : Byte) (reply : List Byte) :
    Steady (judgeSelect n c0 c1 c2 c3 reply) := by
  refine steady_get (fun _ => ?_) fun _ _ => rfl
  cases reply with
  | nil => exact steady_endCascade _
  | cons k more =>
    exact steady_ite (steady_endCascade _) (steady_bind steady_write
      fun _ => steady_ite (steady_cascaded n c0 c1 c2 c3) (steady_completeUid c0 c1 c2 c3))

theorem steady_stepSelect (n : Level) (c0 c1 c2 c3 b : Byte) : Steady (stepSelect n c0 c1 c2 c3 b) := by
  refine steady_get (fun _ => steady_bind (steady_sendRecv _) fun r => ?_) fun _ _ => rfl
  cases r with
  | frame status reply => exact steady_judgeSelect n c0 c1 c2 c3 reply
  | noResponse => exact steady_endCascade _
  | malformedFrame => exact steady_endCascade _

theorem steady_stepSelectCand (n : Level) : Steady (stepSelectCand n) :=
  steady_bind (steady_loadByte _ _) fun _ => steady_bind (steady_loadByte _ _) fun _ =>
    steady_bind (steady_loadByte _ _) fun _ => steady_bind (steady_loadByte _ _) fun _ =>
    steady_bind (steady_loadByte _ _) fun _ => steady_stepSelect _ _ _ _ _ _

theorem steady_cascadeLevels : ∀ levels, Steady (cascadeLevels levels)
  | [] => steady_pure _
  | n :: rest => by
    refine steady_bind (steady_stepAnticol n) fun r => ?_
    split
    · refine steady_bind (steady_stepSelectCand n) fun r => ?_
      split
      · exact steady_cascadeLevels rest
      · exact steady_pure _
    · exact steady_pure _

theorem steady_cascade : Steady cascade := by
  refine steady_bind steady_write fun _ =>
    steady_bind steady_stepReqa fun r => ?_
  split
  · exact steady_cascadeLevels _
  · exact steady_pure _

/-! ## The rows -/

theorem steady_finish (code : OutcomeCode) (data : List Byte) : Steady (finish code data) :=
  steady_write

theorem steady_tagData : Steady tagData :=
  steady_get (fun _ => steady_ite (steady_bind (steady_loadBytes _ _ _) fun _ => steady_pure _) (steady_throw _))
    fun _ _ => rfl

theorem steady_cascadeReply (r : StepResult) : Steady (cascadeReply r) := by
  cases r with
  | goOn => exact steady_pure _
  | noTag => exact steady_finish _ _
  | failed => exact steady_finish _ _
  | tag => exact steady_bind steady_tagData fun _ => steady_finish _ _

theorem steady_hostRequest {k : RequestKind} {payload : List Byte} {body : Proc Unit} (h : Steady body) :
    Steady (hostRequest k payload body) :=
  steady_get (fun _ => steady_ite (steady_raise _) (steady_ite (steady_raise _) (steady_ite (steady_raise _)
    (steady_ite (steady_raise _) (steady_ite (steady_raise _) h))))) fun _ _ => rfl

theorem steady_radioScan : Steady radioScan := by
  refine steady_bind (steady_selectAir _ _ _) fun code => ?_
  split
  · exact steady_bind steady_cascade fun _ => steady_cascadeReply _
  · exact steady_raise _

theorem steady_getChipId : Steady getChipId := by
  refine steady_bind steady_idn fun r => ?_
  cases r <;> exact steady_finish _ _

theorem steady_getUid : Steady getUid :=
  steady_get (fun _ => steady_ite (steady_bind steady_tagData fun _ => steady_finish _ _) (steady_finish _ _))
    fun _ _ => rfl

theorem steady_selectProtocolReq (payload : List Byte) : Steady (selectProtocolReq payload) := by
  unfold selectProtocolReq
  split
  · exact steady_bind (steady_selectAir _ _ _) fun _ => steady_finish _ _
  · exact steady_raise _

theorem steady_callFramed {p : Proc Reception} (h : Steady p) : Steady (callFramed p) :=
  steady_bind h fun _ => steady_write

theorem steady_runStep {p : Proc StepResult} (h : Steady p) : Steady (runStep p) :=
  steady_bind h steady_cascadeReply

/-- The meaning of each instruction is a steady procedure, concluded. -/
theorem exec_steady (i : Instr) : ∃ p : Proc Unit, Steady p ∧ ∀ s, exec i s = conclude p s := by
  cases i with
  | radioScan pl => exact ⟨_, steady_hostRequest steady_radioScan, fun _ => rfl⟩
  | echoTest pl =>
    exact ⟨_, steady_hostRequest (steady_bind steady_echoProbe fun _ => steady_ite (steady_finish _ _)
      (steady_finish _ _)), fun _ => rfl⟩
  | calibration pl =>
    exact ⟨hostRequest .calibration pl _, steady_hostRequest (steady_raise .unsupported), fun _ => rfl⟩
  | getChipId pl => exact ⟨_, steady_hostRequest steady_getChipId, fun _ => rfl⟩
  | getUid pl => exact ⟨_, steady_hostRequest steady_getUid, fun _ => rfl⟩
  | runAnticol pl =>
    exact ⟨_, steady_hostRequest (steady_bind steady_cascade steady_cascadeReply), fun _ => rfl⟩
  | goIdle pl => exact ⟨_, steady_hostRequest (steady_bind steady_goIdle fun _ => steady_finish _ _), fun _ => rfl⟩
  | selectProtocol pl => exact ⟨_, steady_hostRequest (steady_selectProtocolReq pl), fun _ => rfl⟩
  | fieldOff pl => exact ⟨_, steady_hostRequest (steady_bind steady_fieldOff fun _ => steady_finish _ _), fun _ => rfl⟩
  | idn => exact ⟨_, steady_callFramed steady_idn, fun _ => rfl⟩
  | protocol wire param =>
    exact ⟨_, steady_callFramed (steady_bind (steady_protocol wire param) fun _ => steady_settleAfter _ _ _),
      fun _ => rfl⟩
  | sendRecv air => exact ⟨_, steady_callFramed (steady_sendRecv air), fun _ => rfl⟩
  | idle => exact ⟨_, steady_callFramed steady_idleCmd, fun _ => rfl⟩
  | readReg q => exact ⟨_, steady_callFramed (steady_readReg q), fun _ => rfl⟩
  | writeReg q => exact ⟨_, steady_callFramed (steady_writeReg q), fun _ => rfl⟩
  | baudrate q => exact ⟨_, steady_callFramed (steady_baudrate q), fun _ => rfl⟩
  | echo =>
    exact ⟨_, steady_bind steady_echoAttempt fun _ =>
      steady_write, fun _ => rfl⟩
  | reqa => exact ⟨_, steady_runStep steady_stepReqa, fun _ => rfl⟩
  | anticolL1 => exact ⟨_, steady_runStep (steady_stepAnticol .l1), fun _ => rfl⟩
  | anticolL2 => exact ⟨_, steady_runStep (steady_stepAnticol .l2), fun _ => rfl⟩
  | anticolL3 => exact ⟨_, steady_runStep (steady_stepAnticol .l3), fun _ => rfl⟩
  | selectL1 c0 c1 c2 c3 b => exact ⟨_, steady_runStep (steady_stepSelect .l1 c0 c1 c2 c3 b), fun _ => rfl⟩
  | selectL2 c0 c1 c2 c3 b => exact ⟨_, steady_runStep (steady_stepSelect .l2 c0 c1 c2 c3 b), fun _ => rfl⟩
  | selectL3 c0 c1 c2 c3 b => exact ⟨_, steady_runStep (steady_stepSelect .l3 c0 c1 c2 c3 b), fun _ => rfl⟩

/-! ## A reset during an instruction -/

/-- What a concluded procedure answers has the time at which it ended. -/
theorem conclude_now {p : Proc Unit} {s t : State} {r : Nat} {rest : List Nat} (h : UnmovedBy p s r rest)
    (hn : conclude p s = .next t) : t.now ≤ r := by
  rcases conclude_next hn with ⟨a, hrun⟩ | ⟨c, u, hrun, rfl⟩ | ⟨u, hrun, rfl⟩
  · exact (h.ok hrun).2.1
  · exact (h.error hrun).1
  · exact (h.error hrun).1

/-- Settles O13: an instruction that would go on past the assertion is not unmoved by it, so it is abandoned there. -/
theorem resetAbandonsRequest : Obligations.ResetAbandonsRequest := by
  unfold Obligations.ResetAbandonsRequest
  intro i s t r rest hl hn hrun ht
  obtain ⟨p, hp, hexec⟩ := exec_steady i
  rw [hexec] at hrun
  rcases hp.cut (asserting s []) r rest rfl hn.le with hsame | ⟨u, hu, hnow, hunwritten⟩
  · have := conclude_now hsame hrun
    omega
  · have hs : asserting (asserting s []) (r :: rest) = s := asserting_self hl
    rw [hs] at hu hunwritten
    refine ⟨u.resetAction, by rw [hexec]; exact conclude_reset hu, hnow, rfl, rfl, rfl, rfl, rfl, hunwritten.params, ?_,
      ?_, hunwritten.replies⟩
    · rw [resetAction_resetLine, hunwritten.env, hl, List.tail_cons]
    · rw [resetAction_hostLine, hunwritten.env]

/-! ## Time and parameters -/

theorem conclude_onward {p : Proc Unit} (hp : Steady p) {s t : State} (h : conclude p s = .next t) : Onward s t := by
  rcases conclude_next h with ⟨a, hrun⟩ | ⟨c, u, hrun, rfl⟩ | ⟨u, hrun, rfl⟩
  · exact (hp.onward s).ok hrun
  · exact (hp.onward s).error (t := u) hrun
  · exact (hp.onward s).error (t := u) hrun

/-- A step of the HOST or the CLOCK (R52, R360). -/
theorem hostTurn_onward {s t : State} (h : conclude hostTurn s = .next t) : Onward s t := by
  have hends : Ends hostTurn s (fun _ u => Onward s u) (fun e _ => ∃ f, e = .fault f) := by
    have htick : Onward s s.tick := ⟨rfl, Nat.le_succ _⟩
    refine ends_get_bind ?_
    split
    · exact ends_set htick
    · rename_i e rest hl
      split
      · exact ends_set htick
      · refine ends_step (run_set _ _) ?_
        split
        · split
          · exact ends_modify ⟨rfl, le_rfl⟩
          · exact ends_pure ⟨rfl, le_rfl⟩
        · refine (loadBytes_ends _ _ _ _).bind (fun bytes u hu => ?_) fun _ _ he => he
          subst hu
          exact ends_modify ⟨rfl, le_rfl⟩
        · exact ends_pure ⟨rfl, le_rfl⟩
  rcases conclude_next h with ⟨a, hrun⟩ | ⟨c, u, hrun, -⟩ | ⟨u, hrun, -⟩
  · exact hends.ok hrun
  · obtain ⟨f, hf⟩ := hends.error hrun
    cases hf
  · obtain ⟨f, hf⟩ := hends.error hrun
    cases hf

/-- Settles O17: whatever the step is, a reset, an instruction or a step of the HOST or the CLOCK. -/
theorem paramsFixedTimeForward : Obligations.ParamsFixedTimeForward := by
  unfold Obligations.ParamsFixedTimeForward
  intro s t h
  by_cases hd : s.resetDue = true
  · rw [step_reset hd] at h
    cases h
    exact ⟨rfl, le_rfl⟩
  · rw [step_of_fetch (by simpa using hd)] at h
    split at h
    · rename_i i hfetch
      obtain ⟨p, hp, hexec⟩ := exec_steady i
      rw [hexec] at h
      have hon := conclude_onward hp h
      exact ⟨hon.1.trans (accept_params s i), (accept_now s i).symm.trans_le hon.2⟩
    · exact conclude_onward (steady_raise _) h
    · exact hostTurn_onward h
    · cases h
    · cases h

end Sys2Proof.Proofs
end

section
/-! PROOFS. The invariant of spec/10_state.md (R33, R36, R44, R50, R59, R60, R81): it holds after reset, every step
keeps it, and from a state of it no step faults. -/

namespace Sys2Proof.Proofs

open Sys2Proof.Machine Sys2Proof.Laws

/-! ## The parts of the invariant -/

/-- The seven buffers, as the laws of the procedures group them. -/
theorem buffersWf_iff {s : State} :
    s.buffersWf ↔ (s.host.reqBuf.wf = true ∧ s.host.reqBuf.within 254 = true) ∧
      (s.host.rspBuf.wf = true ∧ s.host.rspBuf.within 255 = true) ∧ FramesWf s ∧ CascadeBufs s := by
  constructor
  · exact fun h => ⟨h .req, h .rsp, ⟨h .tx, h .rx⟩, h .uid, h .cand, h .tagUid⟩
  · rintro ⟨hreq, hrsp, ⟨htx, hrx⟩, huid, hcand, htag⟩ b
    cases b
    exacts [hreq, hrsp, htx, hrx, huid, hcand, htag]

/-- R36 and R60(a), (e), of proto_cfg. -/
def CfgLegal (s : State) : Prop :=
  s.mode.cfg.wf = true ∧ (s.mode.dev = .fieldOn → s.mode.cfg.pid ≠ .fieldOff)

theorem modeWf_of {s : State} (hq : Quiescent s) (hc : CfgLegal s) : s.ModeWf :=
  ⟨hq.dev, hq.resume, hq.txn, hc.1, hc.2⟩

theorem ModeWf.quiescent {s : State} (h : s.ModeWf) : Quiescent s := ⟨h.dev, h.resume, h.txn⟩

theorem ModeWf.legal {s : State} (h : s.ModeWf) : CfgLegal s := ⟨h.cfg, h.field⟩

/-- No cascade is running. -/
def Outside (s : State) : Prop := s.ac.step = .off ∨ s.ac.step = .done

/-- Outside a cascade only the UID so far is left to say. -/
theorem cascadeWf_of_outside {s : State} (ho : Outside s) (hu : UidWf s) : s.CascadeWf where
  uid_len := hu.1
  uid_filled := hu.2
  ready := fun _ => ho
  at_reqa := fun h => by rcases ho with ho | ho <;> rw [ho] at h <;> cases h
  at_level := fun h => by rcases ho with ho | ho <;> rw [ho] at h <;> simp at h
  cand := fun h => by rcases ho with ho | ho <;> rw [ho] at h <;> cases h
  field := fun h k => absurd ho (not_or.mpr ⟨h, k⟩)
  no_tag := fun h k => absurd ho (not_or.mpr ⟨h, k⟩)

/-! ## Reset -/

/-- The reset action leaves the invariant's state, whatever state it met (R451, R58). -/
theorem resetAction_inv {s : State} (hp : s.params.wf = true) : s.resetAction.Inv where
  params := hp
  buffers := fun b => by cases b <;> exact ⟨wf_empty, within_empty _⟩
  reply := ⟨by simp [State.reset], by simp [State.reset], by simp [State.reset], by simp [State.reset],
    by simp [State.reset], by simp [State.reset]⟩
  request := ⟨by simp [State.reset], by simp [State.reset]⟩
  mode := ⟨by simp [State.reset], by simp [State.reset], rfl, rfl, by simp [State.reset]⟩
  cascade := cascadeWf_of_outside (.inl rfl) ⟨by simp [State.reset], rfl⟩
  tag := ⟨by simp [State.reset], by simp [State.reset]⟩
  tries := Nat.zero_le _

/-- Settles O14: the state after reset is what the reset action leaves of itself. -/
theorem invAtReset : Obligations.InvAtReset := resetAction_inv (s := State.reset) default_wf

/-! ## The end of a request -/

/-- A reply is well formed as Finish leaves it (R363). -/
theorem finish_replyWf {u : State} {code : OutcomeCode} {data : List Byte} (hl : data.length ≤ maxPayload)
    (hb : code ≠ .ok → data = []) : (u.finish code data).ReplyWf where
  valid_iff := by simp
  code := fun _ => by simp [read_writeRange]
  ok_iff := fun _ => by simp
  filled := fun _ => by
    rw [finish_rspBuf, finish_rspLen, Nat.add_comm]
    exact filled_writeRange_zero u.host.rspBuf (code.byte :: data)
  len := fun _ => by
    rw [finish_rspLen]
    simp only [maxPayload] at hl
    omega
  failure_bare := fun _ hok => by
    have : code ≠ .ok := by simpa using hok
    rw [hb this]
    rfl

/-- A request's end keeps the invariant where its procedure keeps the registers' parts of it. -/
theorem finish_inv {s u : State} {code : OutcomeCode} {data : List Byte} (hs : s.Inv) (hk : Kept s u)
    (hl : data.length ≤ maxPayload) (hb : code ≠ .ok → data = []) (hbufs : CascadeBufs s → CascadeBufs u)
    (hc : CfgLegal u) (ho : Outside u) (hu : UidWf u) (ht : u.TagWf) (htries : u.txn.echoTry ≤ s.params.echoAttempts) :
    (u.finish code data).Inv where
  params := by rw [finish_params, hk.params]; exact hs.params
  buffers := by
    obtain ⟨hreq, hrsp, hframes, hcascade⟩ := buffersWf_iff.mp hs.buffers
    refine buffersWf_iff.mpr ⟨by rw [finish_reqBuf, hk.host]; exact hreq, ?_, hk.frames hframes, hbufs hcascade⟩
    rw [finish_rspBuf, hk.host]
    refine ⟨wf_writeRange _ _ hrsp.1, within_writeRange hrsp.2 ?_⟩
    simp only [maxPayload] at hl
    simp only [List.length_cons]
    omega
  reply := finish_replyWf hl hb
  request := ⟨fun h => by simp at h, fun h => by simp at h⟩
  mode :=
    have hq := hk.idle (ModeWf.quiescent hs.mode)
    ⟨hq.dev, hq.resume, hq.txn, hc.1, hc.2⟩
  cascade := cascadeWf_of_outside ho hu
  tag := ⟨ht.len, ht.filled⟩
  tries := by rw [finish_params, hk.params]; exact htries

theorem uidWf_of_inv {s : State} (h : s.Inv) : UidWf s := ⟨h.cascade.uid_len, h.cascade.uid_filled⟩

theorem tagWf_of_invalid {s : State} (h : s.tag.valid = false) : s.TagWf :=
  ⟨fun hv => absurd hv (by simp [h]), fun hv => absurd hv (by simp [h])⟩

theorem TagKept.tagWf {s u : State} (h : TagKept s u) (hs : s.TagWf) : u.TagWf := by
  constructor <;> intro hv
  · rcases h.tag hv with ⟨hsv, hlen, -⟩ | ⟨hlen, -⟩
    · rw [hlen]; exact hs.len hsv
    · exact hlen
  · rcases h.tag hv with ⟨hsv, hlen, huid⟩ | ⟨-, hfilled⟩
    · rw [hlen, huid]; exact hs.filled hsv
    · exact hfilled

/-! ## Host rows -/

/-- What every host request leaves legal, whatever the CHIP does. -/
structure RequestKept (s u : State) : Prop where
  tag : TagKept s u
  cfg : CfgLegal s → CfgLegal u
  tries : s.txn.echoTry ≤ s.params.echoAttempts → u.txn.echoTry ≤ s.params.echoAttempts

theorem RequestKept.refl (s : State) : RequestKept s s := ⟨TagKept.of_same rfl (.inl rfl), id, id⟩

theorem afterSuccess_fieldOn {d : DevState} : d.afterSuccess = .fieldOn ↔ d = .fieldOn := by
  cases d <;> simp [DevState.afterSuccess]

/-- The configuration is as it was, and so is whether the field is on. -/
theorem cfgLegal_of_same {s u : State} (hc : u.mode.cfg = s.mode.cfg)
    (hd : u.mode.dev = .fieldOn → s.mode.dev = .fieldOn) (h : CfgLegal s) : CfgLegal u :=
  ⟨by rw [hc]; exact h.1, fun hu => by rw [hc]; exact h.2 (hd hu)⟩

theorem FieldOffAfter.legal {s u : State} {c : OutcomeCode} (h : FieldOffAfter s c u) (hs : CfgLegal s) :
    CfgLegal u := by
  obtain ⟨-, hdev, hcfg, -⟩ | ⟨-, hdev, hcfg, -⟩ := h
  · exact ⟨by rw [hcfg]; rfl, fun hu => by rw [hdev] at hu; cases hu⟩
  · exact cfgLegal_of_same hcfg (by rw [hdev]; exact id) hs

/-- The selector makes configurations of R36 alone (R291 to R294). -/
theorem airConfig_wf {pid tx rx : Byte} {cfg : ProtoCfg} (h : airConfig pid tx rx = some cfg) : cfg.wf = true := by
  unfold airConfig at h
  split at h
  · cases h
  · split at h
    · cases h; rfl
    · cases h
  · cases h
    simp [ProtoCfg.wf, ProtoCfg.plain]

theorem SelectAfter.legal {s u : State} {cfg : ProtoCfg} {c : OutcomeCode} (h : SelectAfter s cfg c u)
    (hw : cfg.wf = true) (hs : CfgLegal s) : CfgLegal u := by
  obtain ⟨-, hf, -⟩ | ⟨hpid, -, ⟨-, -, hcfg, -⟩ | ⟨-, hdev, hcfg, -⟩ | ⟨-, hdev, hcfg, -⟩⟩ := h
  · exact FieldOffAfter.legal hf hs
  · exact ⟨by rw [hcfg]; exact hw, fun _ => by rw [hcfg]; exact hpid⟩
  · exact cfgLegal_of_same hcfg (by rw [hdev]; exact id) hs
  · exact cfgLegal_of_same hcfg (by simp [hdev]) hs

/-- Everything a host row can end in, in short: one Finish, or the reset input ends it (R363, R375). -/
theorem hostRow_ends {i : Instr} {s : State} (hp : s.params.wf = true) (hi : i.space = .host)
    (ht : s.TagWf) :
    ∃ p b, exec i s = conclude p s ∧ Finishes p s b fun _ u => RequestKept s u := by
  have whole : ∀ {k payload body b} {P : OutcomeCode → State → Prop}, s.now ≤ b →
      (Runs k payload s → Finishes body s b P) → (∀ c u, P c u → RequestKept s u) →
      Finishes (hostRequest k payload body) s b fun _ u => RequestKept s u := fun hb h hP =>
    (request_finishes hb h).mono le_rfl fun c u hu => by
      rcases hu with ⟨rfl, -⟩ | ⟨-, hu⟩
      · exact .refl _
      · exact hP c u hu
  have hsend := le_sendTime s
  cases i <;> cases hi
  case radioScan =>
    refine ⟨_, _, rfl, whole (by omega) (fun _ => radioScan_finishes hp) fun c u hu => ?_⟩
    obtain ⟨htag, -, htries, -, hmode⟩ := hu
    refine ⟨htag, fun hs => ?_, fun hs => by rcases htries with h | h <;> omega⟩
    obtain ⟨-, -, hdev, hcfg, -⟩ | ⟨-, -, hdev, hcfg, -⟩ | ⟨-, hdev, hcfg, -⟩ := hmode
    · exact cfgLegal_of_same hcfg (by rw [hdev]; exact id) hs
    · exact cfgLegal_of_same hcfg (by simp [hdev]) hs
    · exact ⟨by rw [hcfg]; rfl, fun _ => by rw [hcfg]; decide⟩
  case echoTest =>
    refine ⟨_, _, rfl, whole (by omega) (fun _ => echoTest_finishes hp) fun c u hu => ?_⟩
    obtain ⟨htag, -, -, -, hcfg, htries, -, hdev⟩ := hu
    refine ⟨htag, cfgLegal_of_same hcfg fun hu => ?_, fun _ => htries⟩
    obtain ⟨-, hdev⟩ | ⟨-, hdev⟩ := hdev
    · rwa [hdev, afterSuccess_fieldOn] at hu
    · rw [hdev] at hu; cases hu
  case calibration pl =>
    exact ⟨hostRequest .calibration pl (raiseOutcome .unsupported), s.now, rfl,
      whole (P := fun _ u => RequestKept s u) le_rfl (fun h => absurd rfl h.kind) fun c u hu => hu⟩
  case getChipId =>
    refine ⟨_, _, rfl, whole (by omega) (fun _ => getChipId_finishes s) fun c u hu => ?_⟩
    obtain ⟨htag, -, -, -, hcfg, htries, -, hdev⟩ := hu
    refine ⟨htag, cfgLegal_of_same hcfg fun hu => ?_, by rw [htries]; exact id⟩
    obtain ⟨-, hdev⟩ | ⟨-, hdev⟩ := hdev
    · rwa [hdev, afterSuccess_fieldOn] at hu
    · rwa [hdev] at hu
  case getUid =>
    refine ⟨_, _, rfl, whole le_rfl (fun _ => getUid_finishes fun hv => ⟨len_le_ten (ht.len hv), ht.filled hv⟩)
      fun c u hu => ?_⟩
    obtain ⟨rfl, -⟩ := hu
    exact .refl _
  case runAnticol =>
    refine ⟨_, _, rfl, whole (by omega) (fun _ => runAnticol_finishes s) fun c u hu => ?_⟩
    obtain ⟨htag, hcfg, -, hdev, htries, -⟩ := hu
    refine ⟨htag, cfgLegal_of_same hcfg fun hu => ?_, by rw [htries]; exact id⟩
    obtain hdev | hdev := hdev
    · rwa [hdev] at hu
    · rwa [hdev, afterSuccess_fieldOn] at hu
  case goIdle =>
    refine ⟨_, _, rfl, whole (by omega) (fun _ => goIdle_finishes hp) fun c u hu => ?_⟩
    obtain ⟨htag, -, -, -, hcfg, htries, -, hdev, -⟩ := hu
    exact ⟨htag, cfgLegal_of_same hcfg (by simp [hdev]), by rw [htries]; exact id⟩
  case selectProtocol payload =>
    refine ⟨_, _, rfl, (select_finishes hp payload).mono le_rfl fun c u hu => ?_⟩
    rcases hu with ⟨rfl, -⟩ | ⟨-, cfg, ⟨htag, -, -, htries, hsel⟩, pid, tx, rx, -, hair⟩
    · exact .refl _
    · exact ⟨htag, SelectAfter.legal hsel (airConfig_wf hair), fun hs => by rcases htries with h | h <;> omega⟩
  case fieldOff =>
    refine ⟨_, _, rfl, whole (by omega) (fun _ => fieldOff_finishes s) fun c u hu => ?_⟩
    obtain ⟨htag, -, -, htries, -, hf⟩ := hu
    exact ⟨htag, FieldOffAfter.legal hf, by rw [htries]; exact id⟩

/-- A host row from a state of the invariant ends in one, no cascade running. -/
theorem hostRow_inv {i : Instr} {s : State} (hs : s.Inv) (hi : i.space = .host) (ho : Outside s) :
    ∃ t, exec i s = .next t ∧ t.Inv := by
  obtain ⟨p, b, hexec, hfin⟩ := hostRow_ends hs.params hi hs.tag
  rw [hexec]
  rcases hfin with ⟨u, code, data, hrun, hk, hl, hb, -, hu⟩ | ⟨u, hrun, hab⟩
  · refine ⟨_, hrun, finish_inv hs hk hl hb hu.tag.bufs (hu.cfg (ModeWf.legal hs.mode)) ?_
      (hu.tag.uid (uidWf_of_inv hs)) (TagKept.tagWf hu.tag hs.tag) (hu.tries hs.tries)⟩
    rcases hu.tag.step with h | h
    · rw [Outside, h]; exact ho
    · exact .inr h
  · exact ⟨_, hrun, resetAction_inv (by rw [hab.params]; exact hs.params)⟩

/-! ## Chip rows -/

/-- A change of what no register of the invariant holds keeps it. -/
theorem inv_of_parts {s t : State} (hs : s.Inv) (hp : t.params = s.params) (hh : t.host = s.host) (ha : t.ac = s.ac)
    (hg : t.tag = s.tag) (hf : FramesWf t) (hm : t.ModeWf) (hc : t.mode.cfg = s.mode.cfg)
    (hd : s.mode.dev = .fieldOn → t.mode.dev = .fieldOn) (htries : t.txn.echoTry ≤ s.params.echoAttempts) : t.Inv where
  params := by rw [hp]; exact hs.params
  buffers := by
    obtain ⟨hreq, hrsp, -, hcascade⟩ := buffersWf_iff.mp hs.buffers
    exact buffersWf_iff.mpr ⟨by rw [hh]; exact hreq, by rw [hh]; exact hrsp, hf,
      by unfold CascadeBufs at hcascade ⊢; rw [ha, hg]; exact hcascade⟩
  reply := by obtain ⟨h1, h2, h3, h4, h5, h6⟩ := hs.reply; constructor <;> rw [hh] <;> assumption
  request := by obtain ⟨h1, h2⟩ := hs.request; constructor <;> rw [hh] <;> assumption
  mode := hm
  cascade := by
    obtain ⟨h1, h2, h3, h4, h5, h6, h7, h8⟩ := hs.cascade
    constructor <;> rw [ha]
    case ready => rw [hh]; exact h3
    case field => rw [hc]; exact fun h k => ⟨hd (h7 h k).1, (h7 h k).2⟩
    case no_tag => rw [hg]; exact h8
    all_goals assumption
  tag := by obtain ⟨h1, h2⟩ := hs.tag; constructor <;> rw [hg] <;> assumption
  tries := by rw [hp]; exact htries

theorem framesWf_of_inv {s : State} (h : s.Inv) : FramesWf s := (buffersWf_iff.mp h.buffers).2.2.1

theorem accept_inv {s : State} (h : s.Inv) (i : Instr) : (s.accept i).Inv :=
  inv_of_parts h (accept_params s i) (accept_host s i) (accept_ac s i) (accept_tag s i)
    (by unfold FramesWf; rw [accept_txn, accept_params]; exact framesWf_of_inv h)
    (by obtain ⟨h1, h2, h3, h4, h5⟩ := h.mode; exact ⟨by simpa, by simpa, by simpa, by simpa, by simpa⟩)
    (by rw [accept_mode]) (by rw [accept_mode]; exact id) (by rw [accept_txn]; exact h.tries)

/-- A chip row from a state of the invariant ends in one. -/
theorem chipRow_inv {i : Instr} {s : State} (hs : s.Inv) (hi : i.space = .chip) (hw : i.wf = true) :
    ∃ t, exec i s = .next t ∧ t.Inv := by
  have hsize : (encode s.params i).length ≤ 256 + s.params.frameTrailerLen := by
    cases i <;> cases hi
    case idn => exact (EncodedSize.idn s.params hs.params hw).2.2
    case protocol w q => exact (EncodedSize.protocol w q s.params hs.params hw).2.2
    case sendRecv b => exact (EncodedSize.sendRecv b s.params hs.params hw).2.2
    case idle => exact (EncodedSize.idle s.params hs.params hw).2.2
    case readReg q => exact (EncodedSize.readReg q s.params hs.params hw).2.2
    case writeReg q => exact (EncodedSize.writeReg q s.params hs.params hw).2.2
    case baudrate q => exact (EncodedSize.baudrate q s.params hs.params hw).2.2
    case echo => exact (EncodedSize.echo s.params hs.params hw).2.2
  rcases chipRow_ends hs.params hi hw with ⟨u, r, pend, hrun, htxn, hdev, -⟩ | ⟨u, hrun, hab⟩
  · refine ⟨_, hrun, ?_⟩
    have hdev' : u.mode.dev = s.mode.dev ∨ u.mode.dev = s.mode.dev.afterSuccess := hdev.imp id And.left
    have hk := htxn.kept hsize hdev'
    have hq := hk.idle (ModeWf.quiescent hs.mode)
    have hfield : u.mode.dev = .fieldOn ↔ s.mode.dev = .fieldOn := by
      rcases hdev' with h | h <;> rw [h]
      exact afterSuccess_fieldOn
    have hlegal := cfgLegal_of_same htxn.untouched.cfg hfield.mp (ModeWf.legal hs.mode)
    exact inv_of_parts hs htxn.untouched.params htxn.untouched.host htxn.untouched.ac htxn.untouched.tag
      (hk.frames (framesWf_of_inv hs)) ⟨hq.dev, hq.resume, hq.txn, hlegal.1, hlegal.2⟩ htxn.untouched.cfg hfield.mpr
      (by rw [show _ = s.txn.echoTry from htxn.untouched.tries]; exact hs.tries)
  · exact ⟨_, hrun, resetAction_inv (by rw [hab.params]; exact hs.params)⟩

/-! ## Air rows -/

/-- A cascade runs, and the UID bytes so far are the row's level's (R60). -/
structure RunsCascade (i : Instr) (s : State) : Prop where
  row : i = .reqa ∧ s.ac.uidLen = 0 ∨ ∃ n, airLevel i = some n
  level : ∀ n, airLevel i = some n → s.ac.level = some n ∧ UidAt n s
  dev : s.mode.dev = .fieldOn
  cfg : s.mode.cfg = cascadeCfg
  tag : s.tag.valid = false
  busy : s.host.phase = .busy

theorem uidLen_mem {n : Level} : 3 * (n.num - 1) ∈ [0, 3, 4, 6, 7, 10] ∧ 3 * (n.num - 1) + 4 ∈ [4, 7, 10] := by
  cases n <;> decide

theorem uidWf_of_uidAt {n : Level} {s : State} (h : UidAt n s) : UidWf s :=
  ⟨by rw [h.1]; exact uidLen_mem.1, h.2⟩

theorem uidWf_of_same {s u : State} (hlen : u.ac.uidLen = s.ac.uidLen) (hbuf : u.ac.uidBuf = s.ac.uidBuf)
    (h : UidWf s) : UidWf u := by
  unfold UidWf
  rw [hlen, hbuf]
  exact h

/-- The cascade goes on at a position of R310, the UID bytes so far those of its level (R60). -/
structure StandsAt (u : State) : Prop where
  uid : UidWf u
  step : u.ac.step = .anticol ∨ u.ac.step = .select ∧ u.ac.cand.filled 5 = true
  level : ∃ m, u.ac.level = some m ∧ u.ac.uidLen = 3 * (m.num - 1)

/-- The invariant where the cascade goes on. -/
theorem standsAt_inv {s u : State} {r : StepResult} (hs : s.Inv) (hstep : Stepped s u r) (htag : u.tag.valid = false)
    (hbusy : s.host.phase = .busy) (hdev : u.mode.dev = .fieldOn) (hcfg : u.mode.cfg = cascadeCfg)
    (hu : StandsAt u) : u.Inv where
  params := by rw [hstep.kept.params]; exact hs.params
  buffers := by
    obtain ⟨hreq, hrsp, hframes, hcascade⟩ := buffersWf_iff.mp hs.buffers
    exact buffersWf_iff.mpr ⟨by rw [hstep.kept.host]; exact hreq, by rw [hstep.kept.host]; exact hrsp,
      hstep.kept.frames hframes, hstep.bufs hcascade⟩
  reply := by obtain ⟨h1, h2, h3, h4, h5, h6⟩ := hs.reply; constructor <;> rw [hstep.kept.host] <;> assumption
  request := by obtain ⟨h1, h2⟩ := hs.request; constructor <;> rw [hstep.kept.host] <;> assumption
  mode := modeWf_of (hstep.kept.idle (ModeWf.quiescent hs.mode))
    ⟨by rw [hcfg]; rfl, fun _ => by rw [hcfg]; decide⟩
  cascade := {
    uid_len := hu.uid.1
    uid_filled := hu.uid.2
    ready := fun h => absurd (by rw [hstep.kept.host]; exact hbusy) h
    at_reqa := fun h => by rcases hu.step with k | ⟨k, -⟩ <;> rw [k] at h <;> cases h
    at_level := fun _ => hu.level
    cand := fun h => by
      rcases hu.step with k | ⟨-, k⟩
      · rw [k] at h; cases h
      · exact k
    field := fun _ _ => ⟨hdev, hcfg⟩
    no_tag := fun _ _ => htag }
  tag := tagWf_of_invalid htag
  tries := by rw [hstep.kept.params, hstep.tries]; exact hs.tries

/-- An air row at its position, from a state of the invariant, ends in one. -/
theorem airRow_inv {i : Instr} {s : State} (hs : s.Inv) (hi : i.space = .air) (hr : RunsCascade i s) :
    ∃ t, exec i s = .next t ∧ t.Inv := by
  rcases airRow_ends s hi with ⟨u, r, hstep, htagRow, hgo, hend⟩ | ⟨u, hrun, hab⟩ | ⟨-, n, hn, hu⟩
  case inr.inr => exact absurd (hr.level n hn).2 hu
  case inr.inl => exact ⟨_, hrun, resetAction_inv (by rw [hab.params]; exact hs.params)⟩
  have hdev : u.mode.dev = .fieldOn := by rcases hstep.dev with h | h <;> rw [h, hr.dev]; rfl
  have hcfg : u.mode.cfg = cascadeCfg := hstep.cfg.trans hr.cfg
  by_cases hgoOn : r = .goOn
  · obtain ⟨hrun, htag, hpos⟩ := hgo hgoOn
    refine ⟨u, hrun, standsAt_inv hs hstep (by rw [htag]; exact hr.tag) hr.busy hdev hcfg ?_⟩
    rcases hpos with ⟨hanticol, m, hm, hreqa, hlevel⟩ | ⟨hne, hselect, hcand, hl, hlen, hbuf⟩
    · rcases hr.row with ⟨hi, h0⟩ | ⟨n, hn⟩
      · obtain ⟨rfl, hlen, hbuf⟩ := hreqa hi
        exact ⟨uidWf_of_same hlen hbuf (uidWf_of_inv hs), .inl hanticol, _, hm, by rw [hlen, h0]; rfl⟩
      · have hat := (hlevel n hn).2 (hr.level n hn).2
        exact ⟨uidWf_of_uidAt hat, .inl hanticol, m, hm, hat.1⟩
    · rcases hr.row with ⟨hi, -⟩ | ⟨n, hn⟩
      · exact absurd hi hne
      · obtain ⟨hsl, hat⟩ := hr.level n hn
        exact ⟨uidWf_of_same hlen hbuf (uidWf_of_inv hs), .inr ⟨hselect, hcand⟩, n, hl.trans hsl, hlen.trans hat.1⟩
  · obtain ⟨code, data, hrun, hl, hb, -, -, hmade, hsame⟩ := hend hgoOn
    refine ⟨_, hrun, finish_inv hs hstep.kept hl hb hstep.bufs ⟨by rw [hcfg]; rfl, fun _ => by rw [hcfg]; decide⟩
      (.inr (hstep.ended hgoOn)) ?uid ?tag (by rw [hstep.tries]; exact hs.tries)⟩
    case uid =>
      by_cases ht : r = .tag
      · obtain ⟨hlen, hfilled⟩ := hmade ht
        obtain ⟨n, hn⟩ := hr.row.resolve_left fun h => htagRow ht h.1
        refine ⟨?_, hfilled⟩
        rw [hlen, (hr.level n hn).2.1]
        cases n <;> decide
      · obtain ⟨hlen, hbuf⟩ := hsame ht
        exact uidWf_of_same hlen hbuf (uidWf_of_inv hs)
    case tag =>
      by_cases ht : r = .tag
      · obtain ⟨-, hlen, hfilled⟩ := hstep.made ht
        obtain ⟨n, hn⟩ := hr.row.resolve_left fun h => htagRow ht h.1
        exact ⟨fun _ => by rw [hlen, (hr.level n hn).2.1]; exact uidLen_mem.2, fun _ => hfilled⟩
      · exact tagWf_of_invalid (by rw [hstep.same ht]; exact hr.tag)

/-! ## The step -/

/-- What a step runs from a state of the invariant, at each control position (R48, R310, R360). -/
inductive Standing (s : State) : Fetched → Prop where
  | host {i : Instr} (hi : i.space = .host) (ho : Outside s) : Standing s (.run i)
  | reserved (hb : s.host.phase = .busy) (ho : Outside s) : Standing s .reserved
  | air {i : Instr} (hi : i.space = .air) (hr : RunsCascade i s) : Standing s (.run i)
  | chip {bytes : List Byte} (hb : s.host.phase = .ready) (hc : s.env.chipCall = some bytes) :
      Standing s (readInstr s.params .chip bytes)
  | nothing (hb : s.host.phase = .ready ∨ s.host.phase = .done) : Standing s .nothing

/-- A latched request decodes to an instruction, or its selector is reserved (R131, R361(a)). -/
theorem readInstr_request (p : Params) {sel : Byte} {payload : List Byte} (hl : payload.length ≤ maxPayload) :
    readInstr p .host (sel :: BitVec.ofNat 8 payload.length :: payload) = .reserved ∨
      ∃ i, i.space = .host ∧ readInstr p .host (sel :: BitVec.ofNat 8 payload.length :: payload) = .run i := by
  by_cases hs : 9 ≤ sel.toNat
  · exact .inl (readInstr_reserved hs _)
  · have hsome : ∃ i, hostInstr sel payload = some i := by
      have hle : sel.toNat ≤ 8 := by omega
      interval_cases hn : sel.toNat <;> simp [hostInstr, hn]
    obtain ⟨i, hi⟩ := hsome
    have hdec : decode p .host (sel :: BitVec.ofNat 8 payload.length :: payload) = .ok (i, []) := by
      simpa [encodeHost, decode] using decodeHost_request hl (by omega) hi []
    exact .inr ⟨i, (hostInstr_inv (p := p) hi hl).1, readInstr_ok hdec⟩

/-- A cascade position of the invariant: the mode and the Tag there. -/
theorem runsCascade_of {i : Instr} {s : State} (hs : s.Inv) (hb : s.host.phase = .busy) (ho : ¬ Outside s)
    (hrow : i = .reqa ∧ s.ac.uidLen = 0 ∨ ∃ n, airLevel i = some n)
    (hlevel : ∀ n, airLevel i = some n → s.ac.level = some n ∧ UidAt n s) : RunsCascade i s :=
  have ⟨hoff, hdone⟩ := not_or.mp ho
  ⟨hrow, hlevel, (hs.cascade.field hoff hdone).1, (hs.cascade.field hoff hdone).2, hs.cascade.no_tag hoff hdone, hb⟩

theorem airLevel_anticol (n : Level) : airLevel (anticolInstr n) = some n := by cases n <;> rfl

theorem airLevel_select (n : Level) (c0 c1 c2 c3 b : Byte) : airLevel (selectInstr c0 c1 c2 c3 b n) = some n := by
  cases n <;> rfl

theorem readInstr_air {p : Params} {bytes : List Byte} {i : Instr} (h : decodeAir p bytes = .ok (i, [])) :
    readInstr p .air bytes = .run i :=
  readInstr_ok (space := .air) (rest := []) h

/-- The fetch from a state of the invariant. -/
theorem fetch_standing {s : State} (hs : s.Inv) : Standing s (fetch s) := by
  cases hb : s.host.phase with
  | done =>
    have hf : fetchBytes.run s = .ok none s := by
      unfold fetchBytes
      simp only [run_bind, run_get, hb, run_pure]
    rw [fetch_of_none hf]
    exact .nothing (.inr hb)
  | ready =>
    cases hc : s.env.chipCall with
    | none =>
      rw [fetch_of_none (fetchBytes_idle hc (.inl hb))]
      exact .nothing (.inl hb)
    | some bytes =>
      rw [fetch_of_bytes (fetchBytes_call hb hc)]
      exact .chip hb hc
  | busy =>
    have outside : Outside s → Standing s (fetch s) := fun ho => by
      obtain ⟨payload, hr⟩ := Option.isSome_iff_exists.mp (hs.request.filled hb)
      have hlen : payload.length = s.host.reqLen := (readRange_eq_some.mp hr).1
      have hmax : payload.length ≤ maxPayload := by rw [hlen]; exact hs.request.len hb
      rw [← hlen] at hr
      rw [fetch_of_bytes (fetchBytes_latched hb ho hlen.symm hr)]
      rcases readInstr_request s.params (sel := s.host.reqSel) hmax with h | ⟨i, hi, h⟩
      · rw [h]; exact .reserved hb ho
      · rw [h]; exact .host hi ho
    have position : ∀ {i : Instr} {n : Level}, airLevel i = some n → s.ac.level = some n →
        s.ac.uidLen = 3 * (n.num - 1) → ¬ Outside s → RunsCascade i s := fun hi hn hu ho =>
      runsCascade_of hs hb ho (.inr ⟨_, hi⟩) fun m hm => by
        obtain rfl := Option.some.inj (hi.symm.trans hm)
        exact ⟨hn, hu, hs.cascade.uid_filled⟩
    cases ha : s.ac.step with
    | off => exact outside (.inl ha)
    | done => exact outside (.inr ha)
    | reqa =>
      rw [fetch_of_bytes (fetchBytes_reqa hb ha), readInstr_air (decodeAir_reqa s.params)]
      exact .air rfl (runsCascade_of hs hb (by simp [Outside, ha]) (.inl ⟨rfl, (hs.cascade.at_reqa ha).2⟩)
        fun n hn => by cases hn)
    | anticol =>
      obtain ⟨n, hn, hu⟩ := hs.cascade.at_level (.inl ha)
      rw [fetch_of_bytes (fetchBytes_anticol hb ha hn), readInstr_air (decodeAir_anticol hs.params n)]
      exact .air (anticolInstr_spec s.params n).1 (position (airLevel_anticol n) hn hu (by simp [Outside, ha]))
    | select =>
      obtain ⟨n, hn, hu⟩ := hs.cascade.at_level (.inr ha)
      obtain ⟨c0, c1, c2, c3, b, hc⟩ := filled_five (hs.cascade.cand ha)
      rw [fetch_of_bytes (fetchBytes_select hb ha hn hc), readInstr_air (decodeAir_select hs.params n c0 c1 c2 c3 b)]
      exact .air (selectInstr_spec s.params n c0 c1 c2 c3 b).1
        (position (airLevel_select n c0 c1 c2 c3 b) hn hu (by simp [Outside, ha]))

/-- The CLOCK's step and a HOST step that is dropped. -/
theorem inv_of_registers {s t : State} (hs : s.Inv) (hp : t.params = s.params) (hh : t.host = s.host)
    (hm : t.mode = s.mode) (hx : t.txn = s.txn) (ha : t.ac = s.ac) (hg : t.tag = s.tag) : t.Inv :=
  inv_of_parts hs hp hh ha hg (by unfold FramesWf; rw [hx, hp]; exact framesWf_of_inv hs)
    ⟨by rw [hm]; exact hs.mode.dev, by rw [hm]; exact hs.mode.resume, by rw [hx]; exact hs.mode.txn,
      by rw [hm]; exact hs.mode.cfg, by rw [hm]; exact hs.mode.field⟩
    (by rw [hm]) (by rw [hm]; exact id) (by rw [hx]; exact hs.tries)

theorem present_inv {s : State} (hs : s.Inv) (hb : s.host.phase = .ready) (sel : Byte) {payload : List Byte}
    (hl : payload.length ≤ maxPayload) : (s.present sel payload).Inv where
  params := hs.params
  buffers := by
    obtain ⟨hreq, hrsp, hframes, hcascade⟩ := buffersWf_iff.mp hs.buffers
    refine buffersWf_iff.mpr ⟨⟨wf_writeRange _ _ hreq.1, within_writeRange hreq.2 ?_⟩, hrsp, hframes, hcascade⟩
    simpa [maxPayload] using hl
  reply := ⟨by simp, by simp, by simp, by simp, by simp, by simp⟩
  request := ⟨fun _ => filled_writeRange_zero _ _, fun _ => hl⟩
  mode := ⟨hs.mode.dev, hs.mode.resume, hs.mode.txn, hs.mode.cfg, hs.mode.field⟩
  cascade := cascadeWf_of_outside (s := s.present sel payload) (hs.cascade.ready (by simp [hb]))
    ⟨hs.cascade.uid_len, hs.cascade.uid_filled⟩
  tag := ⟨hs.tag.len, hs.tag.filled⟩
  tries := hs.tries

theorem take_inv {s : State} (hs : s.Inv) (hb : s.host.phase = .done) (reply : List Byte) : (s.take reply).Inv where
  params := hs.params
  buffers := by
    obtain ⟨hreq, hrsp, hframes, hcascade⟩ := buffersWf_iff.mp hs.buffers
    exact buffersWf_iff.mpr ⟨hreq, hrsp, hframes, hcascade⟩
  reply := ⟨by simp, by simp, by simp, by simp, by simp, by simp⟩
  request := ⟨by simp, by simp⟩
  mode := ⟨hs.mode.dev, hs.mode.resume, hs.mode.txn, hs.mode.cfg, hs.mode.field⟩
  cascade := cascadeWf_of_outside (s := s.take reply) (hs.cascade.ready (by simp [hb]))
    ⟨hs.cascade.uid_len, hs.cascade.uid_filled⟩
  tag := ⟨hs.tag.len, hs.tag.filled⟩
  tries := hs.tries

/-- A step of the HOST or the CLOCK from a state of the invariant ends in one. -/
theorem hostTurn_inv {s : State} (hs : s.Inv) : ∃ t, conclude hostTurn s = .next t ∧ t.Inv := by
  have dropped : ∀ rest, ({ s with env.hostLine := rest } : State).Inv := fun rest =>
    inv_of_registers hs rfl rfl rfl rfl rfl rfl
  cases hl : s.env.hostLine with
  | nil => exact ⟨_, hostTurn_tick (by simp [hl]), inv_of_registers hs rfl rfl rfl rfl rfl rfl⟩
  | cons e rest =>
    by_cases ht : s.now < e.time
    · exact ⟨_, hostTurn_tick (by simpa [hl] using ht), inv_of_registers hs rfl rfl rfl rfl rfl rfl⟩
    have ht : e.time ≤ s.now := Nat.not_lt.mp ht
    cases hb : s.host.phase with
    | busy => exact ⟨_, conclude_ok (hostTurn_dropped hl ht (.inr (.inr hb))), dropped rest⟩
    | ready =>
      cases ha : e.act with
      | take => exact ⟨_, conclude_ok (hostTurn_dropped hl ht (.inl ⟨hb, ha⟩)), dropped rest⟩
      | present sel payload =>
        by_cases hp : payload.length ≤ maxPayload
        · exact ⟨_, conclude_ok (hostTurn_present hl ht hb ha hp), present_inv (dropped rest) hb sel hp⟩
        · exact ⟨_, conclude_ok (hostTurn_long hl ht hb ha (Nat.not_le.mp hp)), dropped rest⟩
    | done =>
      by_cases ha : e.act = .take
      · obtain ⟨reply, hr⟩ := Option.isSome_iff_exists.mp (hs.reply.filled hb)
        exact ⟨_, conclude_ok (hostTurn_take hl ht hb ha hr), take_inv (dropped rest) hb reply⟩
      · exact ⟨_, conclude_ok (hostTurn_dropped hl ht (.inr (.inl ⟨hb, ha⟩))), dropped rest⟩

/-- A request with a reserved selector. -/
theorem reserved_inv {s : State} (hs : s.Inv) (ho : Outside s) :
    ∃ t, conclude reservedRequest s = .next t ∧ t.Inv :=
  ⟨_, conclude_raise (run_raise _ _), finish_inv hs (Kept.refl s) (Nat.zero_le _) (fun _ => rfl) id
    (ModeWf.legal hs.mode) ho (uidWf_of_inv hs) hs.tag hs.tries⟩

/-- A step from a state of the invariant ends in one, or it is refused for bytes at the entry that are no command. -/
theorem step_inv {s : State} (hs : s.Inv) :
    (∃ t, step s = .next t ∧ t.Inv) ∨
      ∃ r bytes, step s = .refused r ∧ s.host.phase = .ready ∧ s.env.chipCall = some bytes ∧
        ∀ i rest, decode s.params .chip bytes ≠ .ok (i, rest) := by
  by_cases hd : s.resetDue = true
  · exact .inl ⟨_, step_reset hd, resetAction_inv hs.params⟩
  rw [step_of_fetch (by simpa using hd)]
  have hstand := fetch_standing hs
  generalize fetch s = f at hstand
  cases hstand with
  | host hi ho =>
    refine .inl ?_
    dsimp only
    rw [accept_of_not_chip (by rw [hi]; decide)]
    exact hostRow_inv hs hi ho
  | reserved hb ho => exact .inl (reserved_inv hs ho)
  | air hi hr =>
    refine .inl ?_
    dsimp only
    rw [accept_of_not_chip (by rw [hi]; decide)]
    exact airRow_inv hs hi hr
  | nothing hb => exact .inl (hostTurn_inv hs)
  | @chip bytes hb hc =>
    cases hdec : decode s.params .chip bytes with
    | ok r =>
      obtain ⟨i, rest⟩ := r
      obtain ⟨hi, hw, -⟩ := encodeOfDecode _ _ _ _ _ hdec
      rw [readInstr_ok hdec]
      exact .inl (chipRow_inv (accept_inv hs i) hi hw)
    | error e =>
      have hrefused : ∃ r, readInstr s.params .chip bytes = .refused r := by
        unfold readInstr
        rw [hdec]
        cases e <;> exact ⟨_, rfl⟩
      obtain ⟨r, hr⟩ := hrefused
      rw [hr]
      exact .inr ⟨r, bytes, rfl, hb, hc, by simp [hdec]⟩

/-- Settles O15: a step that answers a state is none that is refused. -/
theorem stepKeepsInv : Obligations.StepKeepsInv := by
  unfold Obligations.StepKeepsInv
  intro s t hs h
  rcases step_inv hs with ⟨u, hu, hinv⟩ | ⟨r, bytes, hr, -⟩
  · rw [hu] at h
    cases h
    exact hinv
  · rw [hr] at h
    cases h

/-- Settles O16: the step's answer is a state of the invariant, or the refusal of what the engine never puts there. -/
theorem invStepCompletes : Obligations.InvStepCompletes := by
  unfold Obligations.InvStepCompletes
  intro s hs
  rcases step_inv hs with ⟨u, hu, -⟩ | ⟨r, bytes, hr, hb, hc, hdec⟩
  · exact ⟨fun f => by simp [hu], fun _ => ⟨u, hu⟩⟩
  · refine ⟨fun f => by simp [hr], fun h => ?_⟩
    obtain ⟨i, rest, hi⟩ := h hb bytes hc
    exact absurd hi (hdec i rest)

end Sys2Proof.Proofs
end

section
/-! PROOFS. The TimeoutSupervisor's counter and settle, and the receive's ways to end short
(spec/41_timeout_supervisor.md, spec/40_transport_frame.md section 3). -/

namespace Sys2Proof.Proofs

open Sys2Proof.Machine Sys2Proof.Laws

/-- Settles O18: with fewer than 2^31 ticks passed the counters' difference is the naturals' (R210). -/
theorem modularExpiryAgrees : Obligations.ModularExpiryAgrees := by
  unfold Obligations.ModularExpiryAgrees
  intro start now ticks hticks hle hpassed
  have hsub : (BitVec.ofNat 32 now - BitVec.ofNat 32 start).toNat = now - start := by
    simp only [BitVec.toNat_sub, BitVec.toNat_ofNat]
    omega
  simp only [expiredMod, decide_eq_true_eq, BitVec.le_def, hsub, BitVec.toNat_ofNat]
  omega

/-- Settles O20: a pending settle waits both delays out; with none pending the state is as it was. -/
theorem settleWaitsBoth : Obligations.SettleWaitsBoth := by
  unfold Obligations.SettleWaitsBoth
  intro s
  refine ⟨fun h => ?_, fun h hquiet => ?_⟩
  · simp only [settle, run_bind, run_get, h, Bool.false_eq_true, if_false, run_pure]
  · rw [settle_ok (by simpa only [State.sendTime, h, if_true] using hquiet)]
    simp only [settled, h, if_true]

/-- Settles O25: each of R171's rows is the receive's rule for what came. -/
theorem receiveClassifies : Obligations.ReceiveClassifies := by
  unfold Obligations.ReceiveClassifies
  intro s kind v u line' hp
  have hT := Laws.ticks_pos hp kind
  have hib := tIb_pos hp
  refine ⟨fun h hq => ?quiet, fun b h hq => ?one, fun st h hq => ?ff, fun st len body hff hlt h hq => ?cut⟩
  case quiet => exact ⟨_, receive_quiet h hq, rfl, rfl, rfl, rfl, rfl⟩
  case one => exact ⟨_, receive_one hT hib h hq, rfl, rfl, rfl, rfl⟩
  case ff => exact ⟨_, receive_ff hT hib h hq, rfl, rfl, rfl, rfl⟩
  case cut =>
    have hcount : (st :: len :: body).length = 2 + body.length := by simp only [List.length_cons]; omega
    exact ⟨_, receive_cut hT hib hff hlt h hq, rfl, rfl, hcount, rfl⟩

end Sys2Proof.Proofs
end

section
/-! PROOFS. The chip commands of spec/42_command_engine.md: each row is a transaction of R115's table with the settle
that R208 asks for, or the echo attempt. -/

namespace Sys2Proof.Proofs

open Sys2Proof.Machine Sys2Proof.Laws

/-! ## The framed rows -/

/-- A framed command with its settle: the table's row of R115 and R208. -/
def framed (c : FrameCmd) (payload : List Byte) (kind : DeadlineKind) (ok : Byte) : Proc Reception := do
  settleAfter c payload (← chipTxn c payload kind ok)

/-- A row of exec that is a framed command run for its caller. -/
def FramedRow (i : Instr) (c : FrameCmd) (payload : List Byte) (kind : DeadlineKind) (ok : Byte) (s : State) : Prop :=
  exec i s = conclude (callFramed (framed c payload kind ok)) s

theorem conclude_congr {α : Type} {p q : Proc α} {s : State} (h : p.run s = q.run s) :
    conclude p s = conclude q s := by
  unfold conclude
  rw [h]

theorem callFramed_congr {p q : Proc Reception} {s : State} (h : p.run s = q.run s) :
    conclude (callFramed p) s = conclude (callFramed q) s :=
  conclude_congr (by simp only [callFramed, run_bind, h])

section
variable (s : State)

theorem framed_idn : idn.run s = (framed .idn [] .noresp s.params.stOk).run s :=
  (settleAfter_none (c := .idn) (payload := []) (fun _ => rfl) s).trans rfl

theorem framed_protocol (w q : Byte) :
    (protocolAtEntry w q).run s = (framed .protocol [w, q] .noresp s.params.stOk).run s := rfl

theorem framed_sendRecv (b : List Byte) : (sendRecv b).run s = (framed .sendRecv b .detect s.params.stData).run s :=
  (settleAfter_none (c := .sendRecv) (payload := b) (fun _ => rfl) s).trans rfl

theorem framed_idle :
    idleCmd.run s = (framed .idle s.params.idleParams .noresp s.params.stOk).run s :=
  (settleAfter_none (c := .idle) (payload := s.params.idleParams) (fun _ => rfl) s).trans rfl

theorem framed_readReg (q : List Byte) : (readReg q).run s = (framed .readReg q .noresp s.params.stOk).run s :=
  (settleAfter_none (c := .readReg) (payload := q) (fun _ => rfl) s).trans rfl

theorem framed_writeReg (q : List Byte) : (writeReg q).run s = (framed .writeReg q .noresp s.params.stOk).run s :=
  (settleAfter_none (c := .writeReg) (payload := q) (fun _ => rfl) s).trans rfl

theorem framed_baudrate (q : List Byte) : (baudrate q).run s = (framed .baudrate q .noresp s.params.stOk).run s := rfl

theorem idn_row : FramedRow .idn .idn [] .noresp s.params.stOk s := callFramed_congr (framed_idn s)

theorem protocol_row (w q : Byte) : FramedRow (.protocol w q) .protocol [w, q] .noresp s.params.stOk s :=
  callFramed_congr (framed_protocol s w q)

theorem sendRecv_row (b : List Byte) : FramedRow (.sendRecv b) .sendRecv b .detect s.params.stData s :=
  callFramed_congr (framed_sendRecv s b)

theorem idle_row : FramedRow .idle .idle s.params.idleParams .noresp s.params.stOk s := callFramed_congr (framed_idle s)

theorem readReg_row (q : List Byte) : FramedRow (.readReg q) .readReg q .noresp s.params.stOk s :=
  callFramed_congr (framed_readReg s q)

theorem writeReg_row (q : List Byte) : FramedRow (.writeReg q) .writeReg q .noresp s.params.stOk s :=
  callFramed_congr (framed_writeReg s q)

theorem baudrate_row (q : List Byte) : FramedRow (.baudrate q) .baudrate q .noresp s.params.stOk s :=
  callFramed_congr (framed_baudrate s q)

theorem echo_row : exec .echo s = conclude (do keepResult (echoResult (← echoAttempt))) s := rfl

end

theorem idleParams_le {p : Params} (h : p.wf = true) : p.idleParams.length ≤ maxPayload :=
  have ⟨_, _, _, _, _, _, _, hl⟩ := params_wf h
  hl

/-- Every well-formed chip row but ECHO is a framed row of an admissible payload. -/
theorem framedRow_of_chip {i : Instr} {s : State} (hp : s.params.wf = true) (hi : i.space = .chip) (hw : i.wf = true)
    (he : i ≠ .echo) :
    ∃ c payload kind ok, payload.length ≤ maxPayload ∧
      ∀ t : State, t.params = s.params → FramedRow i c payload kind ok t := by
  cases i <;> cases hi
  case idn => exact ⟨_, _, _, _, Nat.zero_le _, fun t ht => ht ▸ idn_row t⟩
  case protocol w q => exact ⟨_, [w, q], _, _, (by decide : 2 ≤ 254), fun t ht => ht ▸ protocol_row t w q⟩
  case sendRecv b =>
    simp only [Instr.wf, Bool.and_eq_true, decide_eq_true_eq] at hw
    exact ⟨_, _, _, _, hw.2, fun t ht => ht ▸ sendRecv_row t b⟩
  case idle => exact ⟨_, _, _, _, idleParams_le hp, fun t ht => ht ▸ idle_row t⟩
  case readReg q => exact ⟨_, _, _, _, of_decide_eq_true hw, fun t ht => ht ▸ readReg_row t q⟩
  case writeReg q => exact ⟨_, _, _, _, of_decide_eq_true hw, fun t ht => ht ▸ writeReg_row t q⟩
  case baudrate q => exact ⟨_, _, _, _, of_decide_eq_true hw, fun t ht => ht ▸ baudrate_row t q⟩
  case echo => exact absurd rfl he

/-! ## Stale bytes -/

/-- The flush drops what waits and then what a flush without it would drop (R166). -/
theorem flushed_stale {p : Params} {n t : Nat} {line : ChipLine} {stale rest : List Arrival}
    (hp : p.transport = .uart) (hl : line.rx = stale ++ rest) (hs : ∀ a ∈ stale, a.time ≤ t ∧ a.after ≤ n) :
    line.flushed p (n + 1) t = ({ line with rx := rest } : ChipLine).flushed p (n + 1) t := by
  have hdrop : ∀ a ∈ stale, (decide (a.time ≤ t) && decide (a.after < n + 1)) = true := fun a ha => by
    simpa [Nat.lt_succ_iff] using hs a ha
  simp only [ChipLine.flushed, hp, hl, List.dropWhile_append_of_pos hdrop]

/-- What waits when the bytes leave makes no difference to where the receive begins. -/
theorem awaiting_stale {s : State} {stale rest : List Arrival} (bytes : List Byte) (hp : s.params.transport = .uart)
    (hl : s.chip.rx = stale ++ rest) (hs : ∀ a ∈ stale, a.time ≤ s.sendTime ∧ a.after ≤ s.out.sent) :
    awaiting s bytes = awaiting { s with chip.rx := rest } bytes := by
  have hsettled : (settled { s with chip.rx := rest }).txn = (settled s).txn := by
    unfold settled
    dsimp only
    split <;> rfl
  unfold awaiting
  rw [flushed_stale hp hl hs, hsettled]
  rfl

/-- Settles O26: from where the bytes have gone out the two runs stand in the same state. -/
theorem staleBytesInvisible : Obligations.StaleBytesInvisible := by
  unfold Obligations.StaleBytesInvisible
  intro s i stale rest hp huart hi hw hl hs hq
  have hq' : ({ s with chip.rx := rest } : State).quietUntil ({ s with chip.rx := rest } : State).sendTime := hq
  by_cases he : i = .echo
  · subst he
    have hattempt : echoAttempt.run s = echoAttempt.run { s with chip.rx := rest } := by
      rw [echoAttempt_eq hq, echoAttempt_eq hq', awaiting_stale _ huart hl hs]
    simp only [echo_row, conclude, run_bind, hattempt]
  · obtain ⟨c, payload, kind, ok, hlen, hrow⟩ := framedRow_of_chip hp hi hw he
    have htxn : (chipTxn c payload kind ok).run s = (chipTxn c payload kind ok).run { s with chip.rx := rest } := by
      rw [chipTxn_eq hlen hq, chipTxn_eq hlen hq', awaiting_stale _ huart hl hs]
    calc exec i s = conclude (callFramed (framed c payload kind ok)) s := hrow s rfl
      _ = conclude (callFramed (framed c payload kind ok)) { s with chip.rx := rest } := by
        simp only [conclude, callFramed, framed, run_bind, htxn]
      _ = exec i { s with chip.rx := rest } := (hrow { s with chip.rx := rest } rfl).symm

/-! ## Success and failure of a framed command -/

theorem lenAccepted_of {r : LenRange} {n : Nat} (h1 : r.min ≤ n) (h2 : n ≤ r.max) : lenAccepted r n = true := by
  simp [lenAccepted, h1, h2]

section
variable {i : Instr} {c : FrameCmd} {payload : List Byte} {kind : DeadlineKind} {ok : Byte} {s t : State}

/-- What a framed row answers once its transaction has a success (R208, R230). -/
theorem framedRow_frame {st : Byte} {reply : List Byte} (hrow : FramedRow i c payload kind ok s)
    (hrun : (chipTxn c payload kind ok).run s = .ok (.frame st reply) t) :
    exec i s = .next { t with
      txn.settlePending := t.txn.settlePending || setsSettle t.params c payload
      out.callResult := some (.frame st reply) } := by
  rw [hrow]
  refine conclude_ok (a := ⟨⟩) ?_
  simp only [callFramed, framed, run_bind, hrun, settleAfter_ok]
  rfl

/-- What a framed row answers once its transaction has failed (R230). -/
theorem framedRow_noFrame {r : Reception} (hrow : FramedRow i c payload kind ok s)
    (hrun : (chipTxn c payload kind ok).run s = .ok r t) (hr : r = .noResponse ∨ r = .malformedFrame) :
    exec i s = .next { t with out.callResult := some r.result } := by
  rw [hrow]
  refine conclude_ok (a := ⟨⟩) ?_
  simp only [callFramed, framed, run_bind, hrun, settleAfter_ok]
  rcases hr with rfl | rfl <;> rfl

end

/-- A success frame of an accepted length (R230, R234). -/
theorem framedRow_success {i : Instr} {c : FrameCmd} {payload reply bytes : List Byte} {kind : DeadlineKind}
    {ok : Byte} {s : State} {u : Nat} {line' : ChipLine} (hrow : FramedRow i c payload kind ok s)
    (hp : s.params.wf = true) (hk : kind ≠ .echo) (hl : payload.length ≤ maxPayload) (hq : s.quietUntil u)
    (hmin : (s.params.respLen c).min ≤ reply.length) (hmax : reply.length ≤ (s.params.respLen c).max)
    (h : ChipFrame s.params kind (s.out.sent + 1) s.sendTime s.chip ok reply bytes u line') :
    ∃ t, exec i s = .next { t with
          txn.settlePending := setsSettle s.params c payload
          out.callResult := some (.frame ok reply) } ∧
      Exchanged s t kind (frameBytes s.params (s.params.opcode c) payload) bytes u line' ∧
      t.mode.dev = s.mode.dev.afterSuccess ∧ t.txn.lastStatus = ok := by
  obtain ⟨t, hrun, hx, hdev, hstatus⟩ := chipTxn_success hk (Laws.ticks_pos hp kind) (tIb_pos hp) hl h
    (lenAccepted_of hmin hmax) hq
  refine ⟨t, ?_, hx, hdev, hstatus⟩
  rw [framedRow_frame hrow hrun]
  simp only [hx.settled, hx.untouched.params, Bool.false_or]

/-- A success that asks for no settle leaves it cleared as the exchange did. -/
theorem framedRow_success_unsettled {i : Instr} {c : FrameCmd} {payload reply bytes : List Byte} {kind : DeadlineKind}
    {ok : Byte} {s : State} {u : Nat} {line' : ChipLine} (hrow : FramedRow i c payload kind ok s)
    (hset : setsSettle s.params c payload = false) (hp : s.params.wf = true) (hk : kind ≠ .echo)
    (hl : payload.length ≤ maxPayload) (hq : s.quietUntil u) (hmin : (s.params.respLen c).min ≤ reply.length)
    (hmax : reply.length ≤ (s.params.respLen c).max)
    (h : ChipFrame s.params kind (s.out.sent + 1) s.sendTime s.chip ok reply bytes u line') :
    ∃ t, exec i s = .next { t with out.callResult := some (.frame ok reply) } ∧
      Exchanged s t kind (frameBytes s.params (s.params.opcode c) payload) bytes u line' ∧
      t.mode.dev = s.mode.dev.afterSuccess ∧ t.txn.lastStatus = ok := by
  obtain ⟨t, hrun, hx, hrest⟩ := framedRow_success hrow hp hk hl hq hmin hmax h
  refine ⟨t, ?_, hx, hrest⟩
  rw [hrun, hset, ← hx.settled]

/-- Any way the CHIP fails it (R230, R232, R233). -/
theorem framedRow_fails {i : Instr} {c : FrameCmd} {payload received : List Byte} {kind : DeadlineKind}
    {ok status : Byte} {answer : Reception} {s : State} {v u : Nat} {line' : ChipLine}
    (hrow : FramedRow i c payload kind ok s) (hp : s.params.wf = true) (hk : kind ≠ .echo)
    (hl : payload.length ≤ maxPayload) (hq : s.quietUntil u)
    (h : ChipFails s.params kind ok (s.params.respLen c) (s.out.sent + 1) s.sendTime s.chip s.txn.lastStatus answer
      received status v u line') :
    ∃ t, exec i s = .next { t with out.callResult := some answer.result } ∧
      ExchangedAt s t kind (frameBytes s.params (s.params.opcode c) payload) received v u line' ∧
      t.mode.dev = s.mode.dev ∧ t.txn.lastStatus = status := by
  obtain ⟨hanswer, t, hrun, hx⟩ := chipTxn_fails hk (Laws.ticks_pos hp kind) (tIb_pos hp) hl h hq
  exact ⟨t, framedRow_noFrame hrow hrun hanswer, hx⟩

/-- Settles O27: the six rows whose success settles nothing. -/
theorem framedCommandsSucceed : Obligations.FramedCommandsSucceed := by
  unfold Obligations.FramedCommandsSucceed
  intro s reply bytes u line' hp hq
  have hne : DeadlineKind.noresp ≠ .echo := by decide
  refine ⟨?idn, fun param => ?protocol, fun b hb => ?sendRecv, ?idle, fun q hl => ?readReg, fun q hl => ?writeReg⟩
  case idn => exact framedRow_success_unsettled (idn_row s) rfl hp hne (Nat.zero_le _) hq
  case protocol =>
    exact framedRow_success_unsettled (protocol_row s _ _) (by simp [setsSettle]) hp hne (by simp [maxPayload]) hq
  case sendRecv => exact framedRow_success_unsettled (sendRecv_row s b) rfl hp (by decide) hb hq
  case idle => exact framedRow_success_unsettled (idle_row s) rfl hp hne (idleParams_le hp) hq
  case readReg => exact framedRow_success_unsettled (readReg_row s q) rfl hp hne hl hq
  case writeReg => exact framedRow_success_unsettled (writeReg_row s q) rfl hp hne hl hq

/-- Settles O28: the two rows whose success sets settle_pending. -/
theorem settlingCommandsSucceed : Obligations.SettlingCommandsSucceed := by
  unfold Obligations.SettlingCommandsSucceed
  intro s reply bytes u line' hp hq h
  have hne : DeadlineKind.noresp ≠ .echo := by decide
  refine ⟨fun q hl hmin hmax => framedRow_success (baudrate_row s q) hp hne hl hq hmin hmax h,
    fun wire param hwire hmin hmax => ?_⟩
  obtain ⟨t, hrun, hrest⟩ :=
    framedRow_success (protocol_row s wire param) hp hne (by simp [maxPayload]) hq hmin hmax h
  refine ⟨t, ?_, hrest⟩
  rw [hrun, show setsSettle s.params .protocol [wire, param] = true by simpa [setsSettle] using hwire]

/-- Settles O30: all seven framed rows, by the transaction's rule for every failure. -/
theorem framedCommandsFail : Obligations.FramedCommandsFail := by
  unfold Obligations.FramedCommandsFail
  intro s answer received status v u line' hp hq
  have hne : DeadlineKind.noresp ≠ .echo := by decide
  refine ⟨?idn, fun wire param => ?protocol, fun b hb => ?sendRecv, ?idle, fun q hl => ?readReg, fun q hl => ?writeReg,
    fun q hl => ?baudrate⟩
  case idn => exact framedRow_fails (idn_row s) hp hne (Nat.zero_le _) hq
  case protocol => exact framedRow_fails (protocol_row s wire param) hp hne (by simp [maxPayload]) hq
  case sendRecv => exact framedRow_fails (sendRecv_row s b) hp (by decide) hb hq
  case idle => exact framedRow_fails (idle_row s) hp hne (idleParams_le hp) hq
  case readReg => exact framedRow_fails (readReg_row s q) hp hne hl hq
  case writeReg => exact framedRow_fails (writeReg_row s q) hp hne hl hq
  case baudrate => exact framedRow_fails (baudrate_row s q) hp hne hl hq

/-! ## The echo attempt -/

theorem echoRow_ok {s t : State} {alive : Bool} (h : echoAttempt.run s = .ok alive t) :
    exec .echo s = .next { t with out.callResult := some (echoResult alive) } :=
  conclude_ok (a := ⟨⟩) (by simp only [run_bind, h]; rfl)

/-- Settles O29: the attempt's three answers. -/
theorem echoAttemptAnswers : Obligations.EchoAttemptAnswers := by
  unfold Obligations.EchoAttemptAnswers
  intro s u line' hp hq
  have hT : 0 < s.params.tEcho := Laws.ticks_pos hp .echo
  refine ⟨fun h => ?alive, fun b hb h => ?wrong, fun h hu => ?silent⟩
  case alive =>
    obtain ⟨t, hrun, hx⟩ := echoAttempt_alive hT h hq
    exact ⟨t, echoRow_ok hrun, hx⟩
  case wrong =>
    obtain ⟨t, hrun, hx⟩ := echoAttempt_wrong hT h hb hq
    exact ⟨t, echoRow_ok hrun, hx⟩
  case silent =>
    subst hu
    obtain ⟨t, hrun, hx⟩ := echoAttempt_silent h hq
    exact ⟨t, echoRow_ok hrun, hx⟩

/-! ## Every answer -/

theorem not_aborted {b : Nat} {s t : State} {e : Stop} (h : Aborted b s e t) (hr : s.env.resetLine = []) : False := by
  obtain ⟨r, hmem, -⟩ := h.asserted
  simp [hr] at hmem

theorem afterSuccess_cases (d : DevState) : d.afterSuccess = d ∨ d = .uninitialized ∧ d.afterSuccess = .idle := by
  cases d <;> simp [DevState.afterSuccess]

/-- Settles O31: whatever the CHIP does the row leaves what a transaction leaves, the reset input not being asserted. -/
theorem chipCommandAlwaysCompletes : Obligations.ChipCommandAlwaysCompletes := by
  unfold Obligations.ChipCommandAlwaysCompletes
  intro s i hp hi hw hr
  rcases chipRow_ends hp hi hw with ⟨u, r, pend, hrun, htxn, hdev, -⟩ | ⟨u, -, hab⟩
  case inr => exact absurd hab (not_aborted · hr)
  have hunt := htxn.untouched
  obtain ⟨bytes, hlen, hbuf, hcount, hline⟩ := htxn.rx
  refine ⟨_, hrun, hunt.params, hunt.host, hunt.cfg, hunt.ac, hunt.tag, hunt.env, hunt.tries, hunt.replies, htxn.count,
    htxn.phase, htxn.resume, ?dev, ?time, ?tx, htxn.txLen, bytes, ?rx, hcount, hlen, hline⟩
  case dev =>
    rcases hdev with h | ⟨h, -⟩
    · exact .inl h
    · rcases afterSuccess_cases s.mode.dev with k | ⟨k, k'⟩
      · exact .inl (h.trans k)
      · exact .inr ⟨k, h.trans k'⟩
  case time =>
    have hbefore := htxn.before
    cases i <;> exact hbefore
  case tx => exact htxn.tx ▸ holds_writeRange _ _
  case rx => exact hbuf ▸ holds_writeRange _ _

/-! ## The generic entry -/

/-- Execute of a framed command is the table's row (R235). -/
theorem execute_framed {c : FrameCmd} {payload : List Byte} {q : Proc Reception} {s : State}
    (h : q.run s = (framed c payload (kindOf c) (okStatus s.params c)).run s) :
    (execute (some c) payload).run s = (do return .response (← q) : Proc ExecuteResult).run s := by
  simp only [execute, run_bind, run_get, h, framed]
  cases (chipTxn c payload (kindOf c) (okStatus s.params c)).run s <;> rfl

/-- Settles O32: each command's own procedure is its row of the table, and ECHO's is the probe. -/
theorem executeIsTheCommand : Obligations.ExecuteIsTheCommand := by
  unfold Obligations.ExecuteIsTheCommand
  intro s
  exact ⟨execute_framed (framed_idn s), fun wire param => execute_framed (framed_protocol s wire param),
    fun b => execute_framed (framed_sendRecv s b), execute_framed (framed_idle s),
    fun q => execute_framed (framed_readReg s q), fun q => execute_framed (framed_writeReg s q),
    fun q => execute_framed (framed_baudrate s q), rfl⟩

end Sys2Proof.Proofs
end

section
/-! PROOFS. The ProtocolSelector of spec/43_protocol_selector.md: the configuration a request's bytes make, and a
selection made twice. -/

namespace Sys2Proof.Proofs

open Sys2Proof.Machine Sys2Proof.Laws

/-! ## The configuration -/

theorem pid_ofByte_none {b : Byte} (h : 4 < b.toNat) : Pid.ofByte b = none := by
  unfold Pid.ofByte
  split
  case h_6 => rfl
  all_goals omega

theorem rate_ofByte_none {b : Byte} (h : 2 < b.toNat) : Rate.ofByte b = none := by
  unfold Rate.ofByte
  split
  case h_4 => rfl
  all_goals omega

theorem airConfig_badPid {pid : Byte} (tx rx : Byte) (h : 4 < pid.toNat) : airConfig pid tx rx = none := by
  simp only [airConfig, pid_ofByte_none h]

theorem airConfig_badRate {tx rx : Byte} (h : 2 < tx.toNat ∨ 2 < rx.toNat) : airConfig 3#8 tx rx = none := by
  have hpid : Pid.ofByte 3#8 = some .iso14443B := rfl
  simp only [airConfig, hpid]
  rcases h with h | h
  · rw [rate_ofByte_none h]
  · rw [rate_ofByte_none h]
    cases Rate.ofByte tx <;> rfl

/-- The rate bits stand above the low option bits (R122). -/
theorem rateParam_toNat (t r : Rate) {low : Byte} (h : low.toNat < 16) :
    ((t.code <<< 6) ||| (r.code <<< 4) ||| low).toNat = 64 * t.code.toNat + 16 * r.code.toNat + low.toNat := by
  have hhigh : ((t.code <<< 6) ||| (r.code <<< 4)).toNat = 2 ^ 4 * (4 * t.code.toNat + r.code.toNat) := by
    cases t <;> cases r <;> rfl
  rw [BitVec.toNat_or, hhigh, ← Nat.two_pow_add_eq_or_of_lt h]
  ring

/-- Settles O33: each protocol's configuration by its byte, and ISO14443B's parameter byte by its bits. -/
theorem selectorConfiguration : Obligations.SelectorConfiguration := by
  unfold Obligations.SelectorConfiguration
  refine ⟨fun pid tx rx h => airConfig_badPid tx rx h, fun tx rx h => airConfig_badRate h,
    fun tx rx => ⟨rfl, rfl, rfl, rfl⟩, fun t r => ?_, fun p t r h => rateParam_toNat t r h⟩
  cases t <;> cases r <;> rfl

/-! ## A selection made twice -/

/-- Only the byte 0 selects FIELD_OFF (R290). -/
theorem airConfig_fieldOff_iff {pid tx rx : Byte} {cfg : ProtoCfg} (h : airConfig pid tx rx = some cfg) :
    cfg.pid = .fieldOff ↔ pid = 0#8 := by
  constructor
  · intro hoff
    have hpid : Pid.ofByte pid = some .fieldOff := by
      unfold airConfig at h
      split at h
      · cases h
      · split at h
        · cases h; cases hoff
        · cases h
      · rename_i q hne hq
        cases h
        rw [hq, ← hoff]
        rfl
    unfold Pid.ofByte at hpid
    split at hpid
    case h_1 hzero => exact BitVec.eq_of_toNat_eq hzero
    all_goals cases hpid
  · rintro rfl
    cases h
    rfl

/-- A selection that answers a value asked for a configuration. -/
theorem selectAir_ok {pid tx rx : Byte} {s t : State} {c : OutcomeCode}
    (h : (selectAir pid tx rx).run s = .ok c t) :
    ∃ cfg, airConfig pid tx rx = some cfg ∧ (applyConfig cfg).run s = .ok c t := by
  unfold selectAir at h
  cases hcfg : airConfig pid tx rx with
  | none => rw [hcfg] at h; cases h
  | some cfg => rw [hcfg] at h; exact ⟨cfg, rfl, h⟩

/-- The selection of the configuration in force is the probe (R295). -/
theorem applyConfig_configured {cfg : ProtoCfg} {s : State} (hpid : cfg.pid ≠ .fieldOff)
    (h : s.configured cfg = true) :
    (applyConfig cfg).run s =
      (do if ← echoProbe then return .ok else return .deviceFault : Proc OutcomeCode).run s := by
  unfold applyConfig
  simp only [if_neg hpid, run_bind, run_get, h, if_true]

/-- The selection of another configuration is SelectProtocol (R290, R294). -/
theorem applyConfig_new {cfg : ProtoCfg} {s : State} (hpid : cfg.pid ≠ .fieldOff) (h : s.configured cfg = false) :
    (applyConfig cfg).run s = (selectProtocol cfg).run s := by
  unfold applyConfig
  simp only [if_neg hpid, run_bind, run_get, h, Bool.false_eq_true, if_false]

theorem configured_iff {cfg : ProtoCfg} {s : State} :
    s.configured cfg = true ↔ s.mode.dev = .fieldOn ∧ s.mode.cfg = cfg := by
  simp [State.configured]

/-- A selection of the configuration in force sends echo bytes alone (R295, R297). -/
theorem applyConfig_sends {cfg : ProtoCfg} {s u : State} {c : OutcomeCode} (hp : s.params.wf = true)
    (hpid : cfg.pid ≠ .fieldOff) (h : s.configured cfg = true) (hrun : (applyConfig cfg).run s = .ok c u) :
    u.txn.txLen = 1 ∧ u.txn.txBuf.read 0 = some s.params.opcEcho ∧
      ∃ events, u.out.line = s.out.line ++ events ∧
        (s.params.transport = .uart → ∀ e ∈ events, ∃ time, e = .tx time s.params.opcEcho) := by
  rw [applyConfig_configured hpid h] at hrun
  have hends := echoLoop_sends s.params.echoAttempts { s with txn.echoTry := 0 } (attempts_pos hp)
  have hprobe : echoProbe.run s = (echoLoop s.params.echoAttempts).run { s with txn.echoTry := 0 } := rfl
  rw [run_bind, hprobe] at hrun
  cases hloop : (echoLoop s.params.echoAttempts).run { s with txn.echoTry := 0 } with
  | error e v => rw [hloop] at hrun; cases hrun
  | ok alive v =>
    rw [hloop] at hrun
    obtain ⟨-, hsends⟩ := hends.ok hloop
    cases alive <;> cases hrun <;> exact hsends

/-- Settles O34: after the first OK the configuration is in force, so that the second selection probes, or switches the
field off again. -/
theorem reselectionChangesNothing : Obligations.ReselectionChangesNothing := by
  unfold Obligations.ReselectionChangesNothing
  intro s t u pid tx rx hp h1 h2
  obtain ⟨cfg, hcfg, h1⟩ := selectAir_ok h1
  obtain ⟨cfg', hcfg', h2⟩ := selectAir_ok h2
  obtain rfl := Option.some.inj (hcfg.symm.trans hcfg')
  obtain ⟨hop1, -, -, hok1, -⟩ := (applyConfig_ends hp cfg).ok h1
  have hpt : t.params = s.params := hop1.kept.params
  have hp' : t.params.wf = true := by rw [hpt]; exact hp
  obtain ⟨-, -, -, hok2, -⟩ := (applyConfig_ends hp' cfg).ok h2
  obtain ⟨hoff1, hon1⟩ := hok1 rfl
  obtain ⟨hoff2, hon2⟩ := hok2 rfl
  by_cases hpid : cfg.pid = .fieldOff
  · obtain ⟨hcfg1, hdev1, -⟩ := hoff1 hpid
    obtain ⟨hcfg2, hdev2, -⟩ := hoff2 hpid
    have h0 : pid = 0#8 := (airConfig_fieldOff_iff hcfg).mp hpid
    exact ⟨hdev2.trans hdev1.symm, hcfg2.trans hcfg1.symm, by rw [hcfg1]; rfl, fun _ => hdev1, fun h => absurd h0 h,
      fun h => absurd h0 h⟩
  · obtain ⟨hcfg1, hdev1, -⟩ := hon1 hpid
    obtain ⟨hcfg2, hdev2, -⟩ := hon2 hpid
    have h0 : pid ≠ 0#8 := fun h => hpid ((airConfig_fieldOff_iff hcfg).mpr h)
    refine ⟨hdev2.trans hdev1.symm, hcfg2.trans hcfg1.symm, by rw [hcfg1]; exact airConfig_wf hcfg,
      fun h => absurd h h0, fun _ => hdev1, fun _ => ?_⟩
    rw [← hpt]
    exact applyConfig_sends hp' hpid (configured_iff.mpr ⟨hdev1, hcfg1⟩) h2

end Sys2Proof.Proofs
end

section
/-! PROOFS. The host requests that are refused (spec/45_host_requests.md section 1): only the reply changes. -/

namespace Sys2Proof.Proofs

open Sys2Proof.Machine Sys2Proof.Laws

section
variable {k : RequestKind} {payload : List Byte} {body : Proc Unit} {s : State}

/-- A payload that validation refuses, whatever the mode (R361(c), R361(d)). -/
theorem request_badPayload (hk : k ≠ .calibration) (h : PayloadRefused k payload) :
    conclude (hostRequest k payload body) s = .next (s.finish .invalidRequest []) := by
  refine conclude_raise (t := s) ?_
  unfold hostRequest
  rcases h with h | ⟨rfl, h⟩
  · simp only [run_bind, run_get, if_neg hk, h, if_true, run_raise]
  · simp only [run_bind, run_get, if_neg hk, h, Bool.not_false, decide_true, Bool.and_self, if_true, run_raise,
      ite_self]

/-- A payload that validation passes. -/
def PayloadOk (k : RequestKind) (payload : List Byte) : Prop :=
  k ≠ .calibration ∧ ¬ PayloadRefused k payload

theorem request_gated (h : PayloadOk k payload) :
    (hostRequest k payload body).run s =
      (if s.mode.dev = .error && !allowedInError k then raiseOutcome .deviceFault
        else if !allowed k s.mode.dev s.mode.cfg then raiseOutcome .notReady
        else body).run s := by
  obtain ⟨hk, hp⟩ := h
  have hlen : lengthWrong k payload = false := by simpa using fun h => hp (.inl h)
  have hcfg : (decide (k = .selectProtocol) && !validCfg payload) = false := by
    by_contra hc
    simp only [Bool.not_eq_false, Bool.and_eq_true, decide_eq_true_eq, Bool.not_eq_true'] at hc
    exact hp (.inr hc)
  unfold hostRequest
  simp only [run_bind, run_get, if_neg hk, hlen, hcfg, Bool.false_eq_true, if_false]

/-- In ERROR, but for the three kinds that run there (R362). -/
theorem request_inError (h : PayloadOk k payload) (hd : s.mode.dev = .error) (hk : allowedInError k = false) :
    conclude (hostRequest k payload body) s = .next (s.finish .deviceFault []) := by
  refine conclude_raise (t := s) ?_
  rw [request_gated h]
  simp only [hd, hk, decide_true, Bool.not_false, Bool.and_self, if_true, run_raise]

/-- In the states the gating table shuts the kind out of (R362). -/
theorem request_notAllowed (h : PayloadOk k payload) (hd : s.mode.dev ≠ .error)
    (hk : allowed k s.mode.dev s.mode.cfg = false) :
    conclude (hostRequest k payload body) s = .next (s.finish .notReady []) := by
  refine conclude_raise (t := s) ?_
  rw [request_gated h]
  simp only [hd, hk, decide_false, Bool.false_and, Bool.false_eq_true, Bool.not_false, if_false, if_true, run_raise]

/-- A request that passes the checks runs (R373). -/
theorem request_allowed (h : PayloadOk k payload) (hd : s.mode.dev = .error → allowedInError k = true)
    (hk : allowed k s.mode.dev s.mode.cfg = true) :
    conclude (hostRequest k payload body) s = conclude body s := by
  refine conclude_congr ?_
  have herr : (decide (s.mode.dev = .error) && !allowedInError k) = false := by
    by_contra hc
    simp only [Bool.not_eq_false, Bool.and_eq_true, decide_eq_true_eq, Bool.not_eq_true'] at hc
    simp [hd hc.1] at hc
  rw [request_gated h]
  simp only [herr, hk, Bool.false_eq_true, Bool.not_true, if_false]

end

theorem payloadOk_nil {k : RequestKind} (h : payloadLen k = some 0) : PayloadOk k [] := by
  refine ⟨by rintro rfl; exact absurd h (by decide), ?_⟩
  rintro (hl | ⟨rfl, -⟩)
  · simp [lengthWrong, h] at hl
  · cases h

theorem payloadRefused_of_ne_nil {k : RequestKind} {payload : List Byte} (h : payloadLen k = some 0)
    (hp : payload ≠ []) : PayloadRefused k payload :=
  .inl (by simpa [lengthWrong, h] using hp)

theorem payloadOk_select {pid tx rx : Byte} {cfg : ProtoCfg} (h : airConfig pid tx rx = some cfg) :
    PayloadOk .selectProtocol [pid, tx, rx] := by
  refine ⟨by decide, ?_⟩
  rintro (hl | ⟨-, hv⟩)
  · simp [lengthWrong, payloadLen] at hl
  · simp [validCfg, h] at hv

/-- Settles O36: every such payload is one that validation refuses. -/
theorem wrongPayloadRefused : Obligations.WrongPayloadRefused := by
  unfold Obligations.WrongPayloadRefused
  intro s
  have empty : ∀ {k payload} {body : Proc Unit}, payloadLen k = some 0 → payload ≠ [] →
      conclude (hostRequest k payload body) s = .next (s.finish .invalidRequest []) := fun {k} {_ _} h hp =>
    request_badPayload (fun hk => by rw [hk] at h; cases h) (payloadRefused_of_ne_nil h hp)
  refine ⟨fun payload hp => ⟨empty rfl hp, empty rfl hp, empty rfl hp, empty rfl hp, empty rfl hp, empty rfl hp,
    empty rfl hp⟩, fun payload hp => ?_, fun pid tx rx h => ?_⟩
  · exact request_badPayload (by decide) (.inl (by simpa [lengthWrong, payloadLen] using hp))
  · have hnone : airConfig pid tx rx = none := by
      rcases h with h | ⟨rfl, h⟩
      · exact airConfig_badPid tx rx h
      · exact airConfig_badRate h
    exact request_badPayload (by decide) (.inr ⟨rfl, by simp [validCfg, hnone]⟩)

/-- A pid of at most 4, with rates of at most 2 under ISO14443B, makes a configuration (R291 to R294). -/
theorem airConfig_some {pid tx rx : Byte} (h : pid.toNat ≤ 4) (hb : pid = 3#8 → tx.toNat ≤ 2 ∧ rx.toNat ≤ 2) :
    ∃ cfg, airConfig pid tx rx = some cfg := by
  have hrate : ∀ b : Byte, b.toNat ≤ 2 → ∃ r, Rate.ofByte b = some r := fun b hle => by
    interval_cases hb : b.toNat <;> simp [Rate.ofByte, hb]
  have hpid : pid = 0#8 ∨ pid = 1#8 ∨ pid = 2#8 ∨ pid = 3#8 ∨ pid = 4#8 := by bv_omega
  rcases hpid with rfl | rfl | rfl | rfl | rfl
  case inr.inr.inr.inl =>
    obtain ⟨ht, hr⟩ := hb rfl
    obtain ⟨t, ht⟩ := hrate tx ht
    obtain ⟨r, hr⟩ := hrate rx hr
    exact ⟨{ pid := .iso14443B, tx := t, rx := r }, by simp [airConfig, Pid.ofByte, ht, hr]⟩
  all_goals exact ⟨_, rfl⟩

/-- Settles O37: the refusing cells of R362's table. -/
theorem gatingTable : Obligations.GatingTable := by
  unfold Obligations.GatingTable
  intro s
  refine ⟨fun hd => ⟨request_inError (payloadOk_nil rfl) hd rfl, request_inError (payloadOk_nil rfl) hd rfl,
    request_inError (payloadOk_nil rfl) hd rfl, request_inError (payloadOk_nil rfl) hd rfl, fun pid tx rx h hb => ?_⟩,
    fun hd => ?_, fun hd hcfg => ?_⟩
  · obtain ⟨cfg, hcfg⟩ := airConfig_some h hb
    exact request_inError (payloadOk_select hcfg) hd rfl
  · have herr : s.mode.dev ≠ .error := by rcases hd with hd | hd <;> simp [hd]
    refine ⟨request_notAllowed (payloadOk_nil rfl) herr ?_, request_notAllowed (payloadOk_nil rfl) herr ?_⟩
    all_goals rcases hd with hd | hd <;> rw [hd] <;> rfl
  · refine request_notAllowed (payloadOk_nil rfl) (by simp [hd]) ?_
    rw [hd]
    simpa [allowed, cascadeCfg, ProtoCfg.plain] using hcfg

end Sys2Proof.Proofs
end

section
/-! PROOFS. The host requests that run one command (spec/45_host_requests.md section 2, spec/42_command_engine.md
section 3), where the CHIP's answer is known. -/

namespace Sys2Proof.Proofs

open Sys2Proof.Machine Sys2Proof.Laws

/-! ## GET_UID -/

theorem getUid_valid {s : State} {uid : List Byte} (hv : s.tag.valid = true)
    (hr : s.tag.uid.readRange 0 s.tag.len = some uid) :
    getUid.run s = .ok ⟨⟩ (s.finish .ok (tagReply uid s.tag.atqa0 s.tag.atqa1 s.tag.sak)) := by
  unfold getUid
  simp only [run_bind, run_get, hv, if_true, tagData_ok hv hr]
  rfl

theorem getUid_invalid {s : State} (hv : s.tag.valid = false) :
    getUid.run s = .ok ⟨⟩ (s.finish .noTagDetected []) := by
  unfold getUid
  simp only [run_bind, run_get, hv, Bool.false_eq_true, if_false]
  rfl

/-- The kinds that R362 lets run in UNINITIALIZED, IDLE and FIELD_ON. -/
theorem request_runs {k : RequestKind} {payload : List Byte} {body : Proc Unit} {s : State} (h : PayloadOk k payload)
    (hk : k ≠ .runAnticol ∧ k ≠ .goIdle)
    (hd : s.mode.dev = .uninitialized ∨ s.mode.dev = .idle ∨ s.mode.dev = .fieldOn) :
    conclude (hostRequest k payload body) s = conclude body s := by
  refine request_allowed h (fun he => ?_) ?_
  · rcases hd with hd | hd | hd <;> rw [hd] at he <;> cases he
  · rcases hd with hd | hd | hd <;> simp [hd, allowed, hk.1, hk.2]

/-- The kinds that R362 lets run in every state. -/
theorem request_runs_anywhere {k : RequestKind} {payload : List Byte} {body : Proc Unit} {s : State}
    (h : PayloadOk k payload) (hk : k = .echoTest ∨ k = .fieldOff) (hd : s.mode.dev ≠ .awaitingResponse) :
    conclude (hostRequest k payload body) s = conclude body s := by
  refine request_allowed h (fun _ => by rcases hk with rfl | rfl <;> rfl) ?_
  cases hdev : s.mode.dev with
  | awaitingResponse => exact absurd hdev hd
  | uninitialized | idle | fieldOn | error => rcases hk with rfl | rfl <;> rfl

/-- Settles O38: the Tag register, or that there is none. -/
theorem getUidReadsTag : Obligations.GetUidReadsTag := by
  unfold Obligations.GetUidReadsTag
  intro s uid hd
  have hrun : exec (.getUid []) s = conclude getUid s := request_runs (payloadOk_nil rfl) (by decide) hd
  rw [hrun]
  refine ⟨fun hv hr => ?_, fun hv => conclude_ok (getUid_invalid hv)⟩
  have hlen : uid.length = s.tag.len := (readRange_eq_some.mp hr).1
  rw [← hlen]
  exact conclude_ok (getUid_valid hv hr)

/-! ## GET_CHIP_ID -/

section
variable {s t : State}

theorem getChipId_frame {st : Byte} {reply : List Byte}
    (h : (chipTxn .idn [] .noresp s.params.stOk).run s = .ok (.frame st reply) t) :
    getChipId.run s = .ok ⟨⟩ (t.finish .ok reply) := by
  have hidn : getIdn.run s = .ok (.frame st reply) t := h
  unfold getChipId
  simp only [run_bind, hidn]
  rfl

theorem getChipId_noFrame {r : Reception} (h : (chipTxn .idn [] .noresp s.params.stOk).run s = .ok r t)
    (hr : r = .noResponse ∨ r = .malformedFrame) : getChipId.run s = .ok ⟨⟩ (t.finish r.code []) := by
  have hidn : getIdn.run s = .ok r t := h
  unfold getChipId
  simp only [run_bind, hidn]
  rcases hr with rfl | rfl <;> rfl

/-- Settles O39: the transaction's answer is the reply. -/
theorem getChipIdReplies : Obligations.GetChipIdReplies := by
  unfold Obligations.GetChipIdReplies
  intro s reply bytes u line' hp hq hd
  have hrun : exec (.getChipId []) s = conclude getChipId s := request_runs (payloadOk_nil rfl) (by decide) hd
  have hne : DeadlineKind.noresp ≠ .echo := by decide
  rw [hrun]
  refine ⟨fun hmin hmax h => ?_, fun answer received status v h => ?_⟩
  · obtain ⟨t, htxn, hx⟩ := chipTxn_success (c := .idn) (payload := []) hne (Laws.ticks_pos hp .noresp) (tIb_pos hp)
      (Nat.zero_le _) h (lenAccepted_of hmin hmax) hq
    exact ⟨t, conclude_ok (getChipId_frame htxn), hx⟩
  · obtain ⟨hanswer, t, htxn, hx⟩ := chipTxn_fails (c := .idn) (payload := []) hne (Laws.ticks_pos hp .noresp)
      (tIb_pos hp) (Nat.zero_le _) h hq
    exact ⟨t, conclude_ok (getChipId_noFrame htxn hanswer), hx⟩

end

/-! ## The convenience operations -/

section
variable {s t : State}

theorem goIdle_of {r : Reception} (h : (chipTxn .idle s.params.idleParams .noresp s.params.stOk).run s = .ok r t) :
    goIdle.run s = .ok r.code { t with mode.dev := .idle } := by
  have hidle : idleCmd.run s = .ok r t := h
  unfold goIdle
  simp only [run_bind, hidle]
  rfl

/-- FieldOff's own command (R249). -/
abbrev fieldOffTxn (p : Params) : Proc Reception :=
  chipTxn .protocol [p.pidFieldOff, p.fieldOffParam] .noresp p.stOk

theorem fieldOff_frame {st : Byte} {reply : List Byte} (h : (fieldOffTxn s.params).run s = .ok (.frame st reply) t) :
    fieldOff.run s = .ok .ok { t with mode.cfg := .plain .fieldOff, mode.dev := .idle, tag.valid := false } := by
  have hprotocol : (protocol s.params.pidFieldOff s.params.fieldOffParam).run s = .ok (.frame st reply) t := h
  unfold fieldOff
  simp only [run_bind, run_get, hprotocol]
  rfl

theorem fieldOff_noFrame {r : Reception} (h : (fieldOffTxn s.params).run s = .ok r t)
    (hr : r = .noResponse ∨ r = .malformedFrame) : fieldOff.run s = .ok r.code t := by
  have hprotocol : (protocol s.params.pidFieldOff s.params.fieldOffParam).run s = .ok r t := h
  unfold fieldOff
  simp only [run_bind, run_get, hprotocol]
  rcases hr with rfl | rfl <;> rfl

/-- SelectProtocol's own command (R245). -/
abbrev selectTxn (p : Params) (cfg : ProtoCfg) : Proc Reception :=
  chipTxn .protocol [wirePid p cfg.pid, protoParam p cfg] .noresp p.stOk

/-- The state after a selection that succeeds (R245). -/
def selected (t : State) (cfg : ProtoCfg) : State :=
  { t with mode.cfg := cfg, mode.dev := .fieldOn, txn.settlePending := true }

theorem selectProtocol_frame {cfg : ProtoCfg} {st : Byte} {reply : List Byte}
    (h : (selectTxn s.params cfg).run s = .ok (.frame st reply) t) :
    (selectProtocol cfg).run s = .ok .ok (selected t cfg) := by
  have hprotocol : (protocol (wirePid s.params cfg.pid) (protoParam s.params cfg)).run s = .ok (.frame st reply) t := h
  unfold selectProtocol
  simp only [run_bind, run_get, hprotocol]
  rfl

theorem selectProtocol_noFrame {cfg : ProtoCfg} {r : Reception} (h : (selectTxn s.params cfg).run s = .ok r t)
    (hr : r = .noResponse ∨ r = .malformedFrame) : (selectProtocol cfg).run s = .ok r.code t := by
  have hprotocol : (protocol (wirePid s.params cfg.pid) (protoParam s.params cfg)).run s = .ok r t := h
  unfold selectProtocol
  simp only [run_bind, run_get, hprotocol]
  rcases hr with rfl | rfl <;> rfl

/-- A request that replies the code of one operation. -/
theorem reply_code {p : Proc OutcomeCode} {c : OutcomeCode} (h : p.run s = .ok c t) :
    (do finish (← p) [] : Proc Unit).run s = .ok ⟨⟩ (t.finish c []) := by
  simp only [run_bind, h]
  rfl

end

/-- Settles O41: dev_state is IDLE after the command, whatever it answered. -/
theorem goIdleReplies : Obligations.GoIdleReplies := by
  unfold Obligations.GoIdleReplies
  intro s reply bytes u line' hp hq hd
  have hrun : exec (.goIdle []) s = conclude goIdleReq s := by
    refine request_allowed (payloadOk_nil rfl) (fun _ => rfl) ?_
    rcases hd with hd | hd <;> rw [hd] <;> rfl
  have hne : DeadlineKind.noresp ≠ .echo := by decide
  rw [hrun]
  refine ⟨fun hmin hmax h => ?_, fun answer received status v h => ?_⟩
  · obtain ⟨t, htxn, hx, -, hstatus⟩ := chipTxn_success (c := .idle) (payload := s.params.idleParams) hne
      (Laws.ticks_pos hp .noresp) (tIb_pos hp) (idleParams_le hp) h (lenAccepted_of hmin hmax) hq
    exact ⟨t, conclude_ok (reply_code (goIdle_of htxn)), hx, hstatus⟩
  · obtain ⟨-, t, htxn, hx, -, hstatus⟩ := chipTxn_fails (c := .idle) (payload := s.params.idleParams) hne
      (Laws.ticks_pos hp .noresp) (tIb_pos hp) (idleParams_le hp) h hq
    exact ⟨t, conclude_ok (reply_code (goIdle_of htxn)), hx, hstatus⟩

/-- Settles O42: both instructions run FieldOff and reply its code. -/
theorem fieldOffReplies : Obligations.FieldOffReplies := by
  unfold Obligations.FieldOffReplies
  intro s i reply bytes u line' hp hq hd hi
  have hrun : ∃ p : Proc OutcomeCode, p.run s = fieldOff.run s ∧ exec i s = conclude (do finish (← p) []) s := by
    rcases hi with rfl | ⟨herr, tx, rx, rfl⟩
    · exact ⟨fieldOff, rfl, request_runs_anywhere (payloadOk_nil rfl) (.inr rfl) hd⟩
    · refine ⟨selectAir 0#8 tx rx, rfl, request_runs (payloadOk_select (cfg := .plain .fieldOff) rfl) (by decide) ?_⟩
      cases hdev : s.mode.dev <;> simp_all
  obtain ⟨p, hprun, hexec⟩ := hrun
  have hne : DeadlineKind.noresp ≠ .echo := by decide
  have hlen : [s.params.pidFieldOff, s.params.fieldOffParam].length ≤ maxPayload := by simp [maxPayload]
  rw [hexec]
  refine ⟨fun hmin hmax h => ?_, fun answer received status v h => ?_⟩
  · obtain ⟨t, htxn, hx, -, hstatus⟩ := chipTxn_success (c := .protocol) hne (Laws.ticks_pos hp .noresp) (tIb_pos hp)
      hlen h (lenAccepted_of hmin hmax) hq
    exact ⟨t, conclude_ok (reply_code (hprun.trans (fieldOff_frame htxn))), hx, hstatus⟩
  · obtain ⟨hanswer, t, htxn, hx⟩ := chipTxn_fails (c := .protocol) hne (Laws.ticks_pos hp .noresp) (tIb_pos hp) hlen h
      hq
    exact ⟨t, conclude_ok (reply_code (hprun.trans (fieldOff_noFrame htxn hanswer))), hx⟩

/-! ## SELECT_PROTOCOL of another configuration -/

section
variable {s : State} {cfg : ProtoCfg} {u : Nat} {line' : ChipLine}

/-- The selection that the CHIP answers with a success frame (R245). -/
theorem select_success {reply bytes : List Byte} (hp : s.params.wf = true) (hq : s.quietUntil u)
    (hpid : cfg.pid ≠ .fieldOff) (hnew : s.configured cfg = false)
    (hmin : s.params.lenProtocol.min ≤ reply.length) (hmax : reply.length ≤ s.params.lenProtocol.max)
    (h : ChipFrame s.params .noresp (s.out.sent + 1) s.sendTime s.chip s.params.stOk reply bytes u line') :
    ∃ t, (applyConfig cfg).run s = .ok .ok (selected t cfg) ∧
      Exchanged s t .noresp
        (frameBytes s.params s.params.opcProtocol [wirePid s.params cfg.pid, protoParam s.params cfg]) bytes u line' ∧
      t.mode.dev = s.mode.dev.afterSuccess ∧ t.txn.lastStatus = s.params.stOk := by
  obtain ⟨t, htxn, hx⟩ := chipTxn_success (c := .protocol)
    (payload := [wirePid s.params cfg.pid, protoParam s.params cfg]) (by decide) (Laws.ticks_pos hp .noresp)
    (tIb_pos hp) (by simp [maxPayload]) h (lenAccepted_of hmin hmax) hq
  exact ⟨t, (applyConfig_new hpid hnew).trans (selectProtocol_frame htxn), hx⟩

/-- The selection that the CHIP fails in whatever way (R245). -/
theorem select_failure {answer : Reception} {received : List Byte} {status : Byte} {v : Nat} (hp : s.params.wf = true)
    (hq : s.quietUntil u) (hpid : cfg.pid ≠ .fieldOff) (hnew : s.configured cfg = false)
    (h : ChipFails s.params .noresp s.params.stOk s.params.lenProtocol (s.out.sent + 1) s.sendTime s.chip
      s.txn.lastStatus answer received status v u line') :
    (answer = .noResponse ∨ answer = .malformedFrame) ∧ ∃ t, (applyConfig cfg).run s = .ok answer.code t ∧
      ExchangedAt s t .noresp
        (frameBytes s.params s.params.opcProtocol [wirePid s.params cfg.pid, protoParam s.params cfg]) received v u
        line' ∧
      t.mode.dev = s.mode.dev ∧ t.txn.lastStatus = status := by
  obtain ⟨hanswer, t, htxn, hx⟩ := chipTxn_fails (c := .protocol)
    (payload := [wirePid s.params cfg.pid, protoParam s.params cfg]) (by decide) (Laws.ticks_pos hp .noresp)
    (tIb_pos hp) (by simp [maxPayload]) h hq
  exact ⟨hanswer, t, (applyConfig_new hpid hnew).trans (selectProtocol_noFrame htxn hanswer), hx⟩

/-- SELECT_PROTOCOL that runs is the selection, its code the reply (R371). -/
theorem exec_selectProtocol {pid tx rx : Byte} (hcfg : airConfig pid tx rx = some cfg)
    (hd : s.mode.dev = .uninitialized ∨ s.mode.dev = .idle ∨ s.mode.dev = .fieldOn) :
    exec (.selectProtocol [pid, tx, rx]) s = conclude (do finish (← applyConfig cfg) []) s := by
  have hrun : exec (.selectProtocol [pid, tx, rx]) s = conclude (selectProtocolReq [pid, tx, rx]) s :=
    request_runs (payloadOk_select hcfg) (by decide) hd
  rw [hrun]
  refine conclude_congr ?_
  simp only [selectProtocolReq, selectAir, hcfg]

theorem configured_false (h : ¬ (s.mode.dev = .fieldOn ∧ s.mode.cfg = cfg)) : s.configured cfg = false := by
  rw [← Bool.not_eq_true, configured_iff]
  exact h

end

/-- Settles O43: each protocol's bytes make its configuration, whose wire_pid and parameter byte are the table's. -/
theorem selectProtocolConfigures : Obligations.SelectProtocolConfigures := by
  unfold Obligations.SelectProtocolConfigures
  intro s u line' hp hq hd configures tx rx
  have key : ∀ (pid tx rx : Byte) (cfg : ProtoCfg), airConfig pid tx rx = some cfg → cfg.pid ≠ .fieldOff →
      configures pid tx rx cfg (wirePid s.params cfg.pid) (protoParam s.params cfg) := by
    intro pid tx rx cfg hcfg hpid hnew
    rw [exec_selectProtocol hcfg hd]
    refine ⟨fun reply bytes hmin hmax h => ?_, fun answer received status v h => ?_⟩
    · obtain ⟨t, hrun, hx, -, hstatus⟩ := select_success hp hq hpid (configured_false hnew) hmin hmax h
      exact ⟨t, conclude_ok (reply_code hrun), hx, hstatus⟩
    · obtain ⟨-, t, hrun, hx⟩ := select_failure hp hq hpid (configured_false hnew) h
      exact ⟨t, conclude_ok (reply_code hrun), hx⟩
  have hzero : rateParam (.plain .iso14443A) s.params.protoLowA = s.params.protoLowA := by
    simp [rateParam, ProtoCfg.plain, Rate.code]
  refine ⟨key 1#8 tx rx _ rfl (by decide), ?_, fun t r ht hr => ?_, key 4#8 tx rx _ rfl (by decide)⟩
  · have h := key 2#8 tx rx (.plain .iso14443A) rfl (by decide)
    rwa [show protoParam s.params (.plain .iso14443A) = s.params.protoLowA from hzero] at h
  · subst ht hr
    exact key 3#8 t.code r.code _ (by cases t <;> cases r <;> rfl) (by simp)

end Sys2Proof.Proofs
end

section
/-! PROOFS. The cascade's single steps of spec/44_anticollision.md section 2, where the CHIP's answer is known. -/

namespace Sys2Proof.Proofs

open Sys2Proof.Machine Sys2Proof.Laws

/-! ## The exchange of a step and the end of a step -/

section
variable {s t : State} {b : List Byte} {u : Nat} {line' : ChipLine}

/-- SEND_RECV inside the engine that the CHIP answers with data of an accepted length (R246). -/
theorem sendReceive_success {reply bytes : List Byte} (hp : s.params.wf = true) (hq : s.quietUntil u)
    (hl : b.length ≤ maxPayload) (ha : lenAccepted s.params.lenSendRecv reply.length = true)
    (h : ChipFrame s.params .detect (s.out.sent + 1) s.sendTime s.chip s.params.stData reply bytes u line') :
    ∃ t, (sendReceive b).run s = .ok (.frame s.params.stData reply) t ∧
      Exchanged s t .detect (frameBytes s.params s.params.opcSendRecv b) bytes u line' ∧
      t.mode.dev = s.mode.dev.afterSuccess ∧ t.txn.lastStatus = s.params.stData :=
  chipTxn_success (c := .sendRecv) (by decide) (Laws.ticks_pos hp .detect) (tIb_pos hp) hl h ha hq

/-- SEND_RECV inside the engine that the CHIP fails in whatever way (R246). -/
theorem sendReceive_fails {answer : Reception} {received : List Byte} {status : Byte} {v : Nat}
    (hp : s.params.wf = true) (hq : s.quietUntil u) (hl : b.length ≤ maxPayload)
    (h : ChipFails s.params .detect s.params.stData s.params.lenSendRecv (s.out.sent + 1) s.sendTime s.chip
      s.txn.lastStatus answer received status v u line') :
    (answer = .noResponse ∨ answer = .malformedFrame) ∧ ∃ t, (sendReceive b).run s = .ok answer t ∧
      ExchangedAt s t .detect (frameBytes s.params s.params.opcSendRecv b) received v u line' ∧
      t.mode.dev = s.mode.dev ∧ t.txn.lastStatus = status :=
  chipTxn_fails (c := .sendRecv) (by decide) (Laws.ticks_pos hp .detect) (tIb_pos hp) hl h hq

variable {p : Proc StepResult}

theorem runStep_failed (h : p.run s = .ok .failed t) :
    conclude (runStep p) s = .next (t.finish .anticollisionFailed []) :=
  conclude_ok (a := ⟨⟩) (by simp only [runStep, run_bind, h]; rfl)

theorem runStep_noTag (h : p.run s = .ok .noTag t) : conclude (runStep p) s = .next (t.finish .noTagDetected []) :=
  conclude_ok (a := ⟨⟩) (by simp only [runStep, run_bind, h]; rfl)

/-- A step that made the Tag ends the request with the Tag's reply (R134). -/
theorem runStep_tag {uid : List Byte} (h : p.run s = .ok .tag t) (hv : t.tag.valid = true)
    (hr : t.tag.uid.readRange 0 t.tag.len = some uid) :
    conclude (runStep p) s = .next (t.finish .ok (tagReply uid t.tag.atqa0 t.tag.atqa1 t.tag.sak)) := by
  refine conclude_ok (a := ⟨⟩) ?_
  simp only [runStep, run_bind, h, cascadeReply, tagData_ok hv hr]
  rfl

end

/-! ## REQA -/

/-- Settles O54: the ATQA's reply is the exchange's, and the step captures it. -/
theorem reqaCaptures : Obligations.ReqaCaptures := by
  unfold Obligations.ReqaCaptures
  intro s a0 a1 more bytes u line' hp hq hmore hacc h
  have hlen : (a0 :: a1 :: more).length = 2 + more.length := by simp only [List.length_cons]; omega
  obtain ⟨t, hrun, hx⟩ := sendReceive_success hp hq (reqaBytes_le s.params) (hlen ▸ hacc) h
  exact ⟨t, runStep_goOn (stepReqa_goOn hrun hmore), hx⟩

/-! ## ANTICOL -/

theorem bccOk_iff {p : Params} {c0 c1 c2 c3 b : Byte} :
    bccOk p c0 c1 c2 c3 b = true ↔ p.verifyBcc = false ∨ b = c0 ^^^ c1 ^^^ c2 ^^^ c3 := by
  simp [bccOk, bcc]

/-- Settles O55: one argument for the three levels. -/
theorem anticolCaptures : Obligations.AnticolCaptures := by
  unfold Obligations.AnticolCaptures
  intro s c0 c1 c2 c3 b more bytes u line' hp hq hmore hacc h anticol
  have hlen : (c0 :: c1 :: c2 :: c3 :: b :: more).length = 5 + more.length := by simp only [List.length_cons]; omega
  have key : ∀ i n, exec i s = conclude (runStep (stepAnticol n)) s → anticol i (s.params.sel n) := by
    intro i n hi
    obtain ⟨t, hrun, hx, hrest⟩ := sendReceive_success hp hq (anticolBytes_le s.params n) (hlen ▸ hacc) h
    have hac : t.ac.cand = s.ac.cand := by rw [hx.untouched.ac]
    refine ⟨t, t.ac.cand.writeRange 0 [c0, c1, c2, c3, b], hx, hrest.1, hrest.2, hac ▸ holds_writeRange _ _,
      fun hb => ?_, fun hv hb => ?_⟩
    · rw [hi, runStep_goOn (stepAnticol_goOn hrun hmore (bccOk_iff.mpr hb))]
    · have hbad : bccOk s.params c0 c1 c2 c3 b = false := by
        rw [← Bool.not_eq_true, bccOk_iff]
        simp [hv, hb]
      rw [hi, runStep_failed (stepAnticol_bcc hrun hmore hbad)]
  exact ⟨key _ .l1 rfl, key _ .l2 rfl, key _ .l3 rfl⟩

/-! ## SELECT -/

theorem cascadeBit_iff {p : Params} {k : Byte} : cascadeBit p k = true ↔ (k &&& p.sakCascadeMask) ≠ 0#8 := by
  simp [cascadeBit]

theorem markerBad_iff {p : Params} {c : Byte} : markerBad p c = true ↔ p.checkCt = true ∧ c ≠ p.ctByte := by
  simp [markerBad]

/-- The SAK's reply is the exchange's, and the step goes on to judge it (R320, R321). -/
theorem select_exchange {s : State} {n : Level} {c0 c1 c2 c3 b k : Byte} {more bytes : List Byte} {u : Nat}
    {line' : ChipLine} (hp : s.params.wf = true) (hq : s.quietUntil u)
    (hmore : more.length = s.params.sakCrcLen + s.params.rxTrailerLen)
    (hacc : lenAccepted s.params.lenSendRecv (1 + more.length) = true)
    (h : ChipFrame s.params .detect (s.out.sent + 1) s.sendTime s.chip s.params.stData (k :: more) bytes u line') :
    ∃ t, (stepSelect n c0 c1 c2 c3 b).run s =
        (if cascadeBit s.params k then cascaded n c0 c1 c2 c3 else completeUid c0 c1 c2 c3).run { t with ac.sak := k } ∧
      Exchanged s t .detect (frameBytes s.params s.params.opcSendRecv (selectBytes s.params n c0 c1 c2 c3 b)) bytes u
        line' ∧
      t.mode.dev = s.mode.dev.afterSuccess ∧ t.txn.lastStatus = s.params.stData := by
  have hlen : (k :: more).length = 1 + more.length := by rw [List.length_cons, Nat.add_comm]
  obtain ⟨t, hrun, hx⟩ := sendReceive_success hp hq (selectBytes_le s.params n c0 c1 c2 c3 b) (hlen ▸ hacc) h
  exact ⟨t, stepSelect_judged hrun hx.1.untouched.params hmore, hx⟩

/-- Settles O56: the judgement of a set cascade bit, by whether a level is left and the marker is good. -/
theorem selectCascades : Obligations.SelectCascades := by
  unfold Obligations.SelectCascades
  intro s c0 c1 c2 c3 b k more bytes u line' hp hq hmore huid hacc hbit h select
  have key : ∀ i n, exec i s = conclude (runStep (stepSelect n c0 c1 c2 c3 b)) s →
      select i (s.params.sel n) n.next := by
    intro i n hi
    obtain ⟨t, hrun, hx, hrest⟩ :=
      select_exchange (n := n) (c0 := c0) (c1 := c1) (c2 := c2) (c3 := c3) (b := b) hp hq hmore hacc h
    rw [if_pos (cascadeBit_iff.mpr hbit)] at hrun
    have hparams := hx.untouched.params
    have hac := hx.untouched.ac
    refine ⟨t, s.ac.uidBuf.writeRange s.ac.uidLen [c1, c2, c3], hx, hrest.1, hrest.2, fun j hj => ?_, fun a ha => ?_,
      fun m hm hmarker => ?_, fun hfail => ?_⟩
    · rw [read_writeRange, if_pos ⟨Nat.le_add_right _ _, Nat.add_lt_add_left hj _⟩, Nat.add_sub_cancel_left]
    · exact read_writeRange_outside _ _ ha
    · have hgood : markerBad t.params c0 = false := by
        rw [hparams, ← Bool.not_eq_true, markerBad_iff]
        rcases hmarker with hc | hc <;> simp [hc]
      rw [hi, runStep_goOn (hrun.trans (cascaded_goOn hgood hm (by rw [hac]; exact huid))), hac, hm]
    · have hbad : n.next = none ∨ markerBad t.params c0 = true := by rwa [hparams, markerBad_iff]
      rw [hi, runStep_failed (hrun.trans (cascaded_failed hbad))]
  exact ⟨key _ .l1 rfl, key _ .l2 rfl, key _ .l3 rfl⟩

/-- Bytes appended after the first ones stand in the buffer with them. -/
theorem holds_append {m : Memory} {done : List Byte} {n : Nat} (h : m.readRange 0 n = some done) (bytes : List Byte) :
    Memory.Holds m (m.writeRange n bytes) (done ++ bytes) := by
  obtain ⟨hlen, hread⟩ := readRange_eq_some.mp h
  subst hlen
  refine ⟨fun k hk => ?_, fun k hk => ?_⟩
  · rw [read_writeRange]
    by_cases hlt : k < done.length
    · rw [if_neg (by omega), List.getElem?_append_left hlt, ← hread k hlt, Nat.zero_add]
    · rw [List.length_append] at hk
      rw [if_pos (by omega), List.getElem?_append_right (by omega)]
  · rw [List.length_append] at hk
    exact read_writeRange_outside _ _ (.inr hk)

/-- Settles O57: the judgement of a clear cascade bit makes the Tag, whose reply ends the request. -/
theorem selectCompletes : Obligations.SelectCompletes := by
  unfold Obligations.SelectCompletes
  intro s c0 c1 c2 c3 b k done more bytes u line' hp hq hmore huid hdone hacc hbit h uid select
  have hlen : uid.length = s.ac.uidLen + 4 := by
    rw [List.length_append, (readRange_eq_some.mp hdone).1]
    rfl
  have key : ∀ i n, exec i s = conclude (runStep (stepSelect n c0 c1 c2 c3 b)) s → select i (s.params.sel n) := by
    intro i n hi
    obtain ⟨t, hrun, hx, hrest⟩ :=
      select_exchange (n := n) (c0 := c0) (c1 := c1) (c2 := c2) (c3 := c3) (b := b) hp hq hmore hacc h
    have hclear : ¬ cascadeBit s.params k = true := by rw [cascadeBit_iff]; simpa using hbit
    have hac := hx.untouched.ac
    have htag := hx.untouched.tag
    rw [if_neg hclear, completeUid_ok (by rw [hac]; exact huid) (by rw [hac]; exact hdone)] at hrun
    refine ⟨t, s.ac.uidBuf.writeRange s.ac.uidLen [c0, c1, c2, c3], s.tag.uid.writeRange 0 uid, ?_, hx, hrest.1,
      hrest.2, holds_append hdone _, holds_writeRange _ _⟩
    rw [hi, runStep_tag (uid := uid) hrun rfl]
    · simp only [hac, htag, tagReply, hlen]
      rfl
    · simp only [hac, ← hlen]
      exact readRange_writeRange _ _ _
  exact ⟨key _ .l1 rfl, key _ .l2 rfl, key _ .l3 rfl⟩

/-! ## A step that fails -/

/-- An air row by its step: the bytes it sends, the length its reply must have, and how it ends without one. -/
structure AirRow (i : Instr) (s : State) (step : Proc StepResult) (sent : List Byte) (len : Nat) : Prop where
  row : exec i s = conclude (runStep step) s
  bytes : encode s.params i = sent
  short : sent.length ≤ maxPayload
  failed : ∀ {t : State} {r : Reception}, (sendReceive sent).run s = .ok r t → t.params = s.params →
    (i = .reqa → r ≠ .noResponse) → (∀ st reply, r = .frame st reply → reply.length ≠ len) →
    step.run s = .ok .failed { t with ac.step := .done }

section
variable {s : State} {n : Level}

theorem airRow_reqa (s : State) : AirRow .reqa s stepReqa (reqaBytes s.params) (reqaReplyLen s.params) where
  row := rfl
  bytes := rfl
  short := reqaBytes_le s.params
  failed := fun hr _ hn hl => stepReqa_failed hr (hn rfl) hl

theorem airRow_anticol {i : Instr} (hi : exec i s = conclude (runStep (stepAnticol n)) s)
    (hb : encode s.params i = anticolBytes s.params n) :
    AirRow i s (stepAnticol n) (anticolBytes s.params n) (anticolReplyLen s.params) where
  row := hi
  bytes := hb
  short := anticolBytes_le s.params n
  failed := fun hr _ _ hl => stepAnticol_failed hr hl

theorem airRow_select {i : Instr} {c0 c1 c2 c3 b : Byte}
    (hi : exec i s = conclude (runStep (stepSelect n c0 c1 c2 c3 b)) s)
    (hb : encode s.params i = selectBytes s.params n c0 c1 c2 c3 b) :
    AirRow i s (stepSelect n c0 c1 c2 c3 b) (selectBytes s.params n c0 c1 c2 c3 b) (selectReplyLen s.params) where
  row := hi
  bytes := hb
  short := selectBytes_le s.params n c0 c1 c2 c3 b
  failed := fun hr hp _ hl => stepSelect_failed hr hp hl

end

/-- The length of the reply a step waits for (R313, R316, R320). -/
def airReplyLen (p : Params) : Instr → Nat
  | .reqa => 2 + p.rxTrailerLen
  | .anticolL1 | .anticolL2 | .anticolL3 => 5 + p.rxTrailerLen
  | _ => 1 + p.sakCrcLen + p.rxTrailerLen

theorem airRow_of_air {i : Instr} (s : State) (hi : i.space = .air) :
    ∃ step, AirRow i s step (encode s.params i) (airReplyLen s.params i) ∧ (i = .reqa → step = stepReqa) := by
  cases i <;> cases hi
  case reqa => exact ⟨_, airRow_reqa s, fun _ => rfl⟩
  case anticolL1 => exact ⟨_, airRow_anticol rfl rfl, nofun⟩
  case anticolL2 => exact ⟨_, airRow_anticol rfl rfl, nofun⟩
  case anticolL3 => exact ⟨_, airRow_anticol rfl rfl, nofun⟩
  case selectL1 => exact ⟨_, airRow_select rfl rfl, nofun⟩
  case selectL2 => exact ⟨_, airRow_select rfl rfl, nofun⟩
  case selectL3 => exact ⟨_, airRow_select rfl rfl, nofun⟩

/-- Settles O58: a step without its reply ends the cascade, REQA alone telling silence apart. -/
theorem cascadeStepFails : Obligations.CascadeStepFails := by
  unfold Obligations.CascadeStepFails
  intro s i u line' hp hq hi sent
  obtain ⟨step, hrow, hreqa⟩ := airRow_of_air s hi
  refine ⟨fun answer received status v h => ?_, fun reply bytes hacc hlen h => ?_⟩
  · obtain ⟨hanswer, t, hrun, hx⟩ := sendReceive_fails hp hq hrow.short h
    refine ⟨t, ?_, hx⟩
    rw [hrow.row]
    by_cases hsilent : i = .reqa ∧ answer = .noResponse
    · obtain ⟨rfl, rfl⟩ := hsilent
      rw [hreqa rfl, if_pos ⟨rfl, rfl⟩]
      exact runStep_noTag (stepReqa_silent hrun)
    · rw [if_neg hsilent]
      refine runStep_failed (hrow.failed hrun hx.1.untouched.params (fun h1 h2 => hsilent ⟨h1, h2⟩) ?_)
      rintro st reply rfl
      rcases hanswer with h | h <;> cases h
  · obtain ⟨t, hrun, hx⟩ := sendReceive_success hp hq hrow.short hacc h
    refine ⟨t, ?_, hx⟩
    rw [hrow.row]
    refine runStep_failed (hrow.failed hrun hx.1.untouched.params (fun _ => nofun) fun st reply' he => ?_)
    obtain ⟨-, rfl⟩ := Reception.frame.inj he
    cases i <;> cases hi <;> exact hlen

end Sys2Proof.Proofs
end

section
/-! PROOFS. The echo probe where the CHIP's answers are known (spec/42_command_engine.md section 3, R248), and the
requests that are a probe. -/

namespace Sys2Proof.Proofs

open Sys2Proof.Machine Sys2Proof.Laws

/-- The probe's attempts begin with the count at 0 (R248). -/
theorem echoProbe_eq (s : State) :
    echoProbe.run s = (echoLoop s.params.echoAttempts).run { s with txn.echoTry := 0 } := rfl

/-- What an echo probe leaves after k attempts, alive or not: the registers no exchange writes with the count, the
echo byte sent, and every event on the transport. -/
structure Probed (s t : State) (k u : Nat) (line' : ChipLine) (events : List LineEvent) : Prop where
  untouched : { s with txn.echoTry := k }.Untouched t
  resume : t.mode.resume = s.mode.dev
  now : t.now = u
  chip : t.chip = line'
  sent : t.out.sent = s.out.sent + k
  record : t.out.line = s.out.line ++ events
  settled : t.txn.settlePending = false
  phase : t.txn.phase = .none
  last : t.txn.tLast = s.txn.tLast
  txLen : t.txn.txLen = 1
  tx : Memory.Holds s.txn.txBuf t.txn.txBuf [s.params.opcEcho]
  rx : ∀ a, 1 ≤ a → t.txn.rxBuf.read a = s.txn.rxBuf.read a

/-- A buffer with this byte at 0 and the rest as it was. -/
theorem holds_singleton {m m' : Memory} {b : Byte} (h0 : m'.read 0 = some b)
    (h : ∀ a, 1 ≤ a → m'.read a = m.read a) : Memory.Holds m m' [b] := by
  refine ⟨fun k hk => ?_, h⟩
  obtain rfl : k = 0 := by simpa using hk
  exact h0

section
variable {s : State} {k v u : Nat} {mid line' : ChipLine} {events : List LineEvent}

/-- The CHIP fails k attempts and then is alive (R243, R248). -/
theorem echoProbe_alive (hT : 0 < s.params.tEcho) (hq : s.quietUntil u) (hk : k < s.params.echoAttempts)
    (hfails : EchoFails s.params k s.out.sent s.sendTime s.chip v mid events)
    (halive : ChipAnswers s.params .echo (s.out.sent + k + 1) v mid [s.params.echoByte] u line') :
    ∃ t, echoProbe.run s = .ok true t ∧
      Probed s t (k + 1) u line'
        (events ++ exchangeEvents s.params v [s.params.opcEcho] [s.params.echoByte] u) ∧
      t.mode.dev = s.mode.dev.afterSuccess ∧ t.txn.lastStatus = s.params.echoByte ∧ t.txn.rxCount = 1 ∧
      t.txn.rxBuf.read 0 = some s.params.echoByte := by
  obtain ⟨m, hm⟩ := Nat.exists_eq_add_of_lt hk
  have hv : v ≤ u := le_of_delivers halive
  obtain ⟨a, hrun, ha⟩ := echoLoop_fails (m + 1) (s := { s with txn.echoTry := 0 }) hT hfails (quietUntil_mono hq hv)
  have hparams : a.params = s.params := ha.untouched.params
  have hnext : ({ a with txn.echoTry := a.txn.echoTry + 1 } : State).sendTime = v := ha.send
  have hqa : ({ a with txn.echoTry := a.txn.echoTry + 1 } : State).quietUntil u := by
    have henv : a.env = s.env := ha.untouched.env
    simpa only [State.quietUntil, henv] using hq
  obtain ⟨t, htry, hx, hdev, hstatus⟩ := echoAttempt_alive (s := { a with txn.echoTry := a.txn.echoTry + 1 })
    (by rw [hparams]; exact hT) (by rw [hnext, hparams, ha.chip, ha.sent]; exact halive) hqa
  have hunt := hx.untouched
  have hunta := ha.untouched
  refine ⟨t, ?run, ⟨?untouched, ?resume, hx.now, hx.chip, ?sent, ?record, hx.settled, hx.phase, ?last, hx.txLen, ?tx,
    ?rx⟩, ?dev, ?status, hx.rxCount, ?rx0⟩
  case run =>
    rw [echoProbe_eq, hm, show k + m + 1 = k + (m + 1) from rfl, hrun]
    simp only [echoLoop, run_bind, run_modify, htry, if_true, run_pure]
  case untouched =>
    have htries : a.txn.echoTry = 0 + k := hunta.tries
    exact {
      params := hunt.params.trans hunta.params
      host := hunt.host.trans hunta.host
      cfg := hunt.cfg.trans hunta.cfg
      ac := hunt.ac.trans hunta.ac
      tag := hunt.tag.trans hunta.tag
      tries := by rw [hunt.tries]; dsimp only; omega
      env := hunt.env.trans hunta.env
      call := hunt.call.trans hunta.call
      replies := hunt.replies.trans hunta.replies }
  case resume => exact hx.resume.trans ha.dev
  case sent => rw [hx.count]; exact congrArg (· + 1) ha.sent
  case record =>
    rw [hx.record, hnext]
    dsimp only
    rw [hparams, ha.record, List.append_assoc]
  case last =>
    have hstamp := hx.stamp
    simp only [State.stampAfter, ne_eq, not_true_eq_false, false_and, and_false, if_false] at hstamp
    exact hstamp.trans ha.last
  case tx =>
    refine holds_singleton (by rw [hx.tx.1 0 (by simp)]; dsimp only; rw [hparams]; rfl) fun j hj => ?_
    exact (hx.tx.2 j hj).trans (ha.tx j hj)
  case rx => exact fun j hj => (hx.rx.2 j hj).trans (ha.rx j hj)
  case dev => rw [hdev]; exact congrArg DevState.afterSuccess ha.dev
  case status => rw [hstatus]; exact congrArg Params.echoByte hparams
  case rx0 => rw [hx.rx.1 0 (by simp)]; dsimp only; rw [hparams]; rfl

/-- The CHIP fails every attempt (R248). -/
theorem echoProbe_dead (hp : s.params.wf = true) (hq : s.quietUntil u)
    (hfails : EchoFails s.params s.params.echoAttempts s.out.sent s.sendTime s.chip u line' events) :
    ∃ t, echoProbe.run s = .ok false t ∧ Probed s t s.params.echoAttempts u line' events ∧ t.mode.dev = .error := by
  obtain ⟨a, hrun, ha⟩ := echoLoop_fails 0 (s := { s with txn.echoTry := 0 }) (Laws.ticks_pos hp .echo) hfails hq
  obtain ⟨hnow, hsettled, hphase, htx, htxLen, hresume⟩ := ha.some (attempts_pos hp)
  have hunta := ha.untouched
  refine ⟨{ a with mode.dev := .error }, ?_, ⟨?_, hresume, hnow, ha.chip, ha.sent, ha.record, hsettled, hphase,
    ha.last, htxLen, holds_singleton htx ha.tx, ha.rx⟩, rfl⟩
  · rw [echoProbe_eq]
    exact hrun
  · exact {
      params := hunta.params
      host := hunta.host
      cfg := hunta.cfg
      ac := hunta.ac
      tag := hunta.tag
      tries := hunta.tries.trans (Nat.zero_add _)
      env := hunta.env
      call := hunta.call
      replies := hunta.replies }

end

/-! ## ECHO_TEST -/

theorem echoTest_of {s t : State} {alive : Bool} (h : echoProbe.run s = .ok alive t) :
    echoTest.run s = .ok ⟨⟩ (t.finish (if alive then .ok else .deviceFault) []) := by
  unfold echoTest
  simp only [run_bind, h]
  cases alive <;> rfl

/-- Settles O40: the request is the probe, its answer the reply. -/
theorem echoTestReplies : Obligations.EchoTestReplies := by
  unfold Obligations.EchoTestReplies
  intro s k v u mid line' events hp hq hd
  have hrun : exec (.echoTest []) s = conclude echoTest s := request_runs_anywhere (payloadOk_nil rfl) (.inl rfl) hd
  rw [hrun]
  refine ⟨fun hk hfails halive => ?_, fun hfails => ?_⟩
  · obtain ⟨t, hprobe, h, hdev, hstatus, hcount, hrx⟩ :=
      echoProbe_alive (Laws.ticks_pos hp .echo) hq hk hfails halive
    exact ⟨t, conclude_ok (echoTest_of hprobe), h.untouched, hdev, h.resume, h.now, h.chip, h.sent,
      by rw [h.record, List.append_assoc], h.settled, h.phase, hstatus, h.last, h.txLen, hcount, h.tx,
      holds_singleton hrx h.rx⟩
  · obtain ⟨t, hprobe, h, hdev⟩ := echoProbe_dead hp hq hfails
    exact ⟨t, conclude_ok (echoTest_of hprobe), h.untouched, hdev, h.resume, h.now, h.chip, h.sent, h.record,
      h.settled, h.phase, h.last, h.txLen, h.tx, h.rx⟩

/-! ## SELECT_PROTOCOL of the configuration in force -/

theorem applyConfig_probe {cfg : ProtoCfg} {s t : State} {alive : Bool} (hpid : cfg.pid ≠ .fieldOff)
    (hc : s.configured cfg = true) (h : echoProbe.run s = .ok alive t) :
    (applyConfig cfg).run s = .ok (if alive then .ok else .deviceFault) t := by
  rw [applyConfig_configured hpid hc]
  simp only [run_bind, h]
  cases alive <;> rfl

/-- Settles O44: the selection in force is the probe, its answer the reply. -/
theorem selectProtocolInForce : Obligations.SelectProtocolInForce := by
  unfold Obligations.SelectProtocolInForce
  intro s pid tx rx k v u mid line' events hp hq hd hcfg hpid
  have hc : s.configured s.mode.cfg = true := configured_iff.mpr ⟨hd, rfl⟩
  rw [exec_selectProtocol hcfg (.inr (.inr hd))]
  refine ⟨fun hk hfails halive => ?_, fun hfails => ?_⟩
  · obtain ⟨t, hprobe, h, hdev, hstatus, hcount, hrx⟩ :=
      echoProbe_alive (Laws.ticks_pos hp .echo) hq hk hfails halive
    exact ⟨t, conclude_ok (reply_code (applyConfig_probe hpid hc hprobe)), h.untouched, by rw [hdev, hd]; rfl,
      h.resume.trans hd, h.now, h.chip, h.sent, by rw [h.record, List.append_assoc], h.settled, h.phase, hstatus,
      h.last, h.txLen, hcount, h.tx, holds_singleton hrx h.rx⟩
  · obtain ⟨t, hprobe, h, hdev⟩ := echoProbe_dead hp hq hfails
    exact ⟨t, conclude_ok (reply_code (applyConfig_probe hpid hc hprobe)), h.untouched, hdev, h.resume.trans hd, h.now,
      h.chip, h.sent, h.record, h.settled, h.phase, h.last, h.txLen, h.tx, h.rx⟩

end Sys2Proof.Proofs
end

section
/-! PROOFS. A cascade that the CHIP answers to its Tag (spec/44_anticollision.md), and the requests that run it
(R364, R369). -/

namespace Sys2Proof.Proofs

open Sys2Proof.Machine Sys2Proof.Laws

/-! ## What a chain of air exchanges leaves -/

/-- What air exchanges with the field on leave, the last over at u after m transmissions: nothing of the other
registers but the cascade's and the Tag's, the events on the transport, and the frame buffers as they were beyond the
longest command and the longest reply. -/
structure Chained (s t : State) (m u : Nat) (line' : ChipLine) (events : List LineEvent) : Prop where
  params : t.params = s.params
  host : t.host = s.host
  cfg : t.mode.cfg = s.mode.cfg
  tries : t.txn.echoTry = s.txn.echoTry
  env : t.env = s.env
  call : t.out.callResult = s.out.callResult
  replies : t.out.replies = s.out.replies
  dev : t.mode.dev = .fieldOn
  resume : t.mode.resume = .fieldOn
  now : t.now = u
  chip : t.chip = line'
  sent : t.out.sent = m
  record : t.out.line = s.out.line ++ events
  settled : t.txn.settlePending = false
  phase : t.txn.phase = .none
  status : t.txn.lastStatus = s.params.stData
  last : s.params.transport = .spi → t.txn.tLast = s.txn.tLast
  tx : ∀ a, 10 + s.params.frameTrailerLen ≤ a → t.txn.txBuf.read a = s.txn.txBuf.read a
  rx : ∀ a, 2 + max 5 (1 + s.params.sakCrcLen) + s.params.rxTrailerLen + s.params.frameTrailerLen ≤ a →
    t.txn.rxBuf.read a = s.txn.rxBuf.read a

section
variable {s t r : State} {m m' u u' v w : Nat} {line' mid far : ChipLine} {events later : List LineEvent}

/-- No exchange's part of the state is the cascade's or the Tag's. -/
theorem Chained.of_cascade (h : Chained s t m u line' events) (a : CascadeRegs) (g : TagReg) :
    Chained s { t with ac := a, tag := g } m u line' events :=
  { h with }

theorem Chained.trans (h : Chained s t m v mid events) (k : Chained t r m' u line' later) :
    Chained s r m' u line' (events ++ later) where
  params := k.params.trans h.params
  host := k.host.trans h.host
  cfg := k.cfg.trans h.cfg
  tries := k.tries.trans h.tries
  env := k.env.trans h.env
  call := k.call.trans h.call
  replies := k.replies.trans h.replies
  dev := k.dev
  resume := k.resume
  now := k.now
  chip := k.chip
  sent := k.sent
  record := by rw [k.record, h.record, List.append_assoc]
  settled := k.settled
  phase := k.phase
  status := by rw [k.status, h.params]
  last := fun hs => (k.last (h.params.symm ▸ hs)).trans (h.last hs)
  tx := fun a ha => (k.tx a (h.params.symm ▸ ha)).trans (h.tx a ha)
  rx := fun a ha => (k.rx a (h.params.symm ▸ ha)).trans (h.rx a ha)

theorem Chained.sendTime (h : Chained s t m u line' events) : t.sendTime = u := by
  rw [sendTime_settled h.settled, h.now]

theorem quiet_of_env (h : t.env = s.env) (hq : s.quietUntil u) : t.quietUntil u := by
  simpa only [State.quietUntil, h] using hq

theorem Chained.quiet (h : Chained s t m v mid events) (hq : s.quietUntil u) : t.quietUntil u :=
  quiet_of_env h.env hq

/-- A frame's bytes are its header, its payload and its trailer (R112). -/
theorem chipFrame_length {p : Params} {kind : DeadlineKind} {n time : Nat} {line : ChipLine} {status : Byte}
    {reply bytes : List Byte} (h : ChipFrame p kind n time line status reply bytes u line') :
    bytes.length = 2 + reply.length + p.frameTrailerLen := by
  obtain ⟨-, ⟨trailer, htrailer, rfl⟩, -⟩ := h
  simp only [responseBytes, List.length_cons, List.length_append, htrailer]
  omega

/-- An air command that the CHIP answers with a reply no longer than the cascade's longest (R127, R246). -/
theorem air_exchange {command reply : List Byte} (hp : s.params.wf = true) (hon : s.mode.dev = .fieldOn)
    (hq : s.quietUntil v) (hshort : command.length ≤ 8)
    (hreply : reply.length ≤ max 5 (1 + s.params.sakCrcLen) + s.params.rxTrailerLen)
    (h : AirAnswers s.params s.out.sent s.sendTime s.chip command reply v mid events) :
    ∃ t, (sendReceive command).run s = .ok (.frame s.params.stData reply) t ∧
      Chained s t (s.out.sent + 1) v mid events ∧ t.ac = s.ac ∧ t.tag = s.tag := by
  obtain ⟨hacc, bytes, hframe, rfl⟩ := h
  obtain ⟨t, hrun, hx, hdev, hstatus⟩ :=
    sendReceive_success hp hq (hshort.trans (by decide : 8 ≤ maxPayload)) hacc hframe
  have hcount := chipFrame_length hframe
  have hunt := hx.untouched
  refine ⟨t, hrun, ⟨hunt.params, hunt.host, hunt.cfg, hunt.tries, hunt.env, hunt.call, hunt.replies, ?_, ?_, hx.now,
    hx.chip, hx.count, hx.record, hx.settled, hx.phase, hstatus, fun hspi => ?_, fun a ha => ?_, fun a ha => ?_⟩,
    hunt.ac, hunt.tag⟩
  · rw [hdev, hon]
    rfl
  · rw [hx.resume, hon]
  · rw [hx.stamp, State.stampAfter, if_neg (by simp [hspi])]
  · exact hx.tx.2 a (by rw [frameBytes_length]; omega)
  · exact hx.rx.2 a (by omega)

end

/-! ## Answers take time forward -/

theorem airAnswers_le {p : Params} {n t v : Nat} {line mid : ChipLine} {command reply : List Byte}
    {events : List LineEvent} (h : AirAnswers p n t line command reply v mid events) : t ≤ v := by
  obtain ⟨-, bytes, ⟨-, -, hdelivers⟩, -⟩ := h
  exact le_of_delivers hdelivers

theorem levelsAnswer_le {p : Params} {levels : List Level} {n t m u : Nat} {line line' : ChipLine} {uid : List Byte}
    {sak : Byte} {events : List LineEvent} (h : LevelsAnswer p levels n t line uid sak m u line' events) : t ≤ u := by
  induction levels generalizing n t line uid events with
  | nil => exact h.elim
  | cons l rest ih =>
    obtain ⟨c0, c1, c2, c3, b, more, v, mid, k, more', w, far, e1, e2, h1, -, -, h2, -, hsak⟩ := h
    have hv := airAnswers_le h1
    have hw := airAnswers_le h2
    split at hsak
    · obtain ⟨-, uid', later, -, hlater, -⟩ := hsak
      have := ih hlater
      omega
    · obtain ⟨-, -, -, rfl, -⟩ := hsak
      omega

theorem cascadeAnswers_le {p : Params} {n t m u : Nat} {line line' : ChipLine} {a0 a1 sak : Byte} {uid : List Byte}
    {events : List LineEvent} (h : CascadeAnswers p n t line a0 a1 uid sak m u line' events) : t ≤ u := by
  obtain ⟨more, v, mid, first, later, hreqa, -, hlevels, -⟩ := h
  exact (airAnswers_le hreqa).trans (levelsAnswer_le hlevels)

/-! ## One level -/

/-- A cascade that has made its Tag at level k: the Tag and the cascade's registers hold the UID, the SAK and the ATQA
that stood there (R323, R326). -/
structure Resolved (s t : State) (k : Level) (uid : List Byte) (sak : Byte) : Prop where
  ac : t.ac = { t.ac with
    step := .done, level := some k, uidLen := uid.length, atqa0 := s.ac.atqa0, atqa1 := s.ac.atqa1
    sizeClass := s.ac.sizeClass, sak := sak, ctPresent := false, complete := true }
  buf : Memory.Holds s.ac.uidBuf t.ac.uidBuf uid
  tag : t.tag = { valid := true, uid := t.tag.uid, len := uid.length, atqa0 := s.ac.atqa0, atqa1 := s.ac.atqa1
                  sak := sak }
  tagBuf : Memory.Holds s.tag.uid t.tag.uid uid

/-- The registers between two levels: at level n, these UID bytes so far (R322). -/
structure AtLevel (s : State) (n : Level) (done : List Byte) : Prop where
  level : s.ac.level = some n
  len : s.ac.uidLen = done.length
  buf : s.ac.uidBuf.readRange 0 s.ac.uidLen = some done
  count : done.length = 3 * (n.num - 1)

theorem level_next_num {n m : Level} (h : n.next = some m) : m.num = n.num + 1 := by
  cases n <;> cases h <;> rfl

theorem level_num_pos (n : Level) : 1 ≤ n.num ∧ n.num ≤ 3 := by
  cases n <;> decide

section
variable {s t : State} {n : Level} {done uid : List Byte} {c0 c1 c2 c3 k : Byte}

/-- SELECT with the cascade bit clear, at its level (R323, R326). -/
theorem completeUid_resolved (h : AtLevel s n done) :
    ∃ a g, (completeUid c0 c1 c2 c3).run { s with ac.sak := k } = .ok .tag { s with ac := a, tag := g } ∧
      Resolved s { s with ac := a, tag := g } n (done ++ [c0, c1, c2, c3]) k := by
  have hnum := level_num_pos n
  have hlen : s.ac.uidLen + 4 = (done ++ [c0, c1, c2, c3]).length := by
    rw [List.length_append, h.len]
    rfl
  have hsix : s.ac.uidLen ≤ 6 := by
    rw [h.len, h.count]
    omega
  have hrun := completeUid_ok (s := { s with ac.sak := k }) (c0 := c0) (c1 := c1) (c2 := c2) (c3 := c3) hsix h.buf
  refine ⟨_, _, hrun, ?_, holds_append h.buf _, ?_, holds_writeRange _ _⟩
  · dsimp only
    rw [hlen, h.level]
  · dsimp only
    rw [hlen]

/-- SELECT with the cascade bit set, at its level: the next level with three bytes more (R322). -/
theorem cascaded_atLevel {m : Level} (h : AtLevel s n done) (hm : markerBad s.params c0 = false)
    (hn : n.next = some m) :
    ∃ a, (cascaded n c0 c1 c2 c3).run { s with ac.sak := k } = .ok .goOn { s with ac := a } ∧
      AtLevel { s with ac := a } m (done ++ [c1, c2, c3]) ∧ a.atqa0 = s.ac.atqa0 ∧ a.atqa1 = s.ac.atqa1 ∧
      a.sizeClass = s.ac.sizeClass ∧ Memory.Holds s.ac.uidBuf a.uidBuf (done ++ [c1, c2, c3]) := by
  have hnum := level_num_pos n
  have hnext := level_next_num hn
  have hnext3 := level_num_pos m
  have hlen : (done ++ [c1, c2, c3]).length = s.ac.uidLen + 3 := by
    rw [List.length_append, h.len]
    rfl
  have hholds := holds_append h.buf [c1, c2, c3]
  have hcount := h.count
  have hseven : s.ac.uidLen ≤ 7 := by
    rw [h.len, hcount]
    omega
  have hrun := cascaded_goOn (s := { s with ac.sak := k }) (c0 := c0) (c1 := c1) (c2 := c2) (c3 := c3) hm hn hseven
  refine ⟨_, hrun, ⟨rfl, hlen.symm, ?_, ?_⟩, rfl, rfl, rfl, hholds⟩
  · refine readRange_eq_some.mpr ⟨hlen, fun j hj => ?_⟩
    rw [Nat.zero_add]
    exact hholds.1 j (by rw [hlen]; exact hj)
  · rw [hlen, h.len, hcount, hnext]
    omega

/-- A Tag made from a later state of the cascade is one made from this state. -/
theorem Resolved.from {r : State} {l : Level} {sak : Byte} {done : List Byte} (h : Resolved t r l (done ++ uid) sak)
    (h0 : t.ac.atqa0 = s.ac.atqa0) (h1 : t.ac.atqa1 = s.ac.atqa1) (hc : t.ac.sizeClass = s.ac.sizeClass)
    (hbuf : Memory.Holds s.ac.uidBuf t.ac.uidBuf done) (htag : t.tag.uid = s.tag.uid) :
    Resolved s r l (done ++ uid) sak where
  ac := by rw [← h0, ← h1, ← hc]; exact h.ac
  buf := ⟨h.buf.1, fun a ha => (h.buf.2 a ha).trans (hbuf.2 a (by rw [List.length_append] at ha; omega))⟩
  tag := by rw [← h0, ← h1]; exact h.tag
  tagBuf := htag ▸ h.tagBuf

end

/-- ANTICOL answered: the candidate bytes with a good BCC stand in cand (R316 to R318). -/
theorem anticol_answered {s : State} {n : Level} {c0 c1 c2 c3 b : Byte} {more : List Byte} {v : Nat} {mid : ChipLine}
    {events : List LineEvent} (hp : s.params.wf = true) (hon : s.mode.dev = .fieldOn) (hq : s.quietUntil v)
    (h : AirAnswers s.params s.out.sent s.sendTime s.chip [s.params.sel n, s.params.nvbAnticol, s.params.txfAnticol]
      (c0 :: c1 :: c2 :: c3 :: b :: more) v mid events)
    (hmore : more.length = s.params.rxTrailerLen) (hb : bccOk s.params c0 c1 c2 c3 b = true) :
    ∃ t, (stepAnticol n).run s = .ok .goOn t ∧ Chained s t (s.out.sent + 1) v mid events ∧
      t.ac = { s.ac with cand := s.ac.cand.writeRange 0 [c0, c1, c2, c3, b], step := .select } ∧ t.tag = s.tag := by
  obtain ⟨a, hrun, hchain, hac, htag⟩ := air_exchange hp hon hq (by simp) (by simp only [List.length_cons]; omega) h
  refine ⟨_, stepAnticol_goOn (n := n) hrun hmore hb, hchain.of_cascade _ _, ?_, htag⟩
  rw [hac]

/-- SELECT answered: its SAK goes to judgement (R320, R321). -/
theorem select_answered {s : State} {n : Level} {c0 c1 c2 c3 b k : Byte} {more : List Byte} {v : Nat} {mid : ChipLine}
    {events : List LineEvent} (hp : s.params.wf = true) (hon : s.mode.dev = .fieldOn) (hq : s.quietUntil v)
    (h : AirAnswers s.params s.out.sent s.sendTime s.chip
      [s.params.sel n, s.params.nvbSelect, c0, c1, c2, c3, b, s.params.txfSelect] (k :: more) v mid events)
    (hmore : more.length = s.params.sakCrcLen + s.params.rxTrailerLen) :
    ∃ t, (stepSelect n c0 c1 c2 c3 b).run s =
        (if cascadeBit s.params k then cascaded n c0 c1 c2 c3 else completeUid c0 c1 c2 c3).run { t with ac.sak := k } ∧
      Chained s t (s.out.sent + 1) v mid events ∧ t.ac = s.ac ∧ t.tag = s.tag := by
  obtain ⟨a, hrun, hchain, hac, htag⟩ := air_exchange hp hon hq (by simp) (by simp only [List.length_cons]; omega) h
  exact ⟨a, stepSelect_judged hrun hchain.params hmore, hchain, hac, htag⟩

/-- What a level's result leads to (R310). -/
def afterLevel (rest : List Level) : StepResult → Proc StepResult
  | .goOn => cascadeLevels rest
  | r => return r

/-- Once ANTICOL goes on, a level is SELECT and what it leads to. -/
theorem cascadeLevels_of_anticol {s a : State} {n : Level} (h : (stepAnticol n).run s = .ok .goOn a)
    (rest : List Level) : (cascadeLevels (n :: rest)).run s = (stepSelectCand n >>= afterLevel rest).run a := by
  simp only [cascadeLevels, run_bind, h]
  rfl

/-- ANTICOL and SELECT of one level, answered: SELECT's judgement from the state they leave (R316 to R321). -/
theorem level_answered {s : State} {n : Level} {done : List Byte} {c0 c1 c2 c3 b k : Byte}
    {more more' : List Byte} {v w : Nat} {mid far : ChipLine} {e1 e2 : List LineEvent} (hp : s.params.wf = true)
    (hon : s.mode.dev = .fieldOn) (hq : s.quietUntil w) (hs : AtLevel s n done)
    (h1 : AirAnswers s.params s.out.sent s.sendTime s.chip [s.params.sel n, s.params.nvbAnticol, s.params.txfAnticol]
      (c0 :: c1 :: c2 :: c3 :: b :: more) v mid e1)
    (hmore : more.length = s.params.rxTrailerLen) (hb : bccOk s.params c0 c1 c2 c3 b = true)
    (h2 : AirAnswers s.params (s.out.sent + 1) v mid
      [s.params.sel n, s.params.nvbSelect, c0, c1, c2, c3, b, s.params.txfSelect] (k :: more') w far e2)
    (hmore' : more'.length = s.params.sakCrcLen + s.params.rxTrailerLen) (rest : List Level) :
    ∃ t, (cascadeLevels (n :: rest)).run s = 
        ((if cascadeBit s.params k then cascaded n c0 c1 c2 c3 else completeUid c0 c1 c2 c3) >>= afterLevel rest).run
          { t with ac.sak := k } ∧
      Chained s t (s.out.sent + 2) w far (e1 ++ e2) ∧ AtLevel t n done ∧ t.ac.atqa0 = s.ac.atqa0 ∧
      t.ac.atqa1 = s.ac.atqa1 ∧ t.ac.sizeClass = s.ac.sizeClass ∧ t.ac.uidBuf = s.ac.uidBuf ∧ t.tag = s.tag := by
  obtain ⟨a, hanticol, hchain, haca, htaga⟩ :=
    anticol_answered hp hon (quietUntil_mono hq (airAnswers_le h2)) h1 hmore hb
  have hcand : a.ac.cand.readRange 0 5 = some [c0, c1, c2, c3, b] := by
    rw [haca]
    exact readRange_writeRange _ _ _
  obtain ⟨t, hselect, hchain2, hact, htagt⟩ := select_answered (n := n) (s := a) (by rw [hchain.params]; exact hp)
    hchain.dev (hchain.quiet hq) (by rw [hchain.params, hchain.sent, hchain.sendTime, hchain.chip]; exact h2)
    (by rw [hchain.params]; exact hmore')
  have hac := hact.trans haca
  have hboth := hchain.trans hchain2
  rw [hchain.sent] at hboth
  refine ⟨t, ?_, hboth, ⟨?_, ?_, ?_, hs.count⟩, ?_, ?_, ?_, ?_, htagt.trans htaga⟩
  · rw [cascadeLevels_of_anticol hanticol, run_bind, run_bind, stepSelectCand_ok hcand, hselect, hchain.params]
  · rw [hac]; exact hs.level
  · rw [hac]; exact hs.len
  · rw [hac]; exact hs.buf
  all_goals rw [hac]

/-! ## The levels -/

/-- The levels left at a level (R310). -/
def levelsFrom : Level → List Level
  | .l1 => [.l1, .l2, .l3]
  | .l2 => [.l2, .l3]
  | .l3 => [.l3]

theorem levelsFrom_eq (n : Level) :
    levelsFrom n = n :: match n.next with
      | none => []
      | some m => levelsFrom m := by
  cases n <;> rfl

/-- A cascade answered from a level on ends in its Tag (R310, R316 to R326). -/
theorem levels_answered {levels : List Level} {s : State} {n : Level} {done uid : List Byte} {sak : Byte} {m u : Nat}
    {line' : ChipLine} {events : List LineEvent} (hlevels : levels = levelsFrom n) (hp : s.params.wf = true)
    (hon : s.mode.dev = .fieldOn) (hq : s.quietUntil u) (hs : AtLevel s n done)
    (h : LevelsAnswer s.params levels s.out.sent s.sendTime s.chip uid sak m u line' events) :
    ∃ t l, (cascadeLevels levels).run s = .ok .tag t ∧ Chained s t m u line' events ∧
      Resolved s t l (done ++ uid) sak ∧ (done ++ uid).length = 3 * (l.num - 1) + 4 ∧
      m + 2 * n.num = s.out.sent + 2 + 2 * l.num := by
  induction levels generalizing s n done uid events with
  | nil => exact h.elim
  | cons head rest ih =>
    obtain ⟨hhead, hrest⟩ := List.cons.inj (hlevels.trans (levelsFrom_eq n))
    subst head
    obtain ⟨c0, c1, c2, c3, b, more, v, mid, k, more', w, far, e1, e2, h1, hmore, hb, h2, hmore', hsak⟩ := h
    have hnum := level_num_pos n
    split at hsak
    case isTrue hbit =>
      obtain ⟨hmarker, uid', later, rfl, hlater, rfl⟩ := hsak
      have hw := levelsAnswer_le hlater
      obtain ⟨a, hrun, hchain, hat, h0, h1', hsize, hbuf, htag⟩ :=
        level_answered hp hon (quietUntil_mono hq hw) hs h1 hmore hb h2 hmore' rest
      cases hnext : n.next with
      | none =>
        rw [hrest, hnext] at hlater
        exact hlater.elim
      | some l =>
        rw [hnext] at hrest
        obtain ⟨ac, hcasc, hat', ha0, ha1, hasize, habuf⟩ :=
          cascaded_atLevel (k := k) (c0 := c0) (c1 := c1) (c2 := c2) (c3 := c3) hat
            (by rw [hchain.params]; exact hmarker) hnext
        have hchain' := hchain.of_cascade ac a.tag
        have hnum' := level_next_num hnext
        rw [if_pos hbit] at hrun
        simp only [run_bind, hcasc, afterLevel] at hrun
        obtain ⟨t, last, htail, hchain2, hres, hlen, hcount⟩ := ih hrest (by rw [hchain'.params]; exact hp)
          hchain'.dev (hchain'.quiet hq) hat'
          (by rw [hchain'.sent, hchain'.sendTime, hchain'.chip, hchain'.params]; exact hlater)
        rw [List.append_assoc] at hlen
        refine ⟨t, last, hrun.trans htail, hchain'.trans hchain2, ?_, hlen, ?_⟩
        · rw [← List.append_assoc]
          exact hres.from (ha0.trans h0) (ha1.trans h1') (hasize.trans hsize) (hbuf ▸ habuf) (congrArg TagReg.uid htag)
        · rw [hchain'.sent] at hcount
          omega
    case isFalse hbit =>
      obtain ⟨rfl, rfl, rfl, rfl, rfl, rfl⟩ := hsak
      obtain ⟨a, hrun, hchain, hat, h0, h1', hsize, hbuf, htag⟩ :=
        level_answered hp hon hq hs h1 hmore hb h2 hmore' _
      obtain ⟨ac, g, hcomplete, hres⟩ := completeUid_resolved (k := sak) (c0 := c0) (c1 := c1) (c2 := c2) (c3 := c3) hat
      rw [if_neg hbit] at hrun
      simp only [run_bind, hcomplete, afterLevel, run_pure] at hrun
      refine ⟨_, n, hrun, hchain.of_cascade ac g, ?_, ?_, by omega⟩
      · exact {
          ac := by rw [← h0, ← h1', ← hsize]; exact hres.ac
          buf := hbuf ▸ hres.buf
          tag := by rw [← h0, ← h1']; exact hres.tag
          tagBuf := htag ▸ hres.tagBuf }
      · rw [List.length_append, hs.count]
        rfl

/-! ## The cascade -/

/-- REQA answered: the ATQA captured, and the cascade at level 1 with no UID byte (R313, R315). -/
theorem reqa_answered {s : State} {a0 a1 : Byte} {more : List Byte} {v : Nat} {mid : ChipLine}
    {events : List LineEvent} (hp : s.params.wf = true) (hon : s.mode.dev = .fieldOn) (hq : s.quietUntil v)
    (h : AirAnswers s.params s.out.sent s.sendTime s.chip [s.params.reqaCode, s.params.txfReqa] (a0 :: a1 :: more) v mid
      events)
    (hmore : more.length = s.params.rxTrailerLen) (hnone : s.ac.uidLen = 0) :
    ∃ t, stepReqa.run s = .ok .goOn t ∧ Chained s t (s.out.sent + 1) v mid events ∧ AtLevel t .l1 [] ∧
      t.ac.atqa0 = a0 ∧ t.ac.atqa1 = a1 ∧ t.ac.sizeClass = a0.extractLsb' 6 2 ∧ t.ac.uidBuf = s.ac.uidBuf ∧
      t.tag = s.tag := by
  obtain ⟨a, hrun, hchain, hac, htag⟩ := air_exchange hp hon hq (by simp) (by simp only [List.length_cons]; omega) h
  refine ⟨_, stepReqa_goOn hrun hmore, hchain.of_cascade _ _, ⟨rfl, ?_, ?_, rfl⟩, rfl, rfl, rfl, ?_, htag⟩
  · dsimp only
    rw [hac, hnone]
    rfl
  · dsimp only
    rw [hac, hnone]
    rfl
  · dsimp only
    rw [hac]

/-- The registers that a cascade answered to its Tag leaves, the ATQA its own (R313 to R326). -/
structure MadeTag (s t : State) (n : Level) (atqa0 atqa1 : Byte) (uid : List Byte) (sak : Byte) : Prop where
  tag : t.tag = { valid := true, uid := t.tag.uid, len := uid.length, atqa0 := atqa0, atqa1 := atqa1, sak := sak }
  tagBuf : Memory.Holds s.tag.uid t.tag.uid uid
  ac : t.ac = { t.ac with
    step := .done, level := some n, uidLen := uid.length, atqa0 := atqa0, atqa1 := atqa1
    sizeClass := atqa0.extractLsb' 6 2, sak := sak, ctPresent := false, complete := true }
  buf : Memory.Holds s.ac.uidBuf t.ac.uidBuf uid

/-- The same, whatever the level. -/
theorem MadeTag.ac_anyLevel {s t : State} {n : Level} {atqa0 atqa1 sak : Byte} {uid : List Byte}
    (h : MadeTag s t n atqa0 atqa1 uid sak) :
    t.ac = { t.ac with
      step := .done, uidLen := uid.length, atqa0 := atqa0, atqa1 := atqa1
      sizeClass := atqa0.extractLsb' 6 2, sak := sak, ctPresent := false, complete := true } := by
  rw [h.ac]

/-- A cascade that the CHIP answers ends with its Tag (R310, R312). -/
theorem cascade_answered {s : State} {atqa0 atqa1 sak : Byte} {uid : List Byte} {m u : Nat} {line' : ChipLine}
    {events : List LineEvent} (hp : s.params.wf = true) (hon : s.mode.dev = .fieldOn) (hq : s.quietUntil u)
    (h : CascadeAnswers s.params s.out.sent s.sendTime s.chip atqa0 atqa1 uid sak m u line' events) :
    ∃ t n, cascade.run s = .ok .tag t ∧ Chained s t m u line' events ∧ MadeTag s t n atqa0 atqa1 uid sak ∧
      uid.length = 3 * (n.num - 1) + 4 ∧ m = s.out.sent + 1 + 2 * n.num := by
  obtain ⟨more, v, mid, first, later, hreqa, hmore, hlevels, rfl⟩ := h
  obtain ⟨a, hrun, hchain, hat, h0, h1, hsize, hbuf, htag⟩ := reqa_answered (s := entered s) hp hon
    (quietUntil_mono hq (levelsAnswer_le hlevels)) hreqa hmore rfl
  have hchain : Chained s a (s.out.sent + 1) v mid first := { hchain with }
  obtain ⟨t, n, hrest, hchain2, hres, hlen, hcount⟩ := levels_answered (levels := [.l1, .l2, .l3]) rfl
    (by rw [hchain.params]; exact hp) hchain.dev (hchain.quiet hq) hat
    (by rw [hchain.sent, hchain.sendTime, hchain.chip, hchain.params]; exact hlevels)
  have hres : Resolved a t n uid sak := hres
  refine ⟨t, n, ?_, hchain.trans hchain2, ⟨?_, ?_, ?_, ?_⟩, hlen, ?_⟩
  · unfold cascade
    simp only [run_bind, cascadeEntry_ok, hrun]
    exact hrest
  · rw [← h0, ← h1]
    exact hres.tag
  · have huid : a.tag.uid = (entered s).tag.uid := by rw [htag]
    exact huid ▸ hres.tagBuf
  · rw [← hsize, ← h0, ← h1]
    exact hres.ac
  · exact hbuf ▸ hres.buf
  · rw [hchain.sent] at hcount
    have hone : Level.l1.num = 1 := rfl
    omega

/-- The end of the request that ran such a cascade: the Tag's reply (R134, R364, R369). -/
theorem cascadeReply_made {s t : State} {n : Level} {atqa0 atqa1 sak : Byte} {uid : List Byte}
    (h : MadeTag s t n atqa0 atqa1 uid sak) :
    (cascadeReply .tag).run t =
      .ok ⟨⟩ (t.finish .ok (BitVec.ofNat 8 uid.length :: uid ++ [atqa0, atqa1, sak])) := by
  have hv : t.tag.valid = true := by rw [h.tag]
  have hr : t.tag.uid.readRange 0 t.tag.len = some uid := by
    have hlen : t.tag.len = uid.length := by rw [h.tag]
    refine readRange_eq_some.mpr ⟨hlen.symm, fun k hk => ?_⟩
    rw [Nat.zero_add]
    exact h.tagBuf.1 k (hlen ▸ hk)
  have hreply : tagReply uid t.tag.atqa0 t.tag.atqa1 t.tag.sak =
      BitVec.ofNat 8 uid.length :: uid ++ [atqa0, atqa1, sak] := by rw [h.tag]; rfl
  simp only [cascadeReply, run_bind, tagData_ok hv hr, hreply]
  rfl

/-! ## The requests -/

/-- RUN_ANTICOL runs with the field on for ISO14443A (R362). -/
theorem exec_runAnticol {s : State} (hd : s.mode.dev = .fieldOn) (hcfg : s.mode.cfg = cascadeCfg) :
    exec (.runAnticol []) s = conclude runAnticol s := by
  refine request_allowed (payloadOk_nil rfl) (fun he => absurd (hd.symm.trans he) (by decide)) ?_
  rw [hd, hcfg]
  rfl

/-- Settles O45: the request is its cascade and the Tag's reply. -/
theorem runAnticolMakesTag : Obligations.RunAnticolMakesTag := by
  unfold Obligations.RunAnticolMakesTag
  intro s atqa0 atqa1 sak uid m u line' events hp hq hd hcfg h
  have hrun : exec (.runAnticol []) s = conclude runAnticol s := exec_runAnticol hd hcfg
  obtain ⟨t, n, hcascade, hc, htag, hlen, hm⟩ := cascade_answered hp hd hq h
  refine ⟨t, n, ?_, hlen, hm, htag.tag, htag.tagBuf, htag.ac, htag.buf, hc.params, hc.host, hc.dev, hc.cfg, hc.now,
    hc.chip, hc.env, hc.sent, hc.record, hc.replies, hc.call, hc.settled, hc.phase, hc.tries, hc.status, hc.resume,
    hc.last, hc.tx, hc.rx⟩
  rw [hrun]
  refine conclude_ok (a := ⟨⟩) ?_
  unfold runAnticol
  rw [run_bind, hcascade]
  exact cascadeReply_made htag

section
variable {s t r : State}

theorem selectAir_cascade : selectAir 2#8 0#8 0#8 = applyConfig cascadeCfg := rfl

/-- RADIO_SCAN whose selection is OK is the cascade from there (R364). -/
theorem radioScan_selected {n : Level} {atqa0 atqa1 sak : Byte} {uid : List Byte}
    (h : (applyConfig cascadeCfg).run s = .ok .ok t) (hcascade : cascade.run t = .ok .tag r)
    (htag : MadeTag t r n atqa0 atqa1 uid sak) :
    conclude radioScan s = .next (r.finish .ok (BitVec.ofNat 8 uid.length :: uid ++ [atqa0, atqa1, sak])) := by
  refine conclude_ok (a := ⟨⟩) ?_
  unfold radioScan
  simp only [selectAir_cascade, run_bind, h, hcascade]
  exact cascadeReply_made htag

/-- RADIO_SCAN whose selection fails ends with its code (R364). -/
theorem radioScan_notSelected {c : OutcomeCode} (h : (applyConfig cascadeCfg).run s = .ok c t) (hc : c ≠ .ok) :
    conclude radioScan s = .next (t.finish c []) := by
  refine conclude_raise ?_
  unfold radioScan
  simp only [selectAir_cascade, run_bind, h, run_raise]

end

/-- Settles O46: the selection, then the cascade from the state it leaves, its settle pending. -/
theorem radioScanMakesTag : Obligations.RadioScanMakesTag := by
  unfold Obligations.RadioScanMakesTag
  intro s u line' hp hq hd
  have hrun : exec (.radioScan []) s = conclude radioScan s :=
    request_runs (payloadOk_nil rfl) (by decide) (hd.imp_right (Or.imp_right And.left))
  have hnew : s.configured cascadeCfg = false := by
    refine configured_false fun ⟨hon, hcfg⟩ => ?_
    rcases hd with h | h | ⟨-, h⟩
    · rw [hon] at h; cases h
    · rw [hon] at h; cases h
    · exact h hcfg
  have hpid : cascadeCfg.pid ≠ .fieldOff := by decide
  have hparam : protoParam s.params cascadeCfg = s.params.protoLowA := by
    simp [protoParam, cascadeCfg, rateParam, ProtoCfg.plain, Rate.code]
  rw [hrun]
  refine ⟨fun reply bytes v mid atqa0 atqa1 sak uid m events hmin hmax hframe hcascade => ?_,
    fun answer received status v h => ?_⟩
  · have hv : v + s.params.tRamp + s.params.tOsc ≤ u := cascadeAnswers_le hcascade
    obtain ⟨a, hselect, hx, -, -⟩ := select_success hp (quietUntil_mono hq (by omega)) hpid hnew hmin hmax hframe
    have hunt := hx.untouched
    have hsend : (selected a cascadeCfg).sendTime = v + s.params.tRamp + s.params.tOsc := by
      have hparams : a.params = s.params := hunt.params
      simp only [State.sendTime, selected, if_true, hx.now, hparams]
    have hqa : (selected a cascadeCfg).quietUntil u := quiet_of_env hunt.env hq
    have hparams : (selected a cascadeCfg).params = s.params := hunt.params
    have hsent : (selected a cascadeCfg).out.sent = s.out.sent + 1 := hx.count
    have hchip : (selected a cascadeCfg).chip = mid := hx.chip
    obtain ⟨t, n, hrun', hc, htag, -, -⟩ := cascade_answered (s := selected a cascadeCfg)
      (by rw [hparams]; exact hp) rfl hqa (by rw [hsend, hsent, hchip, hparams]; exact hcascade)
    have hcount := chipFrame_length hframe
    have htagBuf : (selected a cascadeCfg).tag.uid = s.tag.uid := congrArg TagReg.uid hunt.tag
    have hacBuf : (selected a cascadeCfg).ac.uidBuf = s.ac.uidBuf := congrArg CascadeRegs.uidBuf hunt.ac
    refine ⟨t, radioScan_selected hselect hrun' htag, htag.tag, htagBuf ▸ htag.tagBuf, hc.params.trans hparams,
      hc.host.trans hunt.host, hc.dev, hc.cfg, hc.now, hc.chip, hc.env.trans hunt.env, hc.sent, ?record,
      hc.replies.trans hunt.replies, hc.call.trans hunt.call, hc.settled, hc.phase, hc.tries.trans hunt.tries,
      hparams ▸ hc.status, hc.resume, htag.ac_anyLevel, hacBuf ▸ htag.buf, ?last, ?tx, ?rx⟩
    case record =>
      rw [hc.record, ← hparam]
      exact congrArg (· ++ events) hx.record
    case last =>
      intro hspi
      have hlast : a.txn.tLast = s.txn.tLast := by rw [hx.stamp, State.stampAfter, if_neg (by simp [hspi])]
      exact (hc.last (hparams.symm ▸ hspi)).trans hlast
    case tx =>
      intro j hj
      refine (hc.tx j (hparams.symm ▸ hj)).trans (hx.tx.2 j ?_)
      rw [frameBytes_length, List.length_cons, List.length_singleton]
      omega
    case rx =>
      intro j hj
      refine (hc.rx j (by rw [hparams]; omega)).trans (hx.rx.2 j (by omega))
  · obtain ⟨hanswer, t, hselect, hx⟩ := select_failure hp hq hpid hnew h
    refine ⟨t, radioScan_notSelected hselect ?_, hparam ▸ hx⟩
    rcases hanswer with rfl | rfl <;> decide

/-- Settles O60: the probe, then the cascade from the state it leaves, or the probe's failure. -/
theorem radioScanReprobes : Obligations.RadioScanReprobes := by
  unfold Obligations.RadioScanReprobes
  intro s u line' hp hq hd hcfg
  have hrun : exec (.radioScan []) s = conclude radioScan s :=
    request_runs (payloadOk_nil rfl) (by decide) (.inr (.inr hd))
  have hpid : cascadeCfg.pid ≠ .fieldOff := by decide
  have hc : s.configured cascadeCfg = true := configured_iff.mpr ⟨hd, hcfg⟩
  rw [hrun]
  refine ⟨fun k v w mid far atqa0 atqa1 sak uid m failed events hk hfails halive hcascade => ?_,
    fun events hfails => ?_⟩
  · have hw : w ≤ u := cascadeAnswers_le hcascade
    obtain ⟨a, hprobe, h, hdev, -⟩ :=
      echoProbe_alive (Laws.ticks_pos hp .echo) (quietUntil_mono hq hw) hk hfails halive
    have hunt := h.untouched
    have hparams : a.params = s.params := hunt.params
    have hqa : a.quietUntil u := quiet_of_env hunt.env hq
    have hsend : a.sendTime = w := by rw [sendTime_settled h.settled, h.now]
    obtain ⟨t, n, hrun', hx, htag, -, -⟩ := cascade_answered (s := a) (by rw [hparams]; exact hp)
      (by rw [hdev, hd]; rfl) hqa (by rw [hsend, h.sent, h.chip, hparams]; exact hcascade)
    have htagBuf : a.tag.uid = s.tag.uid := congrArg TagReg.uid hunt.tag
    have hacBuf : a.ac.uidBuf = s.ac.uidBuf := congrArg CascadeRegs.uidBuf hunt.ac
    refine ⟨t, radioScan_selected (applyConfig_probe hpid hc hprobe) hrun' htag, htag.tag, htagBuf ▸ htag.tagBuf,
      hx.params.trans hparams, hx.host.trans hunt.host, hx.dev, (hx.cfg.trans hunt.cfg).trans hcfg, hx.now, hx.chip,
      hx.env.trans hunt.env, hx.sent, ?record, hx.replies.trans hunt.replies, hx.call.trans hunt.call, hx.settled,
      hx.phase, hx.tries.trans hunt.tries, hparams ▸ hx.status, hx.resume, htag.ac_anyLevel, hacBuf ▸ htag.buf,
      fun hspi => (hx.last (hparams.symm ▸ hspi)).trans h.last, fun j hj => ?tx, fun j hj => ?rx⟩
    case record => rw [hx.record, h.record, ← List.append_assoc]
    case tx => exact (hx.tx j (hparams.symm ▸ hj)).trans (h.tx.2 j (by rw [List.length_singleton]; omega))
    case rx => exact (hx.rx j (hparams.symm ▸ hj)).trans (h.rx j (by omega))
  · obtain ⟨t, hprobe, h, hdev⟩ := echoProbe_dead hp hq hfails
    exact ⟨t, radioScan_notSelected (applyConfig_probe hpid hc hprobe) (by decide), h.record, h.untouched, hdev,
      h.resume.trans hd, h.now, h.chip, h.sent, h.settled, h.phase, h.last, h.txLen, h.tx, h.rx⟩

end Sys2Proof.Proofs
end

section
/-! PROOFS. The properties of every instruction whatever the CHIP does (R207, R212, R375, R417, R464): first what each
host, chip and air row that is not cut short by the reset input can do to dev_state, settle_pending and the Tag. -/

namespace Sys2Proof.Proofs

open Sys2Proof.Machine Sys2Proof.Laws

/-! ## Requests that run -/

section
variable {k : RequestKind} {payload : List Byte} {s t : State}

theorem runs_payload_nil (h : Runs k payload s) (hk : payloadLen k = some 0) : payload = [] := by
  have hlen := h.length
  simpa [lengthWrong, hk] using hlen

theorem runs_not_error (h : Runs k payload s) (hk : allowedInError k = false) : s.mode.dev ≠ .error := fun he => by
  have := h.error he
  simp [hk] at this

theorem runs_goIdle_dev (h : Runs .goIdle payload s) : s.mode.dev ≠ .uninitialized := fun hd => by
  have := h.allowed
  simp [allowed, hd] at this

/-- R362 lets RUN_ANTICOL run with the field on for ISO14443A alone. -/
theorem runs_runAnticol_mode (h : Runs .runAnticol payload s) : s.mode.dev = .fieldOn ∧ s.mode.cfg = cascadeCfg := by
  have hallowed := h.allowed
  have herr := runs_not_error h rfl
  cases hd : s.mode.dev <;> simp_all [allowed]

end

/-! ## What a host row can do -/

/-- What a host row of this code does to dev_state (R417). -/
inductive DevChange (i : Instr) (s : State) (c : OutcomeCode) (u : State) : Prop
  | same (h : u.mode.dev = s.mode.dev)
  | idled (hs : s.out.sent < u.out.sent) (h : u.mode.dev = .idle) (hi : ∃ payload, i = .goIdle payload)
      (hd : s.mode.dev ≠ .uninitialized)
  | fieldOff (hs : s.out.sent < u.out.sent) (h : u.mode.dev = .idle) (hc : c = .ok)
      (hi : ∃ payload, i = .fieldOff payload ∨ i = .selectProtocol payload ∧ s.mode.dev ≠ .error)
  | alive (hs : s.out.sent < u.out.sent) (h : u.mode.dev = .idle) (hc : c = .ok) (hd : s.mode.dev = .uninitialized)
      (hi : ∃ payload, i = .echoTest payload ∨ i = .getChipId payload)
  | lost (hs : s.out.sent < u.out.sent) (h : u.mode.dev = .error) (hc : c = .deviceFault)
      (hi : ∃ payload, i = .echoTest payload ∨ i = .selectProtocol payload ∨ i = .radioScan payload)
  | fieldOn (hs : s.out.sent < u.out.sent) (h : u.mode.dev = .fieldOn) (hd : s.mode.dev ≠ .error)
      (hi : ∃ payload, i = .selectProtocol payload ∧ c = .ok ∨
        i = .radioScan payload ∧ c ∈ [.ok, .noTagDetected, .anticollisionFailed])

/-- What a host row of this code does to the Tag register (R50). -/
inductive TagChange (i : Instr) (s : State) (c : OutcomeCode) (u : State) : Prop
  | same (h : u.tag = s.tag)
  | cascade (hi : i = .radioScan [] ∨ i = .runAnticol []) (hc : c ∈ [.ok, .noTagDetected, .anticollisionFailed])
  | fieldOff (hi : i = .fieldOff [] ∨ ∃ tx rx, i = .selectProtocol [0#8, tx, rx]) (hc : c = .ok)
      (h : u.tag = { s.tag with valid := false })

/-- What a host row of this code leaves of dev_state, settle_pending and the Tag. -/
structure HostEffect (i : Instr) (s : State) (c : OutcomeCode) (u : State) : Prop where
  dev : DevChange i s c u
  settle : u.txn.settlePending = true → u.out.sent = s.out.sent ∧ s.txn.settlePending = true ∨
    (∃ payload, i = .selectProtocol payload) ∧ c = .ok
  tag : TagChange i s c u

theorem HostEffect.none (i : Instr) (s : State) (c : OutcomeCode) : HostEffect i s c s :=
  ⟨.same rfl, fun h => .inl ⟨rfl, h⟩, .same rfl⟩

/-- A row that ends in one Finish, its effect before that. -/
def HostEnds (i : Instr) (s t : State) : Prop :=
  ∃ u c data, t = u.finish c data ∧ Kept s u ∧ HostEffect i s c u

/-- A request is refused and changes nothing, or has its procedure's effect. -/
theorem request_hostEnds {i : Instr} {k : RequestKind} {payload : List Byte} {body : Proc Unit} {s t : State} {b : Nat}
    {P : OutcomeCode → State → Prop} (hbody : Runs k payload s → Finishes body s b P)
    (heffect : Runs k payload s → ∀ c u, P c u → HostEffect i s c u)
    (h : conclude (hostRequest k payload body) s = .next t) (hr : s.env.resetLine = []) : HostEnds i s t := by
  rcases request_next h with ⟨c, rfl, -⟩ | ⟨hruns, hrun⟩
  · exact ⟨s, c, [], rfl, .refl s, .none i s c⟩
  · obtain ⟨u, c, data, rfl, hk, -, -, -, hu⟩ := (hbody hruns).next hrun hr
    exact ⟨u, c, data, rfl, hk, heffect hruns c u hu⟩

section
variable {i : Instr} {s u : State} {c : OutcomeCode} {payload : List Byte}

/-- An echo attempt or a success frame leaves UNINITIALIZED alone (R234, R243). -/
theorem devChange_alive (hs : s.out.sent < u.out.sent) (h : u.mode.dev = s.mode.dev.afterSuccess) (hc : c = .ok)
    (hi : ∃ payload, i = .echoTest payload ∨ i = .getChipId payload) : DevChange i s c u := by
  rcases afterSuccess_cases s.mode.dev with hd | ⟨hd, hidle⟩
  · exact .same (h.trans hd)
  · exact .alive hs (h.trans hidle) hc hd hi

theorem devChange_fieldOff (hs : s.out.sent < u.out.sent) (h : FieldOffAfter s c u)
    (hi : ∃ payload, i = .fieldOff payload ∨ i = .selectProtocol payload ∧ s.mode.dev ≠ .error) :
    DevChange i s c u := by
  obtain ⟨hc, hdev, -⟩ | ⟨-, hdev, -⟩ := h
  · exact .fieldOff hs hdev hc hi
  · exact .same hdev

theorem tagChange_fieldOff (h : FieldOffAfter s c u)
    (hi : i = .fieldOff [] ∨ ∃ tx rx, i = .selectProtocol [0#8, tx, rx]) : TagChange i s c u := by
  obtain ⟨hc, -, -, htag⟩ | ⟨-, -, -, htag⟩ := h
  · exact .fieldOff hi hc htag
  · exact .same htag

theorem not_settled {p : Prop} (h : u.txn.settlePending = false) : u.txn.settlePending = true → p := fun hs => by
  rw [h] at hs
  cases hs

/-- A selection that runs: FieldOff's effect, or that of a selection of another protocol (R294, R371). -/
theorem select_effect {pid tx rx : Byte} {cfg : ProtoCfg} (hair : airConfig pid tx rx = some cfg)
    (hs : s.out.sent < u.out.sent) (he : s.mode.dev ≠ .error) (h : SelectAfter s cfg c u) :
    HostEffect (.selectProtocol [pid, tx, rx]) s c u := by
  obtain ⟨hpid, hoff, hsettle⟩ | ⟨-, htag, hmode⟩ := h
  · obtain rfl := (airConfig_fieldOff_iff hair).mp hpid
    exact ⟨devChange_fieldOff hs hoff ⟨_, .inr ⟨rfl, he⟩⟩, not_settled hsettle,
      tagChange_fieldOff hoff (.inr ⟨_, _, rfl⟩)⟩
  · obtain ⟨hc, hdev, -⟩ | ⟨-, hdev, -, hsettle⟩ | ⟨hc, hdev, -, hsettle⟩ := hmode
    · exact ⟨.fieldOn hs hdev he ⟨_, .inl ⟨rfl, hc⟩⟩, fun _ => .inr ⟨⟨_, rfl⟩, hc⟩, .same htag⟩
    · exact ⟨.same hdev, not_settled hsettle, .same htag⟩
    · exact ⟨.lost hs hdev hc ⟨_, .inr (.inl rfl)⟩, not_settled hsettle, .same htag⟩

end

/-- The nine host rows, each by everything its procedure can end in. -/
theorem hostRow_hostEnds {i : Instr} {s t : State} (hp : s.params.wf = true) (hi : i.space = .host)
    (hr : s.env.resetLine = []) (h : exec i s = .next t) : HostEnds i s t := by
  cases i <;> cases hi
  case radioScan =>
    refine request_hostEnds (fun _ => radioScan_finishes hp) (fun hruns c u hu => ?_) h hr
    obtain ⟨-, hsent, -, hsettle, hmode⟩ := hu
    have he := runs_not_error hruns rfl
    cases runs_payload_nil hruns rfl
    obtain ⟨-, -, hdev, -, htag⟩ | ⟨hc, -, hdev, -, htag⟩ | ⟨-, hdev, -, hc⟩ := hmode
    · exact ⟨.same hdev, not_settled hsettle, .same htag⟩
    · exact ⟨.lost hsent hdev hc ⟨_, .inr (.inr rfl)⟩, not_settled hsettle, .same htag⟩
    · have hc : c ∈ [.ok, .noTagDetected, .anticollisionFailed] := by
        rcases hc with rfl | ⟨rfl | rfl, -⟩ <;> simp
      exact ⟨.fieldOn hsent hdev he ⟨_, .inr ⟨rfl, hc⟩⟩, not_settled hsettle, .cascade (.inl rfl) hc⟩
  case echoTest =>
    refine request_hostEnds (fun _ => echoTest_finishes hp) (fun _ c u hu => ?_) h hr
    obtain ⟨-, hsent, htag, -, -, -, hsettle, ⟨hc, hdev⟩ | ⟨hc, hdev⟩⟩ := hu
    · exact ⟨devChange_alive hsent hdev hc ⟨_, .inl rfl⟩, not_settled hsettle, .same htag⟩
    · exact ⟨.lost hsent hdev hc ⟨_, .inl rfl⟩, not_settled hsettle, .same htag⟩
  case calibration payload =>
    rw [calibrationUnsupported s payload] at h
    cases h
    exact ⟨s, _, [], rfl, .refl s, .none _ s _⟩
  case getChipId =>
    refine request_hostEnds (fun _ => getChipId_finishes s) (fun _ c u hu => ?_) h hr
    obtain ⟨-, hsent, htag, -, -, -, hsettle, ⟨hc, hdev⟩ | ⟨-, hdev⟩⟩ := hu
    · exact ⟨devChange_alive hsent hdev hc ⟨_, .inr rfl⟩, not_settled hsettle, .same htag⟩
    · exact ⟨.same hdev, not_settled hsettle, .same htag⟩
  case getUid =>
    rcases request_next h with ⟨c, rfl, -⟩ | ⟨-, hrun⟩
    · exact ⟨s, c, [], rfl, .refl s, .none _ s c⟩
    · obtain ⟨c, data, rfl, -⟩ := getUid_next hrun
      exact ⟨s, c, data, rfl, .refl s, .none _ s c⟩
  case runAnticol =>
    refine request_hostEnds (fun _ => runAnticol_finishes s) (fun hruns c u hu => ?_) h hr
    obtain ⟨-, -, -, hdev, -, hsettle, hc⟩ := hu
    have hon := (runs_runAnticol_mode hruns).1
    cases runs_payload_nil hruns rfl
    have hsame : u.mode.dev = s.mode.dev := by
      rcases hdev with hdev | hdev
      · exact hdev
      · rw [hdev, hon]
        rfl
    refine ⟨.same hsame, not_settled hsettle, .cascade (.inr rfl) ?_⟩
    rcases hc with rfl | ⟨rfl | rfl, -⟩ <;> simp
  case goIdle =>
    refine request_hostEnds (fun _ => goIdle_finishes hp) (fun hruns c u hu => ?_) h hr
    obtain ⟨-, hsent, htag, -, -, -, hsettle, hdev, -⟩ := hu
    exact ⟨.idled hsent hdev ⟨_, rfl⟩ (runs_goIdle_dev hruns), not_settled hsettle, .same htag⟩
  case selectProtocol payload =>
    obtain ⟨u, c, data, rfl, hk, -, -, -, hu⟩ := (select_finishes hp payload).next h hr
    rcases hu with ⟨rfl, -⟩ | ⟨hruns, cfg, ⟨-, hsent, -, -, hsel⟩, pid, tx, rx, rfl, hair⟩
    · exact ⟨u, c, data, rfl, hk, .none _ u c⟩
    · exact ⟨u, c, data, rfl, hk, select_effect hair hsent (runs_not_error hruns rfl) hsel⟩
  case fieldOff =>
    refine request_hostEnds (fun _ => fieldOff_finishes s) (fun hruns c u hu => ?_) h hr
    obtain ⟨-, hsent, -, -, hsettle, hoff⟩ := hu
    cases runs_payload_nil hruns rfl
    exact ⟨devChange_fieldOff hsent hoff ⟨_, .inl rfl⟩, not_settled hsettle, tagChange_fieldOff hoff (.inl rfl)⟩

/-! ## What a chip row and an air row can do -/

theorem chipRow_next {i : Instr} {s t : State} (hp : s.params.wf = true) (hi : i.space = .chip) (hw : i.wf = true)
    (hr : s.env.resetLine = []) (h : exec i s = .next t) :
    ∃ u r pend, t = { u with txn.settlePending := pend, out.callResult := some r } ∧
      Transacted s u (rowKind i) (encode s.params i) ∧
      (u.mode.dev = s.mode.dev ∨ u.mode.dev = s.mode.dev.afterSuccess ∧ Succeeded r) ∧
      (pend = true → rowSettles s.params i = true ∧ ∃ st body, r = .frame st body) := by
  rcases chipRow_ends hp hi hw with ⟨u, r, pend, hrun, hrest⟩ | ⟨u, -, hab⟩
  · rw [hrun] at h
    cases h
    exact ⟨u, r, pend, rfl, hrest⟩
  · exact absurd hab (not_aborted · hr)

/-- An air row goes on, the host port and the Tag as they were, or ends the cascade and its request. -/
theorem airRow_next {i : Instr} {s t : State} (hi : i.space = .air) (hr : s.env.resetLine = [])
    (h : exec i s = .next t) :
    ∃ u r, Stepped s u r ∧ (r = .goOn ∧ t = u ∧ t.tag = s.tag ∧ t.ac.step ≠ .done ∨
      r ≠ .goOn ∧ ∃ c data, t = u.finish c data ∧ (c ≠ .ok → data = []) ∧
        c ∈ [.ok, .noTagDetected, .anticollisionFailed] ∧ (c = .ok ↔ r = .tag)) := by
  rcases airRow_ends s hi with ⟨u, r, hstep, -, hon, hended⟩ | ⟨u, -, hab⟩ | ⟨⟨f, hf⟩, -⟩
  · refine ⟨u, r, hstep, ?_⟩
    by_cases hgo : r = .goOn
    · obtain ⟨hrun, htag, hpos⟩ := hon hgo
      rw [hrun] at h
      cases h
      refine .inl ⟨hgo, rfl, htag, ?_⟩
      rcases hpos with ⟨hs, -⟩ | ⟨-, hs, -⟩ <;> simp [hs]
    · obtain ⟨c, data, hrun, -, hdata, hmem, hok, -⟩ := hended hgo
      rw [hrun] at h
      cases h
      exact .inr ⟨hgo, c, data, rfl, hdata, hmem, hok⟩
  · exact absurd hab (not_aborted · hr)
  · rw [hf] at h
    cases h

/-- What both leave of the exchange and dev_state. -/
theorem airRow_kept {i : Instr} {s t : State} (hi : i.space = .air) (hr : s.env.resetLine = [])
    (h : exec i s = .next t) :
    t.out.sent = s.out.sent + 1 ∧ t.txn.settlePending = false ∧
      (t.mode.dev = s.mode.dev ∨ t.mode.dev = s.mode.dev.afterSuccess ∧ t.txn.lastStatus = s.params.stData) ∧
      s.sendTime ≤ t.now ∧ ∃ new, t.out.line = s.out.line ++ new ∧ ∀ e ∈ new, s.sendTime ≤ e.time := by
  obtain ⟨u, r, hstep, hend⟩ := airRow_next hi hr h
  have hdev : u.mode.dev = s.mode.dev ∨ u.mode.dev = s.mode.dev.afterSuccess ∧ u.txn.lastStatus = s.params.stData := by
    rcases hstep.success with hd | hst
    · exact .inl hd
    · exact hstep.dev.imp_right fun hd => ⟨hd, hst⟩
  have htime : s.sendTime ≤ u.now := by
    rcases hstep.kept.waited with ⟨hsame, -⟩ | hle
    · rw [hstep.count] at hsame
      omega
    · exact hle
  rcases hend with ⟨-, rfl, -⟩ | ⟨-, c, data, rfl, -⟩
  · exact ⟨hstep.count, hstep.settled, hdev, htime, hstep.kept.line⟩
  · exact ⟨hstep.count, hstep.settled, hdev, htime, hstep.kept.line⟩

/-! ## dev_state -/

/-- What an exchange with the CHIP alone does to dev_state (R234, R417). -/
theorem chipOrAir_dev {i : Instr} {s t : State} (hp : s.params.wf = true) (hi : i.space ≠ .host) (hw : i.wf = true)
    (hr : s.env.resetLine = []) (h : exec i s = .next t) :
    t.out.sent = s.out.sent + 1 ∧ (t.mode.dev = s.mode.dev ∨ s.mode.dev = .uninitialized ∧ t.mode.dev = .idle ∧
      (i.space = .chip →
        t.out.callResult = some .alive ∨ ∃ status body, t.out.callResult = some (.frame status body)) ∧
      (i.space = .air → t.txn.lastStatus = s.params.stData)) := by
  cases hspace : i.space with
  | host => exact absurd hspace hi
  | chip =>
    obtain ⟨u, r, pend, rfl, htxn, hdev, -⟩ := chipRow_next hp hspace hw hr h
    refine ⟨htxn.count, hdev.elim .inl fun ⟨hafter, hr⟩ => ?_⟩
    refine (afterSuccess_cases s.mode.dev).imp hafter.trans fun ⟨hu, hidle⟩ =>
      ⟨hu, hafter.trans hidle, fun _ => ?_, nofun⟩
    rcases hr with rfl | ⟨st, body, rfl⟩
    · exact .inl rfl
    · exact .inr ⟨st, body, rfl⟩
  | air =>
    obtain ⟨hcount, -, hdev, -⟩ := airRow_kept hspace hr h
    refine ⟨hcount, hdev.elim .inl fun ⟨hafter, hstatus⟩ => ?_⟩
    exact (afterSuccess_cases s.mode.dev).imp hafter.trans fun ⟨hu, hidle⟩ =>
      ⟨hu, hafter.trans hidle, nofun, fun _ => hstatus⟩

/-- Settles O49: a host row by what it does to dev_state, a chip or air row by its exchange's success. -/
theorem devStateTransitions : Obligations.DevStateTransitions := by
  unfold Obligations.DevStateTransitions
  intro s t i hp hw hr hd h
  by_cases hi : i.space = .host
  · obtain ⟨u, c, data, rfl, -, heffect⟩ := hostRow_hostEnds hp hi hr h
    simp only [finish_mode, finish_out, finish_lastOutcome, hi]
    cases heffect.dev with
    | same h => grind
    | idled hs h hk hu => grind
    | fieldOff hs h hc hk => grind
    | alive hs h hc hu hk => grind
    | lost hs h hc hk => grind
    | fieldOn hs h he hk => grind
  · obtain ⟨hsent, hdev⟩ := chipOrAir_dev hp hi hw hr h
    rcases hdev with hsame | ⟨hu, hidle, hchip, hair⟩
    · grind
    · grind

/-! ## settle_pending -/

/-- The chip rows whose success asks for a settle (R208). -/
theorem rowSettles_cases {p : Params} {i : Instr} (h : rowSettles p i = true) :
    (∃ q, i = .baudrate q) ∨ ∃ wire param, wire ≠ p.pidFieldOff ∧ i = .protocol wire param := by
  unfold rowSettles at h
  split at h
  · exact .inl ⟨_, rfl⟩
  · exact .inr ⟨_, _, by simpa using h, rfl⟩
  · cases h

/-- What any row leaves settle_pending for: as it was with nothing sent, or one of R208's successes. -/
theorem settle_cases {i : Instr} {s t : State} (hp : s.params.wf = true) (hw : i.wf = true)
    (hr : s.env.resetLine = []) (h : exec i s = .next t) (ht : t.txn.settlePending = true) :
    t.out.sent = s.out.sent ∧ s.txn.settlePending = true ∨
      ((∃ q, i = .baudrate q) ∨ ∃ wire param, wire ≠ s.params.pidFieldOff ∧ i = .protocol wire param) ∧
        (∃ status body, t.out.callResult = some (.frame status body)) ∨
      (∃ payload, i = .selectProtocol payload) ∧ t.host.lastOutcome = .ok := by
  cases hspace : i.space with
  | host =>
    obtain ⟨u, c, data, rfl, -, heffect⟩ := hostRow_hostEnds hp hspace hr h
    exact (heffect.settle ht).imp_right .inr
  | chip =>
    obtain ⟨u, r, pend, rfl, -, -, hpend⟩ := chipRow_next hp hspace hw hr h
    obtain ⟨hsettles, st, body, rfl⟩ := hpend ht
    exact .inr (.inl ⟨rowSettles_cases hsettles, st, body, rfl⟩)
  | air =>
    obtain ⟨-, hsettled, -⟩ := airRow_kept hspace hr h
    rw [hsettled] at ht
    cases ht

/-- A chip row's encoding fits tx_buf (R111). -/
theorem encode_chip_le {p : Params} {i : Instr} (hp : p.wf = true) (hi : i.space = .chip) (hw : i.wf = true) :
    (encode p i).length ≤ 256 + p.frameTrailerLen := by
  have hsize : EncodedSize.Statement i := by
    cases i <;> cases hi
    case idn => exact EncodedSize.idn
    case protocol w q => exact EncodedSize.protocol w q
    case sendRecv b => exact EncodedSize.sendRecv b
    case idle => exact EncodedSize.idle
    case readReg q => exact EncodedSize.readReg q
    case writeReg q => exact EncodedSize.writeReg q
    case baudrate q => exact EncodedSize.baudrate q
    case echo => exact EncodedSize.echo
  obtain ⟨-, -, hle⟩ := hsize p hp hw
  exact hle

/-- Nothing leaves before a pending settle has been waited out (R207, R460). -/
theorem settle_waited {i : Instr} {s t : State} (hp : s.params.wf = true) (hw : i.wf = true)
    (hr : s.env.resetLine = []) (h : exec i s = .next t) :
    (∃ new, t.out.line = s.out.line ++ new ∧ ∀ e ∈ new, s.sendTime ≤ e.time) ∧
      (s.out.sent < t.out.sent → s.sendTime ≤ t.now) := by
  cases hspace : i.space with
  | host =>
    obtain ⟨u, c, data, rfl, hk, -⟩ := hostRow_hostEnds hp hspace hr h
    refine ⟨hk.line, fun hsent => hk.waited.elim (fun ⟨hsame, _⟩ => absurd hsent ?_) id⟩
    simp only [finish_out, hsame, lt_irrefl, not_false_eq_true]
  | chip =>
    obtain ⟨u, r, pend, rfl, htxn, hdev, -⟩ := chipRow_next hp hspace hw hr h
    have hlen := encode_chip_le hp hspace hw
    exact ⟨(htxn.kept hlen (hdev.imp_right And.left)).line, fun _ => htxn.after⟩
  | air =>
    obtain ⟨-, -, -, htime, hline⟩ := airRow_kept hspace hr h
    exact ⟨hline, fun _ => htime⟩

/-- Settles O50: what a row leaves settle_pending for, and when its events come. -/
theorem settleTriggers : Obligations.SettleTriggers := by
  unfold Obligations.SettleTriggers
  intro s t i hp hw hr h sets
  have hcases := settle_cases hp hw hr h
  obtain ⟨hline, htime⟩ := settle_waited hp hw hr h
  refine ⟨fun hs ht => (hcases ht).resolve_left ?_, fun hsent ht => (hcases ht).resolve_left ?_, fun hs => ?_⟩
  · simp [hs]
  · rintro ⟨hsame, -⟩
    omega
  · have hsend : s.sendTime = s.now + s.params.tRamp + s.params.tOsc := by simp [State.sendTime, hs]
    rw [hsend] at hline htime
    exact ⟨hline, htime⟩

/-! ## The Tag -/

/-- Settles O51: a host row by what it does to the Tag; an air row that changes it made it; a chip row never does. -/
theorem tagChangesOnlyByCascadeOrFieldOff : Obligations.TagChangesOnlyByCascadeOrFieldOff := by
  unfold Obligations.TagChangesOnlyByCascadeOrFieldOff
  intro s t i hp hw hr h htag
  cases hspace : i.space with
  | host =>
    obtain ⟨u, c, data, rfl, -, heffect⟩ := hostRow_hostEnds hp hspace hr h
    cases heffect.tag with
    | same hsame => exact absurd hsame htag
    | cascade hi hc => exact .inl ⟨hi, hc⟩
    | fieldOff hi hc hoff => exact .inr (.inr ⟨hi, hc, hoff⟩)
  | chip =>
    obtain ⟨u, r, pend, rfl, htxn, -⟩ := chipRow_next hp hspace hw hr h
    exact absurd htxn.untouched.tag htag
  | air =>
    obtain ⟨u, r, hstep, ⟨-, -, hsame, -⟩ | ⟨hgo, c, data, rfl, -, -, hok⟩⟩ := airRow_next hspace hr h
    · exact absurd hsame htag
    · by_cases hr' : r = .tag
      · exact .inr (.inl ⟨rfl, hstep.ended hgo, hok.mpr hr'⟩)
      · exact absurd (hstep.same hr') htag

/-! ## A failed cascade -/

/-- A reply of the code alone after a failure. -/
theorem finish_leaksNothing {u : State} {c : OutcomeCode} (hv : u.tag.valid = false) (hc : c ≠ .ok) :
    (u.finish c []).tag.valid = false ∧ (u.finish c []).host.rspOk = false ∧ (u.finish c []).host.rspLen = 1 ∧
      (u.finish c []).host.rspBuf.read 0 = some (u.finish c []).host.lastOutcome.byte := by
  refine ⟨hv, by simpa using hc, rfl, ?_⟩
  rw [finish_rspBuf, read_writeRange, if_pos ⟨le_rfl, by simp⟩]
  rfl

/-- No check refuses a request with a code of the cascade's failures (R361, R362). -/
theorem refuses_notCascade {k : RequestKind} {payload : List Byte} {s : State} {c : OutcomeCode}
    (h : Refuses k payload s c) : ¬ (c = .noTagDetected ∨ c = .anticollisionFailed) := by
  obtain ⟨rfl, -⟩ | ⟨-, rfl, -⟩ | ⟨-, rfl, -⟩ | ⟨-, rfl, -⟩ := h <;> simp

/-- The two requests that run a cascade, whatever it ends in (R364, R369). -/
theorem cascadeRequest_next {i : Instr} {s t : State} (hp : s.params.wf = true)
    (hi : i = .radioScan [] ∨ i = .runAnticol []) (hr : s.env.resetLine = []) (h : exec i s = .next t) :
    ∃ (u : State) (c : OutcomeCode) (data : List Byte), t = u.finish c data ∧ (c ≠ .ok → data = []) ∧
      (c = .noTagDetected ∨ c = .anticollisionFailed →
        u.tag.valid = false ∧ u.mode.dev = .fieldOn ∧ u.mode.cfg = cascadeCfg) := by
  rcases hi with rfl | rfl
  · rcases request_next h with ⟨c, rfl, hc⟩ | ⟨-, hrun⟩
    · exact ⟨s, c, [], rfl, fun _ => rfl, fun h => absurd h (refuses_notCascade hc)⟩
    · obtain ⟨u, c, data, rfl, -, -, hdata, -, -, -, -, -, hmode⟩ := (radioScan_finishes hp).next hrun hr
      refine ⟨u, c, data, rfl, hdata, fun hc => ?_⟩
      obtain ⟨rfl | rfl, -⟩ | ⟨rfl, -⟩ | ⟨-, hdev, hcfg, rfl | ⟨-, hv⟩⟩ := hmode
      case inr.inr.inr => exact ⟨hv, hdev, hcfg⟩
      all_goals simp at hc
  · rcases request_next h with ⟨c, rfl, hc⟩ | ⟨hruns, hrun⟩
    · exact ⟨s, c, [], rfl, fun _ => rfl, fun h => absurd h (refuses_notCascade hc)⟩
    · obtain ⟨u, c, data, rfl, -, -, hdata, -, -, hcfg, -, hdev, -, -, hend⟩ := (runAnticol_finishes s).next hrun hr
      obtain ⟨hon, hcascade⟩ := runs_runAnticol_mode hruns
      refine ⟨u, c, data, rfl, hdata, fun hc => ⟨?_, ?_, hcfg.trans hcascade⟩⟩
      · rcases hend with rfl | ⟨-, hv⟩
        · simp at hc
        · exact hv
      · rcases hdev with hdev | hdev
        · exact hdev.trans hon
        · rw [hdev, hon]
          rfl

/-- Settles O52: a request that ran its cascade by what it ends in, an air row by its step's result. -/
theorem cascadeFailureLeaksNothing : Obligations.CascadeFailureLeaksNothing := by
  unfold Obligations.CascadeFailureLeaksNothing
  intro s t i hp hr h leaksNothing
  refine ⟨fun hi hc => ?request, fun hspace hv => ?row⟩
  case request =>
    obtain ⟨u, c, data, rfl, hdata, hfail⟩ := cascadeRequest_next hp hi hr h
    obtain ⟨hv, hmode⟩ := hfail hc
    have hne : c ≠ .ok := by
      rintro rfl
      simp at hc
    obtain rfl := hdata hne
    exact ⟨finish_leaksNothing hv hne, hmode⟩
  case row =>
    obtain ⟨u, r, hstep, ⟨-, rfl, hsame, hstay⟩ | ⟨hgo, c, data, rfl, hdata, hmem, hok⟩⟩ := airRow_next hspace hr h
    · exact ⟨fun _ => ⟨hsame, hstep.kept.host⟩, fun hdone => absurd hdone hstay⟩
    · refine ⟨fun hstay => absurd (hstep.ended hgo) hstay, fun _ => ?_⟩
      by_cases hc : c = .ok
      · exact .inl hc
      · obtain rfl := hdata hc
        have hsame : u.tag.valid = false := by rw [hstep.same fun hr' => hc (hok.mpr hr'), hv]
        refine .inr ⟨?_, finish_leaksNothing hsame hc⟩
        simpa [hc] using hmem

/-! ## The bounds -/

/-- A request is over by its procedure's bound (R212). -/
theorem request_time {k : RequestKind} {payload : List Byte} {body : Proc Unit} {s t : State} {b : Nat}
    {P : OutcomeCode → State → Prop} (h : conclude (hostRequest k payload body) s = .next t)
    (hbody : Finishes body s b P) (hb : s.now ≤ b) : t.now ≤ b :=
  ((request_finishes hb fun _ => hbody).time h).1

/-- Settles O53: each row's bound, a pending settle being over by T_RAMP + T_OSC. -/
theorem requestsEndInTime : Obligations.RequestsEndInTime := by
  unfold Obligations.RequestsEndInTime
  intro s t i hp hw h settle echo cascade
  have hsend : s.sendTime ≤ s.now + settle := by
    unfold State.sendTime
    split <;> omega
  have hnow := le_sendTime s
  refine ⟨fun pl hi => ?quiet, fun pl hi => ?framed, fun pl hi => ?echo, fun pl hi => ?select, fun pl hi => ?cascade,
    fun pl hi => ?scan⟩
  case quiet =>
    rcases hi with rfl | rfl
    · rw [calibrationUnsupported s pl] at h
      cases h
      rfl
    · rcases request_next h with ⟨c, rfl, -⟩ | ⟨-, hrun⟩
      · rfl
      · obtain ⟨c, data, rfl, -⟩ := getUid_next hrun
        rfl
  case framed =>
    have hbound : t.now ≤ s.sendTime + s.params.tNoresp := by
      rcases hi with rfl | rfl | rfl
      · exact request_time h (getChipId_finishes s) (by omega)
      · exact request_time h (goIdle_finishes hp) (by omega)
      · exact request_time h (fieldOff_finishes s) (by omega)
    omega
  case echo =>
    subst hi
    have hbound := request_time h (echoTest_finishes hp) (by omega)
    omega
  case select =>
    subst hi
    have hbound := ((select_finishes hp pl).time h).1
    omega
  case cascade =>
    subst hi
    have hbound := request_time h (runAnticol_finishes s) (by omega)
    omega
  case scan =>
    subst hi
    have hbound := request_time h (radioScan_finishes hp) (by omega)
    omega

/-! ## Every request ends -/

/-- Settles O47: the row's one Finish, whose reply is well formed. -/
theorem everyRequestEnds : Obligations.EveryRequestEnds := by
  unfold Obligations.EveryRequestEnds
  intro s i hp hi hw hr htag
  obtain ⟨p, b, hexec, hfin⟩ := hostRow_ends hp hi htag
  rcases hfin with ⟨u, c, data, hrun, hk, hlen, hdata, -⟩ | ⟨u, -, hab⟩
  case inr => exact absurd hab (not_aborted · hr)
  have hreply : (u.finish c data).ReplyWf := finish_replyWf hlen hdata
  have hhost := hk.host
  refine ⟨u.finish c data, hexec.trans hrun, rfl, rfl, hreply.code rfl, hreply.ok_iff rfl, hreply.failure_bare rfl,
    (hreply.len rfl).1, (hreply.len rfl).2, fun a ha => ?_, by rw [finish_reqSel, hhost], by rw [finish_reqLen, hhost],
    by rw [finish_reqBuf, hhost], hk.params, hk.env, hk.replies, hk.call⟩
  rw [finish_rspBuf, hhost]
  rw [finish_rspLen] at ha
  exact read_writeRange_outside _ _ (.inr (by rw [List.length_cons]; omega))

end Sys2Proof.Proofs
end

section
/-! PROOFS. A whole RUN_ANTICOL is its cascade's single steps (R310, R369; log entries 14 and 17): where a step goes on
the machine's next step is the rest of the cascade, and where it ends the cascade that step ends the request. -/

namespace Sys2Proof.Proofs

open Sys2Proof.Machine Sys2Proof.Laws

/-! ## The machine's runs -/

theorem coreRun_succ {s u : State} (k : Nat) (h : step s = .next u) :
    Host.Core.run Sys2Proof.core (k + 1) s = Host.Core.run Sys2Proof.core k u := by
  have hcore : Sys2Proof.core.step s = .next u := h
  simp only [Host.Core.run, hcore]

/-- The machine comes from s to t in 1 to n steps. -/
def Reaches (n : Nat) (s t : State) : Prop :=
  ∃ k, 1 ≤ k ∧ k ≤ n ∧ Host.Core.run Sys2Proof.core k s = .next t

theorem reaches_one {n : Nat} {s t : State} (hn : 1 ≤ n) (h : step s = .next t) : Reaches n s t :=
  ⟨1, le_rfl, hn, coreRun_succ 0 h⟩

theorem Reaches.step {n : Nat} {s u t : State} (hs : Machine.step s = .next u) (h : Reaches n u t) :
    Reaches (n + 1) s t := by
  obtain ⟨k, -, hk, hrun⟩ := h
  exact ⟨k + 1, by omega, by omega, (coreRun_succ k hs).trans hrun⟩

/-! ## A step and the rest of the cascade -/

/-- What follows a step of the cascade: the rest where it goes on, else its own result (R310). -/
def thenStep (rest : Proc StepResult) : StepResult → Proc StepResult
  | .goOn => rest
  | r => return r

theorem thenStep_ended (rest : Proc StepResult) {r : StepResult} (hr : r ≠ .goOn) : thenStep rest r = pure r := by
  cases r with
  | goOn => exact absurd rfl hr
  | noTag | failed | tag => rfl

/-- The cascade's next step either goes on, the rest then run from where it ends, or it is the request's end. -/
theorem runStep_thenStep (p rest : Proc StepResult) (s : State) :
    (∃ u, p.run s = .ok .goOn u ∧ conclude (runStep (p >>= thenStep rest)) s = conclude (runStep rest) u) ∨
      conclude (runStep (p >>= thenStep rest)) s = conclude (runStep p) s := by
  cases hp : p.run s with
  | error e u =>
    refine .inr ?_
    simp only [conclude, runStep, run_bind, hp]
  | ok r u =>
    by_cases hr : r = .goOn
    · subst hr
      refine .inl ⟨u, rfl, ?_⟩
      simp only [conclude, runStep, run_bind, hp, thenStep]
    · refine .inr ?_
      simp only [conclude, runStep, run_bind, hp, thenStep_ended rest hr, run_pure]

/-- The levels as their steps (R310). -/
theorem cascadeLevels_eq (n : Level) (rest : List Level) :
    cascadeLevels (n :: rest) = stepAnticol n >>= thenStep (stepSelectCand n >>= thenStep (cascadeLevels rest)) :=
  rfl

/-- The cascade as its steps, after its entry (R310, R312). -/
theorem cascade_eq :
    cascade = cascadeEntry >>= fun _ => stepReqa >>= thenStep (cascadeLevels [.l1, .l2, .l3]) :=
  rfl

/-! ## The cascade's positions -/

/-- A request runs with no reset asserted: what every step of the cascade keeps. -/
structure Running (s : State) : Prop where
  params : s.params.wf = true
  busy : s.host.phase = .busy
  reset : s.env.resetLine = []

section
variable {s u t : State} {n : Level}

theorem Running.due (h : Running s) : s.resetDue = false := by
  simp [State.resetDue, h.reset]

theorem Running.kept (h : Running s) (hk : Kept s u) : Running u where
  params := by rw [hk.params]; exact h.params
  busy := by rw [hk.host]; exact h.busy
  reset := by rw [hk.env]; exact h.reset

theorem step_atAnticol (h : Running s) (ha : s.ac.step = .anticol) (hn : s.ac.level = some n) :
    step s = conclude (runStep (stepAnticol n)) s := by
  rw [step_anticol h.params h.due h.busy ha hn]
  cases n <;> rfl

theorem step_atSelect (h : Running s) (ha : s.ac.step = .select) (hn : s.ac.level = some n)
    (hc : s.ac.cand.filled 5 = true) : step s = conclude (runStep (stepSelectCand n)) s := by
  obtain ⟨c0, c1, c2, c3, b, hcand⟩ := filled_five hc
  have hrow : exec (selectInstr c0 c1 c2 c3 b n) s = conclude (runStep (stepSelect n c0 c1 c2 c3 b)) s := by
    cases n <;> rfl
  rw [step_select h.params h.due h.busy ha hn hcand, hrow]
  refine conclude_congr ?_
  simp only [runStep, run_bind, stepSelectCand_ok hcand]

/-- ANTICOL that goes on leaves SELECT's position of its level (R317). -/
theorem anticol_goOn (h : Running s) (hrun : (stepAnticol n).run s = .ok .goOn u) :
    Running u ∧ u.ac.step = .select ∧ u.ac.level = s.ac.level ∧ u.ac.cand.filled 5 = true := by
  obtain ⟨hstep, -, -, -, hlevel, hon⟩ := (stepAnticol_ends n s).ok hrun
  obtain ⟨hselect, hcand⟩ := hon rfl
  exact ⟨h.kept hstep.kept, hselect, hlevel, hcand⟩

/-- SELECT that goes on leaves ANTICOL's position of the next level (R322). -/
theorem select_goOn (h : Running s) (hc : s.ac.cand.filled 5 = true)
    (hrun : (stepSelectCand n).run s = .ok .goOn u) :
    Running u ∧ u.ac.step = .anticol ∧ ∃ m, n.next = some m ∧ u.ac.level = some m := by
  obtain ⟨c0, c1, c2, c3, b, hcand⟩ := filled_five hc
  rw [stepSelectCand_ok hcand] at hrun
  obtain ⟨hstep, -, -, hon, -⟩ := (stepSelect_ends n c0 c1 c2 c3 b s).ok hrun
  obtain ⟨hanticol, m, hnext, hlevel, -⟩ := hon rfl
  exact ⟨h.kept hstep.kept, hanticol, m, hnext, hlevel⟩

/-- From ANTICOL's position the steps reach what the levels left reach, two steps a level at most (R310). -/
theorem levels_reach {levels : List Level} (hlevels : levels = levelsFrom n) (h : Running s)
    (ha : s.ac.step = .anticol) (hn : s.ac.level = some n)
    (ht : conclude (runStep (cascadeLevels levels)) s = .next t) : Reaches (2 * levels.length) s t := by
  induction levels generalizing s n with
  | nil => cases n <;> cases hlevels
  | cons head rest ih =>
    obtain ⟨hhead, hrest⟩ := List.cons.inj (hlevels.trans (levelsFrom_eq n))
    subst head
    rw [cascadeLevels_eq] at ht
    have hlen : 2 * (n :: rest).length = 2 * rest.length + 1 + 1 := by
      rw [List.length_cons]
      ring
    rw [hlen]
    rcases runStep_thenStep (stepAnticol n) _ s with ⟨u, hgo, hcont⟩ | hend
    case inr => exact reaches_one (by omega) (by rw [step_atAnticol h ha hn, ← hend, ht])
    obtain ⟨hu, hselect, hlevel, hcand⟩ := anticol_goOn h hgo
    have hfirst : step s = .next u := by rw [step_atAnticol h ha hn, runStep_goOn hgo]
    rw [hcont] at ht
    rcases runStep_thenStep (stepSelectCand n) _ u with ⟨w, hgo', hcont'⟩ | hend
    case inr =>
      refine Reaches.step hfirst (reaches_one (by omega) ?_)
      rw [step_atSelect hu hselect (hlevel.trans hn) hcand, ← hend, ht]
    obtain ⟨hw, hanticol, m, hnext, hm⟩ := select_goOn hu hcand hgo'
    have hsecond : step u = .next w := by
      rw [step_atSelect hu hselect (hlevel.trans hn) hcand, runStep_goOn hgo']
    rw [hcont'] at ht
    rw [hnext] at hrest
    exact Reaches.step hfirst (Reaches.step hsecond (ih hrest hw hanticol hm ht))

end

/-- Settles O59: REQA's step and then the levels' steps, the request's own run following the same results. -/
theorem runAnticolIsItsSteps : Obligations.RunAnticolIsItsSteps := by
  unfold Obligations.RunAnticolIsItsSteps
  intro s t start hp hr hb hd hcfg hentry h
  obtain rfl : entered s = start := (EStateM.Result.ok.inj (cascadeEntry_ok s ▸ hentry)).2
  have hrunning : Running (entered s) := ⟨hp, hb, hr⟩
  have hrun : exec (.runAnticol []) s = conclude runAnticol s := exec_runAnticol hd hcfg
  have hcascade : conclude (runStep (stepReqa >>= thenStep (cascadeLevels [.l1, .l2, .l3]))) (entered s) = .next t := by
    rw [← h, hrun]
    simp only [conclude, runAnticol, runStep, cascade_eq, run_bind, cascadeEntry_ok]
  have hreqa : step (entered s) = conclude (runStep stepReqa) (entered s) :=
    step_reqa hrunning.due hrunning.busy rfl
  rcases runStep_thenStep stepReqa (cascadeLevels [.l1, .l2, .l3]) (entered s) with ⟨u, hgo, hcont⟩ | hend
  case inr => exact reaches_one (by omega) (by rw [hreqa, ← hend, hcascade])
  obtain ⟨hstep, -, -, -, -, hon⟩ := (stepReqa_ends (entered s)).ok hgo
  obtain ⟨hanticol, hlevel⟩ := hon rfl
  have hfirst : step (entered s) = .next u := by rw [hreqa, runStep_goOn hgo]
  rw [hcont] at hcascade
  exact Reaches.step hfirst (levels_reach (n := .l1) rfl (hrunning.kept hstep.kept) hanticol hlevel hcascade)

end Sys2Proof.Proofs
end
